-- ==== Sys2Proof/Word.lean ====
section
/-! DEFINITION. Word sizes of R5, R21 and R213: what the manual treats as bits. -/

namespace Sys2Proof

/-- A byte (R5). -/
abbrev Byte := BitVec 8
/-- A word of 32 bits (R5): one `v`, `s` or `o` register value. -/
abbrev Word := BitVec 32
/-- A doubleword of 64 bits (R5): a pair, a latch value, a system register. -/
abbrev DWord := BitVec 64
/-- A 72-bit virtual address (R17). -/
abbrev VA := BitVec 72
/-- A 96-bit instruction word (R21). -/
abbrev IWord := BitVec 96
/-- One bit per lane of a group of 64 (R15). -/
abbrev LaneMask := BitVec 64
/-- The 128 bytes of a line, byte 0 in the low bits (R213). -/
abbrev Line := BitVec 1024
/-- One bit per byte of a line (R213). -/
abbrev ByteMask := BitVec 128
/-- An accumulator element (R74). -/
abbrev A40 := BitVec 40

end Sys2Proof
end

