-- ==== Sys2Proof/Config.lean ====
section
/-! DEFINITION. What the PLX-H16-576 fixes (R20, R28, R83, R244, R405), and the free values: constants without a body, so
that nothing can be proved of them beyond what holds for every value. -/

namespace Sys2Proof.Config

/-- Group width `W` (R15, R28). -/
abbrev width : Nat := 64
/-- log2 of the group width (R28). -/
abbrev lsteps : Nat := 6
/-- `sr.cap` (R405): 32 clusters, version 1, 8 accumulator slots, every feature present. -/
def cap : Word := 0x0020183F
/-- Bytes of HBM of an island (R380). -/
def hbmBytes : Nat := 576000000000
/-- First address of the SLICE bytes in the model's memory of an island, above the 48-bit physical addresses (log 8). -/
def sliceBase : Nat := 2 ^ 48
/-- The topology table's address (R416). -/
def topoPa : Nat := 0x861C450000
/-- Cycles one way between a core and a slice, within a half and across halves (R435). -/
def hopNear : Nat := 90
def hopFar : Nat := 110
/-- Latencies of R244. -/
def latOwn : Nat := 20
def latL1 : Nat := 28
def latPeer : Nat := 60
def latHbm : Nat := 700
/-- One-way time of a system-unit request (R401). -/
def sysNear : Nat := 90
def sysFar : Nat := 110
/-- Round trip to a unit of H0 and its request half (R283, R307, R310). -/
def unitNear : Nat := 180
def unitFar : Nat := 220
/-- Version lines a slice holds at most (R265). -/
def versionLines : Nat := 4096

/-- A special function's result beyond what the bounds of R188 fix (R189): by function number and FP32 pattern. -/
opaque special : Nat → Word → Word
/-- Bytes that the buffer of an audited rerun holds: R397 gives no number (log 55). -/
opaque auditBuffer : Nat
/-- A byte no rule gives, by a counter: signatures of attestation reports, a save image's bytes (R390, R424). -/
opaque freeByte : Nat → Byte

end Sys2Proof.Config
end

