-- ==== Sys2Proof/Operand.lean ====
section
/-! DEFINITION. The named alternatives that instruction fields select: operand classes (R23), types (R151, R176),
rounding fields (R176), conditions (R163, R184), memory policies, scopes and orders (R231), operations of the class
chapters. Their codes stand in Decode.lean. -/

namespace Sys2Proof

/-- An operand field (R23). `s` and `o` name a pair through its even register where the type is 64 bits (R25). -/
inductive Opnd where
  | v (k : BitVec 8)
  | vp (k : BitVec 8)
  | s (k : BitVec 8)
  | sr (n : BitVec 8)
  | o (k : BitVec 3)
  | lt
  | imm (i : BitVec 10)
  deriving DecidableEq, Repr, Inhabited

/-- A Z field whose immediate form takes its upper bits from EXT (R29). -/
inductive ZOp where
  | op (o : Opnd)
  | imm (i : BitVec 20)
  deriving DecidableEq, Repr, Inhabited

/-- The guard and the four scheduling hints every group instruction carries (R21, R30, R31). -/
structure Ctl where
  ge : Bool
  gn : Bool
  gr : BitVec 8
  gb : BitVec 5
  stall : BitVec 4
  wait : BitVec 12
  setf : BitVec 4
  yld : Bool
  deriving DecidableEq, Repr, Inhabited

/-- Integer type codes T (R151). -/
inductive IType where
  | i32 | n32 | b32 | i16 | n16 | i8 | n8 | i64 | n64 | b64
  deriving DecidableEq, Repr, Inhabited

/-- Floating type codes F (R176). -/
inductive FType where
  | f32 | f16 | bf16 | f16x2 | bf16x2 | q4 | q6 | q8
  deriving DecidableEq, Repr, Inhabited

/-- The rounding field RMF (R176): `cur` uses the group's FCTL.rm. -/
inductive Rmf where
  | cur | rne | rtz | rup | rdn
  deriving DecidableEq, Repr, Inhabited

/-- Integer conditions (R163). -/
inductive ICond where
  | eq | ne | lt | le | gt | ge
  deriving DecidableEq, Repr, Inhabited

/-- Floating conditions (R184). -/
inductive FCond where
  | eq | ne | lt | le | gt | ge | num | nan
  deriving DecidableEq, Repr, Inhabited

/-- Carry input of `IADDC` (R156). -/
inductive CarryIn where
  | c0 | ci | c1
  deriving DecidableEq, Repr, Inhabited

/-- Merge mode M of `BOOL` (R159). -/
inductive Merge where
  | none | and | or | xor
  deriving DecidableEq, Repr, Inhabited

/-- `LXCH` mode (R195). -/
inductive LxMode where
  | up | dn | xor | idx
  deriving DecidableEq, Repr, Inhabited

/-- Reduction operation of `LSTEP` and `LSCAN` (R196). -/
inductive RedOp where
  | addI32 | addF32 | minI32 | minN32 | maxI32 | maxN32 | minF32 | maxF32 | and | or | xor
  deriving DecidableEq, Repr, Inhabited

/-- `LVOTE` mode (R199). -/
inductive VoteMode where
  | any | all | ballot | ballotHi | count
  deriving DecidableEq, Repr, Inhabited

/-- Policy modifier (R231). -/
inductive Policy where
  | near | far | once
  deriving DecidableEq, Repr, Inhabited

/-- Scope (R231, R245); `none` is SCOPE 0. -/
inductive Scope where
  | none | grp | wg | clu | isl | sys
  deriving DecidableEq, Repr, Inhabited

/-- Order field (R231). -/
inductive MOrd where
  | none | acq | rel | ar
  deriving DecidableEq, Repr, Inhabited

/-- The EXT field of the memory class (R231). -/
structure MemExt where
  win : BitVec 2
  pol : Policy
  scope : Scope
  ord : MOrd
  deriving DecidableEq, Repr, Inhabited

/-- `ATOM` operations (R233). -/
inductive AtomOp where
  | add | minI | minN | maxI | maxN | and | or | xor | swap | inc | fadd | faddF16x2 | faddBf16x2 | fmin | fmax
  deriving DecidableEq, Repr, Inhabited

/-- `RATOM` operations (R354). -/
inductive RatomOp where
  | add | fadd | swap | cas | minI | minN | maxI | maxN
  deriving DecidableEq, Repr, Inhabited

/-- Words per lane of `CPY` (R288). -/
inductive CpySize where
  | w1 | w2 | w4
  deriving DecidableEq, Repr, Inhabited

/-- Class of `MMA` and `MMAS` (R341). -/
inductive MmaClass where
  | bf16 | f16 | q8 | q6 | q4
  deriving DecidableEq, Repr, Inhabited

/-- Format of `MRD` and `MWR` (R329). -/
inductive TileFmt where
  | f32 | bf16 | f16 | q8 | q6 | q4 | i32 | raw
  deriving DecidableEq, Repr, Inhabited

end Sys2Proof
end

