-- ==== Sys2Proof/Syntax.lean ====
section
/-! DEFINITION. The instruction set: one constructor per row of spec/opcode_table.json, in the table's order by family.
Group instructions carry `Ctl`; matrix-stream instructions have none (R319); the rows that are events of the part take
their arguments, the numbers that name the unit and the pending operation, from the state's focus (`Focus.event`). -/

namespace Sys2Proof

/-- Every row of the opcode table: the 195 instructions, then the 111 events. -/
inductive Instr where
  -- control (R113)
  | nop (c : Ctl)
  | bra (c : Ctl) (off : BitVec 20)
  | brx (c : Ctl) (park : Bool) (y : Opnd)
  | call (c : Ctl) (park : Bool) (x : Opnd) (cp : Word)
  | callx (c : Ctl) (park : Bool) (x y : Opnd)
  | ret (c : Ctl) (park : Bool) (y : Opnd)
  | exit (c : Ctl)
  | sleep (c : Ctl) (n : BitVec 20)
  | ckpt (c : Ctl) (i : BitVec 20)
  | trap (c : Ctl) (code : BitVec 20)
  | trapSetv (c : Ctl) (y : Opnd)
  | trapGetv (c : Ctl) (x : Opnd)
  | rtt (c : Ctl)
  | killWg (c : Ctl)
  | killLaunch (c : Ctl)
  | rep (c : Ctl) (sx sy sz : BitVec 2) (n : BitVec 10)
  -- overlay (R136)
  | ovlLd (c : Ctl) (x y : Opnd) (z : ZOp)
  | ovlPin (c : Ctl) (x : Opnd) (z : ZOp)
  | ovlUnpin (c : Ctl) (x y : Opnd)
  | ovlEvict (c : Ctl) (x : Opnd) (z : ZOp)
  | ovlQry (c : Ctl) (x : Opnd) (z : ZOp)
  | ovlAddr (c : Ctl) (x y : Opnd)
  -- integer and address (R154)
  | iadd (c : Ctl) (t : IType) (sat : Bool) (x y : Opnd) (z : ZOp)
  | isub (c : Ctl) (t : IType) (sat : Bool) (x y : Opnd) (z : ZOp)
  | iaddc (c : Ctl) (cin : CarryIn) (x y : Opnd) (z : ZOp)
  | imul (c : Ctl) (t : IType) (sat : Bool) (x y : Opnd) (z : ZOp)
  | imulh (c : Ctl) (t : IType) (x y : Opnd) (z : ZOp)
  | imad (c : Ctl) (t : IType) (sat : Bool) (x y : Opnd) (z : ZOp)
  | imadw (c : Ctl) (t : IType) (sat : Bool) (x y : Opnd) (z : ZOp)
  | imin (c : Ctl) (t : IType) (x y : Opnd) (z : ZOp)
  | imax (c : Ctl) (t : IType) (x y : Opnd) (z : ZOp)
  | iabs (c : Ctl) (t : IType) (sat : Bool) (x y : Opnd)
  | iaddmn (c : Ctl) (t : IType) (sat : Bool) (x y : Opnd) (z : ZOp)
  | iaddmx (c : Ctl) (t : IType) (sat : Bool) (x y : Opnd) (z : ZOp)
  | isad (c : Ctl) (t : IType) (sat : Bool) (x y : Opnd) (z : ZOp)
  | shl (c : Ctl) (wrap : Bool) (x y : Opnd) (z : ZOp)
  | shr (c : Ctl) (wrap : Bool) (x y : Opnd) (z : ZOp)
  | sar (c : Ctl) (wrap : Bool) (x y : Opnd) (z : ZOp)
  | extr (c : Ctl) (sw rot : Bool) (x y : Opnd) (z : ZOp)
  | bool (c : Ctl) (t : IType) (m : Merge) (f : BitVec 4) (x y z : Opnd)
  | popc (c : Ctl) (t : IType) (x y : Opnd)
  | clz (c : Ctl) (t : IType) (x y : Opnd)
  | brev (c : Ctl) (t : IType) (x y : Opnd)
  | bfx (c : Ctl) (t : IType) (x y : Opnd) (z : ZOp)
  | bfi (c : Ctl) (x y : Opnd) (z : ZOp)
  | bsel (c : Ctl) (x y : Opnd) (z : ZOp)
  | sel (c : Ctl) (t : IType) (x y : Opnd) (z : ZOp)
  | iset (c : Ctl) (t : IType) (one : Bool) (cc : ICond) (x y z : Opnd)
  | icmpp (c : Ctl) (t : IType) (b : BitVec 5) (cc : ICond) (x y z : Opnd)
  | mov (c : Ctl) (t : IType) (x y : Opnd)
  | movi (c : Ctl) (t : IType) (x : Opnd) (i : BitVec 20)
  | movw (c : Ctl) (x : Opnd) (k : Word)
  | movs (c : Ctl) (t : IType) (x y : Opnd) (z : ZOp)
  | movsrRd (c : Ctl) (x : Opnd) (n : BitVec 20)
  | movsrWr (c : Ctl) (y : Opnd) (n : BitVec 20)
  | lea (c : Ctl) (t : IType) (k : BitVec 3) (x y z : Opnd)
  | iadd64 (c : Ctl) (t : IType) (sat : Bool) (x y : Opnd) (z : ZOp)
  | isub64 (c : Ctl) (t : IType) (sat : Bool) (x y : Opnd) (z : ZOp)
  | shl64 (c : Ctl) (x y : Opnd) (z : ZOp)
  | shr64 (c : Ctl) (arith : Bool) (x y : Opnd) (z : ZOp)
  | cvti (c : Ctl) (td ts : IType) (sat : Bool) (x y : Opnd)
  -- floating point and special functions (R179)
  | fadd (c : Ctl) (f : FType) (rm : Rmf) (x y : Opnd) (z : ZOp)
  | fsub (c : Ctl) (f : FType) (rm : Rmf) (x y : Opnd) (z : ZOp)
  | fmul (c : Ctl) (f : FType) (rm : Rmf) (x y : Opnd) (z : ZOp)
  | ffma (c : Ctl) (f : FType) (rm : Rmf) (x y : Opnd) (z : ZOp)
  | fmin (c : Ctl) (f : FType) (x y : Opnd) (z : ZOp)
  | fmax (c : Ctl) (f : FType) (x y : Opnd) (z : ZOp)
  | fset (c : Ctl) (f : FType) (one : Bool) (cc : FCond) (x y z : Opnd)
  | fcmpp (c : Ctl) (f : FType) (b : BitVec 5) (cc : FCond) (x y z : Opnd)
  | frnd (c : Ctl) (f : FType) (rm : Rmf) (x y : Opnd)
  | fcvt (c : Ctl) (fd fs : FType) (rm : Rmf) (hi : Bool) (fmd fms : BitVec 3) (x y : Opnd) (z : Option Opnd)
  | fcvti (c : Ctl) (t : IType) (fs : FType) (rm : Rmf) (hi : Bool) (x y : Opnd)
  | icvtf (c : Ctl) (fd : FType) (t : IType) (rm : Rmf) (x y : Opnd)
  | hadd2 (c : Ctl) (f : FType) (rm : Rmf) (x y : Opnd) (z : ZOp)
  | hmul2 (c : Ctl) (f : FType) (rm : Rmf) (x y : Opnd) (z : ZOp)
  | hfma2 (c : Ctl) (f : FType) (rm : Rmf) (x y : Opnd) (z : ZOp)
  | hmin2 (c : Ctl) (f : FType) (x y : Opnd) (z : ZOp)
  | hmax2 (c : Ctl) (f : FType) (x y : Opnd) (z : ZOp)
  | fdot2 (c : Ctl) (f : FType) (rm : Rmf) (x y : Opnd) (z : ZOp)
  | fscale (c : Ctl) (f : FType) (rm : Rmf) (x y : Opnd) (z : ZOp)
  | fclass (c : Ctl) (f : FType) (x y : Opnd)
  | frcp (c : Ctl) (f : FType) (x y : Opnd)
  | frsq (c : Ctl) (f : FType) (x y : Opnd)
  | fsqrt (c : Ctl) (f : FType) (x y : Opnd)
  | fexp2 (c : Ctl) (f : FType) (x y : Opnd)
  | flog2 (c : Ctl) (f : FType) (x y : Opnd)
  | fsin (c : Ctl) (f : FType) (x y : Opnd)
  | fcos (c : Ctl) (f : FType) (x y : Opnd)
  | ftanh (c : Ctl) (f : FType) (x y : Opnd)
  | fmtw (c : Ctl) (k : BitVec 3) (z : ZOp)
  | fmtwRd (c : Ctl) (k : BitVec 3) (x : Opnd)
  | fctlRd (c : Ctl) (x : Opnd)
  | fctlWr (c : Ctl) (z : ZOp)
  | fctlSet (c : Ctl) (z : ZOp)
  | fctlClr (c : Ctl) (z : ZOp)
  -- lane exchange (R195)
  | lxch (c : Ctl) (m : LxMode) (w zf wide : Bool) (x y : Opnd) (z : ZOp)
  | lstep (c : Ctl) (op : RedOp) (zf : Bool) (x y : Opnd) (z : ZOp)
  | lvote (c : Ctl) (m : VoteMode) (b : BitVec 5) (x y : Opnd)
  | lmatch (c : Ctl) (wide hi : Bool) (x y : Opnd)
  | lscan (c : Ctl) (op : RedOp) (exc : Bool) (x y : Opnd)
  -- memory access (R232)
  | ld (c : Ctl) (t : IType) (e : MemExt) (x a : Opnd) (off : BitVec 10)
  | st (c : Ctl) (t : IType) (e : MemExt) (x a : Opnd) (off : BitVec 10)
  | ldu (c : Ctl) (t : IType) (e : MemExt) (x a : Opnd) (off : BitVec 10)
  | atom (c : Ctl) (op : AtomOp) (wide : Bool) (e : MemExt) (x a : Opnd) (off : BitVec 10)
  | cas (c : Ctl) (wide : Bool) (e : MemExt) (x a : Opnd) (off : BitVec 10)
  | fence (c : Ctl) (scope : Scope) (ord : MOrd)
  | markEmpty (c : Ctl) (win : BitVec 2) (pol : Policy) (x a : Opnd) (off : BitVec 10)
  | markFull (c : Ctl) (win : BitVec 2) (pol : Policy) (x a : Opnd) (off : BitVec 10)
  | waita (c : Ctl) (t : IType) (ne : Bool) (win : BitVec 2) (pol : Policy) (x a : Opnd) (off : BitVec 10)
  | pref (c : Ctl) (win : BitVec 2) (pol : Policy) (a : Opnd) (off : BitVec 10)
  | flush (c : Ctl) (win : BitVec 2) (a : Opnd) (off : BitVec 10)
  | flushAll (c : Ctl)
  | invl (c : Ctl) (win : BitVec 2) (a : Opnd) (off : BitVec 10)
  | invlAll (c : Ctl)
  -- hypotheses (R278)
  | hypOpen (c : Ctl) (x y : Opnd)
  | hypEnter (c : Ctl) (x y : Opnd)
  | hypLeave (c : Ctl) (x : Opnd)
  | hypResolveConfirm (c : Ctl) (x y : Opnd)
  | hypResolveRefute (c : Ctl) (x y : Opnd)
  | hypQry (c : Ctl) (x y : Opnd)
  | hypQryCur (c : Ctl) (x : Opnd)
  -- copy and queues (R288, R296)
  | cpy (c : Ctl) (n : CpySize) (fill : Bool) (wd ws : BitVec 2) (scope : Scope) (x y : Opnd)
  | cpyb (c : Ctl) (x y : Opnd)
  | qfence (c : Ctl) (m : BitVec 20)
  | qstat (c : Ctl) (x : Opnd) (q : BitVec 20)
  -- synchronisation (R297)
  | barInit (c : Ctl) (x : Opnd) (k : BitVec 10) (z : ZOp)
  | barArv (c : Ctl) (x : Option Opnd) (k : BitVec 10) (z : ZOp)
  | barWait (c : Ctl) (k : BitVec 10) (z : ZOp)
  | barArw (c : Ctl) (k : BitVec 10) (z : ZOp)
  | ringInit (c : Ctl) (x : Opnd) (k : BitVec 10) (z : ZOp)
  | ringPushRsv (c : Ctl) (x : Opnd) (k : BitVec 10)
  | ringPushCmt (c : Ctl) (x : Opnd) (k : BitVec 10) (z : ZOp)
  | ringPopTake (c : Ctl) (x : Opnd) (k : BitVec 10)
  | ringPopFree (c : Ctl) (x : Opnd) (k : BitVec 10) (z : ZOp)
  | ntfy (c : Ctl) (sys : Bool) (y : Opnd) (z : ZOp)
  | ntfySet (c : Ctl) (sys : Bool) (y : Opnd) (z : ZOp)
  | nwait (c : Ctl) (sys : Bool) (x y : Opnd) (z : ZOp)
  | pbarInit (c : Ctl) (x : Opnd) (k : BitVec 10) (z : ZOp)
  | pbarArv (c : Ctl) (x : Opnd) (k : BitVec 10)
  | pbarWait (c : Ctl) (k : BitVec 10) (z : ZOp)
  | pbarArw (c : Ctl) (x : Opnd) (k : BitVec 10)
  -- matrix, group-issued (R341)
  | mstart (c : Ctl) (x : Opnd) (cp : Word)
  | mstartV (c : Ctl) (x y : Opnd)
  | mstop (c : Ctl) (x : Opnd)
  | mqry (c : Ctl) (x : Opnd)
  | mqryClr (c : Ctl) (x : Opnd)
  -- matrix, stream only (R341)
  | msetLo (x : BitVec 10) (k : Word)
  | msetHi (x : BitVec 10) (k : Word)
  | msetAdd (x : BitVec 10) (k : Word)
  | msetU (x g : BitVec 10) (z : Opnd)
  | msetIx (x : BitVec 10) (y : BitVec 4) (n : BitVec 5) (z : BitVec 10)
  | mfmt (k : BitVec 10) (c : Word)
  | msclA (g : BitVec 10) (y : Opnd) (sel : BitVec 10)
  | msclB (g : BitVec 10) (y : Opnd) (sel : BitVec 10)
  | msclAOff
  | msclBOff
  | mma (cls : MmaClass) (i40 sc zf : Bool) (sl : BitVec 10) (fa fb : BitVec 3) (nb : BitVec 10)
  | mmas (cls : MmaClass) (i40 sc zf : Bool) (sl : BitVec 10) (fa fb : BitVec 3) (nb : BitVec 10)
  | mzero (sl : BitVec 10)
  | mrd (fmt : TileFmt) (scope : Scope) (sl : BitVec 10) (fm : BitVec 10)
  | mwr (fmt : TileFmt) (kind : Bool) (sl : BitVec 10) (fm : BitVec 10)
  | mbarArv (k : BitVec 10) (n : BitVec 20)
  | mbarWait (k y : BitVec 10)
  | mbarArw (k : BitVec 10) (n : BitVec 20)
  | mbarRsv (k y : BitVec 10)
  | mbarCmt (k y : BitVec 10)
  | mbarTake (k y : BitVec 10)
  | mbarFree (k y : BitVec 10)
  | mckpt (i : BitVec 20)
  | mjmp (x : BitVec 10) (off : BitVec 20)
  | mjmpAl (off : BitVec 20)
  | mend
  -- inter-island (R349)
  | put (c : Ctl) (x y : Opnd)
  | get (c : Ctl) (x y : Opnd)
  | ratom (c : Ctl) (op : RatomOp) (wide : Bool) (win : BitVec 2) (ord : MOrd) (x a z : Opnd)
  | rntfy (c : Ctl) (x y : Opnd) (z : ZOp)
  | rfence (c : Ctl)
  | coll (c : Ctl) (x y : Opnd)
  | route (c : Ctl) (x : Opnd) (t : BitVec 10) (k : BitVec 10)
  | topq (c : Ctl) (x y : Opnd)
  -- system (R406)
  | sysrd (c : Ctl) (x : Opnd) (n : BitVec 20)
  | sysrdSel (c : Ctl) (x y : Opnd) (n : BitVec 20)
  | syswr (c : Ctl) (y : Opnd) (n : BitVec 20)
  | syswrSel (c : Ctl) (x y : Opnd) (n : BitVec 20)
  | tlbiAll (c : Ctl)
  | tlbiCtx (c : Ctl) (y : Opnd)
  | tlbiPage (c : Ctl) (win : BitVec 2) (y z : Opnd)
  | ctxsv (c : Ctl) (x y : Opnd)
  | ctxld (c : Ctl) (x y : Opnd)
  | resumeReplay (c : Ctl) (x y : Opnd)
  | resumeSkip (c : Ctl) (x y : Opnd)
  | resumeTrap (c : Ctl) (x y : Opnd)
  | snap (c : Ctl) (x : Opnd) (t : BitVec 20)
  | haltIsl (c : Ctl)
  | haltPnl (c : Ctl)
  -- events inside a core; after each event stand the arguments `Focus.event` carries for it
  | sleepExpiry -- isl, core, gid
  | urgencyEvaluation -- isl, core
  | groupSlotRelease -- isl, core, gid
  | overlayDirectoryArrival -- isl, core, op
  | overlayLoadComplete -- isl, core, op
  | waitaMonitorFire -- isl, core, op
  | waitaPoll -- isl, core, op
  | releaseWaitEnd -- isl, core, op
  | acquireWaitEnd -- isl, core, op
  | writeAcknowledgement -- isl, core, op, sub, req
  | loadValueReturn -- isl, core, op, sub
  -- events of the coherence machinery
  | lNotice -- isl, cluster, line
  | homeRead -- isl, req
  | homeReadExclusive -- isl, req
  | homeUpgrade -- isl, req
  | homeWriteBack -- isl, req
  | homeMerge -- isl, req
  | forwardedRead -- isl, req
  | noCopyAnswer -- isl, req
  | invalidationArrival -- isl, inv
  | invalidationApply -- isl, core, inv
  | invalidationAckArrival -- isl, inv
  | grantArrival -- isl, req
  | l1Eviction -- isl, core, line
  | poisonConsumption -- isl, core, source, slot, launch, code pointer, lanes, address
  | halfReset -- isl, half
  | flitUncorrectable -- isl, region, header, link
  -- events of the hypothesis machinery
  | resolveArrival -- isl, op
  | confirmCommitPoint -- isl
  | resolveCompletion -- isl
  | taggedWrite -- isl, req
  | taggedWriteRefusal -- isl, req
  | hypOrphanTrap -- isl, core, gid
  -- events of the engines and synchronisation units
  | copyLineTransfer -- isl, core: the engine's turn; op, transfer: its bytes arrive; 1: its write arrives
  | cpyCompletion -- isl, core, op
  | cpyEngineFault -- isl, core, op, code, write, lanes, address
  | cpybDestinationDone -- isl, core, op, dest
  | barrierArrival -- isl, core, place, bar, count; copy operation, its core, destination
  | syncUnitOperation -- isl, op
  | notifyUnitRequest -- isl, op
  | nwaitResend -- isl, op
  | panelBarrierRootArrival -- isl, bar, mask
  | panelBarrierRelease -- bar
  | mstartCheck -- isl, core, place, op
  | matrixOperationBegin -- isl, core
  | matrixOperationComplete -- isl, core
  | readoutHandoff -- isl, core, place
  | mrdComplete -- isl, core, place, op
  | contextFault -- isl, core, place, code, information word, address, code pointer, write, on the array
  -- events of the fabric
  | fabricInject -- isl, op; attempt where its next beats leave
  | fabricPacketArrival -- isl, pkt
  | fabricAcknowledgement -- isl, pkt
  | collectiveCompletion -- isl, coll, offset in the result
  | oedCombine -- isl, coll; the island whose value arrives
  | remoteTimeout -- isl, op, attempt; isl, coll, port, 0 for a closed port of a tree
  | remotePerm -- isl, op, attempt, key, address
  | islandRemoval -- isl, new state
  | portChangeCommand -- isl, port, action, tag
  | portStepComplete -- isl, port, ok
  -- events of saving, faults, translation, rollback and audit
  | checkpointSave -- isl, cl
  | forcedSave -- isl, cl
  | snapshotLatch -- tag
  | faultRecordPost -- isl
  | faultQueueRoom -- isl
  | tableWalk -- isl, walk
  | snapshotPageCopy -- isl, walk
  | launchRollback -- launch
  | auditRerunEnd -- isl, audit
  | auditTimeout -- isl, audit
  -- events of launches
  | queueTailAdvance -- isl, host, q, launch, tail
  | launchDispatch -- isl, host, q
  | launchStart -- launch
  | clusterLaunchHandout -- isl, launch
  | workgroupStart -- isl, cl
  | workgroupEnd -- isl, core, place
  | clusterLaunchRetire -- isl, cl
  | launchComplete -- launch
  | queueRestart -- isl, host, q
  | partWrite -- isl, core, value
  -- events of the host, formation and power
  | sysregHostWrite -- isl, offset, value
  | powerGood
  | formationDeadline -- isl, half, step
  | linkTraining -- isl, port, pass
  | floodRecord -- isl, half, fromIsl, fromHalf
  | election
  | readyBitSet -- isl, bit
  | heartbeat -- isl
  | heartbeatLoss -- isl
  | run -- isl
  | panelReset -- isl
  | rejoin -- isl, site
  | attestationRequest -- isl
  | dump -- isl
  | load -- isl
  | cxlMemRead -- isl, addr, len
  | cxlMemWrite -- isl, addr, data
  | laneTest -- isl, core, bad
  | clockGate -- isl, core, unit
  | sliceRetentionSleep -- isl, slice
  | sliceWake -- isl, slice
  | hbmSelfRefresh -- isl, stack
  | governorWindow -- isl
  | classDrop -- isl, core
  | droopAlarmRaise -- isl
  | droopAlarmClear -- isl
  | hypothesisControllerRequest -- isl, op
  | systemUnitRequest -- isl, op
  | panelBarrierAgentRequest -- isl, op
  | auditRerunStart -- isl, audit
  | cxlLinkTraining -- isl
  | dumpMoveComplete -- isl, status, moved
  deriving DecidableEq, Repr

end Sys2Proof
end

