-- ==== Sys2Proof/Machine/Legal.lean ====
section
/-! DEFINITION. The forms the opcode tables allow (R22-R31, R113, R136, R154, R179, R195, R232, R278, R288, R296, R297,
R319, R341, R349, R406): which operand classes, indices and immediates each instruction accepts. A word whose
instruction fails `legal` takes ILLEGAL. Checks that need the state (register counts, format registers, the overlay's
length) stand with the meanings. -/

namespace Sys2Proof.Machine

/-- The index limits of R24 that need no state: no `v255`, even pairs up to 252, `s0`-`s63`, assigned special registers. -/
def opndOk : Opnd → Bool
  | .v k => k ≠ 255#8
  | .vp k => k.toNat % 2 = 0 ∧ k.toNat ≤ 252
  | .s k => k.toNat ≤ 63
  | .sr n => n.toNat ≤ 0x0D
  | .o _ | .lt | .imm _ => true

/-- A single destination `v`, `s` or `o` (R26). -/
def dst32 (o : Opnd) : Bool :=
  opndOk o && match o with
  | .v _ | .s _ | .o _ => true
  | .vp _ | .sr _ | .lt | .imm _ => false

/-- A 64-bit destination: a `v` pair, or an even `s` or `o` (R25, R26). -/
def dst64 (o : Opnd) : Bool :=
  opndOk o && match o with
  | .vp _ => true
  | .s k => k.toNat % 2 = 0
  | .o k => k.toNat % 2 = 0
  | .v _ | .sr _ | .lt | .imm _ => false

/-- A 32-bit source of any class (R152). -/
def src32 (o : Opnd) : Bool :=
  opndOk o && match o with
  | .vp _ => false
  | .v _ | .s _ | .sr _ | .o _ | .lt | .imm _ => true

/-- A 64-bit source: a pair, an even 64-bit special register, the latch or an immediate (R152). -/
def src64 (o : Opnd) : Bool :=
  opndOk o && match o with
  | .vp _ | .lt | .imm _ => true
  | .s k => k.toNat % 2 = 0
  | .o k => k.toNat % 2 = 0
  | .sr n => n = 4#8 ∨ n = 6#8
  | .v _ => false

/-- A destination of the width `wide` selects. -/
def dstW (wide : Bool) (o : Opnd) : Bool := if wide then dst64 o else dst32 o
/-- A source of the width `wide` selects. -/
def srcW (wide : Bool) (o : Opnd) : Bool := if wide then src64 o else src32 o

/-- The classes `v`, `s`, `o` read as a source: `BRX`, `CALLX`, `RET`, `OVL` sources (R113, R136). -/
def vso (o : Opnd) : Bool := dst32 o

/-- Per-lane classes only (`v`, `o`, their pairs). -/
def perLane : Opnd → Bool
  | .v _ | .vp _ | .o _ => true
  | .s _ | .sr _ | .lt | .imm _ => false

/-- The classes "p" of R195: `v`, `o` and `lt`. -/
def perLaneOrLt : Opnd → Bool
  | .lt => true
  | o => perLane o

/-- The uniform class. -/
def isS : Opnd → Bool
  | .s _ => true
  | .v _ | .vp _ | .o _ | .sr _ | .lt | .imm _ => false

/-- An address pair "a" (R232): a `v`, `s` or `o` pair. -/
def addrPair (o : Opnd) : Bool := dst64 o

/-- A uniform register whose index is a multiple of `n` (R290, R349). -/
def sAligned (n : Nat) : Opnd → Bool
  | .s k => k.toNat ≤ 63 ∧ k.toNat % n = 0
  | .v _ | .vp _ | .o _ | .sr _ | .lt | .imm _ => false

/-- A 32-bit Z field whose immediate is 20 bits. The immediate class of the plain operand is the 20-bit form. -/
def z32 : ZOp → Bool
  | .imm _ => true
  | .op (.imm _) => false
  | .op o => src32 o

/-- A 64-bit Z field whose immediate is 20 bits. -/
def z64 : ZOp → Bool
  | .imm _ => true
  | .op (.imm _) => false
  | .op o => src64 o

/-- A Z field of the width `wide` selects. -/
def zW (wide : Bool) (z : ZOp) : Bool := if wide then z64 z else z32 z

/-- A Z field that accepts `v`, `s`, `o` or an immediate (R136). -/
def zvso : ZOp → Bool
  | .imm _ => true
  | .op o => vso o

/-- A 20-bit immediate, when present, lies in `0..hi`. -/
def zImmIn (hi : Nat) : ZOp → Bool
  | .imm i => i.toNat ≤ hi
  | .op _ => true

/-- A 20-bit immediate, when present, is not negative (R297). -/
def zImmNonneg (z : ZOp) : Bool := zImmIn 524287 z

/-- The guard and hint fields (R30, R31): unused guard fields are zero and SETF is not 12-14. -/
def ctlOk (c : Ctl) : Bool :=
  (if c.ge then c.gr ≠ 255#8 else !c.gn && c.gr = 0#8 && c.gb = 0#5) && !(12 ≤ c.setf.toNat && c.setf.toNat ≤ 14)

/-- Types of 64 bits (R151). -/
def wideT : IType → Bool
  | .i64 | .n64 | .b64 => true
  | .i32 | .n32 | .b32 | .i16 | .n16 | .i8 | .n8 => false

/-- T in 0,1,3,4,5,6 (R154). -/
def tArith : IType → Bool
  | .i32 | .n32 | .i16 | .n16 | .i8 | .n8 => true
  | .b32 | .i64 | .n64 | .b64 => false

/-- T in 0,1,3-8 (R154, R179). -/
def tCmp : IType → Bool
  | .i32 | .n32 | .i16 | .n16 | .i8 | .n8 | .i64 | .n64 => true
  | .b32 | .b64 => false

/-- T in 2, 9. -/
def tBits : IType → Bool
  | .b32 | .b64 => true
  | .i32 | .n32 | .i16 | .n16 | .i8 | .n8 | .i64 | .n64 => false

/-- T in 0, 1. -/
def tWord : IType → Bool
  | .i32 | .n32 => true
  | .b32 | .i16 | .n16 | .i8 | .n8 | .i64 | .n64 | .b64 => false

/-- F in 0, 1, 2. -/
def fScalar : FType → Bool
  | .f32 | .f16 | .bf16 => true
  | .f16x2 | .bf16x2 | .q4 | .q6 | .q8 => false

/-- F in 3, 4. -/
def fPacked : FType → Bool
  | .f16x2 | .bf16x2 => true
  | .f32 | .f16 | .bf16 | .q4 | .q6 | .q8 => false

/-- F in 5, 6, 7. -/
def fNarrow : FType → Bool
  | .q4 | .q6 | .q8 => true
  | .f32 | .f16 | .bf16 | .f16x2 | .bf16x2 => false

/-- Bits of one element (R176). -/
def fWidth : FType → Nat
  | .f32 => 32
  | .f16 | .bf16 | .f16x2 | .bf16x2 => 16
  | .q4 => 4
  | .q6 => 6
  | .q8 => 8

/-- A floating operand with a 10-bit immediate (R178): a narrow code leaves its upper bits zero. -/
def fOp (f : FType) (o : Opnd) : Bool :=
  src32 o && match o with
  | .imm i => !fNarrow f || i.toNat < 2 ^ fWidth f
  | .v _ | .vp _ | .s _ | .sr _ | .o _ | .lt => true

/-- A floating Z operand with a 20-bit immediate (R178): a 16-bit pattern leaves bits 19:16 zero. -/
def fZ (f : FType) (z : ZOp) : Bool :=
  z32 z && match z with
  | .imm i => f = .f32 || i.toNat < 65536
  | .op _ => true

/-- The system registers of R402. -/
def sysRegListed (n : Nat) : Bool :=
  n ≤ 0x005 || (0x010 ≤ n && n ≤ 0x016) || (0x018 ≤ n && n ≤ 0x01B) || (0x020 ≤ n && n ≤ 0x022) ||
    (0x028 ≤ n && n ≤ 0x02B) || n = 0x030 || n = 0x031

/-- The order and scope of R232: an order needs a scope. -/
def ordScope (s : Scope) (o : MOrd) : Bool := o = .none || s ≠ .none

/-- The EXT field of a load. -/
def extLd (e : MemExt) : Bool := (e.ord = .none || e.ord = .acq) && ordScope e.scope e.ord
/-- The EXT field of a store. -/
def extSt (e : MemExt) : Bool := (e.ord = .none || e.ord = .rel) && ordScope e.scope e.ord

/-- `CAS` registers (R232): a pair for 32 bits, four registers from a multiple of 4 for 64 bits. -/
def casX (wide : Bool) (o : Opnd) : Bool :=
  opndOk o && match o with
  | .vp k => !wide || k.toNat % 4 = 0
  | .o k => !wide && k.toNat % 2 = 0
  | .v _ | .s _ | .sr _ | .lt | .imm _ => false

/-- `FCVT` combinations (R186). -/
def fcvtOk (fd fs : FType) (rm : Rmf) (hi : Bool) (fmd fms : BitVec 3) (y : Opnd) (z : Option Opnd) : Bool :=
  (if fPacked fd then fs = .f32 && z.any (fOp .f32)
   else !fPacked fs && z.isNone) &&
  (!fNarrow fd || rm = .cur) && (!hi || fs = .f16 || fs = .bf16) &&
  (fNarrow fd || fmd = 0#3) && (fNarrow fs || fms = 0#3) && fOp fs y

/-- A matrix slot, format or register number within its range. -/
def immIn (hi : Nat) (i : BitVec 10) : Bool := i.toNat ≤ hi

/-- Classes of `MMA` that name format registers (R327). -/
def mmaNarrow : MmaClass → Bool
  | .q8 | .q6 | .q4 => true
  | .bf16 | .f16 => false

/-- Tile formats that name a format register (R329). -/
def tileNarrow : TileFmt → Bool
  | .q8 | .q6 | .q4 => true
  | .f32 | .bf16 | .f16 | .i32 | .raw => false

/-- The fields of `MMA` and `MMAS` (R341): Y is zero for the classes without formats. -/
def mmaOk (cls : MmaClass) (s : BitVec 10) (fa fb : BitVec 3) (nb : BitVec 10) : Bool :=
  immIn 7 s && (mmaNarrow cls || (fa = 0#3 && fb = 0#3)) && (1 ≤ nb.toNat && nb.toNat ≤ 256)

/-- The format field of `MRD` and `MWR` (R341). -/
def tileOk (fmt : TileFmt) (s fm : BitVec 10) : Bool :=
  immIn 7 s && (if tileNarrow fmt then immIn 7 fm else fm = 0#10)

/-- The control instructions (R113, R118-R120, R32). -/
def legalControl : Instr → Bool
  | .brx c _ y | .ret c _ y => ctlOk c && vso y
  | .call c _ x _ => ctlOk c && (match x with | .v k => k ≠ 255#8 | _ => false)
  | .callx c _ x y => ctlOk c && (match x with | .v k => k ≠ 255#8 | _ => false) && vso y
  | .sleep c n => ctlOk c && 1 ≤ n.toNat && n.toNat ≤ 524287
  | .ckpt c i => ctlOk c && !c.ge && i.toNat ≤ 65535
  | .trap c code => ctlOk c && code.toNat ≤ 1023
  | .trapSetv c y => ctlOk c && vso y
  | .trapGetv c x => ctlOk c && dst32 x
  | .rep c _ _ _ n => ctlOk c && !c.ge && c.setf = 15#4 && !c.yld && 1 ≤ n.toNat && n.toNat ≤ 64
  | .nop c | .bra c _ | .exit c | .rtt c | .killWg c | .killLaunch c => ctlOk c
  | _ => false

/-- The overlay instructions (R136). -/
def legalOverlay : Instr → Bool
  | .ovlLd c x y z => ctlOk c && dst32 x && (vso y || (match y with | .imm _ => true | _ => false)) && zvso z
  | .ovlPin c x z | .ovlEvict c x z | .ovlQry c x z => ctlOk c && dst32 x && zvso z
  | .ovlUnpin c x y => ctlOk c && dst32 x && vso y
  | .ovlAddr c x y => ctlOk c && dst64 x && vso y
  | _ => false

/-- The integer and address instructions (R154). -/
def legalInteger : Instr → Bool
  | .iadd c t _ x y z | .isub c t _ x y z | .imul c t _ x y z | .imad c t _ x y z | .iaddmn c t _ x y z
  | .iaddmx c t _ x y z | .isad c t _ x y z | .imin c t x y z | .imax c t x y z =>
    ctlOk c && tArith t && dst32 x && src32 y && z32 z
  | .iaddc c _ x y z => ctlOk c && dst32 x && src32 y && z32 z
  | .imulh c t x y z => ctlOk c && tWord t && dst32 x && src32 y && z32 z
  | .imadw c t _ x y z => ctlOk c && tWord t && dst64 x && src32 y && z32 z
  | .iabs c t _ x y => ctlOk c && (t = .i32 || t = .i16 || t = .i8) && dst32 x && src32 y
  | .shl c _ x y z | .shr c _ x y z | .sar c _ x y z | .bfi c x y z | .bsel c x y z | .extr c _ _ x y z =>
    ctlOk c && dst32 x && src32 y && z32 z
  | .bool c t _ _ x y z => ctlOk c && tBits t && dstW (wideT t) x && srcW (wideT t) y && srcW (wideT t) z
  | .popc c t x y | .clz c t x y => ctlOk c && tBits t && dst32 x && srcW (wideT t) y
  | .brev c t x y | .mov c t x y => ctlOk c && tBits t && dstW (wideT t) x && srcW (wideT t) y
  | .bfx c t x y z => ctlOk c && tWord t && dst32 x && src32 y && z32 z
  | .sel c t x y z => ctlOk c && tBits t && dstW (wideT t) x && perLane x && srcW (wideT t) y && zW (wideT t) z
  | .iset c t _ _ x y z => ctlOk c && tCmp t && dst32 x && srcW (wideT t) y && srcW (wideT t) z
  | .icmpp c t _ _ x y z => ctlOk c && tCmp t && dst32 x && srcW (wideT t) y && srcW (wideT t) z
  | .movi c t x _ => ctlOk c && tBits t && dstW (wideT t) x
  | .movw c x _ => ctlOk c && dst32 x
  | .movs c t x y z => ctlOk c && tBits t && dstW (wideT t) x && isS x && srcW (wideT t) y && perLaneOrLt y && z32 z
  | .movsrRd c x n => ctlOk c && dst32 x && n.toNat ≤ 4
  | .movsrWr c y n => ctlOk c && src32 y && n.toNat ≤ 3
  | .lea c t _ x y z => ctlOk c && tWord t && dst64 x && src64 y && src32 z
  | .iadd64 c t _ x y z | .isub64 c t _ x y z => ctlOk c && (t = .i64 || t = .n64) && dst64 x && src64 y && z64 z
  | .shl64 c x y z | .shr64 c _ x y z => ctlOk c && dst64 x && src64 y && z32 z
  | .cvti c td ts _ x y => ctlOk c && tCmp td && tCmp ts && dstW (wideT td) x && srcW (wideT ts) y
  | _ => false

/-- The floating-point and special-function instructions (R178, R179, R186, R187). -/
def legalFloat : Instr → Bool
  | .fadd c f _ x y z | .fsub c f _ x y z | .fmul c f _ x y z | .ffma c f _ x y z | .fmin c f x y z | .fmax c f x y z =>
    ctlOk c && fScalar f && dst32 x && fOp f y && fZ f z
  | .fset c f _ _ x y z | .fcmpp c f _ _ x y z => ctlOk c && fScalar f && dst32 x && fOp f y && fOp f z
  | .frnd c f _ x y | .fclass c f x y | .frcp c f x y | .frsq c f x y | .fsqrt c f x y | .fexp2 c f x y
  | .flog2 c f x y | .fsin c f x y | .fcos c f x y | .ftanh c f x y => ctlOk c && fScalar f && dst32 x && fOp f y
  | .fcvt c fd fs rm hi fmd fms x y z => ctlOk c && dst32 x && fcvtOk fd fs rm hi fmd fms y z
  | .fcvti c t fs _ hi x y =>
    ctlOk c && tCmp t && fScalar fs && (!hi || fs = .f16 || fs = .bf16) && dstW (wideT t) x && fOp fs y
  | .icvtf c fd t _ x y => ctlOk c && tCmp t && fScalar fd && dst32 x && srcW (wideT t) y
  | .hadd2 c f _ x y z | .hmul2 c f _ x y z | .hfma2 c f _ x y z | .fdot2 c f _ x y z | .hmin2 c f x y z
  | .hmax2 c f x y z => ctlOk c && fPacked f && dst32 x && fOp f y && fZ f z
  | .fscale c f _ x y z => ctlOk c && fScalar f && dst32 x && fOp f y && z32 z
  | .fmtw c _ z | .fctlWr c z | .fctlSet c z | .fctlClr c z => ctlOk c && z32 z
  | .fmtwRd c _ x | .fctlRd c x => ctlOk c && dst32 x
  | _ => false

/-- The lane-exchange instructions (R195). -/
def legalLane : Instr → Bool
  | .lxch c m w _ wide x y z =>
    ctlOk c && dstW wide x && perLane x && srcW wide y && perLaneOrLt y && z32 z &&
      (!w || (m ≠ .idx && match z with | .imm i => i.toNat ≤ 7 | .op _ => false))
  | .lstep c _ _ x y z =>
    ctlOk c && dst32 x && perLane x && src32 y && perLaneOrLt y &&
      (match z with | .imm i => i.toNat ≤ 7 | .op o => opndOk o && isS o)
  | .lvote c m _ x y =>
    ctlOk c && dstW (m = .ballot || m = .ballotHi) x && src32 y && perLaneOrLt y
  | .lmatch c wide _ x y => ctlOk c && dst64 x && perLane x && srcW wide y && perLaneOrLt y
  | .lscan c _ _ x y => ctlOk c && dst32 x && perLane x && src32 y && perLaneOrLt y
  | _ => false

/-- The source of a store (R232): `v`, `s`, `o`, `lt` or an immediate; a pair for 64-bit types. -/
def stSrc (wide : Bool) (o : Opnd) : Bool :=
  srcW wide o && match o with
  | .sr _ => false
  | .v _ | .vp _ | .s _ | .o _ | .lt | .imm _ => true

/-- The memory-class instructions (R231-R233). -/
def legalMemory : Instr → Bool
  | .ld c t e x a _ => ctlOk c && dstW (wideT t) x && addrPair a && extLd e
  | .st c t e x a _ => ctlOk c && stSrc (wideT t) x && addrPair a && extSt e
  | .ldu c t e x a _ => ctlOk c && dstW (wideT t) x && isS x && addrPair a && extLd e
  | .atom c op wide e x a _ =>
    ctlOk c && dstW wide x && perLane x && addrPair a && e.scope ≠ .none &&
      (!wide || match op with | .fadd | .faddF16x2 | .faddBf16x2 | .fmin | .fmax => false | _ => true)
  | .cas c wide e x a _ => ctlOk c && casX wide x && addrPair a && e.scope ≠ .none
  | .fence c scope ord => ctlOk c && scope ≠ .none && ord ≠ .none
  | .markEmpty c _ _ x a _ | .markFull c _ _ x a _ =>
    ctlOk c && (dst32 x || (match x with | .imm _ => true | _ => false)) && addrPair a
  | .waita c t _ _ pol x a _ =>
    ctlOk c && (t = .i32 || t = .n32 || t = .b32) && pol ≠ .once && dst32 x && perLane x && addrPair a
  | .pref c _ _ a _ | .flush c _ a _ | .invl c _ a _ => ctlOk c && addrPair a
  | .flushAll c | .invlAll c => ctlOk c
  | _ => false

/-- The hypothesis instructions (R278). -/
def legalHyp : Instr → Bool
  | .hypOpen c x y | .hypEnter c x y | .hypResolveConfirm c x y | .hypResolveRefute c x y =>
    ctlOk c && dst32 x && src32 y
  | .hypLeave c x => ctlOk c && dst32 x
  | .hypQry c x y => ctlOk c && dst64 x && src32 y
  | .hypQryCur c x => ctlOk c && dst64 x
  | _ => false

/-- The copy, queue and synchronisation instructions (R288, R296, R297). -/
def legalSync : Instr → Bool
  | .cpy c _ _ _ _ scope x y => ctlOk c && scope ≠ .none && addrPair x && addrPair y
  | .cpyb c x y => ctlOk c && dst32 x && sAligned 8 y
  | .qfence c m => ctlOk c && 1 ≤ m.toNat && m.toNat ≤ 7
  | .qstat c x q => ctlOk c && dst32 x && q.toNat ≤ 2
  | .barInit c x k z => ctlOk c && dst32 x && immIn 15 k && z32 z && zImmIn 4095 z
  | .barArv c x k z => ctlOk c && x.all dst32 && immIn 15 k && z32 z && zImmIn 4095 z
  | .barWait c k z => ctlOk c && immIn 15 k && z32 z && zImmNonneg z
  | .barArw c k z => ctlOk c && immIn 15 k && z32 z && zImmIn 4095 z
  | .ringInit c x k z => ctlOk c && dst32 x && immIn 7 k && z32 z && zImmIn 4095 z
  | .ringPushRsv c x k | .ringPopTake c x k => ctlOk c && dst32 x && immIn 7 k
  | .ringPushCmt c x k z | .ringPopFree c x k z => ctlOk c && dst32 x && immIn 7 k && z32 z && zImmNonneg z
  | .ntfy c _ y z => ctlOk c && src32 y && z32 z && zImmNonneg z
  | .ntfySet c _ y z => ctlOk c && src32 y && z64 z && zImmNonneg z
  | .nwait c _ x y z => ctlOk c && dst64 x && src32 y && z64 z && zImmNonneg z
  | .pbarInit c x k z => ctlOk c && dst32 x && immIn 63 k && z32 z && zImmNonneg z
  | .pbarArv c x k | .pbarArw c x k => ctlOk c && dst32 x && immIn 63 k
  | .pbarWait c k z => ctlOk c && immIn 63 k && z32 z && zImmNonneg z
  | _ => false

/-- The matrix instructions (R319, R327, R341). -/
def legalMatrix : Instr → Bool
  | .mstart c x _ => ctlOk c && dst32 x
  | .mstartV c x y => ctlOk c && dst32 x && vso y
  | .mstop c x => ctlOk c && dst32 x
  | .mqry c x | .mqryClr c x => ctlOk c && dst64 x
  | .msetLo x _ | .msetHi x _ | .msetAdd x _ => immIn 15 x
  | .msetU x g z => immIn 15 x && immIn 31 g && dst64 z && isS z
  | .msetIx x _ _ z => immIn 15 x && immIn 15 z
  | .mfmt k _ => immIn 7 k
  | .msclA g y sel | .msclB g y sel =>
    immIn 31 g && opndOk y && (match y with | .v _ => true | _ => false) && immIn 3 sel
  | .msclAOff | .msclBOff | .mend => true
  | .mma cls _ _ _ s fa fb nb | .mmas cls _ _ _ s fa fb nb => mmaOk cls s fa fb nb
  | .mzero s => immIn 7 s
  | .mrd fmt scope s fm => tileOk fmt s fm && scope ≠ .none
  | .mwr fmt kind s fm => tileOk fmt s fm && (!kind || fmt = .raw)
  | .mbarArv k n | .mbarArw k n => immIn 15 k && n.toNat ≤ 4095
  | .mbarWait k y => immIn 15 k && immIn 15 y
  | .mbarRsv k y | .mbarCmt k y | .mbarTake k y | .mbarFree k y => immIn 7 k && immIn 15 y
  | .mckpt i => i.toNat ≤ 65535
  | .mjmp x _ => immIn 15 x
  | .mjmpAl _ => true
  | _ => false

/-- The inter-island instructions (R349, R354). -/
def legalFabric : Instr → Bool
  | .put c x y | .get c x y | .coll c x y => ctlOk c && dst32 x && sAligned 8 y
  | .ratom c op wide _ _ x a z =>
    ctlOk c && (if op = .cas then casX wide x else dstW wide x && perLane x) && !(wide && op = .fadd) && addrPair a &&
      src32 z
  | .rntfy c x y z => ctlOk c && src32 x && src32 y && z32 z
  | .rfence c => ctlOk c
  | .route c x t k => ctlOk c && dst32 x && immIn 1 t && immIn 63 k
  | .topq c x y => ctlOk c && dst32 x && sAligned 4 y
  | _ => false

/-- The system instructions (R401, R406). -/
def legalSystem : Instr → Bool
  | .sysrd c x n => ctlOk c && dst64 x && sysRegListed n.toNat
  | .sysrdSel c x y n => ctlOk c && dst64 x && src32 y && sysRegListed n.toNat
  | .syswr c y n => ctlOk c && src64 y && sysRegListed n.toNat
  | .syswrSel c x y n => ctlOk c && src32 x && src64 y && sysRegListed n.toNat
  | .tlbiAll c | .haltIsl c | .haltPnl c => ctlOk c
  | .tlbiCtx c y => ctlOk c && src32 y
  | .tlbiPage c _ y z => ctlOk c && src32 y && addrPair z
  | .ctxsv c x y | .ctxld c x y => ctlOk c && dst32 x && sAligned 4 y
  | .resumeReplay c x y | .resumeSkip c x y | .resumeTrap c x y => ctlOk c && dst32 x && src32 y
  | .snap c x t => ctlOk c && dst32 x && t.toNat ≤ 255
  | _ => false

/-- An instruction whose fields the opcode tables allow; every event is outside them. -/
def legal (i : Instr) : Bool :=
  legalControl i || legalOverlay i || legalInteger i || legalFloat i || legalLane i || legalMemory i || legalHyp i ||
    legalSync i || legalMatrix i || legalFabric i || legalSystem i

end Sys2Proof.Machine
end

