-- ==== Sys2Proof/WellFormed.lean ====
section
/-! DEFINITION. Well-formed instructions: those the opcode tables give a word (R22). -/

namespace Sys2Proof

/-- Every field of the instruction is one that its row of the opcode table accepts. -/
abbrev Instr.WellFormed (i : Instr) : Prop := Machine.legal i = true

end Sys2Proof
end

