-- ==== Sys2Proof/Decode.lean ====
section
/-! DEFINITION. The 96-bit instruction word (R21): its fields, the encoder and the decoder. Codes are those of R23, R29,
R31, R32, R36, R113, R136, R151, R154, R163, R176, R179, R184, R195, R196, R199, R231-R233, R278, R288, R296, R297, R329,
R341, R349, R354 and R406. -/

namespace Sys2Proof

/-- The fields of an instruction word (R21); the guard and the hints are kept together. -/
structure Fields where
  opc : BitVec 8
  md : BitVec 6
  x : BitVec 12
  y : BitVec 12
  z : BitVec 12
  c : Ctl
  ext : BitVec 10
  deriving DecidableEq, Repr

/-- The word of its fields, most significant field first (R21). -/
def Fields.pack (f : Fields) : IWord :=
  f.opc ++ f.md ++ f.x ++ f.y ++ f.z ++ BitVec.ofBool f.c.ge ++ BitVec.ofBool f.c.gn ++ f.c.gr ++ f.c.gb ++ f.c.stall ++
    f.c.wait ++ f.c.setf ++ BitVec.ofBool f.c.yld ++ f.ext

/-- The fields of a word (R21). -/
def Fields.split (w : IWord) : Fields where
  opc := w.extractLsb' 88 8
  md := w.extractLsb' 82 6
  x := w.extractLsb' 70 12
  y := w.extractLsb' 58 12
  z := w.extractLsb' 46 12
  c := { ge := w.getLsbD 45, gn := w.getLsbD 44, gr := w.extractLsb' 36 8, gb := w.extractLsb' 31 5,
         stall := w.extractLsb' 27 4, wait := w.extractLsb' 15 12, setf := w.extractLsb' 11 4, yld := w.getLsbD 10 }
  ext := w.extractLsb' 0 10

/-- The guard and hints of a matrix-stream word (R319). -/
def streamCtl : Ctl :=
  { ge := false, gn := false, gr := 0, gb := 0, stall := 0, wait := 0, setf := 15, yld := false }

/-- An operand field (R23). -/
def Opnd.code : Opnd → BitVec 12
  | .v k => 0b0000#4 ++ k
  | .vp k => 0b0001#4 ++ k
  | .s k => 0b0010#4 ++ k
  | .sr n => 0b0011#4 ++ n
  | .o k => 0b010000000#9 ++ k
  | .lt => 0x800#12
  | .imm i => 0b11#2 ++ i

/-- The operand of a field (R23); the bits that must be zero are checked. -/
def Opnd.ofCode (b : BitVec 12) : Option Opnd :=
  match (b.extractLsb' 10 2).toNat with
  | 0 =>
    match (b.extractLsb' 8 2).toNat with
    | 0 => some (.v (b.extractLsb' 0 8))
    | 1 => some (.vp (b.extractLsb' 0 8))
    | 2 => some (.s (b.extractLsb' 0 8))
    | _ => some (.sr (b.extractLsb' 0 8))
  | 1 => if b.extractLsb' 3 7 = 0#7 then some (.o (b.extractLsb' 0 3)) else none
  | 2 => if b.extractLsb' 0 10 = 0#10 then some .lt else none
  | _ => some (.imm (b.extractLsb' 0 10))

/-- The Z field and the extension of a 20-bit Z operand (R29). -/
def ZOp.code : ZOp → BitVec 12 × BitVec 10
  | .op o => (o.code, 0)
  | .imm i => (0b11#2 ++ i.extractLsb' 0 10, i.extractLsb' 10 10)

/-- The 20-bit Z operand of a Z field and EXT (R29). -/
def ZOp.ofCode (z : BitVec 12) (ext : BitVec 10) : Option ZOp :=
  match Opnd.ofCode z with
  | some (.imm i) => some (.imm (ext ++ i))
  | some o => if ext = 0#10 then some (.op o) else none
  | none => none

/-- The 10 bits of an immediate field. -/
def immOf (b : BitVec 12) : BitVec 10 := b.extractLsb' 0 10
/-- An immediate field (class 11). -/
def immCode (i : BitVec 10) : BitVec 12 := 0b11#2 ++ i
/-- A 20-bit immediate from Z and EXT (R29). -/
def imm20Of (z : BitVec 12) (ext : BitVec 10) : BitVec 20 := ext ++ immOf z
/-- The Z field of a 20-bit immediate. -/
def imm20Z (i : BitVec 20) : BitVec 12 := 0b11#2 ++ i.extractLsb' 0 10
/-- The EXT field of a 20-bit immediate. -/
def imm20Ext (i : BitVec 20) : BitVec 10 := i.extractLsb' 10 10
/-- The 32-bit constant {EXT, Z, Y<9:0>} of R29. -/
def constOf (y z : BitVec 12) (ext : BitVec 10) : Word := ext ++ z ++ immOf y
/-- Y of a 32-bit constant. -/
def constY (k : Word) : BitVec 12 := 0b11#2 ++ k.extractLsb' 0 10
/-- Z of a 32-bit constant. -/
def constZ (k : Word) : BitVec 12 := k.extractLsb' 10 12
/-- EXT of a 32-bit constant. -/
def constExt (k : Word) : BitVec 10 := k.extractLsb' 22 10

/-- Integer type codes (R151). -/
def IType.code : IType → BitVec 4
  | .i32 => 0#4
  | .n32 => 1#4
  | .b32 => 2#4
  | .i16 => 3#4
  | .n16 => 4#4
  | .i8 => 5#4
  | .n8 => 6#4
  | .i64 => 7#4
  | .n64 => 8#4
  | .b64 => 9#4

/-- The inverse of `IType.code`; codes without a meaning have none. -/
def IType.ofCode (b : BitVec 4) : Option IType :=
  match b.toNat with
  | 0 => some .i32
  | 1 => some .n32
  | 2 => some .b32
  | 3 => some .i16
  | 4 => some .n16
  | 5 => some .i8
  | 6 => some .n8
  | 7 => some .i64
  | 8 => some .n64
  | 9 => some .b64
  | _ => none

/-- Floating type codes (R176). -/
def FType.code : FType → BitVec 3
  | .f32 => 0#3
  | .f16 => 1#3
  | .bf16 => 2#3
  | .f16x2 => 3#3
  | .bf16x2 => 4#3
  | .q4 => 5#3
  | .q6 => 6#3
  | .q8 => 7#3

/-- The inverse of `FType.code`; codes without a meaning have none. -/
def FType.ofCode (b : BitVec 3) : Option FType :=
  match b.toNat with
  | 0 => some .f32
  | 1 => some .f16
  | 2 => some .bf16
  | 3 => some .f16x2
  | 4 => some .bf16x2
  | 5 => some .q4
  | 6 => some .q6
  | _ => some .q8

/-- Rounding field codes (R176). -/
def Rmf.code : Rmf → BitVec 3
  | .cur => 0#3
  | .rne => 4#3
  | .rtz => 5#3
  | .rup => 6#3
  | .rdn => 7#3

/-- The inverse of `Rmf.code`; codes without a meaning have none. -/
def Rmf.ofCode (b : BitVec 3) : Option Rmf :=
  match b.toNat with
  | 0 => some .cur
  | 4 => some .rne
  | 5 => some .rtz
  | 6 => some .rup
  | 7 => some .rdn
  | _ => none

/-- Integer condition codes (R163). -/
def ICond.code : ICond → BitVec 3
  | .eq => 0#3
  | .ne => 1#3
  | .lt => 2#3
  | .le => 3#3
  | .gt => 4#3
  | .ge => 5#3

/-- The inverse of `ICond.code`; codes without a meaning have none. -/
def ICond.ofCode (b : BitVec 3) : Option ICond :=
  match b.toNat with
  | 0 => some .eq
  | 1 => some .ne
  | 2 => some .lt
  | 3 => some .le
  | 4 => some .gt
  | 5 => some .ge
  | _ => none

/-- Floating condition codes (R184). -/
def FCond.code : FCond → BitVec 3
  | .eq => 0#3
  | .ne => 1#3
  | .lt => 2#3
  | .le => 3#3
  | .gt => 4#3
  | .ge => 5#3
  | .num => 6#3
  | .nan => 7#3

/-- The inverse of `FCond.code`; codes without a meaning have none. -/
def FCond.ofCode (b : BitVec 3) : Option FCond :=
  match b.toNat with
  | 0 => some .eq
  | 1 => some .ne
  | 2 => some .lt
  | 3 => some .le
  | 4 => some .gt
  | 5 => some .ge
  | 6 => some .num
  | _ => some .nan

/-- Carry-in codes (R154). -/
def CarryIn.code : CarryIn → BitVec 2
  | .c0 => 0#2
  | .ci => 1#2
  | .c1 => 2#2

/-- The inverse of `CarryIn.code`; codes without a meaning have none. -/
def CarryIn.ofCode (b : BitVec 2) : Option CarryIn :=
  match b.toNat with
  | 0 => some .c0
  | 1 => some .ci
  | 2 => some .c1
  | _ => none

/-- Merge mode codes (R159). -/
def Merge.code : Merge → BitVec 2
  | .none => 0#2
  | .and => 1#2
  | .or => 2#2
  | .xor => 3#2

/-- The inverse of `Merge.code`; codes without a meaning have none. -/
def Merge.ofCode (b : BitVec 2) : Option Merge :=
  match b.toNat with
  | 0 => some .none
  | 1 => some .and
  | 2 => some .or
  | _ => some .xor

/-- `LXCH` mode codes (R195). -/
def LxMode.code : LxMode → BitVec 2
  | .up => 0#2
  | .dn => 1#2
  | .xor => 2#2
  | .idx => 3#2

/-- The inverse of `LxMode.code`; codes without a meaning have none. -/
def LxMode.ofCode (b : BitVec 2) : Option LxMode :=
  match b.toNat with
  | 0 => some .up
  | 1 => some .dn
  | 2 => some .xor
  | _ => some .idx

/-- Reduction codes (R196). -/
def RedOp.code : RedOp → BitVec 4
  | .addI32 => 0#4
  | .addF32 => 1#4
  | .minI32 => 2#4
  | .minN32 => 3#4
  | .maxI32 => 4#4
  | .maxN32 => 5#4
  | .minF32 => 6#4
  | .maxF32 => 7#4
  | .and => 8#4
  | .or => 9#4
  | .xor => 10#4

/-- The inverse of `RedOp.code`; codes without a meaning have none. -/
def RedOp.ofCode (b : BitVec 4) : Option RedOp :=
  match b.toNat with
  | 0 => some .addI32
  | 1 => some .addF32
  | 2 => some .minI32
  | 3 => some .minN32
  | 4 => some .maxI32
  | 5 => some .maxN32
  | 6 => some .minF32
  | 7 => some .maxF32
  | 8 => some .and
  | 9 => some .or
  | 10 => some .xor
  | _ => none

/-- `LVOTE` mode codes (R195). -/
def VoteMode.code : VoteMode → BitVec 3
  | .any => 0#3
  | .all => 1#3
  | .ballot => 2#3
  | .ballotHi => 3#3
  | .count => 4#3

/-- The inverse of `VoteMode.code`; codes without a meaning have none. -/
def VoteMode.ofCode (b : BitVec 3) : Option VoteMode :=
  match b.toNat with
  | 0 => some .any
  | 1 => some .all
  | 2 => some .ballot
  | 3 => some .ballotHi
  | 4 => some .count
  | _ => none

/-- Policy codes (R231). -/
def Policy.code : Policy → BitVec 2
  | .near => 0#2
  | .far => 1#2
  | .once => 2#2

/-- The inverse of `Policy.code`; codes without a meaning have none. -/
def Policy.ofCode (b : BitVec 2) : Option Policy :=
  match b.toNat with
  | 0 => some .near
  | 1 => some .far
  | 2 => some .once
  | _ => none

/-- Scope codes (R231). -/
def Scope.code : Scope → BitVec 3
  | .none => 0#3
  | .grp => 1#3
  | .wg => 2#3
  | .clu => 3#3
  | .isl => 4#3
  | .sys => 5#3

/-- The inverse of `Scope.code`; codes without a meaning have none. -/
def Scope.ofCode (b : BitVec 3) : Option Scope :=
  match b.toNat with
  | 0 => some .none
  | 1 => some .grp
  | 2 => some .wg
  | 3 => some .clu
  | 4 => some .isl
  | 5 => some .sys
  | _ => none

/-- Order codes (R231). -/
def MOrd.code : MOrd → BitVec 2
  | .none => 0#2
  | .acq => 1#2
  | .rel => 2#2
  | .ar => 3#2

/-- The inverse of `MOrd.code`; codes without a meaning have none. -/
def MOrd.ofCode (b : BitVec 2) : Option MOrd :=
  match b.toNat with
  | 0 => some .none
  | 1 => some .acq
  | 2 => some .rel
  | _ => some .ar

/-- `ATOM` codes (R233). -/
def AtomOp.code : AtomOp → BitVec 4
  | .add => 0#4
  | .minI => 1#4
  | .minN => 2#4
  | .maxI => 3#4
  | .maxN => 4#4
  | .and => 5#4
  | .or => 6#4
  | .xor => 7#4
  | .swap => 8#4
  | .inc => 9#4
  | .fadd => 10#4
  | .faddF16x2 => 11#4
  | .faddBf16x2 => 12#4
  | .fmin => 13#4
  | .fmax => 14#4

/-- The inverse of `AtomOp.code`; codes without a meaning have none. -/
def AtomOp.ofCode (b : BitVec 4) : Option AtomOp :=
  match b.toNat with
  | 0 => some .add
  | 1 => some .minI
  | 2 => some .minN
  | 3 => some .maxI
  | 4 => some .maxN
  | 5 => some .and
  | 6 => some .or
  | 7 => some .xor
  | 8 => some .swap
  | 9 => some .inc
  | 10 => some .fadd
  | 11 => some .faddF16x2
  | 12 => some .faddBf16x2
  | 13 => some .fmin
  | 14 => some .fmax
  | _ => none

/-- `RATOM` codes (R354). -/
def RatomOp.code : RatomOp → BitVec 4
  | .add => 0#4
  | .fadd => 1#4
  | .swap => 2#4
  | .cas => 3#4
  | .minI => 4#4
  | .minN => 5#4
  | .maxI => 6#4
  | .maxN => 7#4

/-- The inverse of `RatomOp.code`; codes without a meaning have none. -/
def RatomOp.ofCode (b : BitVec 4) : Option RatomOp :=
  match b.toNat with
  | 0 => some .add
  | 1 => some .fadd
  | 2 => some .swap
  | 3 => some .cas
  | 4 => some .minI
  | 5 => some .minN
  | 6 => some .maxI
  | 7 => some .maxN
  | _ => none

/-- `CPY` size codes (R288). -/
def CpySize.code : CpySize → BitVec 2
  | .w1 => 0#2
  | .w2 => 1#2
  | .w4 => 2#2

/-- The inverse of `CpySize.code`; codes without a meaning have none. -/
def CpySize.ofCode (b : BitVec 2) : Option CpySize :=
  match b.toNat with
  | 0 => some .w1
  | 1 => some .w2
  | 2 => some .w4
  | _ => none

/-- `MMA` class codes (R341). -/
def MmaClass.code : MmaClass → BitVec 3
  | .bf16 => 0#3
  | .f16 => 1#3
  | .q8 => 2#3
  | .q6 => 3#3
  | .q4 => 4#3

/-- The inverse of `MmaClass.code`; codes without a meaning have none. -/
def MmaClass.ofCode (b : BitVec 3) : Option MmaClass :=
  match b.toNat with
  | 0 => some .bf16
  | 1 => some .f16
  | 2 => some .q8
  | 3 => some .q6
  | 4 => some .q4
  | _ => none

/-- Tile format codes (R329). -/
def TileFmt.code : TileFmt → BitVec 3
  | .f32 => 0#3
  | .bf16 => 1#3
  | .f16 => 2#3
  | .q8 => 3#3
  | .q6 => 4#3
  | .q4 => 5#3
  | .i32 => 6#3
  | .raw => 7#3

/-- The inverse of `TileFmt.code`; codes without a meaning have none. -/
def TileFmt.ofCode (b : BitVec 3) : Option TileFmt :=
  match b.toNat with
  | 0 => some .f32
  | 1 => some .bf16
  | 2 => some .f16
  | 3 => some .q8
  | 4 => some .q6
  | 5 => some .q4
  | 6 => some .i32
  | _ => some .raw

/-- The EXT field of the memory class (R231). -/
def MemExt.code (e : MemExt) : BitVec 10 := e.win ++ e.pol.code ++ e.scope.code ++ e.ord.code ++ 0#1

/-- The memory EXT field read back; policy 3 and scopes 6 and 7 have no meaning. -/
def MemExt.ofCode (b : BitVec 10) : Option MemExt := do
  let pol ← Policy.ofCode (b.extractLsb' 6 2)
  let scope ← Scope.ofCode (b.extractLsb' 3 3)
  let ord ← MOrd.ofCode (b.extractLsb' 1 2)
  pure { win := b.extractLsb' 8 2, pol := pol, scope := scope, ord := ord }

/-- A one-bit flag as a field of a wider code. -/
abbrev bit1 (b : Bool) : BitVec 1 := BitVec.ofBool b

/-- Fields with every operand field zero. -/
def Fields.mk0 (c : Ctl) (opc : BitVec 8) (md : BitVec 6) : Fields :=
  { opc := opc, md := md, x := 0, y := 0, z := 0, c := c, ext := 0 }

/-- Fields whose Z and EXT hold a 20-bit Z operand. -/
def Fields.withZ (f : Fields) (z : ZOp) : Fields := { f with z := z.code.1, ext := z.code.2 }

/-- The fields of the control instructions. -/
def fieldsControl : Instr → Option Fields
  | .nop c => some (Fields.mk0 c 0x00 (0#6))
  | .bra c off => some { Fields.mk0 c 0x01 (0#6) with z := imm20Z off, ext := imm20Ext off }
  | .brx c park y => some { Fields.mk0 c 0x02 (0#5 ++ bit1 park) with y := y.code }
  | .call c park x cp =>
    some { Fields.mk0 c 0x03 (0#5 ++ bit1 park) with x := x.code, y := constY cp, z := constZ cp, ext := constExt cp }
  | .callx c park x y => some { Fields.mk0 c 0x04 (0#5 ++ bit1 park) with x := x.code, y := y.code }
  | .ret c park y => some { Fields.mk0 c 0x05 (0#5 ++ bit1 park) with y := y.code }
  | .exit c => some (Fields.mk0 c 0x06 (0#6))
  | .sleep c n => some { Fields.mk0 c 0x07 (0#6) with z := imm20Z n, ext := imm20Ext n }
  | .ckpt c i => some { Fields.mk0 c 0x08 (0#6) with z := imm20Z i, ext := imm20Ext i }
  | .trap c code => some { Fields.mk0 c 0x09 (0#6) with z := imm20Z code, ext := imm20Ext code }
  | .trapSetv c y => some { Fields.mk0 c 0x09 (1#6) with y := y.code }
  | .trapGetv c x => some { Fields.mk0 c 0x09 (2#6) with x := x.code }
  | .rtt c => some (Fields.mk0 c 0x0A (0#6))
  | .killWg c => some (Fields.mk0 c 0x0B (0#6))
  | .killLaunch c => some (Fields.mk0 c 0x0B (1#6))
  | .rep c sx sy sz n => some { Fields.mk0 c 0x0F (sx ++ sy ++ sz) with z := immCode n }
  | _ => none

/-- The fields of the overlay instructions. -/
def fieldsOverlay : Instr → Option Fields
  | .ovlLd c x y z => some (Fields.withZ { Fields.mk0 c 0x10 (0#6) with x := x.code, y := y.code } z)
  | .ovlPin c x z => some (Fields.withZ { Fields.mk0 c 0x11 (0#6) with x := x.code } z)
  | .ovlUnpin c x y => some { Fields.mk0 c 0x12 (0#6) with x := x.code, y := y.code }
  | .ovlEvict c x z => some (Fields.withZ { Fields.mk0 c 0x13 (0#6) with x := x.code } z)
  | .ovlQry c x z => some (Fields.withZ { Fields.mk0 c 0x14 (0#6) with x := x.code } z)
  | .ovlAddr c x y => some { Fields.mk0 c 0x15 (0#6) with x := x.code, y := y.code }
  | _ => none

/-- The fields of the integer instructions. -/
def fieldsInteger : Instr → Option Fields
  | .iadd c t sat x y z =>
    some (Fields.withZ { Fields.mk0 c 0x18 (t.code ++ 0#1 ++ bit1 sat) with x := x.code, y := y.code } z)
  | .isub c t sat x y z =>
    some (Fields.withZ { Fields.mk0 c 0x19 (t.code ++ 0#1 ++ bit1 sat) with x := x.code, y := y.code } z)
  | .iaddc c ci x y z =>
    some (Fields.withZ { Fields.mk0 c 0x1A (IType.code .n32 ++ ci.code) with x := x.code, y := y.code } z)
  | .imul c t sat x y z =>
    some (Fields.withZ { Fields.mk0 c 0x1B (t.code ++ 0#1 ++ bit1 sat) with x := x.code, y := y.code } z)
  | .imulh c t x y z => some (Fields.withZ { Fields.mk0 c 0x1C (t.code ++ 0#2) with x := x.code, y := y.code } z)
  | .imad c t sat x y z =>
    some (Fields.withZ { Fields.mk0 c 0x1D (t.code ++ 0#1 ++ bit1 sat) with x := x.code, y := y.code } z)
  | .imadw c t sat x y z =>
    some (Fields.withZ { Fields.mk0 c 0x1E (t.code ++ 0#1 ++ bit1 sat) with x := x.code, y := y.code } z)
  | .imin c t x y z => some (Fields.withZ { Fields.mk0 c 0x1F (t.code ++ 0#2) with x := x.code, y := y.code } z)
  | .imax c t x y z => some (Fields.withZ { Fields.mk0 c 0x20 (t.code ++ 0#2) with x := x.code, y := y.code } z)
  | .iabs c t sat x y => some { Fields.mk0 c 0x21 (t.code ++ 0#1 ++ bit1 sat) with x := x.code, y := y.code }
  | .iaddmn c t sat x y z =>
    some (Fields.withZ { Fields.mk0 c 0x22 (t.code ++ 0#1 ++ bit1 sat) with x := x.code, y := y.code } z)
  | .iaddmx c t sat x y z =>
    some (Fields.withZ { Fields.mk0 c 0x23 (t.code ++ 0#1 ++ bit1 sat) with x := x.code, y := y.code } z)
  | .isad c t sat x y z =>
    some (Fields.withZ { Fields.mk0 c 0x24 (t.code ++ 0#1 ++ bit1 sat) with x := x.code, y := y.code } z)
  | .shl c wrap x y z =>
    some (Fields.withZ { Fields.mk0 c 0x25 (IType.code .b32 ++ 0#1 ++ bit1 wrap) with x := x.code, y := y.code } z)
  | .shr c wrap x y z =>
    some (Fields.withZ { Fields.mk0 c 0x26 (IType.code .b32 ++ 0#1 ++ bit1 wrap) with x := x.code, y := y.code } z)
  | .sar c wrap x y z =>
    some (Fields.withZ { Fields.mk0 c 0x27 (IType.code .b32 ++ 0#1 ++ bit1 wrap) with x := x.code, y := y.code } z)
  | .extr c sw rot x y z =>
    some (Fields.withZ { Fields.mk0 c 0x28 (IType.code .b32 ++ bit1 rot ++ bit1 sw) with x := x.code, y := y.code } z)
  | .bool c t m fn x y z =>
    some { Fields.mk0 c 0x29 (t.code ++ 0#2) with x := x.code, y := y.code, z := z.code, ext := 0#4 ++ m.code ++ fn }
  | .popc c t x y => some { Fields.mk0 c 0x2A (t.code ++ 0#2) with x := x.code, y := y.code }
  | .clz c t x y => some { Fields.mk0 c 0x2B (t.code ++ 0#2) with x := x.code, y := y.code }
  | .brev c t x y => some { Fields.mk0 c 0x2C (t.code ++ 0#2) with x := x.code, y := y.code }
  | .bfx c t x y z => some (Fields.withZ { Fields.mk0 c 0x2D (t.code ++ 0#2) with x := x.code, y := y.code } z)
  | .bfi c x y z => some (Fields.withZ { Fields.mk0 c 0x2E (IType.code .b32 ++ 0#2) with x := x.code, y := y.code } z)
  | .bsel c x y z =>
    some (Fields.withZ { Fields.mk0 c 0x2F (IType.code .b32 ++ 0#2) with x := x.code, y := y.code } z)
  | .sel c t x y z => some (Fields.withZ { Fields.mk0 c 0x30 (t.code ++ 0#2) with x := x.code, y := y.code } z)
  | .iset c t one cc x y z =>
    some { Fields.mk0 c 0x31 (t.code ++ 0#1 ++ bit1 one) with x := x.code, y := y.code, z := z.code, ext := 0#7 ++ cc.code }
  | .icmpp c t b cc x y z =>
    some { Fields.mk0 c 0x32 (t.code ++ 0#2) with x := x.code, y := y.code, z := z.code, ext := b ++ 0#2 ++ cc.code }
  | .mov c t x y => some { Fields.mk0 c 0x33 (t.code ++ 0#2) with x := x.code, y := y.code }
  | .movi c t x i => some { Fields.mk0 c 0x34 (t.code ++ 0#2) with x := x.code, z := imm20Z i, ext := imm20Ext i }
  | .movw c x k =>
    some { Fields.mk0 c 0x35 (IType.code .b32 ++ 0#2) with x := x.code, y := constY k, z := constZ k, ext := constExt k }
  | .movs c t x y z => some (Fields.withZ { Fields.mk0 c 0x36 (t.code ++ 0#2) with x := x.code, y := y.code } z)
  | .movsrRd c x n =>
    some { Fields.mk0 c 0x37 (IType.code .b32 ++ 0#2) with x := x.code, z := imm20Z n, ext := imm20Ext n }
  | .movsrWr c y n =>
    some { Fields.mk0 c 0x37 (IType.code .b32 ++ 1#2) with y := y.code, z := imm20Z n, ext := imm20Ext n }
  | .lea c t k x y z =>
    some { Fields.mk0 c 0x38 (t.code ++ 0#2) with x := x.code, y := y.code, z := z.code, ext := 0#7 ++ k }
  | .iadd64 c t sat x y z =>
    some (Fields.withZ { Fields.mk0 c 0x39 (t.code ++ 0#1 ++ bit1 sat) with x := x.code, y := y.code } z)
  | .isub64 c t sat x y z =>
    some (Fields.withZ { Fields.mk0 c 0x3A (t.code ++ 0#1 ++ bit1 sat) with x := x.code, y := y.code } z)
  | .shl64 c x y z =>
    some (Fields.withZ { Fields.mk0 c 0x3B (IType.code .b64 ++ 0#2) with x := x.code, y := y.code } z)
  | .shr64 c arith x y z =>
    some (Fields.withZ { Fields.mk0 c 0x3C (IType.code .b64 ++ 0#1 ++ bit1 arith) with x := x.code, y := y.code } z)
  | .cvti c td ts sat x y =>
    some { Fields.mk0 c 0x3D (td.code ++ 0#1 ++ bit1 sat) with x := x.code, y := y.code, ext := 0#6 ++ ts.code }
  | _ => none

/-- The fields of the floating instructions. -/
def fieldsFloat : Instr → Option Fields
  | .fadd c fm rm x y z =>
    some (Fields.withZ { Fields.mk0 c 0x40 (fm.code ++ rm.code) with x := x.code, y := y.code } z)
  | .fsub c fm rm x y z =>
    some (Fields.withZ { Fields.mk0 c 0x41 (fm.code ++ rm.code) with x := x.code, y := y.code } z)
  | .fmul c fm rm x y z =>
    some (Fields.withZ { Fields.mk0 c 0x42 (fm.code ++ rm.code) with x := x.code, y := y.code } z)
  | .ffma c fm rm x y z =>
    some (Fields.withZ { Fields.mk0 c 0x43 (fm.code ++ rm.code) with x := x.code, y := y.code } z)
  | .fmin c fm x y z => some (Fields.withZ { Fields.mk0 c 0x44 (fm.code ++ 0#3) with x := x.code, y := y.code } z)
  | .fmax c fm x y z => some (Fields.withZ { Fields.mk0 c 0x45 (fm.code ++ 0#3) with x := x.code, y := y.code } z)
  | .fset c fm one cc x y z =>
    some { Fields.mk0 c 0x46 (fm.code ++ 0#2 ++ bit1 one) with x := x.code, y := y.code, z := z.code, ext := 0#7 ++ cc.code }
  | .fcmpp c fm b cc x y z =>
    some { Fields.mk0 c 0x47 (fm.code ++ 0#3) with x := x.code, y := y.code, z := z.code, ext := b ++ 0#2 ++ cc.code }
  | .frnd c fm rm x y => some { Fields.mk0 c 0x48 (fm.code ++ rm.code) with x := x.code, y := y.code }
  | .fcvt c fd fs rm hi fmd fms x y z =>
    some { Fields.mk0 c 0x49 (fd.code ++ rm.code) with x := x.code, y := y.code, z := (match z with | some o => o.code | none => 0#12), ext := bit1 hi ++ fmd ++ fms ++ fs.code }
  | .fcvti c t fs rm hi x y =>
    some { Fields.mk0 c 0x4A (fs.code ++ rm.code) with x := x.code, y := y.code, ext := bit1 hi ++ 0#5 ++ t.code }
  | .icvtf c fd t rm x y =>
    some { Fields.mk0 c 0x4B (fd.code ++ rm.code) with x := x.code, y := y.code, ext := 0#6 ++ t.code }
  | .hadd2 c fm rm x y z =>
    some (Fields.withZ { Fields.mk0 c 0x4C (fm.code ++ rm.code) with x := x.code, y := y.code } z)
  | .hmul2 c fm rm x y z =>
    some (Fields.withZ { Fields.mk0 c 0x4D (fm.code ++ rm.code) with x := x.code, y := y.code } z)
  | .hfma2 c fm rm x y z =>
    some (Fields.withZ { Fields.mk0 c 0x4E (fm.code ++ rm.code) with x := x.code, y := y.code } z)
  | .hmin2 c fm x y z => some (Fields.withZ { Fields.mk0 c 0x4F (fm.code ++ 0#3) with x := x.code, y := y.code } z)
  | .hmax2 c fm x y z => some (Fields.withZ { Fields.mk0 c 0x50 (fm.code ++ 0#3) with x := x.code, y := y.code } z)
  | .fdot2 c fm rm x y z =>
    some (Fields.withZ { Fields.mk0 c 0x51 (fm.code ++ rm.code) with x := x.code, y := y.code } z)
  | .fscale c fm rm x y z =>
    some (Fields.withZ { Fields.mk0 c 0x52 (fm.code ++ rm.code) with x := x.code, y := y.code } z)
  | .fclass c fm x y => some { Fields.mk0 c 0x53 (fm.code ++ 0#3) with x := x.code, y := y.code }
  | .frcp c fm x y => some { Fields.mk0 c 0x54 (fm.code ++ 0#3) with x := x.code, y := y.code }
  | .frsq c fm x y => some { Fields.mk0 c 0x55 (fm.code ++ 0#3) with x := x.code, y := y.code }
  | .fsqrt c fm x y => some { Fields.mk0 c 0x56 (fm.code ++ 0#3) with x := x.code, y := y.code }
  | .fexp2 c fm x y => some { Fields.mk0 c 0x57 (fm.code ++ 0#3) with x := x.code, y := y.code }
  | .flog2 c fm x y => some { Fields.mk0 c 0x58 (fm.code ++ 0#3) with x := x.code, y := y.code }
  | .fsin c fm x y => some { Fields.mk0 c 0x59 (fm.code ++ 0#3) with x := x.code, y := y.code }
  | .fcos c fm x y => some { Fields.mk0 c 0x5A (fm.code ++ 0#3) with x := x.code, y := y.code }
  | .ftanh c fm x y => some { Fields.mk0 c 0x5B (fm.code ++ 0#3) with x := x.code, y := y.code }
  | .fmtw c k z => some (((Fields.mk0 c 0x5C (0#3 ++ k))).withZ z)
  | .fmtwRd c k x => some { Fields.mk0 c 0x5C (1#3 ++ k) with x := x.code }
  | .fctlRd c x => some { Fields.mk0 c 0x5D (0#6) with x := x.code }
  | .fctlWr c z => some (((Fields.mk0 c 0x5D (1#6))).withZ z)
  | .fctlSet c z => some (((Fields.mk0 c 0x5D (2#6))).withZ z)
  | .fctlClr c z => some (((Fields.mk0 c 0x5D (3#6))).withZ z)
  | _ => none

/-- The fields of the lane-exchange instructions. -/
def fieldsLane : Instr → Option Fields
  | .lxch c m w zf wide x y z =>
    some (Fields.withZ { Fields.mk0 c 0x60 (m.code ++ bit1 w ++ bit1 zf ++ bit1 wide ++ 0#1) with x := x.code, y := y.code } z)
  | .lstep c op zf x y z =>
    some (Fields.withZ { Fields.mk0 c 0x61 (op.code ++ 0#1 ++ bit1 zf) with x := x.code, y := y.code } z)
  | .lvote c m b x y => some { Fields.mk0 c 0x62 (m.code ++ 0#3) with x := x.code, y := y.code, ext := 0#5 ++ b }
  | .lmatch c wide hi x y =>
    some { Fields.mk0 c 0x63 (0#2 ++ bit1 wide ++ 0#2 ++ bit1 hi) with x := x.code, y := y.code }
  | .lscan c op exc x y => some { Fields.mk0 c 0x64 (op.code ++ 0#1 ++ bit1 exc) with x := x.code, y := y.code }
  | _ => none

/-- The fields of the memory instructions. -/
def fieldsMemory : Instr → Option Fields
  | .ld c t e x a off =>
    some { Fields.mk0 c 0x68 (t.code ++ 0#2) with x := x.code, y := a.code, z := immCode off, ext := e.code }
  | .st c t e x a off =>
    some { Fields.mk0 c 0x69 (t.code ++ 0#2) with x := x.code, y := a.code, z := immCode off, ext := e.code }
  | .ldu c t e x a off =>
    some { Fields.mk0 c 0x6A (t.code ++ 0#2) with x := x.code, y := a.code, z := immCode off, ext := e.code }
  | .atom c op wide e x a off =>
    some { Fields.mk0 c 0x6B (op.code ++ 0#1 ++ bit1 wide) with x := x.code, y := a.code, z := immCode off, ext := e.code }
  | .cas c wide e x a off =>
    some { Fields.mk0 c 0x6C ((if wide then IType.code .b64 else IType.code .b32) ++ 0#2) with x := x.code, y := a.code, z := immCode off, ext := e.code }
  | .fence c scope ord => some { Fields.mk0 c 0x6D (0#6) with ext := 0#4 ++ scope.code ++ ord.code ++ 0#1 }
  | .markEmpty c win pol x a off =>
    some { Fields.mk0 c 0x6E (0#6) with x := x.code, y := a.code, z := immCode off, ext := win ++ pol.code ++ 0#6 }
  | .markFull c win pol x a off =>
    some { Fields.mk0 c 0x6E (1#6) with x := x.code, y := a.code, z := immCode off, ext := win ++ pol.code ++ 0#6 }
  | .waita c t ne win pol x a off =>
    some { Fields.mk0 c 0x6F (t.code ++ 0#1 ++ bit1 ne) with x := x.code, y := a.code, z := immCode off, ext := win ++ pol.code ++ 0#6 }
  | .pref c win pol a off =>
    some { Fields.mk0 c 0x70 (0#6) with y := a.code, z := immCode off, ext := win ++ pol.code ++ 0#6 }
  | .flush c win a off => some { Fields.mk0 c 0x71 (0#6) with y := a.code, z := immCode off, ext := win ++ 0#8 }
  | .flushAll c => some (Fields.mk0 c 0x71 (1#6))
  | .invl c win a off => some { Fields.mk0 c 0x72 (0#6) with y := a.code, z := immCode off, ext := win ++ 0#8 }
  | .invlAll c => some (Fields.mk0 c 0x72 (1#6))
  | _ => none

/-- The fields of the hypothesis instructions. -/
def fieldsHyp : Instr → Option Fields
  | .hypOpen c x y => some { Fields.mk0 c 0x88 (0#6) with x := x.code, y := y.code }
  | .hypEnter c x y => some { Fields.mk0 c 0x89 (0#6) with x := x.code, y := y.code }
  | .hypLeave c x => some { Fields.mk0 c 0x8A (0#6) with x := x.code }
  | .hypResolveConfirm c x y => some { Fields.mk0 c 0x8B (0#6) with x := x.code, y := y.code }
  | .hypResolveRefute c x y => some { Fields.mk0 c 0x8B (1#6) with x := x.code, y := y.code }
  | .hypQry c x y => some { Fields.mk0 c 0x8C (0#6) with x := x.code, y := y.code }
  | .hypQryCur c x => some { Fields.mk0 c 0x8C (1#6) with x := x.code }
  | _ => none

/-- The fields of the copy and synchronisation instructions. -/
def fieldsSync : Instr → Option Fields
  | .cpy c n fill wd ws scope x y =>
    some { Fields.mk0 c 0x90 (n.code ++ bit1 fill ++ 0#3) with x := x.code, y := y.code, ext := wd ++ ws ++ scope.code ++ 0#3 }
  | .cpyb c x y => some { Fields.mk0 c 0x91 (0#6) with x := x.code, y := y.code }
  | .qfence c m => some { Fields.mk0 c 0x92 (0#6) with z := imm20Z m, ext := imm20Ext m }
  | .qstat c x q => some { Fields.mk0 c 0x93 (0#6) with x := x.code, z := imm20Z q, ext := imm20Ext q }
  | .barInit c x k z => some (Fields.withZ { Fields.mk0 c 0xA0 (0#6) with x := x.code, y := immCode k } z)
  | .barArv c x k z =>
    some (Fields.withZ { Fields.mk0 c 0xA1 (0#5 ++ bit1 x.isSome) with x := (match x with | some o => o.code | none => 0#12), y := immCode k } z)
  | .barWait c k z => some (Fields.withZ { Fields.mk0 c 0xA2 (0#6) with y := immCode k } z)
  | .barArw c k z => some (Fields.withZ { Fields.mk0 c 0xA3 (0#6) with y := immCode k } z)
  | .ringInit c x k z => some (Fields.withZ { Fields.mk0 c 0xA4 (0#6) with x := x.code, y := immCode k } z)
  | .ringPushRsv c x k => some { Fields.mk0 c 0xA5 (0#6) with x := x.code, y := immCode k }
  | .ringPushCmt c x k z => some (Fields.withZ { Fields.mk0 c 0xA5 (1#6) with x := x.code, y := immCode k } z)
  | .ringPopTake c x k => some { Fields.mk0 c 0xA6 (0#6) with x := x.code, y := immCode k }
  | .ringPopFree c x k z => some (Fields.withZ { Fields.mk0 c 0xA6 (1#6) with x := x.code, y := immCode k } z)
  | .ntfy c sys y z => some (Fields.withZ { Fields.mk0 c 0xA7 (0#4 ++ bit1 sys ++ 0#1) with y := y.code } z)
  | .ntfySet c sys y z => some (Fields.withZ { Fields.mk0 c 0xA7 (0#4 ++ bit1 sys ++ 1#1) with y := y.code } z)
  | .nwait c sys x y z =>
    some (Fields.withZ { Fields.mk0 c 0xA8 (0#4 ++ bit1 sys ++ 0#1) with x := x.code, y := y.code } z)
  | .pbarInit c x k z => some (Fields.withZ { Fields.mk0 c 0xA9 (0#6) with x := x.code, y := immCode k } z)
  | .pbarArv c x k => some { Fields.mk0 c 0xA9 (1#6) with x := x.code, y := immCode k }
  | .pbarWait c k z => some (Fields.withZ { Fields.mk0 c 0xA9 (2#6) with y := immCode k } z)
  | .pbarArw c x k => some { Fields.mk0 c 0xA9 (3#6) with x := x.code, y := immCode k }
  | _ => none

/-- The fields of the matrix instructions. -/
def fieldsMatrix : Instr → Option Fields
  | .mstart c x cp =>
    some { Fields.mk0 c 0xB0 (0#6) with x := x.code, y := constY cp, z := constZ cp, ext := constExt cp }
  | .mstartV c x y => some { Fields.mk0 c 0xB0 (1#6) with x := x.code, y := y.code }
  | .mstop c x => some { Fields.mk0 c 0xB1 (0#6) with x := x.code }
  | .mqry c x => some { Fields.mk0 c 0xB2 (0#6) with x := x.code }
  | .mqryClr c x => some { Fields.mk0 c 0xB2 (1#6) with x := x.code }
  | .msetLo x k =>
    some { Fields.mk0 streamCtl 0xB8 (0#6) with x := immCode x, y := constY k, z := constZ k, ext := constExt k }
  | .msetHi x k =>
    some { Fields.mk0 streamCtl 0xB8 (1#6) with x := immCode x, y := constY k, z := constZ k, ext := constExt k }
  | .msetAdd x k =>
    some { Fields.mk0 streamCtl 0xB8 (2#6) with x := immCode x, y := constY k, z := constZ k, ext := constExt k }
  | .msetU x g z => some { Fields.mk0 streamCtl 0xB8 (3#6) with x := immCode x, y := immCode g, z := z.code }
  | .msetIx x y n z =>
    some { Fields.mk0 streamCtl 0xB8 (4#6) with x := immCode x, y := immCode (0#1 ++ n ++ y), z := immCode z }
  | .mfmt k c =>
    some { Fields.mk0 streamCtl 0xB9 (0#6) with x := immCode k, y := constY c, z := constZ c, ext := constExt c }
  | .msclA g y sel => some { Fields.mk0 streamCtl 0xBA (0#6) with x := immCode g, y := y.code, z := immCode sel }
  | .msclB g y sel => some { Fields.mk0 streamCtl 0xBA (1#6) with x := immCode g, y := y.code, z := immCode sel }
  | .msclAOff => some (Fields.mk0 streamCtl 0xBA (2#6))
  | .msclBOff => some (Fields.mk0 streamCtl 0xBA (3#6))
  | .mma cls i40 sc zf s fa fb nb =>
    some { Fields.mk0 streamCtl 0xBB (cls.code ++ bit1 i40 ++ bit1 sc ++ bit1 zf) with x := immCode s, y := (if Machine.mmaNarrow cls then immCode (0#4 ++ fb ++ fa) else 0#12), z := immCode nb }
  | .mmas cls i40 sc zf s fa fb nb =>
    some { Fields.mk0 streamCtl 0xBC (cls.code ++ bit1 i40 ++ bit1 sc ++ bit1 zf) with x := immCode s, y := (if Machine.mmaNarrow cls then immCode (0#4 ++ fb ++ fa) else 0#12), z := immCode nb }
  | .mzero s => some { Fields.mk0 streamCtl 0xBD (0#6) with x := immCode s }
  | .mrd fmt scope s fm =>
    some { Fields.mk0 streamCtl 0xBE (fmt.code ++ 0#3) with x := immCode s, y := (if Machine.tileNarrow fmt then immCode fm else 0#12), ext := 0#4 ++ scope.code ++ 0#3 }
  | .mwr fmt kind s fm =>
    some { Fields.mk0 streamCtl 0xBF (fmt.code ++ 0#2 ++ bit1 kind) with x := immCode s, y := (if Machine.tileNarrow fmt then immCode fm else 0#12) }
  | .mbarArv k n => some { Fields.mk0 streamCtl 0xC0 (0#6) with x := immCode k, z := imm20Z n, ext := imm20Ext n }
  | .mbarWait k y => some { Fields.mk0 streamCtl 0xC0 (1#6) with x := immCode k, y := immCode y }
  | .mbarArw k n => some { Fields.mk0 streamCtl 0xC0 (2#6) with x := immCode k, z := imm20Z n, ext := imm20Ext n }
  | .mbarRsv k y => some { Fields.mk0 streamCtl 0xC0 (3#6) with x := immCode k, y := immCode y }
  | .mbarCmt k y => some { Fields.mk0 streamCtl 0xC0 (4#6) with x := immCode k, y := immCode y }
  | .mbarTake k y => some { Fields.mk0 streamCtl 0xC0 (5#6) with x := immCode k, y := immCode y }
  | .mbarFree k y => some { Fields.mk0 streamCtl 0xC0 (6#6) with x := immCode k, y := immCode y }
  | .mckpt i => some { Fields.mk0 streamCtl 0xC1 (0#6) with z := imm20Z i, ext := imm20Ext i }
  | .mjmp x off => some { Fields.mk0 streamCtl 0xC2 (0#6) with x := immCode x, z := imm20Z off, ext := imm20Ext off }
  | .mjmpAl off => some { Fields.mk0 streamCtl 0xC2 (1#6) with z := imm20Z off, ext := imm20Ext off }
  | .mend => some (Fields.mk0 streamCtl 0xC3 (0#6))
  | _ => none

/-- The fields of the inter-island instructions. -/
def fieldsFabric : Instr → Option Fields
  | .put c x y => some { Fields.mk0 c 0xC8 (0#6) with x := x.code, y := y.code }
  | .get c x y => some { Fields.mk0 c 0xC9 (0#6) with x := x.code, y := y.code }
  | .ratom c op wide win ord x a z =>
    some { Fields.mk0 c 0xCA (op.code ++ 0#1 ++ bit1 wide) with x := x.code, y := a.code, z := z.code, ext := win ++ 0#5 ++ ord.code ++ 0#1 }
  | .rntfy c x y z => some (Fields.withZ { Fields.mk0 c 0xCB (0#6) with x := x.code, y := y.code } z)
  | .rfence c => some (Fields.mk0 c 0xCC (0#6))
  | .coll c x y => some { Fields.mk0 c 0xCD (0#6) with x := x.code, y := y.code }
  | .route c x t k => some { Fields.mk0 c 0xCE (0#6) with x := x.code, y := immCode t, z := immCode k }
  | .topq c x y => some { Fields.mk0 c 0xCF (0#6) with x := x.code, y := y.code }
  | _ => none

/-- The fields of the system instructions. -/
def fieldsSystem : Instr → Option Fields
  | .sysrd c x n => some { Fields.mk0 c 0xD8 (0#6) with x := x.code, z := imm20Z n, ext := imm20Ext n }
  | .sysrdSel c x y n =>
    some { Fields.mk0 c 0xD8 (1#6) with x := x.code, y := y.code, z := imm20Z n, ext := imm20Ext n }
  | .syswr c y n => some { Fields.mk0 c 0xD9 (0#6) with y := y.code, z := imm20Z n, ext := imm20Ext n }
  | .syswrSel c x y n =>
    some { Fields.mk0 c 0xD9 (1#6) with x := x.code, y := y.code, z := imm20Z n, ext := imm20Ext n }
  | .tlbiAll c => some (Fields.mk0 c 0xDA (0#6))
  | .tlbiCtx c y => some { Fields.mk0 c 0xDA (1#6) with y := y.code }
  | .tlbiPage c win y z => some { Fields.mk0 c 0xDA (2#6) with y := y.code, z := z.code, ext := win ++ 0#8 }
  | .ctxsv c x y => some { Fields.mk0 c 0xDB (0#6) with x := x.code, y := y.code }
  | .ctxld c x y => some { Fields.mk0 c 0xDC (0#6) with x := x.code, y := y.code }
  | .resumeReplay c x y => some { Fields.mk0 c 0xDD (0#6) with x := x.code, y := y.code }
  | .resumeSkip c x y => some { Fields.mk0 c 0xDD (1#6) with x := x.code, y := y.code }
  | .resumeTrap c x y => some { Fields.mk0 c 0xDD (2#6) with x := x.code, y := y.code }
  | .snap c x t => some { Fields.mk0 c 0xDE (0#6) with x := x.code, z := imm20Z t, ext := imm20Ext t }
  | .haltIsl c => some (Fields.mk0 c 0xDF (0#6))
  | .haltPnl c => some (Fields.mk0 c 0xDF (1#6))
  | _ => none

/-- The fields of an instruction; an event has no word. -/
def fieldsOf (i : Instr) : Option Fields :=
  fieldsControl i <|> fieldsOverlay i <|> fieldsInteger i <|> fieldsFloat i <|> fieldsLane i <|> fieldsMemory i <|>
    fieldsHyp i <|> fieldsSync i <|> fieldsMatrix i <|> fieldsFabric i <|> fieldsSystem i

/-- The word of a well-formed instruction. -/
def encode (i : Instr) : Option IWord := (fieldsOf i).map Fields.pack

/-- The control instruction of a word's fields. -/
def parseControl (f : Fields) : Option Instr :=
  match f.opc.toNat with
  | 0x00 => some (.nop f.c)
  | 0x01 => some (.bra f.c (imm20Of f.z f.ext))
  | 0x02 => do
      let park := f.md.getLsbD 0
      let y ← Opnd.ofCode f.y
      pure (.brx f.c park y)
  | 0x03 => do
      let park := f.md.getLsbD 0
      let x ← Opnd.ofCode f.x
      let cp := constOf f.y f.z f.ext
      pure (.call f.c park x cp)
  | 0x04 => do
      let park := f.md.getLsbD 0
      let x ← Opnd.ofCode f.x
      let y ← Opnd.ofCode f.y
      pure (.callx f.c park x y)
  | 0x05 => do
      let park := f.md.getLsbD 0
      let y ← Opnd.ofCode f.y
      pure (.ret f.c park y)
  | 0x06 => some (.exit f.c)
  | 0x07 => some (.sleep f.c (imm20Of f.z f.ext))
  | 0x08 => some (.ckpt f.c (imm20Of f.z f.ext))
  | 0x09 =>
    match f.md.toNat with
    | 0 => some (.trap f.c (imm20Of f.z f.ext))
    | 1 => do
        let y ← Opnd.ofCode f.y
        pure (.trapSetv f.c y)
    | 2 => do
        let x ← Opnd.ofCode f.x
        pure (.trapGetv f.c x)
    | _ => none
  | 0x0A => some (.rtt f.c)
  | 0x0B =>
    match f.md.toNat with
    | 0 => some (.killWg f.c)
    | 1 => some (.killLaunch f.c)
    | _ => none
  | 0x0F => some (.rep f.c (f.md.extractLsb' 4 2) (f.md.extractLsb' 2 2) (f.md.extractLsb' 0 2) (immOf f.z))
  | _ => none

/-- The overlay instruction of a word's fields. -/
def parseOverlay (f : Fields) : Option Instr :=
  match f.opc.toNat with
  | 0x10 => do
      let x ← Opnd.ofCode f.x
      let y ← Opnd.ofCode f.y
      let z ← ZOp.ofCode f.z f.ext
      pure (.ovlLd f.c x y z)
  | 0x11 => do
      let x ← Opnd.ofCode f.x
      let z ← ZOp.ofCode f.z f.ext
      pure (.ovlPin f.c x z)
  | 0x12 => do
      let x ← Opnd.ofCode f.x
      let y ← Opnd.ofCode f.y
      pure (.ovlUnpin f.c x y)
  | 0x13 => do
      let x ← Opnd.ofCode f.x
      let z ← ZOp.ofCode f.z f.ext
      pure (.ovlEvict f.c x z)
  | 0x14 => do
      let x ← Opnd.ofCode f.x
      let z ← ZOp.ofCode f.z f.ext
      pure (.ovlQry f.c x z)
  | 0x15 => do
      let x ← Opnd.ofCode f.x
      let y ← Opnd.ofCode f.y
      pure (.ovlAddr f.c x y)
  | _ => none

/-- The integer instruction of a word's fields. -/
def parseInteger (f : Fields) : Option Instr :=
  match f.opc.toNat with
  | 0x18 => do
      let t ← IType.ofCode (f.md.extractLsb' 2 4)
      let sat := f.md.getLsbD 0
      let x ← Opnd.ofCode f.x
      let y ← Opnd.ofCode f.y
      let z ← ZOp.ofCode f.z f.ext
      pure (.iadd f.c t sat x y z)
  | 0x19 => do
      let t ← IType.ofCode (f.md.extractLsb' 2 4)
      let sat := f.md.getLsbD 0
      let x ← Opnd.ofCode f.x
      let y ← Opnd.ofCode f.y
      let z ← ZOp.ofCode f.z f.ext
      pure (.isub f.c t sat x y z)
  | 0x1A => do
      let ci ← CarryIn.ofCode (f.md.extractLsb' 0 2)
      let x ← Opnd.ofCode f.x
      let y ← Opnd.ofCode f.y
      let z ← ZOp.ofCode f.z f.ext
      pure (.iaddc f.c ci x y z)
  | 0x1B => do
      let t ← IType.ofCode (f.md.extractLsb' 2 4)
      let sat := f.md.getLsbD 0
      let x ← Opnd.ofCode f.x
      let y ← Opnd.ofCode f.y
      let z ← ZOp.ofCode f.z f.ext
      pure (.imul f.c t sat x y z)
  | 0x1C => do
      let t ← IType.ofCode (f.md.extractLsb' 2 4)
      let x ← Opnd.ofCode f.x
      let y ← Opnd.ofCode f.y
      let z ← ZOp.ofCode f.z f.ext
      pure (.imulh f.c t x y z)
  | 0x1D => do
      let t ← IType.ofCode (f.md.extractLsb' 2 4)
      let sat := f.md.getLsbD 0
      let x ← Opnd.ofCode f.x
      let y ← Opnd.ofCode f.y
      let z ← ZOp.ofCode f.z f.ext
      pure (.imad f.c t sat x y z)
  | 0x1E => do
      let t ← IType.ofCode (f.md.extractLsb' 2 4)
      let sat := f.md.getLsbD 0
      let x ← Opnd.ofCode f.x
      let y ← Opnd.ofCode f.y
      let z ← ZOp.ofCode f.z f.ext
      pure (.imadw f.c t sat x y z)
  | 0x1F => do
      let t ← IType.ofCode (f.md.extractLsb' 2 4)
      let x ← Opnd.ofCode f.x
      let y ← Opnd.ofCode f.y
      let z ← ZOp.ofCode f.z f.ext
      pure (.imin f.c t x y z)
  | 0x20 => do
      let t ← IType.ofCode (f.md.extractLsb' 2 4)
      let x ← Opnd.ofCode f.x
      let y ← Opnd.ofCode f.y
      let z ← ZOp.ofCode f.z f.ext
      pure (.imax f.c t x y z)
  | 0x21 => do
      let t ← IType.ofCode (f.md.extractLsb' 2 4)
      let sat := f.md.getLsbD 0
      let x ← Opnd.ofCode f.x
      let y ← Opnd.ofCode f.y
      pure (.iabs f.c t sat x y)
  | 0x22 => do
      let t ← IType.ofCode (f.md.extractLsb' 2 4)
      let sat := f.md.getLsbD 0
      let x ← Opnd.ofCode f.x
      let y ← Opnd.ofCode f.y
      let z ← ZOp.ofCode f.z f.ext
      pure (.iaddmn f.c t sat x y z)
  | 0x23 => do
      let t ← IType.ofCode (f.md.extractLsb' 2 4)
      let sat := f.md.getLsbD 0
      let x ← Opnd.ofCode f.x
      let y ← Opnd.ofCode f.y
      let z ← ZOp.ofCode f.z f.ext
      pure (.iaddmx f.c t sat x y z)
  | 0x24 => do
      let t ← IType.ofCode (f.md.extractLsb' 2 4)
      let sat := f.md.getLsbD 0
      let x ← Opnd.ofCode f.x
      let y ← Opnd.ofCode f.y
      let z ← ZOp.ofCode f.z f.ext
      pure (.isad f.c t sat x y z)
  | 0x25 => do
      let wrap := f.md.getLsbD 0
      let x ← Opnd.ofCode f.x
      let y ← Opnd.ofCode f.y
      let z ← ZOp.ofCode f.z f.ext
      pure (.shl f.c wrap x y z)
  | 0x26 => do
      let wrap := f.md.getLsbD 0
      let x ← Opnd.ofCode f.x
      let y ← Opnd.ofCode f.y
      let z ← ZOp.ofCode f.z f.ext
      pure (.shr f.c wrap x y z)
  | 0x27 => do
      let wrap := f.md.getLsbD 0
      let x ← Opnd.ofCode f.x
      let y ← Opnd.ofCode f.y
      let z ← ZOp.ofCode f.z f.ext
      pure (.sar f.c wrap x y z)
  | 0x28 => do
      let sw := f.md.getLsbD 0
      let rot := f.md.getLsbD 1
      let x ← Opnd.ofCode f.x
      let y ← Opnd.ofCode f.y
      let z ← ZOp.ofCode f.z f.ext
      pure (.extr f.c sw rot x y z)
  | 0x29 => do
      let t ← IType.ofCode (f.md.extractLsb' 2 4)
      let m ← Merge.ofCode (f.ext.extractLsb' 4 2)
      let fn := f.ext.extractLsb' 0 4
      let x ← Opnd.ofCode f.x
      let y ← Opnd.ofCode f.y
      let z ← Opnd.ofCode f.z
      pure (.bool f.c t m fn x y z)
  | 0x2A => do
      let t ← IType.ofCode (f.md.extractLsb' 2 4)
      let x ← Opnd.ofCode f.x
      let y ← Opnd.ofCode f.y
      pure (.popc f.c t x y)
  | 0x2B => do
      let t ← IType.ofCode (f.md.extractLsb' 2 4)
      let x ← Opnd.ofCode f.x
      let y ← Opnd.ofCode f.y
      pure (.clz f.c t x y)
  | 0x2C => do
      let t ← IType.ofCode (f.md.extractLsb' 2 4)
      let x ← Opnd.ofCode f.x
      let y ← Opnd.ofCode f.y
      pure (.brev f.c t x y)
  | 0x2D => do
      let t ← IType.ofCode (f.md.extractLsb' 2 4)
      let x ← Opnd.ofCode f.x
      let y ← Opnd.ofCode f.y
      let z ← ZOp.ofCode f.z f.ext
      pure (.bfx f.c t x y z)
  | 0x2E => do
      let x ← Opnd.ofCode f.x
      let y ← Opnd.ofCode f.y
      let z ← ZOp.ofCode f.z f.ext
      pure (.bfi f.c x y z)
  | 0x2F => do
      let x ← Opnd.ofCode f.x
      let y ← Opnd.ofCode f.y
      let z ← ZOp.ofCode f.z f.ext
      pure (.bsel f.c x y z)
  | 0x30 => do
      let t ← IType.ofCode (f.md.extractLsb' 2 4)
      let x ← Opnd.ofCode f.x
      let y ← Opnd.ofCode f.y
      let z ← ZOp.ofCode f.z f.ext
      pure (.sel f.c t x y z)
  | 0x31 => do
      let t ← IType.ofCode (f.md.extractLsb' 2 4)
      let one := f.md.getLsbD 0
      let cc ← ICond.ofCode (f.ext.extractLsb' 0 3)
      let x ← Opnd.ofCode f.x
      let y ← Opnd.ofCode f.y
      let z ← Opnd.ofCode f.z
      pure (.iset f.c t one cc x y z)
  | 0x32 => do
      let t ← IType.ofCode (f.md.extractLsb' 2 4)
      let b := f.ext.extractLsb' 5 5
      let cc ← ICond.ofCode (f.ext.extractLsb' 0 3)
      let x ← Opnd.ofCode f.x
      let y ← Opnd.ofCode f.y
      let z ← Opnd.ofCode f.z
      pure (.icmpp f.c t b cc x y z)
  | 0x33 => do
      let t ← IType.ofCode (f.md.extractLsb' 2 4)
      let x ← Opnd.ofCode f.x
      let y ← Opnd.ofCode f.y
      pure (.mov f.c t x y)
  | 0x34 => do
      let t ← IType.ofCode (f.md.extractLsb' 2 4)
      let x ← Opnd.ofCode f.x
      let i := imm20Of f.z f.ext
      pure (.movi f.c t x i)
  | 0x35 => do
      let x ← Opnd.ofCode f.x
      let k := constOf f.y f.z f.ext
      pure (.movw f.c x k)
  | 0x36 => do
      let t ← IType.ofCode (f.md.extractLsb' 2 4)
      let x ← Opnd.ofCode f.x
      let y ← Opnd.ofCode f.y
      let z ← ZOp.ofCode f.z f.ext
      pure (.movs f.c t x y z)
  | 0x37 =>
    match f.md.toNat with
    | 8 => do
        let x ← Opnd.ofCode f.x
        let n := imm20Of f.z f.ext
        pure (.movsrRd f.c x n)
    | 9 => do
        let y ← Opnd.ofCode f.y
        let n := imm20Of f.z f.ext
        pure (.movsrWr f.c y n)
    | _ => none
  | 0x38 => do
      let t ← IType.ofCode (f.md.extractLsb' 2 4)
      let k := f.ext.extractLsb' 0 3
      let x ← Opnd.ofCode f.x
      let y ← Opnd.ofCode f.y
      let z ← Opnd.ofCode f.z
      pure (.lea f.c t k x y z)
  | 0x39 => do
      let t ← IType.ofCode (f.md.extractLsb' 2 4)
      let sat := f.md.getLsbD 0
      let x ← Opnd.ofCode f.x
      let y ← Opnd.ofCode f.y
      let z ← ZOp.ofCode f.z f.ext
      pure (.iadd64 f.c t sat x y z)
  | 0x3A => do
      let t ← IType.ofCode (f.md.extractLsb' 2 4)
      let sat := f.md.getLsbD 0
      let x ← Opnd.ofCode f.x
      let y ← Opnd.ofCode f.y
      let z ← ZOp.ofCode f.z f.ext
      pure (.isub64 f.c t sat x y z)
  | 0x3B => do
      let x ← Opnd.ofCode f.x
      let y ← Opnd.ofCode f.y
      let z ← ZOp.ofCode f.z f.ext
      pure (.shl64 f.c x y z)
  | 0x3C => do
      let arith := f.md.getLsbD 0
      let x ← Opnd.ofCode f.x
      let y ← Opnd.ofCode f.y
      let z ← ZOp.ofCode f.z f.ext
      pure (.shr64 f.c arith x y z)
  | 0x3D => do
      let td ← IType.ofCode (f.md.extractLsb' 2 4)
      let ts ← IType.ofCode (f.ext.extractLsb' 0 4)
      let sat := f.md.getLsbD 0
      let x ← Opnd.ofCode f.x
      let y ← Opnd.ofCode f.y
      pure (.cvti f.c td ts sat x y)
  | _ => none

/-- The floating instruction of a word's fields. -/
def parseFloat (f : Fields) : Option Instr :=
  match f.opc.toNat with
  | 0x40 => do
      let fm ← FType.ofCode (f.md.extractLsb' 3 3)
      let rm ← Rmf.ofCode (f.md.extractLsb' 0 3)
      let x ← Opnd.ofCode f.x
      let y ← Opnd.ofCode f.y
      let z ← ZOp.ofCode f.z f.ext
      pure (.fadd f.c fm rm x y z)
  | 0x41 => do
      let fm ← FType.ofCode (f.md.extractLsb' 3 3)
      let rm ← Rmf.ofCode (f.md.extractLsb' 0 3)
      let x ← Opnd.ofCode f.x
      let y ← Opnd.ofCode f.y
      let z ← ZOp.ofCode f.z f.ext
      pure (.fsub f.c fm rm x y z)
  | 0x42 => do
      let fm ← FType.ofCode (f.md.extractLsb' 3 3)
      let rm ← Rmf.ofCode (f.md.extractLsb' 0 3)
      let x ← Opnd.ofCode f.x
      let y ← Opnd.ofCode f.y
      let z ← ZOp.ofCode f.z f.ext
      pure (.fmul f.c fm rm x y z)
  | 0x43 => do
      let fm ← FType.ofCode (f.md.extractLsb' 3 3)
      let rm ← Rmf.ofCode (f.md.extractLsb' 0 3)
      let x ← Opnd.ofCode f.x
      let y ← Opnd.ofCode f.y
      let z ← ZOp.ofCode f.z f.ext
      pure (.ffma f.c fm rm x y z)
  | 0x44 => do
      let fm ← FType.ofCode (f.md.extractLsb' 3 3)
      let x ← Opnd.ofCode f.x
      let y ← Opnd.ofCode f.y
      let z ← ZOp.ofCode f.z f.ext
      pure (.fmin f.c fm x y z)
  | 0x45 => do
      let fm ← FType.ofCode (f.md.extractLsb' 3 3)
      let x ← Opnd.ofCode f.x
      let y ← Opnd.ofCode f.y
      let z ← ZOp.ofCode f.z f.ext
      pure (.fmax f.c fm x y z)
  | 0x46 => do
      let fm ← FType.ofCode (f.md.extractLsb' 3 3)
      let one := f.md.getLsbD 0
      let cc ← FCond.ofCode (f.ext.extractLsb' 0 3)
      let x ← Opnd.ofCode f.x
      let y ← Opnd.ofCode f.y
      let z ← Opnd.ofCode f.z
      pure (.fset f.c fm one cc x y z)
  | 0x47 => do
      let fm ← FType.ofCode (f.md.extractLsb' 3 3)
      let b := f.ext.extractLsb' 5 5
      let cc ← FCond.ofCode (f.ext.extractLsb' 0 3)
      let x ← Opnd.ofCode f.x
      let y ← Opnd.ofCode f.y
      let z ← Opnd.ofCode f.z
      pure (.fcmpp f.c fm b cc x y z)
  | 0x48 => do
      let fm ← FType.ofCode (f.md.extractLsb' 3 3)
      let rm ← Rmf.ofCode (f.md.extractLsb' 0 3)
      let x ← Opnd.ofCode f.x
      let y ← Opnd.ofCode f.y
      pure (.frnd f.c fm rm x y)
  | 0x49 => do
      let fd ← FType.ofCode (f.md.extractLsb' 3 3)
      let fs ← FType.ofCode (f.ext.extractLsb' 0 3)
      let rm ← Rmf.ofCode (f.md.extractLsb' 0 3)
      let hi := f.ext.getLsbD 9
      let fmd := f.ext.extractLsb' 6 3
      let fms := f.ext.extractLsb' 3 3
      let x ← Opnd.ofCode f.x
      let y ← Opnd.ofCode f.y
      let z ← if Machine.fPacked fd then (Opnd.ofCode f.z).map some else some none
      pure (.fcvt f.c fd fs rm hi fmd fms x y z)
  | 0x4A => do
      let t ← IType.ofCode (f.ext.extractLsb' 0 4)
      let fs ← FType.ofCode (f.md.extractLsb' 3 3)
      let rm ← Rmf.ofCode (f.md.extractLsb' 0 3)
      let hi := f.ext.getLsbD 9
      let x ← Opnd.ofCode f.x
      let y ← Opnd.ofCode f.y
      pure (.fcvti f.c t fs rm hi x y)
  | 0x4B => do
      let fd ← FType.ofCode (f.md.extractLsb' 3 3)
      let t ← IType.ofCode (f.ext.extractLsb' 0 4)
      let rm ← Rmf.ofCode (f.md.extractLsb' 0 3)
      let x ← Opnd.ofCode f.x
      let y ← Opnd.ofCode f.y
      pure (.icvtf f.c fd t rm x y)
  | 0x4C => do
      let fm ← FType.ofCode (f.md.extractLsb' 3 3)
      let rm ← Rmf.ofCode (f.md.extractLsb' 0 3)
      let x ← Opnd.ofCode f.x
      let y ← Opnd.ofCode f.y
      let z ← ZOp.ofCode f.z f.ext
      pure (.hadd2 f.c fm rm x y z)
  | 0x4D => do
      let fm ← FType.ofCode (f.md.extractLsb' 3 3)
      let rm ← Rmf.ofCode (f.md.extractLsb' 0 3)
      let x ← Opnd.ofCode f.x
      let y ← Opnd.ofCode f.y
      let z ← ZOp.ofCode f.z f.ext
      pure (.hmul2 f.c fm rm x y z)
  | 0x4E => do
      let fm ← FType.ofCode (f.md.extractLsb' 3 3)
      let rm ← Rmf.ofCode (f.md.extractLsb' 0 3)
      let x ← Opnd.ofCode f.x
      let y ← Opnd.ofCode f.y
      let z ← ZOp.ofCode f.z f.ext
      pure (.hfma2 f.c fm rm x y z)
  | 0x4F => do
      let fm ← FType.ofCode (f.md.extractLsb' 3 3)
      let x ← Opnd.ofCode f.x
      let y ← Opnd.ofCode f.y
      let z ← ZOp.ofCode f.z f.ext
      pure (.hmin2 f.c fm x y z)
  | 0x50 => do
      let fm ← FType.ofCode (f.md.extractLsb' 3 3)
      let x ← Opnd.ofCode f.x
      let y ← Opnd.ofCode f.y
      let z ← ZOp.ofCode f.z f.ext
      pure (.hmax2 f.c fm x y z)
  | 0x51 => do
      let fm ← FType.ofCode (f.md.extractLsb' 3 3)
      let rm ← Rmf.ofCode (f.md.extractLsb' 0 3)
      let x ← Opnd.ofCode f.x
      let y ← Opnd.ofCode f.y
      let z ← ZOp.ofCode f.z f.ext
      pure (.fdot2 f.c fm rm x y z)
  | 0x52 => do
      let fm ← FType.ofCode (f.md.extractLsb' 3 3)
      let rm ← Rmf.ofCode (f.md.extractLsb' 0 3)
      let x ← Opnd.ofCode f.x
      let y ← Opnd.ofCode f.y
      let z ← ZOp.ofCode f.z f.ext
      pure (.fscale f.c fm rm x y z)
  | 0x53 => do
      let fm ← FType.ofCode (f.md.extractLsb' 3 3)
      let x ← Opnd.ofCode f.x
      let y ← Opnd.ofCode f.y
      pure (.fclass f.c fm x y)
  | 0x54 => do
      let fm ← FType.ofCode (f.md.extractLsb' 3 3)
      let x ← Opnd.ofCode f.x
      let y ← Opnd.ofCode f.y
      pure (.frcp f.c fm x y)
  | 0x55 => do
      let fm ← FType.ofCode (f.md.extractLsb' 3 3)
      let x ← Opnd.ofCode f.x
      let y ← Opnd.ofCode f.y
      pure (.frsq f.c fm x y)
  | 0x56 => do
      let fm ← FType.ofCode (f.md.extractLsb' 3 3)
      let x ← Opnd.ofCode f.x
      let y ← Opnd.ofCode f.y
      pure (.fsqrt f.c fm x y)
  | 0x57 => do
      let fm ← FType.ofCode (f.md.extractLsb' 3 3)
      let x ← Opnd.ofCode f.x
      let y ← Opnd.ofCode f.y
      pure (.fexp2 f.c fm x y)
  | 0x58 => do
      let fm ← FType.ofCode (f.md.extractLsb' 3 3)
      let x ← Opnd.ofCode f.x
      let y ← Opnd.ofCode f.y
      pure (.flog2 f.c fm x y)
  | 0x59 => do
      let fm ← FType.ofCode (f.md.extractLsb' 3 3)
      let x ← Opnd.ofCode f.x
      let y ← Opnd.ofCode f.y
      pure (.fsin f.c fm x y)
  | 0x5A => do
      let fm ← FType.ofCode (f.md.extractLsb' 3 3)
      let x ← Opnd.ofCode f.x
      let y ← Opnd.ofCode f.y
      pure (.fcos f.c fm x y)
  | 0x5B => do
      let fm ← FType.ofCode (f.md.extractLsb' 3 3)
      let x ← Opnd.ofCode f.x
      let y ← Opnd.ofCode f.y
      pure (.ftanh f.c fm x y)
  | 0x5C =>
    if f.md.toNat < 8 then
      do
        let k := f.md.extractLsb' 0 3
        let z ← ZOp.ofCode f.z f.ext
        pure (.fmtw f.c k z)
    else
      do
        let k := f.md.extractLsb' 0 3
        let x ← Opnd.ofCode f.x
        pure (.fmtwRd f.c k x)
  | 0x5D =>
    match f.md.toNat with
    | 0 => do
        let x ← Opnd.ofCode f.x
        pure (.fctlRd f.c x)
    | 1 => do
        let z ← ZOp.ofCode f.z f.ext
        pure (.fctlWr f.c z)
    | 2 => do
        let z ← ZOp.ofCode f.z f.ext
        pure (.fctlSet f.c z)
    | 3 => do
        let z ← ZOp.ofCode f.z f.ext
        pure (.fctlClr f.c z)
    | _ => none
  | _ => none

/-- The lane-exchange instruction of a word's fields. -/
def parseLane (f : Fields) : Option Instr :=
  match f.opc.toNat with
  | 0x60 => do
      let m ← LxMode.ofCode (f.md.extractLsb' 4 2)
      let w := f.md.getLsbD 3
      let zf := f.md.getLsbD 2
      let wide := f.md.getLsbD 1
      let x ← Opnd.ofCode f.x
      let y ← Opnd.ofCode f.y
      let z ← ZOp.ofCode f.z f.ext
      pure (.lxch f.c m w zf wide x y z)
  | 0x61 => do
      let op ← RedOp.ofCode (f.md.extractLsb' 2 4)
      let zf := f.md.getLsbD 0
      let x ← Opnd.ofCode f.x
      let y ← Opnd.ofCode f.y
      let z ← ZOp.ofCode f.z f.ext
      pure (.lstep f.c op zf x y z)
  | 0x62 => do
      let m ← VoteMode.ofCode (f.md.extractLsb' 3 3)
      let b := f.ext.extractLsb' 0 5
      let x ← Opnd.ofCode f.x
      let y ← Opnd.ofCode f.y
      pure (.lvote f.c m b x y)
  | 0x63 => do
      let wide := f.md.getLsbD 3
      let hi := f.md.getLsbD 0
      let x ← Opnd.ofCode f.x
      let y ← Opnd.ofCode f.y
      pure (.lmatch f.c wide hi x y)
  | 0x64 => do
      let op ← RedOp.ofCode (f.md.extractLsb' 2 4)
      let exc := f.md.getLsbD 0
      let x ← Opnd.ofCode f.x
      let y ← Opnd.ofCode f.y
      pure (.lscan f.c op exc x y)
  | _ => none

/-- The memory instruction of a word's fields. -/
def parseMemory (f : Fields) : Option Instr :=
  match f.opc.toNat with
  | 0x68 => do
      let t ← IType.ofCode (f.md.extractLsb' 2 4)
      let e ← MemExt.ofCode f.ext
      let x ← Opnd.ofCode f.x
      let a ← Opnd.ofCode f.y
      let off := immOf f.z
      pure (.ld f.c t e x a off)
  | 0x69 => do
      let t ← IType.ofCode (f.md.extractLsb' 2 4)
      let e ← MemExt.ofCode f.ext
      let x ← Opnd.ofCode f.x
      let a ← Opnd.ofCode f.y
      let off := immOf f.z
      pure (.st f.c t e x a off)
  | 0x6A => do
      let t ← IType.ofCode (f.md.extractLsb' 2 4)
      let e ← MemExt.ofCode f.ext
      let x ← Opnd.ofCode f.x
      let a ← Opnd.ofCode f.y
      let off := immOf f.z
      pure (.ldu f.c t e x a off)
  | 0x6B => do
      let op ← AtomOp.ofCode (f.md.extractLsb' 2 4)
      let wide := f.md.getLsbD 0
      let e ← MemExt.ofCode f.ext
      let x ← Opnd.ofCode f.x
      let a ← Opnd.ofCode f.y
      let off := immOf f.z
      pure (.atom f.c op wide e x a off)
  | 0x6C => do
      let wide := f.md.getLsbD 2
      let e ← MemExt.ofCode f.ext
      let x ← Opnd.ofCode f.x
      let a ← Opnd.ofCode f.y
      let off := immOf f.z
      pure (.cas f.c wide e x a off)
  | 0x6D => do
      let scope ← Scope.ofCode (f.ext.extractLsb' 3 3)
      let ord ← MOrd.ofCode (f.ext.extractLsb' 1 2)
      pure (.fence f.c scope ord)
  | 0x6E =>
    match f.md.toNat with
    | 0 => do
        let win := f.ext.extractLsb' 8 2
        let pol ← Policy.ofCode (f.ext.extractLsb' 6 2)
        let x ← Opnd.ofCode f.x
        let a ← Opnd.ofCode f.y
        let off := immOf f.z
        pure (.markEmpty f.c win pol x a off)
    | 1 => do
        let win := f.ext.extractLsb' 8 2
        let pol ← Policy.ofCode (f.ext.extractLsb' 6 2)
        let x ← Opnd.ofCode f.x
        let a ← Opnd.ofCode f.y
        let off := immOf f.z
        pure (.markFull f.c win pol x a off)
    | _ => none
  | 0x6F => do
      let t ← IType.ofCode (f.md.extractLsb' 2 4)
      let ne := f.md.getLsbD 0
      let win := f.ext.extractLsb' 8 2
      let pol ← Policy.ofCode (f.ext.extractLsb' 6 2)
      let x ← Opnd.ofCode f.x
      let a ← Opnd.ofCode f.y
      let off := immOf f.z
      pure (.waita f.c t ne win pol x a off)
  | 0x70 => do
      let win := f.ext.extractLsb' 8 2
      let pol ← Policy.ofCode (f.ext.extractLsb' 6 2)
      let a ← Opnd.ofCode f.y
      let off := immOf f.z
      pure (.pref f.c win pol a off)
  | 0x71 =>
    match f.md.toNat with
    | 0 => do
        let win := f.ext.extractLsb' 8 2
        let a ← Opnd.ofCode f.y
        let off := immOf f.z
        pure (.flush f.c win a off)
    | 1 => some (.flushAll f.c)
    | _ => none
  | 0x72 =>
    match f.md.toNat with
    | 0 => do
        let win := f.ext.extractLsb' 8 2
        let a ← Opnd.ofCode f.y
        let off := immOf f.z
        pure (.invl f.c win a off)
    | 1 => some (.invlAll f.c)
    | _ => none
  | _ => none

/-- The hypothesis instruction of a word's fields. -/
def parseHyp (f : Fields) : Option Instr :=
  match f.opc.toNat with
  | 0x88 => do
      let x ← Opnd.ofCode f.x
      let y ← Opnd.ofCode f.y
      pure (.hypOpen f.c x y)
  | 0x89 => do
      let x ← Opnd.ofCode f.x
      let y ← Opnd.ofCode f.y
      pure (.hypEnter f.c x y)
  | 0x8A => do
      let x ← Opnd.ofCode f.x
      pure (.hypLeave f.c x)
  | 0x8B =>
    match f.md.toNat with
    | 0 => do
        let x ← Opnd.ofCode f.x
        let y ← Opnd.ofCode f.y
        pure (.hypResolveConfirm f.c x y)
    | 1 => do
        let x ← Opnd.ofCode f.x
        let y ← Opnd.ofCode f.y
        pure (.hypResolveRefute f.c x y)
    | _ => none
  | 0x8C =>
    match f.md.toNat with
    | 0 => do
        let x ← Opnd.ofCode f.x
        let y ← Opnd.ofCode f.y
        pure (.hypQry f.c x y)
    | 1 => do
        let x ← Opnd.ofCode f.x
        pure (.hypQryCur f.c x)
    | _ => none
  | _ => none

/-- The copy and synchronisation instruction of a word's fields. -/
def parseSync (f : Fields) : Option Instr :=
  match f.opc.toNat with
  | 0x90 => do
      let n ← CpySize.ofCode (f.md.extractLsb' 4 2)
      let fill := f.md.getLsbD 3
      let wd := f.ext.extractLsb' 8 2
      let ws := f.ext.extractLsb' 6 2
      let scope ← Scope.ofCode (f.ext.extractLsb' 3 3)
      let x ← Opnd.ofCode f.x
      let y ← Opnd.ofCode f.y
      pure (.cpy f.c n fill wd ws scope x y)
  | 0x91 => do
      let x ← Opnd.ofCode f.x
      let y ← Opnd.ofCode f.y
      pure (.cpyb f.c x y)
  | 0x92 => some (.qfence f.c (imm20Of f.z f.ext))
  | 0x93 => do
      let x ← Opnd.ofCode f.x
      let q := imm20Of f.z f.ext
      pure (.qstat f.c x q)
  | 0xA0 => do
      let x ← Opnd.ofCode f.x
      let k := immOf f.y
      let z ← ZOp.ofCode f.z f.ext
      pure (.barInit f.c x k z)
  | 0xA1 => do
      let x ← if f.md.getLsbD 0 then (Opnd.ofCode f.x).map some else some none
      let k := immOf f.y
      let z ← ZOp.ofCode f.z f.ext
      pure (.barArv f.c x k z)
  | 0xA2 => do
      let k := immOf f.y
      let z ← ZOp.ofCode f.z f.ext
      pure (.barWait f.c k z)
  | 0xA3 => do
      let k := immOf f.y
      let z ← ZOp.ofCode f.z f.ext
      pure (.barArw f.c k z)
  | 0xA4 => do
      let x ← Opnd.ofCode f.x
      let k := immOf f.y
      let z ← ZOp.ofCode f.z f.ext
      pure (.ringInit f.c x k z)
  | 0xA5 =>
    match f.md.toNat with
    | 0 => do
        let x ← Opnd.ofCode f.x
        let k := immOf f.y
        pure (.ringPushRsv f.c x k)
    | 1 => do
        let x ← Opnd.ofCode f.x
        let k := immOf f.y
        let z ← ZOp.ofCode f.z f.ext
        pure (.ringPushCmt f.c x k z)
    | _ => none
  | 0xA6 =>
    match f.md.toNat with
    | 0 => do
        let x ← Opnd.ofCode f.x
        let k := immOf f.y
        pure (.ringPopTake f.c x k)
    | 1 => do
        let x ← Opnd.ofCode f.x
        let k := immOf f.y
        let z ← ZOp.ofCode f.z f.ext
        pure (.ringPopFree f.c x k z)
    | _ => none
  | 0xA7 =>
    match f.md.toNat with
    | 0 | 2 => do
        let sys := f.md.getLsbD 1
        let y ← Opnd.ofCode f.y
        let z ← ZOp.ofCode f.z f.ext
        pure (.ntfy f.c sys y z)
    | 1 | 3 => do
        let sys := f.md.getLsbD 1
        let y ← Opnd.ofCode f.y
        let z ← ZOp.ofCode f.z f.ext
        pure (.ntfySet f.c sys y z)
    | _ => none
  | 0xA8 => do
      let sys := f.md.getLsbD 1
      let x ← Opnd.ofCode f.x
      let y ← Opnd.ofCode f.y
      let z ← ZOp.ofCode f.z f.ext
      pure (.nwait f.c sys x y z)
  | 0xA9 =>
    match f.md.toNat with
    | 0 => do
        let x ← Opnd.ofCode f.x
        let k := immOf f.y
        let z ← ZOp.ofCode f.z f.ext
        pure (.pbarInit f.c x k z)
    | 1 => do
        let x ← Opnd.ofCode f.x
        let k := immOf f.y
        pure (.pbarArv f.c x k)
    | 2 => do
        let k := immOf f.y
        let z ← ZOp.ofCode f.z f.ext
        pure (.pbarWait f.c k z)
    | 3 => do
        let x ← Opnd.ofCode f.x
        let k := immOf f.y
        pure (.pbarArw f.c x k)
    | _ => none
  | _ => none

/-- The matrix instruction of a word's fields. -/
def parseMatrix (f : Fields) : Option Instr :=
  match f.opc.toNat with
  | 0xB0 =>
    match f.md.toNat with
    | 0 => do
        let x ← Opnd.ofCode f.x
        let cp := constOf f.y f.z f.ext
        pure (.mstart f.c x cp)
    | 1 => do
        let x ← Opnd.ofCode f.x
        let y ← Opnd.ofCode f.y
        pure (.mstartV f.c x y)
    | _ => none
  | 0xB1 => do
      let x ← Opnd.ofCode f.x
      pure (.mstop f.c x)
  | 0xB2 =>
    match f.md.toNat with
    | 0 => do
        let x ← Opnd.ofCode f.x
        pure (.mqry f.c x)
    | 1 => do
        let x ← Opnd.ofCode f.x
        pure (.mqryClr f.c x)
    | _ => none
  | 0xB8 =>
    match f.md.toNat with
    | 0 => some (.msetLo (immOf f.x) (constOf f.y f.z f.ext))
    | 1 => some (.msetHi (immOf f.x) (constOf f.y f.z f.ext))
    | 2 => some (.msetAdd (immOf f.x) (constOf f.y f.z f.ext))
    | 3 => do
        let x := immOf f.x
        let g := immOf f.y
        let z ← Opnd.ofCode f.z
        pure (.msetU x g z)
    | 4 => some (.msetIx (immOf f.x) (f.y.extractLsb' 0 4) (f.y.extractLsb' 4 5) (immOf f.z))
    | _ => none
  | 0xB9 => some (.mfmt (immOf f.x) (constOf f.y f.z f.ext))
  | 0xBA =>
    match f.md.toNat with
    | 0 => do
        let g := immOf f.x
        let y ← Opnd.ofCode f.y
        let sel := immOf f.z
        pure (.msclA g y sel)
    | 1 => do
        let g := immOf f.x
        let y ← Opnd.ofCode f.y
        let sel := immOf f.z
        pure (.msclB g y sel)
    | 2 => some (.msclAOff)
    | 3 => some (.msclBOff)
    | _ => none
  | 0xBB => do
      let cls ← MmaClass.ofCode (f.md.extractLsb' 3 3)
      let i40 := f.md.getLsbD 2
      let sc := f.md.getLsbD 1
      let zf := f.md.getLsbD 0
      let s := immOf f.x
      let fa := f.y.extractLsb' 0 3
      let fb := f.y.extractLsb' 3 3
      let nb := immOf f.z
      pure (.mma cls i40 sc zf s fa fb nb)
  | 0xBC => do
      let cls ← MmaClass.ofCode (f.md.extractLsb' 3 3)
      let i40 := f.md.getLsbD 2
      let sc := f.md.getLsbD 1
      let zf := f.md.getLsbD 0
      let s := immOf f.x
      let fa := f.y.extractLsb' 0 3
      let fb := f.y.extractLsb' 3 3
      let nb := immOf f.z
      pure (.mmas cls i40 sc zf s fa fb nb)
  | 0xBD => some (.mzero (immOf f.x))
  | 0xBE => do
      let fmt ← TileFmt.ofCode (f.md.extractLsb' 3 3)
      let scope ← Scope.ofCode (f.ext.extractLsb' 3 3)
      let s := immOf f.x
      let fm := f.y.extractLsb' 0 10
      pure (.mrd fmt scope s fm)
  | 0xBF => do
      let fmt ← TileFmt.ofCode (f.md.extractLsb' 3 3)
      let kind := f.md.getLsbD 0
      let s := immOf f.x
      let fm := f.y.extractLsb' 0 10
      pure (.mwr fmt kind s fm)
  | 0xC0 =>
    match f.md.toNat with
    | 0 => some (.mbarArv (immOf f.x) (imm20Of f.z f.ext))
    | 1 => some (.mbarWait (immOf f.x) (immOf f.y))
    | 2 => some (.mbarArw (immOf f.x) (imm20Of f.z f.ext))
    | 3 => some (.mbarRsv (immOf f.x) (immOf f.y))
    | 4 => some (.mbarCmt (immOf f.x) (immOf f.y))
    | 5 => some (.mbarTake (immOf f.x) (immOf f.y))
    | 6 => some (.mbarFree (immOf f.x) (immOf f.y))
    | _ => none
  | 0xC1 => some (.mckpt (imm20Of f.z f.ext))
  | 0xC2 =>
    match f.md.toNat with
    | 0 => some (.mjmp (immOf f.x) (imm20Of f.z f.ext))
    | 1 => some (.mjmpAl (imm20Of f.z f.ext))
    | _ => none
  | 0xC3 => some (.mend)
  | _ => none

/-- The inter-island instruction of a word's fields. -/
def parseFabric (f : Fields) : Option Instr :=
  match f.opc.toNat with
  | 0xC8 => do
      let x ← Opnd.ofCode f.x
      let y ← Opnd.ofCode f.y
      pure (.put f.c x y)
  | 0xC9 => do
      let x ← Opnd.ofCode f.x
      let y ← Opnd.ofCode f.y
      pure (.get f.c x y)
  | 0xCA => do
      let op ← RatomOp.ofCode (f.md.extractLsb' 2 4)
      let wide := f.md.getLsbD 0
      let win := f.ext.extractLsb' 8 2
      let ord ← MOrd.ofCode (f.ext.extractLsb' 1 2)
      let x ← Opnd.ofCode f.x
      let a ← Opnd.ofCode f.y
      let z ← Opnd.ofCode f.z
      pure (.ratom f.c op wide win ord x a z)
  | 0xCB => do
      let x ← Opnd.ofCode f.x
      let y ← Opnd.ofCode f.y
      let z ← ZOp.ofCode f.z f.ext
      pure (.rntfy f.c x y z)
  | 0xCC => some (.rfence f.c)
  | 0xCD => do
      let x ← Opnd.ofCode f.x
      let y ← Opnd.ofCode f.y
      pure (.coll f.c x y)
  | 0xCE => do
      let x ← Opnd.ofCode f.x
      let t := immOf f.y
      let k := immOf f.z
      pure (.route f.c x t k)
  | 0xCF => do
      let x ← Opnd.ofCode f.x
      let y ← Opnd.ofCode f.y
      pure (.topq f.c x y)
  | _ => none

/-- The system instruction of a word's fields. -/
def parseSystem (f : Fields) : Option Instr :=
  match f.opc.toNat with
  | 0xD8 =>
    match f.md.toNat with
    | 0 => do
        let x ← Opnd.ofCode f.x
        let n := imm20Of f.z f.ext
        pure (.sysrd f.c x n)
    | 1 => do
        let x ← Opnd.ofCode f.x
        let y ← Opnd.ofCode f.y
        let n := imm20Of f.z f.ext
        pure (.sysrdSel f.c x y n)
    | _ => none
  | 0xD9 =>
    match f.md.toNat with
    | 0 => do
        let y ← Opnd.ofCode f.y
        let n := imm20Of f.z f.ext
        pure (.syswr f.c y n)
    | 1 => do
        let x ← Opnd.ofCode f.x
        let y ← Opnd.ofCode f.y
        let n := imm20Of f.z f.ext
        pure (.syswrSel f.c x y n)
    | _ => none
  | 0xDA =>
    match f.md.toNat with
    | 0 => some (.tlbiAll f.c)
    | 1 => do
        let y ← Opnd.ofCode f.y
        pure (.tlbiCtx f.c y)
    | 2 => do
        let win := f.ext.extractLsb' 8 2
        let y ← Opnd.ofCode f.y
        let z ← Opnd.ofCode f.z
        pure (.tlbiPage f.c win y z)
    | _ => none
  | 0xDB => do
      let x ← Opnd.ofCode f.x
      let y ← Opnd.ofCode f.y
      pure (.ctxsv f.c x y)
  | 0xDC => do
      let x ← Opnd.ofCode f.x
      let y ← Opnd.ofCode f.y
      pure (.ctxld f.c x y)
  | 0xDD =>
    match f.md.toNat with
    | 0 => do
        let x ← Opnd.ofCode f.x
        let y ← Opnd.ofCode f.y
        pure (.resumeReplay f.c x y)
    | 1 => do
        let x ← Opnd.ofCode f.x
        let y ← Opnd.ofCode f.y
        pure (.resumeSkip f.c x y)
    | 2 => do
        let x ← Opnd.ofCode f.x
        let y ← Opnd.ofCode f.y
        pure (.resumeTrap f.c x y)
    | _ => none
  | 0xDE => do
      let x ← Opnd.ofCode f.x
      let t := imm20Of f.z f.ext
      pure (.snap f.c x t)
  | 0xDF =>
    match f.md.toNat with
    | 0 => some (.haltIsl f.c)
    | 1 => some (.haltPnl f.c)
    | _ => none
  | _ => none

/-- The instruction of a word's fields, by class (R36). -/
def parse (f : Fields) : Option Instr :=
  if f.opc.toNat < 0x10 then parseControl f
  else if f.opc.toNat < 0x18 then parseOverlay f
  else if f.opc.toNat < 0x40 then parseInteger f
  else if f.opc.toNat < 0x60 then parseFloat f
  else if f.opc.toNat < 0x68 then parseLane f
  else if f.opc.toNat < 0x88 then parseMemory f
  else if f.opc.toNat < 0x90 then parseHyp f
  else if f.opc.toNat < 0xB0 then parseSync f
  else if f.opc.toNat < 0xC8 then parseMatrix f
  else if f.opc.toNat < 0xD8 then parseFabric f
  else parseSystem f

/-- The opcodes of R36. -/
def opcodeAssigned (o : Nat) : Bool :=
  o ≤ 0x0B || o = 0x0F || (0x10 ≤ o && o ≤ 0x15) || (0x18 ≤ o && o ≤ 0x3D) || (0x40 ≤ o && o ≤ 0x5D) ||
    (0x60 ≤ o && o ≤ 0x64) || (0x68 ≤ o && o ≤ 0x72) || (0x88 ≤ o && o ≤ 0x8C) || (0x90 ≤ o && o ≤ 0x93) ||
    (0xA0 ≤ o && o ≤ 0xA9) || (0xB0 ≤ o && o ≤ 0xB2) || (0xB8 ≤ o && o ≤ 0xC3) || (0xC8 ≤ o && o ≤ 0xCF) ||
    (0xD8 ≤ o && o ≤ 0xDF)

/-- The opcodes that only a matrix stream may hold (R37). -/
def streamOpcode (o : Nat) : Bool := 0xB8 ≤ o && o ≤ 0xC3

/-- Why a word is no instruction; the machine takes ILLEGAL for each. -/
inductive Reject where
  /-- The opcode is not assigned (R36). -/
  | opcode
  /-- A field holds a code its instruction does not define (R22, R23). -/
  | field
  /-- An operand, immediate or unused field is outside what the instruction accepts (R22, R24, R26, R30, R31). -/
  | form
  deriving DecidableEq, Repr

/-- The decoder, total on words: the well-formed instruction whose word it is, or the reason there is none. -/
def decodeWord (w : IWord) : Except Reject Instr :=
  let f := Fields.split w
  if opcodeAssigned f.opc.toNat then
    match parse f with
    | none => .error .field
    | some i => if Machine.legal i && fieldsOf i == some f then .ok i else .error .form
  else .error .opcode

/-- The decoder without its reasons. -/
def decode (w : IWord) : Option Instr :=
  match decodeWord w with
  | .ok i => some i
  | .error _ => none

/-- The word of twelve bytes, the lowest address first (R5, R21). -/
def wordOfBytes (bs : List Byte) : Option IWord :=
  if bs.length = 12 then some (bs.foldr (fun b acc => (acc <<< 8) ||| b.setWidth 96) 0#96) else none

/-- The twelve bytes of a word, the lowest address first. -/
def bytesOfWord (w : IWord) : List Byte := (List.range 12).map fun i => w.extractLsb' (8 * i) 8

/-- Decoding any bytes: twelve of them that are an instruction's word. -/
def decodeBytes (bs : List Byte) : Option Instr := (wordOfBytes bs).bind decode

/-- The instruction the decoder reads from `nbits` low bits `w`, the bits above them zero. -/
def decodeTableWord (nbits w : Nat) : Option Instr :=
  decodeBytes (bytesOfWord (BitVec.ofNat 96 (w % 2 ^ nbits)))

end Sys2Proof
end

