-- ==== Sys2Proof/Machine/State.lean ====
section
/-! DEFINITION. The state of the panel: plain data, one field per piece of state the manual names, and the model's own
agenda of pending steps. Tables are lists of (index, value) pairs with rising indices; an index that is not listed
holds the value named beside the table. Cycle numbers are compute-die cycles of an island; times are picoseconds. -/

namespace Sys2Proof.Machine

/-- A sparse table: indices strictly rising. -/
abbrev Tbl (α : Type) := List (Nat × α)

/-- A memory: (address, byte) pairs, addresses strictly rising, no zero byte listed; an unlisted byte reads 0 (log 7). -/
abbrev Memory := List Host.Cell

/-! ## Groups (R78-R92) -/

/-- A group's role (R82). -/
inductive Role where
  | vector | copy
  deriving DecidableEq, Repr, Inhabited

/-- The key of a run: call depth descending, code pointer ascending (R78). -/
structure Key where
  depth : BitVec 8 := 0
  cp : Word := 0
  deriving DecidableEq, Repr, Inhabited

/-- What keeps a thread out of head-run selection. -/
inductive TStat where
  /-- In its run. -/
  | ready
  /-- Asleep until a cycle (R118). -/
  | asleep (till : Nat)
  /-- In a blocking instruction, an operation in flight (R298, R241). -/
  | blocked (op : Nat)
  /-- Parked at a `CKPT` naming a checkpoint index (R109). -/
  | ckpt (idx : Nat)
  /-- Parked for a loading overlay (R132): the target, the depth the transfer gives, the residency entry. -/
  | ovl (target : Word) (depth : BitVec 8) (entry : Nat)
  /-- Parked at restore because its overlay cannot be made resident (R148). -/
  | restore
  deriving DecidableEq, Repr, Inhabited

/-- A barrier wait that remains after its arrival was made (R315). -/
structure WaitRec where
  cp : Word := 0
  panel : Bool := false
  bar : Nat := 0
  phase : Bool := false
  deriving DecidableEq, Repr, Inhabited

/-- An entry of the PC table (R78, R263). -/
structure Thread where
  cp : Word := 0
  depth : BitVec 8 := 0
  orph : Bool := false
  stat : TStat := .ready
  wait : Option WaitRec := none
  deriving DecidableEq, Repr, Inhabited

/-- What a fixed-latency write changes when it falls due (R84). -/
inductive WDest where
  | v (k lane : Nat)
  | s (k : Nat)
  | o (k lane : Nat)
  | lt (lane : Nat)
  | aw (k : Nat)
  | fm (k : Nat)
  | tvec
  | fctlPut | fctlSet | fctlClr
  | fctlRaise
  | flag (f : Nat)
  deriving DecidableEq, Repr, Inhabited

/-- A fixed-latency write not yet made (R84). -/
structure PWrite where
  due : Nat := 0
  /-- Order among writes of one cycle: sticky flags after the control word's own writes (R175), format registers by
  residency slot with the matrix stream last (R191). -/
  rank : Nat := 0
  dest : WDest := .tvec
  val : DWord := 0
  deriving DecidableEq, Repr, Inhabited

/-- A `REP` in progress (R32-R35). -/
structure Rep where
  sx : Nat := 0
  sy : Nat := 0
  sz : Nat := 0
  n : Nat := 1
  /-- The `REP`'s own code pointer and the lanes of its run (R35). -/
  cp : Word := 0
  lanes : LaneMask := 0
  deriving DecidableEq, Repr, Inhabited

/-- A user trap to be taken at a lane's next issue: `HYP_FULL` (R269) or `REMOTE_ABSENT` (R359). -/
structure DueTrap where
  lane : Nat := 0
  op : Nat := 0
  code : BitVec 8 := 0
  info : DWord := 0
  deriving DecidableEq, Repr, Inhabited

/-- A group (R78-R92). Registers and files read 0 where nothing is listed (R92). -/
structure Group where
  place : Nat := 0
  gidx : Nat := 0
  role : Role := .vector
  /-- The PC table, by lane; an ended or absent thread is not listed. -/
  threads : Tbl Thread := []
  /-- `v` registers, index 64 × k + lane. -/
  v : Tbl Word := []
  /-- Uniform registers. -/
  s : Tbl Word := []
  /-- The operand file, index 64 × k + lane. -/
  o : Tbl Word := []
  /-- The latch, by lane. -/
  lt : Tbl DWord := []
  /-- Completion flags `f0`-`f11`, unlisted 0. -/
  flags : Tbl Nat := []
  /-- The FP control word (R62). -/
  fctl : Word := 0
  /-- Window registers `aw0`-`aw3` (R168). -/
  aw : Tbl Word := []
  tvec : Word := 0
  /-- The hypothesis register (R263). -/
  hy : BitVec 8 := 0
  /-- Repeats already issued (R35). -/
  rpi : Nat := 0
  rep : Option Rep := none
  pend : List PWrite := []
  lastIssue : Option Nat := none
  /-- The run whose turn a YLD gives (R80). -/
  yieldTo : Option Key := none
  /-- Since when the group has been eligible (R87). -/
  eligible : Option Nat := none
  /-- Retired instructions (R89). -/
  retired : Word := 0
  urgent : Bool := false
  /-- Order of start on the core (R87). -/
  age : Nat := 0
  /-- The unacknowledged-write counter (R224). -/
  unacked : Nat := 0
  /-- Operations that wait for a release of the group, oldest first (R251). -/
  releasing : List Nat := []
  /-- Acquires, `HYP.ENTER`/`HYP.LEAVE` and `RFENCE` in progress, which make later instructions not eligible. -/
  acquiring : List Nat := []
  entering : List Nat := []
  rfencing : List Nat := []
  /-- `QFENCE`s of the group not completed: a later release waits for them (R294). -/
  qfencing : List Nat := []
  /-- Held by a confirm in progress (R272). -/
  quiesced : Bool := false
  /-- Parked for the driver (R373). -/
  parked : Bool := false
  /-- Records posted for the group and not acted on (R373). -/
  records : Nat := 0
  due : List DueTrap := []
  /-- The information word of an orphaning (R275). -/
  orphInfo : DWord := 0
  /-- The private-memory frame (R386). -/
  frame : Option Nat := none
  ended : Bool := false
  deriving DecidableEq, Repr, Inhabited

/-! ## Places and accesses -/

/-- Where a byte lives after translation (R207-R211). -/
inductive Loc where
  /-- The scratchpad of a workgroup place of a core. -/
  | scr (core place off : Nat)
  /-- The register area of a workgroup place. -/
  | reg (core place off : Nat)
  /-- The pinned area of a core (CORE pages). -/
  | pin (core off : Nat)
  /-- UNCACHED memory. -/
  | unc (pa : Nat)
  /-- CACHED or SLICE memory: a line number and an offset in it. -/
  | line (ln off : Nat)
  /-- A translated address of an audited rerun: the buffer of its workgroup place, and the place its reads fall back to
  (R397). -/
  | buf (core place va : Nat) (under : Loc)
  deriving DecidableEq, Repr, Inhabited

/-- A 32-bit word of a core's unified store whose check bits no longer agree with it: by one bit, or by two (R203). What makes
one is outside the machine. -/
structure SoftErr where
  /-- The word's place: of a scratchpad, a register area, the pinned area, or the core's copy of a line. -/
  loc : Loc := .unc 0
  double : Bool := false
  deriving DecidableEq, Repr, Inhabited

/-- One lane's access of a memory operation. -/
structure Acc where
  lane : Nat := 0
  va : VA := 0
  /-- Size in bytes. -/
  n : Nat := 4
  /-- The store or combine operand, and the new value of a compare-and-swap. -/
  x : DWord := 0
  y : DWord := 0
  loc : Option Loc := none
  /-- The value read, once the access has been performed. -/
  res : Option DWord := none
  /-- The fault the access has taken, waiting for `RESUME`. -/
  fault : Option (BitVec 8) := none
  done : Bool := false
  deriving DecidableEq, Repr, Inhabited

/-- How far a line request of an operation has come (R235). -/
inductive Stage where
  /-- Waits behind a release of the group (R251). -/
  | waiting
  /-- Its address translation is in progress (R384). -/
  | walking
  /-- On its way to the place where it is performed, or held there on an empty line. -/
  | going
  /-- Performed; its value or acknowledgement is on its way. -/
  | performed
  | done
  deriving DecidableEq, Repr, Inhabited

/-- One line request of an operation: the lanes that share it. -/
structure Sub where
  key : Nat := 0
  accs : List Acc := []
  stage : Stage := .waiting
  /-- Counted by the group's unacknowledged-write counter. -/
  counted : Bool := false
  /-- The bytes a line transfer carries, lane after lane. -/
  data : List Byte := []
  deriving DecidableEq, Repr, Inhabited

/-- Who issued an operation. -/
inductive Agent where
  | group (core gid : Nat)
  | seq (core place : Nat)
  | unit (core : Nat)
  | island
  deriving DecidableEq, Repr, Inhabited

/-- A bulk operation: `CPYB`, `PUT`, `GET`, `COLL`, an overlay image, a dump; descriptor as read at issue. -/
structure Bulk where
  desc : BitVec 256 := 0
  /-- Bytes moved so far, per destination. -/
  moved : Nat := 0
  dests : List Nat := []
  data : List Byte := []
  /-- Bytes that have come back and are written (`GET`). -/
  got : Nat := 0
  deriving DecidableEq, Repr, Inhabited

/-- An operation in flight. -/
structure Op where
  agent : Agent := .island
  /-- The age of the issuing group: a later group of the same slot is another agent. -/
  age : Nat := 0
  instr : Instr := .mend
  cp : Word := 0
  issued : Nat := 0
  hy : BitVec 8 := 0
  asid : BitVec 16 := 0
  priv : Bool := false
  launch : Nat := 0
  place : Nat := 0
  /-- The completion flag that counts it, or none. -/
  flag : Option Nat := none
  /-- Lanes that write a destination or that the operation concerns. -/
  lanes : LaneMask := 0
  subs : List Sub := []
  /-- Operand values taken at issue: register sources and immediates. -/
  a : DWord := 0
  b : DWord := 0
  /-- The result to be written. -/
  res : DWord := 0
  bulk : Bulk := {}
  /-- The release that precedes it has ended. -/
  released : Bool := true
  /-- Its release has waited for the writes before it and pushed the core's L lines: the merges pushed. -/
  pushed : Bool := false
  pushes : List Nat := []
  /-- Invalidations its acquire waits for. -/
  drains : List Nat := []
  /-- Operations a `QFENCE` or `RFENCE` waits for, or operations of its queue it must follow. -/
  after : List Nat := []
  /-- Its effect has been performed at the unit that performs it. -/
  performed : Bool := false
  /-- The condition of its wait held when it was performed: its answer needs no second look (R298, R302). -/
  sure : Bool := false
  /-- Of a fabric operation: its packets have been injected or are being injected; its target and route, empty where it
  has several; how often it has been injected (R346, R358). -/
  injected : Bool := false
  path : List Nat := []
  attempt : Nat := 0
  /-- A refute of its hypothesis has completed while it stood in a saved image: its writes are dropped (R274, R276). -/
  refuted : Bool := false
  deriving DecidableEq, Repr, Inhabited

/-! ## Coherence (R213-R229, R434) -/

/-- L1 line states (R214); a line that is not listed is in I. -/
inductive LineSt where
  | m | o | e | s | l
  deriving DecidableEq, Repr, Inhabited

/-- An L1 line (R213, R214, R227, R268). -/
structure L1Line where
  st : LineSt := .s
  data : Line := 0
  dirty : ByteMask := 0
  poison : Bool := false
  prot : Bool := false
  view : BitVec 8 := 0
  vf : Bool := true
  /-- Recency: larger is more recent. -/
  used : Nat := 0
  /-- The launch that wrote it last (R106). -/
  launch : Nat := 0
  deriving DecidableEq, Repr, Inhabited

/-- An owner's state as the home knows it (R215). -/
inductive OwnSt where
  | m | o | e
  deriving DecidableEq, Repr, Inhabited

/-- What a request asks of the home (R219, R220, R223, R266). -/
inductive ReqKind where
  /-- A read for S or E. -/
  | read
  /-- Read-exclusive and upgrade for M. -/
  | readEx | upgrade
  | writeBack (keep : Bool)
  | merge (keep : Bool)
  /-- Performed at the home: `.far` and `.once` accesses. -/
  | farRead | farWrite | farAtom
  /-- A prefetch with policy `.far`: the line is brought into its slice, and no copy is asked for (R242). -/
  | fetch
  /-- A tagged write or atomic (R266), a read of the chain view (R268). -/
  | tagged | taggedAtom | view
  deriving DecidableEq, Repr, Inhabited

/-- A request to a home slice. -/
structure Req where
  kind : ReqKind := .read
  core : Nat := 0
  line : Nat := 0
  op : Nat := 0
  sub : Nat := 0
  tag : BitVec 8 := 0
  data : Line := 0
  mask : ByteMask := 0
  poison : Bool := false
  /-- The line is wanted for a cluster-reach write: no owner is set (R217). -/
  forL : Bool := false
  /-- Fill at the least-recent position (R223). -/
  once : Bool := false
  /-- What is granted. -/
  grant : LineSt := .s
  withData : Bool := true
  vf : Bool := true
  view : BitVec 8 := 0
  /-- An owner's answer to a forwarded read or recall, by the request it answers; the answerer's state after it. -/
  ans : Option Nat := none
  stays : Option OwnSt := none
  /-- A forced merge answers this invalidation. -/
  inv : Option Nat := none
  /-- The launch whose write it carries (R106). -/
  launch : Nat := 0
  /-- The home has sent its grant. -/
  granted : Bool := false
  /-- Invalidations a performed merge waits for before it is acknowledged (R245). -/
  waits : List Nat := []
  /-- A read of a chain view whose hypothesis has been resolved while it was on its way: its line serves the reads that
  wait for it and is not kept (R268, R274). -/
  stale : Bool := false
  deriving DecidableEq, Repr, Inhabited

/-- What the home waits for in a recall or a forwarded read (R219, R434). -/
inductive Phase where
  | merges | owner | writeBack | invals
  deriving DecidableEq, Repr, Inhabited

/-- The transaction that makes a line transient (R434): WB is the phase `writeBack`, RC the others. -/
structure Txn where
  req : Nat := 0
  phase : Phase := .merges
  /-- Invalidations not yet acknowledged, and invalidations whose forced merges have not arrived. -/
  acks : List Nat := []
  merges : List Nat := []
  /-- The owner that was asked, and whether its write-back has arrived in the meantime. -/
  target : Nat := 0
  wbSeen : Bool := false
  deriving DecidableEq, Repr, Inhabited

/-- The home's record of a line (R212, R215, R227, R434). -/
structure HLine where
  clusters : BitVec 32 := 0
  lhint : BitVec 32 := 0
  owner : Option (Nat × OwnSt) := none
  poison : Bool := false
  /-- Held in the slice; otherwise a read goes to HBM. -/
  inSlice : Bool := false
  dirty : Bool := false
  txn : Option Txn := none
  queue : List Nat := []
  /-- Held by a confirm in progress (R272). -/
  held : Bool := false
  deriving DecidableEq, Repr, Inhabited

/-- An invalidation sent to a core (R222). -/
structure Inv where
  line : Nat := 0
  core : Nat := 0
  /-- The view lines only, or every copy. -/
  viewOnly : Bool := false
  /-- The home waits for a forced merge. -/
  force : Bool := false
  /-- The core whose request it serves: that core's copy stays (R219, R266). -/
  spare : Option Nat := none
  arrived : Bool := false
  /-- The transaction that waits for its acknowledgement is the line's at the home. -/
  acked : Bool := false
  deriving DecidableEq, Repr, Inhabited

/-- A cluster filter's entry for a line (R215). -/
structure FEntry where
  mask : BitVec 4 := 0
  lrank : Option Nat := none
  deriving DecidableEq, Repr, Inhabited

/-- A tagged version of a line (R265). -/
structure Version where
  line : Nat := 0
  tag : BitVec 8 := 0
  data : Line := 0
  mask : ByteMask := 0
  deriving DecidableEq, Repr, Inhabited

/-- A walk in progress (R384): the page it is for and the requests that wait. -/
structure Walk where
  asid : BitVec 16 := 0
  va : VA := 0
  half : Nat := 0
  waiters : List (Nat × Nat) := []
  /-- A shootdown has been performed since it began (R387). -/
  stale : Bool := false
  deriving DecidableEq, Repr, Inhabited

/-- A cached translation (R384). -/
structure Tlbe where
  asid : BitVec 16 := 0
  /-- VA of the page and its level: 0, 1 or 2. -/
  va : VA := 0
  level : Nat := 0
  pte : DWord := 0
  deriving DecidableEq, Repr, Inhabited

/-! ## Synchronisation objects (R300-R314) -/

/-- A barrier and its blocked waiters (R300). -/
structure Bar where
  exp : BitVec 12 := 0
  rem : BitVec 12 := 0
  phase : Bool := false
  waiters : List Nat := []
  deriving DecidableEq, Repr, Inhabited

/-- A ring slot's state (R306). -/
inductive SlotSt where
  | empty | rsvd | full | held
  deriving DecidableEq, Repr, Inhabited

/-- A stage ring (R305); SLOTS 0 is uninitialised. -/
structure Ring where
  slots : Nat := 0
  put : Nat := 0
  get : Nat := 0
  st : List SlotSt := []
  ph : List Bool := []
  reservers : List Nat := []
  takers : List Nat := []
  deriving DecidableEq, Repr, Inhabited

/-- A panel barrier in an island's agent (R310, R365). -/
structure PBar where
  mask : BitVec 16 := 0
  loc : BitVec 12 := 0
  arr : BitVec 12 := 0
  phase : Bool := false
  waiters : List Nat := []
  /-- A route swap armed with the phase. -/
  armed : Option Nat := none
  deriving DecidableEq, Repr, Inhabited

/-- A waiter of the notify unit (R309). -/
structure NWaiter where
  op : Nat := 0
  ctr : Nat := 0
  thr : DWord := 0
  deriving DecidableEq, Repr, Inhabited

/-! ## Matrix (R317-R337) -/

/-- A context's state (R317). -/
inductive CtxSt where
  | idle | running | blocked | parked | faulted
  deriving DecidableEq, Repr, Inhabited

/-- The scale naming for A or B (R325). -/
structure ScaleName where
  on : Bool := false
  group : Nat := 0
  reg : Nat := 0
  sel : Nat := 0
  deriving DecidableEq, Repr, Inhabited

/-- What a matrix operation took at dispatch (R317, R320). -/
structure MxOp where
  id : Nat := 0
  instr : Instr := .mend
  cp : Word := 0
  ms : List DWord := []
  fa : Word := 0
  fb : Word := 0
  sca : ScaleName := {}
  scb : ScaleName := {}
  hy : BitVec 8 := 0
  /-- K-blocks already applied to the slot (R335). -/
  block : BitVec 9 := 0
  /-- Rows of a readout or load read so far, and those not yet written at their place or in the slot. -/
  row : Nat := 0
  left : Nat := 0
  /-- Rows read from the slot and on their way to memory. -/
  rows : Tbl (List Byte) := []
  /-- It has begun on the array, or in the readout unit. -/
  begun : Bool := false
  /-- Handed to the readout unit: its turn there; 0 while it is held for its slot (R320). -/
  turn : Nat := 0
  deriving DecidableEq, Repr, Inhabited

/-- A sequencer context (R317). -/
structure Ctx where
  st : CtxSt := .idle
  sp : Word := 0
  ms : Tbl DWord := []
  mrow : BitVec 9 := 0
  hy : BitVec 8 := 0
  sca : ScaleName := {}
  scb : ScaleName := {}
  /-- Operations handed to the array and not begun, oldest first; at most two. -/
  handed : List MxOp := []
  /-- The operation on the array, or stopped at a block boundary. -/
  current : Option MxOp := none
  /-- Operations that have applied their blocks and whose slot is not yet ready. -/
  draining : List MxOp := []
  /-- The operations that dispatch has passed which have faulted and wait for `RESUME` (R336). -/
  faults : List Nat := []
  /-- The phase an `MBAR.arw` that was cancelled after its arrival waits on (R337). -/
  arw : Option Bool := none
  /-- `MRD`, `MWR` and `MZERO` handed to the readout unit and not finished. -/
  readout : List MxOp := []
  /-- The `MBAR` operation dispatch waits for. -/
  waitOp : Option Nat := none
  nextDispatch : Nat := 0
  quiesced : Bool := false
  /-- `MSTOP` requests to be answered when the context has stopped. -/
  stopping : List Nat := []
  ckpt : Option Nat := none
  records : Nat := 0
  /-- `KILL` has ended it: it stops at the boundary of the operation on the array (R122). -/
  killed : Bool := false
  deriving DecidableEq, Repr, Inhabited

/-- An accumulator slot's metadata (R318). -/
structure AccMeta where
  kind : Bool := false
  sat : Bool := false
  shift : BitVec 9 := 0
  deriving DecidableEq, Repr, Inhabited

/-- The matrix array and the readout unit of a core (R320, R334). -/
structure Mx where
  /-- The place whose operation runs on the array, and the operation. -/
  busy : Option (Nat × Nat) := none
  lastServed : Nat := 3
  /-- The operation the readout unit works on: its place and identity. -/
  readout : Option (Nat × Nat) := none
  deriving DecidableEq, Repr, Inhabited

/-! ## Workgroups and cores -/

/-- A workgroup on one of a core's four places (R92-R96). -/
structure Wg where
  launch : Nat := 0
  cl : Nat := 0
  rank : Nat := 0
  wid3 : DWord := 0
  wid4 : DWord := 0
  wid5 : DWord := 0
  asid : BitVec 16 := 0
  priv : Bool := false
  hdr : BitVec 512 := 0
  regBase : Nat := 0
  scrBase : Nat := 0
  scr : Memory := []
  /-- Scratchpad lines whose full bit is 0 (R210). -/
  emptyLines : List Nat := []
  /-- Accesses held on an empty line, as (operation, request), in arrival order (R210). -/
  held : List (Nat × Nat) := []
  /-- Format registers `fm0`-`fm7` (R66). -/
  fm : Tbl Word := []
  /-- `v` registers of groups whose slot has been freed, by group index (R206). -/
  gone : Tbl (Tbl Word) := []
  /-- Uniform registers of such groups (R322). -/
  goneS : Tbl (Tbl Word) := []
  /-- Format-register writes not yet made (R191). -/
  pend : List PWrite := []
  bars : Tbl Bar := []
  rings : Tbl Ring := []
  copyq : List Nat := []
  fabq : List Nat := []
  ctx : Option Ctx := none
  /-- Physical accumulator slots of the workgroup's slots 0, 1, ... -/
  accMap : List Nat := []
  /-- Admitted and not yet started (R94, R135). -/
  waiting : Bool := false
  ended : Bool := false
  killed : Bool := false
  /-- Bytes written to translated memory: the audit signature (R398). -/
  sig : DWord := 0
  /-- Frames of private memory of its groups, by group index (R386). -/
  frames : Tbl Nat := []
  /-- It is the rerun of this audit; the bytes it has written, by virtual address (R397). -/
  audit : Option Nat := none
  buffer : Tbl Byte := []
  deriving DecidableEq, Repr, Inhabited

/-- An entry of the residency table (R125). -/
structure REntry where
  loading : Bool := false
  handle : BitVec 19 := 0
  tenant : BitVec 17 := 0
  first : Nat := 0
  length : Nat := 1
  count : Nat := 0
  mst : Bool := false
  /-- Pin counts by workgroup place. -/
  pins : Tbl Nat := []
  deriving DecidableEq, Repr, Inhabited

/-- A `WAITA` monitor (R241). -/
structure Monitor where
  op : Nat := 0
  loc : Loc := .unc 0
  deriving DecidableEq, Repr, Inhabited

/-- A core. -/
structure CoreS where
  /-- `sys.part` (R204). -/
  part : Word := 0x00061A00
  /-- `sys.errcnt` (R400). -/
  errcnt : DWord := 0
  /-- Words of its store that hold soft errors (R203). -/
  soft : List SoftErr := []
  disabled : Bool := false
  /-- Bad lanes found by the lane tests, as 32 × unit + lane (R399). -/
  badLanes : List Nat := []
  groups : Tbl Group := []
  places : Tbl Wg := []
  /-- The residency table, by entry (R125). -/
  rtab : Tbl REntry := []
  /-- Instruction store, index 1,024 × slot + instruction (R124). -/
  istore : Tbl IWord := []
  l1 : Tbl L1Line := []
  l1Clock : Nat := 0
  /-- The pending-invalidation queue, oldest first (R222). -/
  pinv : List Nat := []
  monitors : List Monitor := []
  pinned : Memory := []
  /-- Next issue cycle and end of the special-function pipe's work, per SIMD unit (R83, R173). -/
  simdNext : Tbl Nat := []
  sfBusy : Tbl Nat := []
  ages : Nat := 0
  /-- Copy engine: place served last, line transfers in flight (R284). -/
  engLast : Nat := 3
  engFlight : List (Nat × Nat) := []
  mx : Mx := {}
  /-- Accumulator elements, index 16,384 × slot + 128 × row + column (R318). -/
  acc : Tbl A40 := []
  accMeta : Tbl AccMeta := []
  /-- Governor class held, when work of each class was last done, and the class requested (R429). -/
  cls : Nat := 0
  clsUsed : Tbl Nat := []
  clsWant : Nat := 0
  /-- Gated units: 0-3 the SIMD units, 4 the array (R428). -/
  gated : List Nat := [0, 1, 2, 3, 4]
  deriving DecidableEq, Repr, Inhabited

/-! ## The island's units -/

/-- State of a hypothesis (R262). -/
inductive HypSt where
  | free | opened | resolving | forward
  deriving DecidableEq, Repr, Inhabited

/-- An entry of the hypothesis tree (R262); LINES is the number of versions listed with its tag. -/
structure Hyp where
  st : HypSt := .free
  parent : BitVec 8 := 0
  depth : BitVec 4 := 0
  asid : BitVec 16 := 0
  launch : BitVec 16 := 0
  fwd : BitVec 8 := 0
  refuted : Bool := false
  holders : Nat := 0
  deriving DecidableEq, Repr, Inhabited

/-- The resolve being applied (R271-R274). -/
structure Resolve where
  op : Nat := 0
  id : BitVec 8 := 0
  confirm : Bool := true
  committed : Bool := false
  /-- Every core and slice is ready: the commit point of a confirm, the completion of a refute, is set (R283). -/
  ready : Bool := false
  deriving DecidableEq, Repr, Inhabited

/-- A pending or held fault record (R373-R378). -/
structure FaultRec where
  /-- The record's bits (R376). -/
  bits : BitVec 1024 := 0
  /-- The age of the group that parked with it. -/
  age : Nat := 0
  /-- The operation whose lanes it concerns, kept for a replay. -/
  op : Option Nat := none
  /-- The lanes that stand at the faulting instruction, for a fault found at decode or issue. -/
  lanes : LaneMask := 0
  /-- Agent words attached to it, with their operations (R378). -/
  attached : List (Word × Option Nat) := []
  /-- Written to the queue, as the packet of this number. -/
  posted : Bool := false
  num : Nat := 0
  /-- Requests of its instruction are still being translated: their faults join it before it is written (R373, R376). -/
  gathering : Bool := false
  /-- It has been acted on, or withdrawn, before it was written: it still is written, and then leaves (R375, R379). -/
  settled : Bool := false
  deriving DecidableEq, Repr, Inhabited

/-- System registers of an island (R402). The context views are memory; `sys.part` and `sys.errcnt` are the cores'. -/
structure SysRegs where
  ctxtab : DWord := 0
  ovgdir : BitVec 128 := 0
  slotshare : Word := 0
  fq : DWord := 0
  snpool : DWord := 0
  topo : DWord := 0
  hq : Tbl DWord := []
  dq : Tbl DWord := []
  rtab : Tbl DWord := []
  rtact : Bool := false
  coresus : BitVec 128 := 0
  pretime : BitVec 20 := 100
  rtime : BitVec 20 := 100
  auditfrac : BitVec 7 := 0
  snapArm : Bool := false
  snapTag : BitVec 8 := 0
  cstep : BitVec 13 := 500
  droopAlarm : Bool := false
  droopCount : BitVec 15 := 0
  thresh : BitVec 10 := 600
  /-- Low halves of 128-bit registers written and not yet taken (R401), by register number and selector. -/
  halves : Tbl DWord := []
  deriving DecidableEq, Repr, Inhabited

/-- Boot of a half (R409, R410, R424). -/
structure Half where
  /-- Steps passed, 0-5. -/
  step : Nat := 0
  failed : Bool := false
  /-- The firmware image the ROM accepted: its slot and firmware version. -/
  image : Option (Nat × Nat) := none
  /-- Records of the halves this one knows of (R412), by 2 × site + half: the record's passed links. -/
  records : Tbl (BitVec 6) := []
  /-- Cycle count at the half's reset (R28). -/
  resetAt : Nat := 0
  /-- Snapshot registers: the count latched by the last trigger (R426). -/
  snapCount : DWord := 0
  deriving DecidableEq, Repr, Inhabited

/-- A point of the curve of R410 by its coordinates, and a signature under it. -/
abbrev CurvePoint := Nat × Nat
abbrev Signature := Nat × Nat

/-- A firmware image (R410): the public key it carries, its security version, its firmware version, the rest, and the
signature. -/
structure FwImage where
  key : CurvePoint :=
    (0x1EF0F9501D8399D5BE62C268D9B9C38127FD8AC84C568E58676CFA5C2DD2604289906FDA9E8E8F2BFA7AA39CEC19ADF7,
     0x1235B63AA9D8C912178C591CF1108078A55367BB5CE2FD5D8A1B04A5ABFDE6C64E1AACC120E40988F40842C9D62949D7)
  security : Nat := 0
  version : Nat := 0
  code : List Byte := []
  sig : Signature :=
    (0x5C82D0AA51E0FF0939E26C52517B1486E3CFBD62D68513A75916B2C1E1E6B23BFBD90B677DF78C29397302B77BACAEAA,
     0x5F1B8E24B191DFB1B329BB08C0999AA81D8E14BBC8F8CA5CAC3F71445E71C176870A393A46E7F7D0267EF94685E8B57E)
  deriving DecidableEq, Repr, Inhabited

/-- A half's identity (R424): its private key, and its certificate, the public key with the vendor's signature. -/
structure Identity where
  secret : Nat := 0
  key : CurvePoint := (0, 0)
  cert : Signature := (0, 0)
  deriving DecidableEq, Repr, Inhabited

/-- An island's ROM digest, firmware slots, fused minima and identities (R410, R424; log 5). -/
structure Flash where
  rom : BitVec 384 := 0x1164034C26B26106504001B9A25C705086551864AC6B22ACB2845004E7A13C22A81DBB7B45F28D493F032D25389F948A
  slotA : Option FwImage := some {}
  slotB : Option FwImage := some {}
  min0 : Nat := 0
  min1 : Nat := 0
  id0 : Identity :=
    { secret := 0x250CDF2545099F6D17294A1DC5C4EB67AD0BFA5A5E217A37220DFD06A5292AD8C2D8C480CC0DC94BA5E5460686F032F4,
      key := (0x3FDDA1D46B47A0F9FCB83CB04B34D00254DC68717B744A42BDC6264785667D3DDBE40A21B0030638AD92E5697A6E6CC1,
        0x3435B43B60107083F5E4B1389FA5BCF1CDC580C9A62A01AECCFC5BDB1E21A8DE10AB1FF088B7877906BE9101E4FA97D6),
      cert := (0xAF09F840BE22C2067A445CC84B6AC7A1BF7F1566DBC36723E0F5475CD543ECB225909D9331ADDFFBDB563560DDFC43B,
        0x102EFD1EE2D1EE33E4D74F724A03787044BEB27529953A31CC0B4ED1EE3CFD58A62D6C8D7E54C7728825B46BEB38BCE5) }
  id1 : Identity :=
    { secret := 0x3D7C0AB339ED31DFEFFA8638CD05641016782579C2C01BA7B4B3ED01B14C3CF9F7C0A020695FA829179B73EC8BAD9B43,
      key := (0xD992A9716E6C30E7579E2CD4DD251363466B2033BCF650B47A80498ABEE9C15C832B86408CB84755105D530F8C93166,
        0x8860D57A233ADDCD8E23C5702ED7D4E7C4ACA073F8A1D8A6B67242AEDA7AA11323077D13823B1404F76C8180732C886C),
      cert := (0x2EE35E2621022B6076392C72A28F788FBF29C484A026B48781FBD2480149598D90F19BEAAD05524B981D3119F53CF9DB,
        0x11B6A7357DCC0A66FB96152C2EB64B9442B93D0A7C2014186275A1E3765428BFD56B7FC56164712F23F2FC8951E556D0) }
  deriving DecidableEq, Repr, Inhabited

/-- A site entry of the topology table (R345). -/
structure Site where
  st : Nat := 0
  links : BitVec 6 := 0
  fibre : BitVec 8 := 0
  deriving DecidableEq, Repr, Inhabited

/-- An island's copy of the topology table (R345). -/
structure Topo where
  gen : Word := 0
  bell : BitVec 8 := 0
  outcome : BitVec 2 := 0
  sites : Tbl Site := []
  deriving DecidableEq, Repr, Inhabited

/-- An attestation report (R424): the nonce, the digest of the running image, its security version, the site and half, the
formation outcome, GEN, the certificate (the key with the vendor's signature), and the identity key's signature. -/
structure Report where
  nonce : BitVec 384 := 0
  digest : BitVec 384 := 0
  version : Nat := 0
  site : Nat := 0
  half : Nat := 0
  outcome : BitVec 2 := 0
  gen : Word := 0
  key : CurvePoint := (0, 0)
  cert : Signature := (0, 0)
  sig : Signature := (0, 0)
  deriving DecidableEq, Repr, Inhabited

/-- Host registers of BAR0 without a system register (R420, R422, R426, R427). -/
structure HostRegs where
  hsel : DWord := 0
  eq : DWord := 0
  snapsel : Word := 0
  dumpHost : DWord := 0
  dumpPa : DWord := 0
  dumpLen : DWord := 0
  dumpGo : Bool := false
  dumpDir : Bool := false
  dumpStatus : BitVec 8 := 0
  /-- The attestation mailbox: nonce, half, done bit, report and its bytes. -/
  nonce : BitVec 384 := 0
  mailHalf : DWord := 0
  mailPending : Bool := false
  mailDone : Bool := false
  report : Option Report := none
  reportBytes : Memory := []
  /-- What dumps have written to the host's memory (R427). -/
  upstream : Memory := []
  cxlUp : Bool := false
  deriving DecidableEq, Repr, Inhabited

/-- FSTAT's bits (R421). -/
structure FStat where
  bell : BitVec 8 := 0
  bellHere : Bool := false
  qrdy : Bool := false
  mrdy : Bool := false
  ordy : Bool := false
  hrdy : Bool := false
  h1ok : Bool := false
  h0ok : Bool := false
  fwmis : Bool := false
  phase : BitVec 3 := 0
  outcome : BitVec 2 := 0
  deriving DecidableEq, Repr, Inhabited

/-- A cluster launch on an island (R94, R108, R390). -/
structure Cl where
  launch : Nat := 0
  num : Nat := 0
  cluster : Nat := 0
  /-- Core and place of each rank, in rank order. -/
  ranks : List (Nat × Nat) := []
  b0 : Bar := {}
  /-- Being pre-empted by this operation (R108). -/
  saving : Option Nat := none
  /-- Parked and waiting to be saved, or forced. -/
  forced : Bool := false
  /-- The merges of the release before its save, once it has pushed (R243). -/
  pushes : Option (List Nat) := none
  deriving DecidableEq, Repr, Inhabited

/-- A saved cluster launch (R390): what is restored, as it stood. -/
structure Saved where
  pa : Nat := 0
  cl : Cl := {}
  wgs : List Wg := []
  /-- Rank and group, with the group's index in the workgroup. -/
  groups : List (Nat × Group) := []
  /-- Accumulator contents per rank and slot, and metadata. -/
  acc : List (Nat × Tbl A40) := []
  accMeta : List (Nat × Tbl AccMeta) := []
  /-- Pin lists: rank, handle, tenant key, count. -/
  pins : List (Nat × BitVec 19 × BitVec 17 × Nat) := []
  /-- Operations that wait for `RESUME`, with their ranks; they are performed again at restore (R390). -/
  ops : List (Nat × Nat × Op) := []
  /-- The `CTXLD` that loads it; the launch has been killed or rolled back. -/
  loader : Option Nat := none
  discarded : Bool := false
  deriving DecidableEq, Repr, Inhabited

/-- A command queue's progress beyond its descriptor (R98-R106). -/
structure Queue where
  /-- TAIL as observed, and the launch whose store made each advance visible. -/
  seen : Nat := 0
  parents : List (Nat × Nat) := []
  /-- The launch that dispatched last and has not yet started. -/
  starting : Option Nat := none
  deriving DecidableEq, Repr, Inhabited

/-- A performed remote atomic kept for replays (R358). -/
structure RSeq where
  src : Nat := 0
  op : Nat := 0
  lane : Nat := 0
  old : DWord := 0
  deriving DecidableEq, Repr, Inhabited

/-- An audit in progress (R396-R398): the original core, the workgroup as it stood at its end, and the rerun's signature
once it has one. -/
structure Audit where
  launch : Nat := 0
  core : Nat := 0
  num : Nat := 0
  wg : Wg := {}
  /-- The rerun's core and place. -/
  rerun : Option (Nat × Nat) := none
  deriving DecidableEq, Repr, Inhabited

/-- A logged page copy (R393): the page's address, or the core and unit of a CORE page, and the pool page that holds its
copy. -/
structure PageLog where
  launch : Nat := 0
  asid : BitVec 16 := 0
  pa : Nat := 0
  pin : Option (Nat × Nat) := none
  pte : Nat := 0
  pool : Nat := 0
  deriving DecidableEq, Repr, Inhabited

/-- A port change in progress (R367). -/
structure PortChg where
  port : Nat := 0
  action : Nat := 0
  tag : Nat := 0
  stage : Nat := 0
  deriving DecidableEq, Repr, Inhabited

/-- An island. -/
structure Island where
  /-- Compute-die clock (R431): the cycle count at the last change, its time in picoseconds, the cycle length. -/
  cycBase : Nat := 0
  timeBase : Nat := 0
  period : Nat := 500
  running : Bool := false
  /-- Timers that stand still while the island is halted: what is left of them in picoseconds (R408). -/
  frozen : List (Nat × Instr × List Nat) := []
  /-- Dark or quarantined (R389, R414). -/
  dark : Bool := true
  half0 : Half := {}
  half1 : Half := {}
  flash : Flash := {}
  /-- When the island last received the Bellwether's heartbeat, and the Bellwether the island's (R417). -/
  heardAt : Nat := 0
  beatAt : Nat := 0
  fstat : FStat := {}
  host : HostRegs := {}
  sys : SysRegs := {}
  topo : Topo := {}
  /-- Cached context-table entries by ASID (R385). -/
  ctxs : Tbl (BitVec 512) := []
  cores : Tbl CoreS := []
  /-- HBM bytes at their physical addresses and SLICE bytes from 2^48 on (R211, R380). -/
  mem : Memory := []
  homes : Tbl HLine := []
  filters : Tbl FEntry := []
  reqs : Tbl Req := []
  invs : Tbl Inv := []
  versions : List Version := []
  /-- Slices in retention sleep and stacks in self-refresh (R428). -/
  asleep : List Nat := []
  refresh : List Nat := []
  /-- Last access of each slice. -/
  sliceUsed : Tbl Nat := []
  microTlb : Tbl (List Tlbe) := []
  clusterTlb : Tbl (List Tlbe) := []
  oedTlb : List Tlbe := []
  walks : Tbl Walk := []
  walkQueue : List Nat := []
  hyps : Tbl Hyp := [(0, { st := .opened })]
  resolve : Option Resolve := none
  resolveQ : List Resolve := []
  nc : Tbl DWord := []
  nwaiters : List NWaiter := []
  pbars : Tbl PBar := []
  /-- Fault records pending, oldest first (R373, R375). -/
  faults : List FaultRec := []
  /-- Event records held while the event queue is full (R422). -/
  events : List (BitVec 1024) := []
  irqFault : Nat := 0
  irqEvent : Nat := 0
  ops : Tbl Op := []
  cls : Tbl Cl := []
  saved : List Saved := []
  /-- Restores that wait for room. -/
  restoring : List Nat := []
  dqs : Tbl Queue := []
  /-- Frames of private memory in use, as (ASID, frame) (R386). -/
  frames : List (Nat × Nat) := []
  pageLogs : List PageLog := []
  audits : Tbl Audit := []
  /-- Ports that a change has closed (R367). -/
  closedPorts : List Nat := []
  portChgs : List PortChg := []
  rseq : List RSeq := []
  /-- Governor: the next window is pending (R429). -/
  governing : Bool := false
  /-- The earliest time of the window after the last one. -/
  govNext : Nat := 0
  /-- What the core-rail sensor reads, in millivolts, and since when it reads above THRESH + 10 mV (R431). -/
  rail : Nat := 700
  railHigh : Option Nat := none
  /-- Cluster launches waiting to be handed out: launch and next number. -/
  handout : Tbl Nat := []
  deriving DecidableEq, Repr, Inhabited

/-! ## The panel -/

/-- A launch (R98-R106, R392-R396). -/
structure Launch where
  num : Nat := 0
  packet : BitVec 1024 := 0
  hdr : BitVec 512 := 0
  asid : BitVec 16 := 0
  priv : Bool := false
  island : Nat := 0
  hostQ : Bool := false
  queue : Nat := 0
  slotVa : VA := 0
  parent : Option Nat := none
  depsSeen : List Nat := []
  started : Bool := false
  /-- Cluster launches retired, per island. -/
  retired : Tbl Nat := []
  killed : Bool := false
  /-- The status it will complete with, where that is REJECTED, ABSENT or ERROR. -/
  fail : Nat := 0
  /-- It is being rolled back and will be dispatched again (R394). -/
  rolling : Bool := false
  replays : Nat := 0
  nonReplayable : Bool := false
  heldEvents : Tbl Nat := []
  /-- The remote write window list, as read at the launch's start (R392). -/
  windows : List (BitVec 128) := []
  done : Bool := false
  deriving DecidableEq, Repr, Inhabited

/-- What a packet asks of its target (R347, R353, R355, R356). -/
inductive PktKind where
  | write | read | atom | notify
  deriving DecidableEq, Repr, Inhabited

/-- A packet of the fabric (R342). -/
structure Pkt where
  kind : PktKind := .write
  src : Nat := 0
  dst : Nat := 0
  /-- The issuing core and workgroup place: the fabric queue. -/
  core : Nat := 0
  place : Nat := 0
  op : Nat := 0
  attempt : Nat := 0
  instr : Instr := .mend
  /-- The island whose OED it is in or on its way to, the ports it still takes, the links it has taken (16 × island + port). -/
  here : Nat := 0
  route : List Nat := []
  links : List Nat := []
  /-- It waits in a virtual queue for a closed port. -/
  held : Bool := false
  /-- The lane of a `RATOM`, else the offset of its bytes in the operation. -/
  key : Nat := 0
  va : VA := 0
  asid : BitVec 16 := 0
  priv : Bool := false
  launch : Nat := 0
  /-- Bytes a `GET` asks for. -/
  n : Nat := 0
  data : List Byte := []
  poison : Bool := false
  x : DWord := 0
  y : DWord := 0
  /-- The counter raised with this packet, the last of its operation. -/
  nctr : Option Nat := none
  /-- Performed, or refused with a fault code: the acknowledgement or the bytes are on their way back. -/
  done : Bool := false
  code : Nat := 0
  deriving DecidableEq, Repr, Inhabited

/-- A member of a collective: its operation, its descriptor, what it contributes. -/
structure Member where
  op : Nat := 0
  desc : BitVec 256 := 0
  words : List Word := []
  norm : Word := 0
  /-- Its contribution has been read; its operation has ended. -/
  ready : Bool := false
  ended : Bool := false
  deriving DecidableEq, Repr, Inhabited

/-- A collective in progress (R360-R364). -/
structure Coll where
  id : Nat := 0
  members : Tbl Member := []
  /-- The ports towards the root, from the routes active when the root accepted it. -/
  accepted : Bool := false
  parents : Tbl Nat := []
  /-- The combined value of each OED that has combined, and the islands whose value has reached their parent. -/
  values : Tbl (List Word) := []
  up : List Nat := []
  /-- Islands whose value waits for a closed port. -/
  stuck : List Nat := []
  /-- The status, once it is known. -/
  status : Option Nat := none
  norm : Word := 0
  deriving DecidableEq, Repr, Inhabited

/-- An arrival held by the root of the sideband tree (R313). -/
structure RootArr where
  isl : Nat := 0
  mask : BitVec 16 := 0
  leftAt : Nat := 0
  deriving DecidableEq, Repr, Inhabited

/-- When a pending step is due. -/
inductive Due where
  /-- At a time in picoseconds. -/
  | ps (t : Nat)
  /-- At a compute-die cycle of an island. -/
  | cyc (isl c : Nat)
  deriving DecidableEq, Repr, Inhabited

/-- A pending step. -/
inductive Act where
  /-- A row of the opcode table that is an event, with its arguments. -/
  | row (i : Instr) (args : List Nat)
  /-- A window, CORE or UNCACHED access reaches its target and is performed there (R244). -/
  | perform (isl core op sub : Nat)
  /-- A unit's answer reaches the core of an operation: its result is written and its run wakes. -/
  | reply (isl op : Nat)
  deriving DecidableEq, Repr, Inhabited

/-- For whom `exec` executes: a group, a sequencer context, or an event of the part. -/
inductive Focus where
  | none
  | group (isl core gid : Nat)
  | seq (isl core place : Nat)
  /-- An event, with its arguments in the order Syntax.lean gives beside its constructor. -/
  | event (args : List Nat)
  deriving DecidableEq, Repr, Inhabited

/-- The state of the panel. -/
structure State where
  /-- Picoseconds since power-good (R409). -/
  now : Nat
  /-- Pending steps in the order in which they were made (the model's own, log 2). -/
  agenda : List (Due × Act)
  /-- Choices the manual leaves open, taken in order; an empty list gives 0 (the model's own, log 3). -/
  choices : List Nat
  /-- The number of free values taken (the model's own, log 4). -/
  freeCtr : Nat
  focus : Focus
  nextId : Nat
  /-- Presence straps (R413). -/
  populated : BitVec 16
  /-- Links and fibre ports that fail their training when it comes (R411): 16 × site + port code. -/
  badLinks : List Nat
  fibreGood : List Nat
  /-- The port at the far end of a fibre that joins two ports of the panel: 16 × island + port. -/
  fibreTo : Tbl Nat
  islands : Tbl Island
  /-- Formation: the Bellwether as 2 × site + half, and the outcome (R413, R414). -/
  bell : Option Nat
  outcome : Option (BitVec 2)
  /-- The Bellwether's heartbeat was lost: the panel runs again only after a panel reset (R417). -/
  bellLost : Bool
  launches : Tbl Launch
  hqs : Tbl Queue
  pbRoot : Tbl (List RootArr)
  pkts : Tbl Pkt
  colls : Tbl Coll
  /-- The 16-entry `TOPQ` request queue (R366). -/
  topq : List (BitVec 128)
  deriving DecidableEq, Repr, Inhabited

/-- The machine right after power-on reset: every field as the manual states it, and as the log names where it does
not (log 2 to 8). No half has begun to boot: the power-good signal is the step that is pending (R409). -/
def State.reset : State where
  now := 0
  agenda := [(.ps 0, .row .powerGood [])]
  choices := []
  freeCtr := 0
  focus := .none
  nextId := 1
  populated := 0xFFFF
  badLinks := []
  fibreGood := []
  fibreTo := []
  islands := []
  bell := none
  outcome := none
  bellLost := false
  launches := []
  hqs := []
  pbRoot := []
  pkts := []
  colls := []
  topq := []

/-- Why the machine stops. -/
inductive Fault where
  /-- `exec` was asked to execute an instruction for an agent that does not exist: the focus names no group, no
  sequencer context of a resident workgroup, or no event, where the instruction is one's. Raised by the meanings of instructions, never by `step`; safe. -/
  | noAgent
  deriving DecidableEq, Repr

/-- Why there is no meaning. -/
inductive Refusal where
  /-- An instruction not modelled yet, by its mnemonic. Raised by `exec` only; safe. -/
  | notModelled (mnemonic : String)
  deriving DecidableEq, Repr

end Sys2Proof.Machine
end

