-- ==== Sys2Proof/Machine/Ops.lean ====
section
/-! DEFINITION. The named operations over the state: tables, memory, accessors, time and the agenda, operations in
flight, register files with their fixed-latency writes (R84), and completion flags (R31). -/

namespace Sys2Proof.Machine

/-! ## Tables -/

/-- The entry at an index. -/
def tget? : Tbl α → Nat → Option α
  | [], _ => none
  | (k, a) :: r, i => if k = i then some a else tget? r i

/-- The entry at an index, or a default. -/
def tgetD (t : Tbl α) (i : Nat) (d : α) : α := (tget? t i).getD d

/-- Sets the entry at an index, keeping the indices rising. -/
def tput : Tbl α → Nat → α → Tbl α
  | [], i, a => [(i, a)]
  | (k, b) :: r, i, a =>
    if i < k then (i, a) :: (k, b) :: r else if i = k then (i, a) :: r else (k, b) :: tput r i a

/-- Removes the entry at an index. -/
def tdel : Tbl α → Nat → Tbl α
  | [], _ => []
  | (k, b) :: r, i => if i = k then r else (k, b) :: tdel r i

/-- Applies `f` to the entry at an index, if there is one. -/
def tmod (t : Tbl α) (i : Nat) (f : α → α) : Tbl α :=
  match tget? t i with
  | some a => tput t i (f a)
  | none => t

/-- Applies `f` to every entry. -/
def tmap (t : Tbl α) (f : Nat → α → α) : Tbl α := t.map fun p => (p.1, f p.1 p.2)

/-- The least index below `n` that is not listed. -/
def tfree (t : Tbl α) (n : Nat) : Option Nat := (List.range n).find? fun i => (tget? t i).isNone

/-! ## Memory (R5) -/

/-- The byte at an address. -/
def memRead : Memory → Nat → Byte
  | [], _ => 0
  | (k, b) :: r, a => if k = a then b else memRead r a

/-- Writes a byte, keeping the canonical form: no zero byte is listed. -/
def memWrite : Memory → Nat → Byte → Memory
  | [], a, b => if b = 0 then [] else [(a, b)]
  | (k, c) :: r, a, b =>
    if a < k then (if b = 0 then (k, c) :: r else (a, b) :: (k, c) :: r)
    else if a = k then (if b = 0 then r else (a, b) :: r)
    else (k, c) :: memWrite r a b

/-- The canonical form: addresses strictly rising, no entry that an unlisted address equals. -/
def memWf : Memory → Bool
  | [] => true
  | [(_, b)] => b ≠ 0
  | (a, b) :: (k, c) :: r => decide (b ≠ 0) && decide (a < k) && memWf ((k, c) :: r)

/-- `n` bytes from an address, the lowest address first. -/
def memReadN (m : Memory) (a n : Nat) : List Byte := (List.range n).map fun i => memRead m (a + i)

/-- Writes bytes from an address up. -/
def memWriteN (m : Memory) (a : Nat) : List Byte → Memory
  | [] => m
  | b :: bs => memWriteN (memWrite m a b) (a + 1) bs

/-- The little-endian number of bytes (R5). -/
def leNat (bs : List Byte) : Nat := bs.foldr (fun b acc => acc * 256 + b.toNat) 0

/-- The `n` little-endian bytes of a number. -/
def leBytes (n v : Nat) : List Byte := (List.range n).map fun i => BitVec.ofNat 8 (v / 256 ^ i)

/-- A little-endian number in memory. -/
def memNat (m : Memory) (a n : Nat) : Nat := leNat (memReadN m a n)

/-- Writes a little-endian number. -/
def memPut (m : Memory) (a n v : Nat) : Memory := memWriteN m a (leBytes n v)

/-- A line of 128 bytes at an address. -/
def memLine (m : Memory) (a : Nat) : Line := BitVec.ofNat 1024 (memNat m a 128)

/-- The bytes of a line (R213). -/
def lineByte (l : Line) (i : Nat) : Byte := l.extractLsb' (8 * i) 8

/-- Puts a byte into a line. -/
def linePut (l : Line) (i : Nat) (b : Byte) : Line :=
  let m : Line := (0xFF#1024) <<< (8 * i)
  (l &&& ~~~m) ||| ((b.setWidth 1024) <<< (8 * i))

/-- Overlays the bytes of `src` whose mask bit is set (R219, R220, R267). -/
def lineMerge (dst src : Line) (mask : ByteMask) : Line :=
  (List.range 128).foldl (fun l i => if mask.getLsbD i then linePut l i (lineByte src i) else l) dst

/-- `n` bytes of a line from offset `off`, as a number. -/
def lineNat (l : Line) (off n : Nat) : Nat := (l.toNat / 256 ^ off) % 256 ^ n

/-- Writes the low `n` bytes of a number into a line. -/
def linePutN (l : Line) (off n v : Nat) : Line :=
  (List.range n).foldl (fun l i => linePut l (off + i) (BitVec.ofNat 8 (v / 256 ^ i))) l

/-- The mask of `n` bytes from `off`. -/
def maskN (off n : Nat) : ByteMask := ((BitVec.ofNat 128 (2 ^ n - 1)) <<< off)

/-- Writes the bytes of a line whose mask bit is set to memory at `a`. -/
def memMergeLine (m : Memory) (a : Nat) (l : Line) (mask : ByteMask) : Memory :=
  (List.range 128).foldl (fun m i => if mask.getLsbD i then memWrite m (a + i) (lineByte l i) else m) m

/-! ## Bit fields -/

/-- Bits `lo + n - 1 : lo` of a number. -/
def bitsN (v lo n : Nat) : Nat := (v / 2 ^ lo) % 2 ^ n

/-- Bits of a vector as a number. -/
def fld (v : BitVec w) (lo n : Nat) : Nat := bitsN v.toNat lo n

/-- Replaces bits `lo + n - 1 : lo` of a vector. -/
def putFld (v : BitVec w) (lo n x : Nat) : BitVec w :=
  let m := (BitVec.ofNat w (2 ^ n - 1)) <<< lo
  (v &&& ~~~m) ||| ((BitVec.ofNat w (x % 2 ^ n)) <<< lo)

/-- One bit as a number. -/
def b2n (b : Bool) : Nat := if b then 1 else 0

/-- The lowest set lane. -/
def lowLane (m : LaneMask) : Option Nat := (List.range 64).find? fun l => m.getLsbD l

/-- The lanes of a mask, ascending. -/
def lanesOf (m : LaneMask) : List Nat := (List.range 64).filter fun l => m.getLsbD l

/-- The mask of a list of lanes. -/
def maskOf (ls : List Nat) : LaneMask := ls.foldl (fun m l => m ||| (1#64 <<< l)) 0

/-! ## Islands, cores, groups, workgroups -/

/-- An island as it stands; one that is not listed is as after reset. -/
def State.isl (s : State) (i : Nat) : Island := tgetD s.islands i {}

/-- Replaces an island. -/
def State.setIsl (s : State) (i : Nat) (x : Island) : State := { s with islands := tput s.islands i x }

/-- Changes an island. -/
def State.modIsl (s : State) (i : Nat) (f : Island → Island) : State := s.setIsl i (f (s.isl i))

/-- A core of an island. -/
def Island.core (x : Island) (c : Nat) : CoreS := tgetD x.cores c {}

/-- Changes a core. -/
def Island.modCore (x : Island) (c : Nat) (f : CoreS → CoreS) : Island :=
  { x with cores := tput x.cores c (f (x.core c)) }

/-- A group of a core, if its residency slot holds one. -/
def Island.group? (x : Island) (c gid : Nat) : Option Group := tget? (x.core c).groups gid

/-- Changes a group. -/
def Island.modGroup (x : Island) (c gid : Nat) (f : Group → Group) : Island :=
  x.modCore c fun k => { k with groups := tmod k.groups gid f }

/-- A workgroup on a place of a core. -/
def Island.wg? (x : Island) (c place : Nat) : Option Wg := tget? (x.core c).places place

/-- Changes a workgroup. -/
def Island.modWg (x : Island) (c place : Nat) (f : Wg → Wg) : Island :=
  x.modCore c fun k => { k with places := tmod k.places place f }

/-- Changes the sequencer context of a workgroup. -/
def Island.modCtx (x : Island) (c place : Nat) (f : Ctx → Ctx) : Island :=
  x.modWg c place fun w => { w with ctx := w.ctx.map f }

/-- A core's cluster, half and rank in its cluster (R14). -/
def clusterOf (core : Nat) : Nat := core / 4
def halfOf (core : Nat) : Nat := core / 64

/-! ## Time and the agenda -/

/-- The compute-die cycle of an island at a time (R431). -/
def Island.cycAt (x : Island) (now : Nat) : Nat := x.cycBase + (now - x.timeBase) / x.period

/-- The current cycle of an island. -/
def State.cyc (s : State) (i : Nat) : Nat := (s.isl i).cycAt s.now

/-- The time of a due in picoseconds, as the clocks stand. -/
def State.dueTime (s : State) : Due → Nat
  | .ps t => t
  | .cyc i c => let x := s.isl i; x.timeBase + (c - x.cycBase) * x.period

/-- Adds a pending step. -/
def State.at (s : State) (d : Due) (a : Act) : State := { s with agenda := s.agenda ++ [(d, a)] }

/-- Adds an event of the opcode table, due some cycles from now. -/
def State.after (s : State) (isl cycles : Nat) (i : Instr) (args : List Nat) : State :=
  s.at (.cyc isl (s.cyc isl + cycles)) (.row i args)

/-- Adds an event due some picoseconds from now. -/
def State.afterPs (s : State) (ps : Nat) (i : Instr) (args : List Nat) : State := s.at (.ps (s.now + ps)) (.row i args)

/-- Adds an event unless it is pending already. -/
def State.afterOnce (s : State) (isl cycles : Nat) (i : Instr) (args : List Nat) : State :=
  if s.agenda.any (fun p => p.2 == .row i args) then s else s.after isl cycles i args

/-- Executes an event with the arguments the focus carries. -/
def event (s : State) (f : List Nat → State → State) : Host.Outcome State Fault Refusal :=
  match s.focus with
  | .event as => .next (f as s)
  | .none | .group _ _ _ | .seq _ _ _ => .fault .noAgent

/-- An event's argument, 0 where it is not given. -/
def ar (as : List Nat) (k : Nat) : Nat := as.getD k 0

/-- The next of the choices the manual leaves open, below `n` (log 3). -/
def State.choose (s : State) (n : Nat) : Nat × State :=
  match s.choices with
  | [] => (0, s)
  | c :: cs => (if n = 0 then 0 else c % n, { s with choices := cs })

/-- The next free byte (log 4). -/
def State.freeBytes (s : State) (n : Nat) : List Byte × State :=
  ((List.range n).map fun i => Config.freeByte (s.freeCtr + i), { s with freeCtr := s.freeCtr + n })

/-! ## Operations in flight -/

/-- Takes the next identity. -/
def State.fresh (s : State) : Nat × State := (s.nextId, { s with nextId := s.nextId + 1 })

/-- Adds an operation to an island. -/
def State.newOp (s : State) (i : Nat) (o : Op) : Nat × State :=
  (s.nextId, { s with nextId := s.nextId + 1 }.modIsl i fun x => { x with ops := tput x.ops s.nextId o })

/-- An operation of an island. -/
def State.op? (s : State) (i id : Nat) : Option Op := tget? (s.isl i).ops id

/-- Changes an operation. -/
def State.modOp (s : State) (i id : Nat) (f : Op → Op) : State :=
  s.modIsl i fun x => { x with ops := tmod x.ops id f }

/-- Removes an operation. -/
def State.delOp (s : State) (i id : Nat) : State := s.modIsl i fun x => { x with ops := tdel x.ops id }

/-- Changes a line request of an operation. -/
def State.modSub (s : State) (i id k : Nat) (f : Sub → Sub) : State :=
  s.modOp i id fun o => { o with subs := o.subs.map fun u => if u.key = k then f u else u }

/-! ## Group registers and fixed-latency writes (R25, R84) -/

/-- The FP control word keeps its reserved bits zero (R191). -/
def fctlMask : Word := 0x00001F07

/-- Makes one fixed-latency write. -/
def applyWrite (g : Group) (p : PWrite) : Group :=
  let w : Word := p.val.setWidth 32
  match p.dest with
  | .v k l => { g with v := tput g.v (64 * k + l) w }
  | .s k => { g with s := tput g.s k w }
  | .o k l => { g with o := tput g.o (64 * k + l) w }
  | .lt l => { g with lt := tput g.lt l p.val }
  | .aw k => { g with aw := tput g.aw k (w &&& 0xFF) }
  | .fm _ => g
  | .tvec => { g with tvec := w }
  | .fctlPut => { g with fctl := w &&& fctlMask }
  | .fctlSet => { g with fctl := g.fctl ||| (w &&& fctlMask) }
  | .fctlClr => { g with fctl := g.fctl &&& ~~~w }
  | .fctlRaise => { g with fctl := g.fctl ||| (w &&& 0x1F00) }
  | .flag f => { g with flags := tput g.flags f (tgetD g.flags f 0 - 1) }

/-- Inserts a write in the order of its due cycle and rank; equal writes keep their order of issue. -/
def insertWrite : List PWrite → PWrite → List PWrite
  | [], p => [p]
  | q :: r, p =>
    if p.due < q.due ∨ (p.due = q.due ∧ p.rank < q.rank) then p :: q :: r else q :: insertWrite r p

/-- The writes due at a cycle or before it, made in order (R84). -/
def settleList (g : Group) : List PWrite → Nat → Group
  | [], _ => { g with pend := [] }
  | p :: r, c => if p.due ≤ c then settleList (applyWrite g p) r c else { g with pend := p :: r }

/-- The group as it stands at a cycle: every write due by then has been made. -/
def settle (g : Group) (c : Nat) : Group := settleList g g.pend c

/-- Adds a fixed-latency write. Sticky flags rise after the FP control word's own writes of the same cycle (R175). -/
def addWrite (g : Group) (due : Nat) (d : WDest) (v : DWord) : Group :=
  let rank := if d = .fctlRaise then 1 else 0
  { g with pend := insertWrite g.pend { due := due, rank := rank, dest := d, val := v } }

/-- The format registers as the writes due by a cycle leave them (R66). -/
def fmList (fm : Tbl Word) : List PWrite → Nat → Tbl Word × List PWrite
  | [], _ => (fm, [])
  | p :: r, c =>
    if p.due ≤ c then fmList (match p.dest with | .fm k => tput fm k (p.val.setWidth 32) | _ => fm) r c
    else (fm, p :: r)

/-- The workgroup with the format-register writes due by a cycle made. -/
def Wg.settle (w : Wg) (c : Nat) : Wg :=
  let r := fmList w.fm w.pend c
  { w with fm := r.1, pend := r.2 }

/-- Adds a format-register write; of two in one cycle the higher rank stands (R191). -/
def Wg.addFm (w : Wg) (due rank k : Nat) (v : Word) : Wg :=
  { w with pend := insertWrite w.pend { due := due, rank := rank, dest := .fm k, val := v.setWidth 64 } }

/-- A `v` register of a lane, of the registers that have been written. -/
def Group.vreg (g : Group) (k l : Nat) : Word := tgetD g.v (64 * k + l) 0
/-- A uniform register. -/
def Group.sreg (g : Group) (k : Nat) : Word := tgetD g.s k 0
/-- An operand-file register of a lane. -/
def Group.oreg (g : Group) (k l : Nat) : Word := tgetD g.o (64 * k + l) 0
/-- The latch of a lane. -/
def Group.latch (g : Group) (l : Nat) : DWord := tgetD g.lt l 0
/-- A completion flag. -/
def Group.flagVal (g : Group) (f : Nat) : Nat := tgetD g.flags f 0

/-- Writes a destination operand at once: a variable-latency result (R85). -/
def putReg (g : Group) (x : Opnd) (lane : Nat) (val : DWord) : Group :=
  let lo : Word := val.setWidth 32
  let hi : Word := (val >>> 32).setWidth 32
  match x with
  | .v k => { g with v := tput g.v (64 * k.toNat + lane) lo }
  | .vp k => { g with v := tput (tput g.v (64 * k.toNat + lane) lo) (64 * (k.toNat + 1) + lane) hi }
  | .s k => { g with s := tput g.s k.toNat lo }
  | .o k => { g with o := tput g.o (64 * k.toNat + lane) lo }
  | .sr _ | .lt | .imm _ => g

/-- Writes a 64-bit destination operand at once. -/
def putReg64 (g : Group) (x : Opnd) (lane : Nat) (val : DWord) : Group :=
  let hi : Word := (val >>> 32).setWidth 32
  let g := putReg g x lane val
  match x with
  | .s k => { g with s := tput g.s (k.toNat + 1) hi }
  | .o k => { g with o := tput g.o (64 * (k.toNat + 1) + lane) hi }
  | .v _ | .vp _ | .sr _ | .lt | .imm _ => g

/-- Writes a destination of the given width in every lane of a mask, or once where it is uniform (R27, R137). -/
def putAll (g : Group) (x : Opnd) (wide : Bool) (m : LaneMask) (val : DWord) : Group :=
  if m = 0 then g
  else match x with
    | .s _ => if wide then putReg64 g x 0 val else putReg g x 0 val
    | _ => (lanesOf m).foldl (fun g l => if wide then putReg64 g x l val else putReg g x l val) g

/-- Lowers a completion flag (R31). -/
def flagDown (g : Group) (f : Option Nat) : Group :=
  match f with
  | some k => { g with flags := tput g.flags k (tgetD g.flags k 0 - 1) }
  | none => g

/-! ## Kernel header fields (R50) -/

/-- REGS: `v` registers per thread. -/
def hdrRegs (h : BitVec 512) : Nat := 8 * fld h 32 5
def hdrUniforms (h : BitVec 512) : Nat := fld h 40 7
def hdrAccSlots (h : BitVec 512) : Nat := fld h 48 4
def hdrGroups (h : BitVec 512) : Nat := fld h 56 6
def hdrCluster (h : BitVec 512) : Nat := fld h 64 5
def hdrCacheMin (h : BitVec 512) : Nat := fld h 72 5
def hdrScratchKib (h : BitVec 512) : Nat := fld h 80 16
def hdrPrivate (h : BitVec 512) : Nat := fld h 96 32
def hdrW (h : BitVec 512) (i : Nat) : Nat := fld h (128 + 8 * i) 8
def hdrRoleMask (h : BitVec 512) : Nat := fld h 192 32
def hdrCopyEntry (h : BitVec 512) : Word := BitVec.ofNat 32 (fld h 224 32)
def hdrTrapEntry (h : BitVec 512) : Word := BitVec.ofNat 32 (fld h 256 32)
def hdrCkptVa (h : BitVec 512) : VA := BitVec.ofNat 72 (fld h 288 72)
def hdrCkptCnt (h : BitVec 512) : Nat := fld h 360 16
def hdrAud (h : BitVec 512) : Bool := h.getLsbD 24
def hdrUoff (h : BitVec 512) : Bool := h.getLsbD 25

/-! ## Code pointers and the residency table (R124-R131) -/

def cpHandle (t : Word) : BitVec 19 := t.extractLsb' 13 19
def cpOff (t : Word) : Nat := fld t 0 13

/-- The tenant key of a handle for a context (R130). -/
def tenantKey (h : BitVec 19) (asid : BitVec 16) : BitVec 17 :=
  if 0x70000 ≤ h.toNat then 0x10000#17 else asid.setWidth 17

/-- The residency entry of a handle under a key, with its index (R125). -/
def findEntry (k : CoreS) (h : BitVec 19) (t : BitVec 17) : Option (Nat × REntry) :=
  k.rtab.find? fun p => p.2.handle == h && p.2.tenant == t

/-- The instruction word at a code pointer, if a resident entry covers it (R38, R125): of a matrix stream for a sequencer,
of another overlay for a group (R146). -/
def fetchWord (k : CoreS) (t : Word) (asid : BitVec 16) (mst : Bool) : Option IWord :=
  match findEntry k (cpHandle t) (tenantKey (cpHandle t) asid) with
  | some (_, e) =>
    if e.loading ∨ e.count ≤ cpOff t ∨ e.mst ≠ mst then none
    else some (tgetD k.istore (1024 * e.first + cpOff t) 0)
  | none => none

/-- The occupancy of an entry (R126): threads of unended groups whose code pointer lies in it, and stream pointers. -/
def occupancy (k : CoreS) (e : REntry) : Nat :=
  let inE (w : Option Wg) (cp : Word) : Bool :=
    match w with
    | some w => cpHandle cp == e.handle && tenantKey (cpHandle cp) w.asid == e.tenant
    | none => false
  (k.groups.map fun p => (p.2.threads.filter fun t => inE (tget? k.places p.2.place) t.2.cp).length).sum +
    (k.places.filter fun p => match p.2.ctx with
      | some c => c.st ≠ .idle && inE (some p.2) c.sp
      | none => false).length

/-- What `resolve_cp` answers (R131): the target, an OVL_MISS reason, or a wait for a loading entry. -/
inductive Resolved where
  | go | miss (reason : Nat) | wait (entry : Nat)
  deriving DecidableEq, Repr, Inhabited

/-- `resolve_cp(t, park)` for a context (R131). -/
def resolveCp (k : CoreS) (asid : BitVec 16) (t : Word) (park : Bool) : Resolved :=
  if cpHandle t = 0 then .miss 1
  else match findEntry k (cpHandle t) (tenantKey (cpHandle t) asid) with
    | some (i, e) =>
      if e.loading then (if park then .wait i else .miss 0) else if e.mst then .miss 3 else .go
    | none => .miss 0

/-- The information word of OVL_MISS (R133). -/
def ovlInfo (status reason : Nat) (t : Word) : DWord :=
  BitVec.ofNat 64 (status * 2 ^ 40 + reason * 2 ^ 32 + t.toNat)

/-! ## Fault records (R373-R378) -/

/-- The fields of a fault record (R376). -/
structure RecArgs where
  code : Nat := 0
  origCode : Nat := 0
  origInfo : DWord := 0
  island : Nat := 0
  mrow : Nat := 0
  addr : VA := 0
  info : DWord := 0
  lanes : LaneMask := 0
  cp : Word := 0
  launch : Nat := 0
  asid : BitVec 16 := 0
  agent : Word := 0
  write : Bool := false
  coal : Bool := false
  priv : Bool := false
  source : Nat := 0
  deriving DecidableEq, Repr, Inhabited

/-- An agent word (R377): `slot` is `sr.gid` for SOURCE 0 and 4, and the workgroup place for SOURCE 1-3. -/
def agentWord (source core slot : Nat) : Word := BitVec.ofNat 32 (slot % 32 * 2048 + source % 8 * 256 + core % 128)

/-- The 1,024 bits of a fault record (R376). -/
def recordBits (r : RecArgs) : BitVec 1024 :=
  BitVec.ofNat 1024 (r.code % 256 + r.origCode % 256 * 2 ^ 8 + r.source % 16 * 2 ^ 16 + b2n r.priv * 2 ^ 20 +
    b2n r.coal * 2 ^ 21 + b2n r.write * 2 ^ 22 + r.agent.toNat * 2 ^ 32 + r.asid.toNat * 2 ^ 64 +
    r.launch % 2 ^ 16 * 2 ^ 80 + r.cp.toNat * 2 ^ 96 + r.lanes.toNat * 2 ^ 128 + r.info.toNat * 2 ^ 192 +
    r.addr.toNat * 2 ^ 256 + r.mrow % 512 * 2 ^ 328 + r.island % 16 * 2 ^ 340 + r.origInfo.toNat * 2 ^ 352)

def recCode (b : BitVec 1024) : Nat := fld b 0 8
def recSource (b : BitVec 1024) : Nat := fld b 16 4
def recCoal (b : BitVec 1024) : Bool := b.getLsbD 21
def recAgent (b : BitVec 1024) : Word := BitVec.ofNat 32 (fld b 32 32)
def recAsid (b : BitVec 1024) : BitVec 16 := BitVec.ofNat 16 (fld b 64 16)
def recLaunch (b : BitVec 1024) : Nat := fld b 80 16
def recCp (b : BitVec 1024) : Word := BitVec.ofNat 32 (fld b 96 32)
def recLanes (b : BitVec 1024) : LaneMask := BitVec.ofNat 64 (fld b 128 64)
def recInfo (b : BitVec 1024) : DWord := BitVec.ofNat 64 (fld b 192 64)
def recAddr (b : BitVec 1024) : VA := BitVec.ofNat 72 (fld b 256 72)

/-- Which of an island's records its queue or its hold of `n` records has; each other one stands with its agent until room
appears (R375). -/
def recorded : Nat → List FaultRec → List Bool
  | _, [] => []
  | n, r :: rest =>
    if r.posted then true :: recorded n rest
    else if r.gathering then false :: recorded n rest
    else decide (0 < n) :: recorded (n - 1) rest

/-- The first record that the queue or its hold has, is still pending, and meets a condition (R375, R379). -/
def Island.findRec (x : Island) (p : FaultRec → Bool) : Option Nat :=
  (x.faults.zip (recorded 64 x.faults)).findIdx? fun r => r.2 && !r.1.settled && p r.1

/-- Takes a record out of what is pending: one that is not yet written stays until it is (R375). -/
def settleRec (l : List FaultRec) (p : FaultRec → Bool) : List FaultRec :=
  (l.filter fun r => !(p r && r.posted)).map fun r => if p r then { r with settled := true, gathering := false } else r

/-- Makes a record pending and has the island post it (R373, R375). -/
def State.post (s : State) (isl : Nat) (r : FaultRec) : State :=
  (s.modIsl isl fun x => { x with faults := x.faults ++ [r] }).after isl 0 .faultRecordPost [isl]

/-- Parks a group with a pending record (R373). -/
def State.parkGroup (s : State) (isl core gid : Nat) (r : RecArgs) (op : Option Nat) (lanes : LaneMask) : State :=
  let x := s.isl isl
  match x.group? core gid with
  | some g =>
    let w := (x.wg? core g.place).getD {}
    let r := { r with agent := agentWord r.source core gid, asid := w.asid, launch := w.launch }
    (s.modIsl isl fun x => x.modGroup core gid fun g => { g with parked := true, records := g.records + 1 }).post isl
      { bits := recordBits r, age := g.age, op := op, lanes := lanes }
  | none => s

/-! ## Taking a trap and returning from one (R112, R121, R134, R372) -/

/-- Raises a call depth, not above 255 (R78). -/
def depthUp (d : BitVec 8) : BitVec 8 := if d = 255#8 then d else d + 1
/-- Lowers a call depth, not below 0 (R78). -/
def depthDown (d : BitVec 8) : BitVec 8 := if d = 0#8 then d else d - 1

/-- A `REP` ends when no lane of its run stands at it any more. -/
def fixRep (g : Group) : Group :=
  match g.rep with
  | some r => if g.threads.any fun p => r.lanes.getLsbD p.1 && p.2.cp == r.cp then g else { g with rep := none, rpi := 0 }
  | none => g

/-- Changes the threads of a set of lanes. -/
def modThreads (g : Group) (m : LaneMask) (f : Nat → Thread → Thread) : Group :=
  fixRep { g with threads := g.threads.map fun p => if m.getLsbD p.1 then (p.1, f p.1 p.2) else p }

/-- The effect of a trap's delivery on its lanes (R112): `o7` the return code pointer, `o6` the code, `o4:o5` the
information word, the code pointer `tvec`, the depth one up. -/
def enterTrap (g : Group) (lanes : LaneMask) (code : Nat) (info : DWord) (ret tvec : Word) : Group :=
  let g := (lanesOf lanes).foldl (fun g l =>
    putReg (putReg (putReg64 g (.o 4) l info) (.o 6) l (BitVec.ofNat 64 code)) (.o 7) l (ret.setWidth 64)) g
  modThreads g lanes (fun _ t => { t with cp := tvec, depth := depthUp t.depth, stat := .ready })

/-- Delivers a user trap to lanes of a group: to the handler at `tvec`; to the driver, with the group parked, where
`tvec` is 0 (R372) or not resident or a matrix stream (R134). `cp` is the trapping instruction, `ret` the return code
pointer. -/
def State.trap (s : State) (isl core gid : Nat) (lanes : LaneMask) (code : Nat) (info : DWord) (cp ret tvec : Word) :
    State :=
  let x := s.isl isl
  let stay (s : State) : State := s.modIsl isl fun x => x.modGroup core gid fun g =>
    modThreads g lanes (fun _ t => { t with cp := cp })
  if lanes = 0 then s
  else if tvec = 0 then
    (stay s).parkGroup isl core gid { code := code, info := info, lanes := lanes, cp := cp } none lanes
  else
    let asid := match x.group? core gid with
      | some g => ((x.wg? core g.place).getD {}).asid
      | none => 0
    match resolveCp (x.core core) asid tvec false with
    | .go => s.modIsl isl fun x => x.modGroup core gid fun g => enterTrap g lanes code info ret tvec
    | .miss _ | .wait _ =>
      (stay s).parkGroup isl core gid
        { code := 5, info := ovlInfo 0 4 tvec, origCode := code, origInfo := info, lanes := lanes, cp := cp } none lanes

/-- Moves a lane to a transfer's target, or parks it for the target's overlay (R116, R132); a miss changes nothing
here. `depth` is the call depth the transfer gives. -/
def moveThread (r : Resolved) (t : Word) (depth : BitVec 8) (th : Thread) : Thread :=
  match r with
  | .go => { th with cp := t, depth := depth }
  | .wait i => { th with stat := .ovl t depth i }
  | .miss _ => th

end Sys2Proof.Machine
end

