-- ==== Sys2Proof/Machine/Operands.lean ====
section
/-! DEFINITION. Issuing for a group: the turn of a run (R79, R80), the guard (R30), operand reads by storage level
(R23-R29, R84), decoding faults (R39), the advance of the run with its hints (R31, R35), and fixed-latency results
(R84, R150, R174). -/

namespace Sys2Proof.Machine

/-! ## The turn of a run -/

/-- Whether a thread takes part in head-run selection at a cycle (R79, R118). -/
def Thread.ready (t : Thread) (cyc : Nat) : Bool :=
  match t.stat with
  | .ready => true
  | .asleep till => till ≤ cyc
  | .blocked _ | .ckpt _ | .ovl _ _ _ | .restore => false

/-- The key order of R78: call depth descending, then code pointer ascending. -/
def Key.lt (a b : Key) : Bool :=
  b.depth.toNat < a.depth.toNat || (a.depth = b.depth && a.cp.toNat < b.cp.toNat)

def Thread.key (t : Thread) : Key := { depth := t.depth, cp := t.cp }

/-- The least key of a list, beyond `lo` where one is given. -/
def leastKey (lo : Option Key) : List Key → Option Key
  | [] => none
  | k :: r =>
    let ok := match lo with | some b => b.lt k | none => true
    match leastKey lo r with
    | some m => if ok && k.lt m then some k else some m
    | none => if ok then some k else none

/-- The keys of the runs that may issue. -/
def Group.keys (g : Group) (cyc : Nat) : List Key := (g.threads.filter fun p => p.2.ready cyc).map fun p => p.2.key

/-- The lanes of the run with a key: its threads that may issue. A thread of the same key that sleeps, is blocked or is parked
does not belong to it, and the others issue on without it (log 65; R79 leaves this open). -/
def Group.runOf (g : Group) (cyc : Nat) (k : Key) : LaneMask :=
  maskOf ((g.threads.filter fun p => p.2.ready cyc && p.2.key == k).map (·.1))

/-- The lanes of a `REP`'s run that still stand at it. -/
def Group.repLanes (g : Group) (cyc : Nat) (r : Rep) : LaneMask :=
  maskOf ((g.threads.filter fun p => r.lanes.getLsbD p.1 && p.2.ready cyc && p.2.cp == r.cp).map (·.1))

/-- The key whose turn it is: the run a YLD gave the turn to (R80), else the head run (R79). -/
def Group.turnKey (g : Group) (cyc : Nat) : Option Key :=
  let ks := g.keys cyc
  match g.yieldTo with
  | some k => if ks.contains k then some k else leastKey none ks
  | none => leastKey none ks

/-- The active lanes of the group's next instruction and its code pointer: under `REP` the run that repeats (R35). -/
def Group.turn (g : Group) (cyc : Nat) : Option (LaneMask × Word) :=
  match g.rep with
  | some r => if g.repLanes cyc r = 0 then none else some (g.repLanes cyc r, r.cp + 1)
  | none => (g.turnKey cyc).map fun k => (g.runOf cyc k, k.cp)

/-! ## The environment of an issue -/

/-- What an instruction sees when it issues. -/
structure Env where
  isl : Nat := 0
  core : Nat := 0
  gid : Nat := 0
  cyc : Nat := 0
  /-- The instruction's code pointer. -/
  cp : Word := 0
  /-- Active lanes, and those of them where the guard holds (R30). -/
  run : LaneMask := 0
  guard : LaneMask := 0
  /-- The group as it stands at issue, and 1 and 4 cycles later as far as it has issued (R84). -/
  g : Group := {}
  g1 : Group := {}
  g4 : Group := {}
  wg : Wg := {}
  /-- `sr.clock` as sampled at the main-file level. -/
  clock : DWord := 0
  deriving Repr, Inhabited

/-- The lanes where a guard holds (R30). -/
def guardLanes (g : Group) (c : Ctl) (run : LaneMask) : LaneMask :=
  if c.ge then
    maskOf ((lanesOf run).filter fun l => xor ((g.vreg c.gr.toNat l).getLsbD c.gb.toNat) c.gn)
  else run

/-- The environment of a group's next instruction. -/
def State.env? (s : State) (isl core gid : Nat) (c : Ctl) : Option Env :=
  let x := s.isl isl
  match x.group? core gid with
  | some g =>
    let cyc := s.cyc isl
    let t := (g.turn cyc).getD (0, 0)
    let g0 := settle g cyc
    let g4 := settle g (cyc + 4)
    let h := if halfOf core = 0 then x.half0 else x.half1
    some { isl := isl, core := core, gid := gid, cyc := cyc, cp := t.2, run := t.1, guard := guardLanes g4 c t.1,
           g := g0, g1 := settle g (cyc + 1), g4 := g4, wg := ((x.wg? core g.place).getD {}).settle cyc,
           clock := BitVec.ofNat 64 (cyc + 4 - h.resetAt) }
  | none => none

/-- The code pointer of the following instruction. -/
def Env.next (e : Env) : Word := e.cp + 1

/-- The work identifier of a lane (R16). -/
def widOf (w : Wg) (gidx lane : Nat) : DWord :=
  let f (i v : Nat) (acc : Nat × Nat) : Nat × Nat :=
    (acc.1 + v % 2 ^ hdrW w.hdr i * 2 ^ acc.2, acc.2 + hdrW w.hdr i)
  BitVec.ofNat 64 (f 5 w.wid5.toNat (f 4 w.wid4.toNat (f 3 w.wid3.toNat (f 2 w.rank (f 1 gidx (f 0 lane (0, 0))))))).1

/-- A special register (R28). -/
def Env.special (e : Env) (n lane : Nat) : Word :=
  match n with
  | 0 => BitVec.ofNat 32 Config.width
  | 1 => BitVec.ofNat 32 Config.lsteps
  | 2 => BitVec.ofNat 32 lane
  | 3 => BitVec.ofNat 32 e.gid
  | 4 => (widOf e.wg e.g.gidx lane).setWidth 32
  | 5 => (widOf e.wg e.g.gidx lane >>> 32).setWidth 32
  | 6 => e.clock.setWidth 32
  | 7 => (e.clock >>> 32).setWidth 32
  | 8 => BitVec.ofNat 32 e.core
  | 9 => BitVec.ofNat 32 (clusterOf e.core)
  | 10 => BitVec.ofNat 32 (halfOf e.core)
  | 11 => BitVec.ofNat 32 e.isl
  | 12 => Config.cap
  | _ => 0

/-- A 32-bit source in a lane (R23, R25, R29). -/
def Env.rd32 (e : Env) (o : Opnd) (lane : Nat) : Word :=
  match o with
  | .v k => e.g4.vreg k.toNat lane
  | .vp k => e.g4.vreg k.toNat lane
  | .s k => e.g4.sreg k.toNat
  | .sr n => e.special n.toNat lane
  | .o k => e.g1.oreg k.toNat lane
  | .lt => (e.g.latch lane).setWidth 32
  | .imm i => i.signExtend 32

/-- Two words as a doubleword, the low word first. -/
def pair (lo hi : Word) : DWord := hi ++ lo

/-- A 64-bit source in a lane (R25, R152). -/
def Env.rd64 (e : Env) (o : Opnd) (lane : Nat) : DWord :=
  match o with
  | .v k => (e.g4.vreg k.toNat lane).setWidth 64
  | .vp k => pair (e.g4.vreg k.toNat lane) (e.g4.vreg (k.toNat + 1) lane)
  | .s k => pair (e.g4.sreg k.toNat) (e.g4.sreg (k.toNat + 1))
  | .sr n => pair (e.special n.toNat lane) (e.special (n.toNat + 1) lane)
  | .o k => pair (e.g1.oreg k.toNat lane) (e.g1.oreg (k.toNat + 1) lane)
  | .lt => e.g.latch lane
  | .imm i => i.signExtend 64

/-- A source of the width `wide` selects, zero-extended. -/
def Env.rdW (e : Env) (wide : Bool) (o : Opnd) (lane : Nat) : DWord :=
  if wide then e.rd64 o lane else (e.rd32 o lane).setWidth 64

/-- A 32-bit Z source (R29). -/
def Env.rdZ32 (e : Env) (z : ZOp) (lane : Nat) : Word :=
  match z with
  | .op o => e.rd32 o lane
  | .imm i => i.signExtend 32

/-- A 64-bit Z source (R29). -/
def Env.rdZ64 (e : Env) (z : ZOp) (lane : Nat) : DWord :=
  match z with
  | .op o => e.rd64 o lane
  | .imm i => i.signExtend 64

/-- A Z source of the width `wide` selects, zero-extended. -/
def Env.rdZW (e : Env) (wide : Bool) (z : ZOp) (lane : Nat) : DWord :=
  if wide then e.rdZ64 z lane else (e.rdZ32 z lane).setWidth 64

/-- The lane from which an instruction that acts once takes its per-lane sources (R27). -/
def Env.lane0 (e : Env) : Nat := (lowLane e.guard).getD 0

/-- A 32-bit source of the lowest lane whose immediate is zero-extended (R136, R278). -/
def zeroImm (e : Env) (y : Opnd) : Word :=
  match y with
  | .imm i => i.setWidth 32
  | .v _ | .vp _ | .s _ | .sr _ | .o _ | .lt => e.rd32 y e.lane0

/-- Whether the guard holds in at least one active lane (R30). -/
def Env.any (e : Env) : Bool := e.guard ≠ 0

/-! ## Decoding faults (R24, R37, R39, R82) -/

/-- Whether a register operand lies outside the declared counts (R24). -/
def rangeBad (w : Wg) (r : Opnd × Bool) : Bool :=
  match r.1 with
  | .v k => hdrRegs w.hdr ≤ k.toNat
  | .vp k => hdrRegs w.hdr ≤ k.toNat + 1
  | .s k => hdrUniforms w.hdr ≤ k.toNat + b2n r.2
  | .sr _ | .o _ | .lt | .imm _ => false

/-- The register of a Z operand. -/
def zreg (z : ZOp) (wide : Bool) : Opnd × Bool :=
  match z with
  | .op o => (o, wide)
  | .imm _ => (.imm 0, false)

/-- The privileged instructions (R37, R374). -/
def privileged (opc md : Nat) : Bool :=
  opc = 0xCF || (opc = 0xA7 && md % 2 = 1) || (0xD8 ≤ opc && !(opc = 0xD8 && md = 0))

/-- The classes a role may issue (R82). -/
def roleOk (r : Role) (opc : Nat) : Bool :=
  match r with
  | .vector => !(opc = 0x90 || opc = 0x91)
  | .copy => !((0x40 ≤ opc && opc ≤ 0x67) || (0xB0 ≤ opc && opc ≤ 0xB2) || (0xC8 ≤ opc && opc ≤ 0xD7))

/-- Bits 95:64 of the instruction's word in memory: under `REP`, the unstepped word (R371). -/
def Env.wordHigh (e : Env) (k : CoreS) (i : Instr) : Nat :=
  let w : IWord := match e.g.rep with
    | some _ => (fetchWord k e.cp e.wg.asid false).getD 0
    | none => (encode i).getD 0
  fld w 64 32

/-- The first decoding fault of an instruction in the order of R39, or a check `pre` that follows them (a `pre` of
code 1 is an ILLEGAL that needs the state): its code and information word. -/
def decodeFault (k : CoreS) (i : Instr) (c : Ctl) (regs : List (Opnd × Bool)) (pre : Option (Nat × DWord)) (e : Env) :
    Option (Nat × DWord) :=
  let f := fieldsOf i
  let opc := (f.map (·.opc.toNat)).getD 0
  let md := (f.map (·.md.toNat)).getD 0
  let hi := e.wordHigh k i
  let guardReg : List (Opnd × Bool) := if c.ge then [(.v c.gr, false)] else []
  if !legal i || pre.any (fun p => p.1 = 1) then some (1, BitVec.ofNat 64 hi)
  else if privileged opc md && !e.wg.priv then some (0x11, BitVec.ofNat 64 hi)
  else if !roleOk e.g.role opc then some (2, BitVec.ofNat 64 hi)
  else if (guardReg ++ regs).any (rangeBad e.wg) then some (3, BitVec.ofNat 64 (hi + e.g.rpi * 2 ^ 32))
  else pre

/-- Takes a precise fault at an instruction: it has no effect, the group parks, the record names all lanes (R39,
R373, R376). -/
def State.takeDecode (s : State) (e : Env) (code : Nat) (info : DWord) : State :=
  s.parkGroup e.isl e.core e.gid
    { code := code, info := info, lanes := BitVec.allOnes 64, cp := e.cp } none e.run

/-! ## The advance of the run -/

/-- The flag a word's SETF names (R31). -/
def setFlag (c : Ctl) : Option Nat := if c.setf.toNat < 12 then some c.setf.toNat else none

/-- The issue of an instruction as the group keeps it: its code pointers move on, or the `REP` counts (R35); the hints
are noted (R31); a YLD acts where the head run issues it, and a run that issues in a yielded turn passes on nothing (R80); the
count of retired instructions rises (R89). -/
def advanceGroup (e : Env) (c : Ctl) : Group :=
  let g := e.g
  let g := { g with lastIssue := some e.cyc, eligible := none, retired := if g.retired = 0xFFFFFFFF then g.retired else g.retired + 1 }
  let g := match setFlag c with
    | some f => { g with flags := tput g.flags f (g.flagVal f + 1) }
    | none => g
  let yieldKey (g : Group) : Option Key :=
    if c.yld then
      match (g.threads.find? fun p => e.run.getLsbD p.1).map (·.2.key) with
      | some k => if leastKey none (g.keys e.cyc) = some k then leastKey (some k) (g.keys e.cyc) else none
      | none => none
    else none
  match g.rep with
  | some r =>
    if g.rpi + 1 < r.n then { g with rpi := g.rpi + 1 }
    else
      let g := { g with yieldTo := yieldKey g, rpi := 0, rep := none }
      modThreads g e.run (fun _ t => { t with cp := r.cp + 2, stat := .ready })
  | none =>
    let g := { g with yieldTo := yieldKey g }
    modThreads g e.run (fun _ t => { t with cp := e.next, stat := .ready })

/-- The governor class that an opcode's issue needs (R429). -/
def classOf (opc : Nat) : Nat := if 0x40 ≤ opc ∧ opc ≤ 0x67 then 2 else 1

/-- The opcode of an instruction of the streams, 0 for an event. -/
def opcOf (i : Instr) : Nat := ((fieldsOf i).map (·.opc.toNat)).getD 0

/-- Notes that a core does work of a class now (R429). -/
def State.noteClass (s : State) (isl core c : Nat) : State :=
  s.modIsl isl fun x => x.modCore core fun k => { k with clsUsed := tput k.clsUsed c s.now }

/-- The state after the issue's advance: the SIMD unit is taken for 2 cycles (R83), ungated where it was gated (R428). -/
def State.advance (s : State) (e : Env) (i : Instr) (c : Ctl) : State :=
  let unit := e.gid % 4
  ((s.modIsl e.isl fun x => x.modCore e.core fun k =>
    { k with groups := tput k.groups e.gid (advanceGroup e c), simdNext := tput k.simdNext unit (e.cyc + 2),
             gated := k.gated.filter fun u => u ≠ unit }).noteClass e.isl e.core (classOf (opcOf i))).afterOnce e.isl 66
    .clockGate [e.isl, e.core, unit]

/-- Changes the issuing group. -/
def State.onGroup (s : State) (e : Env) (f : Group → Group) : State :=
  s.modIsl e.isl fun x => x.modGroup e.core e.gid f

/-- Issues an instruction for the group in focus: the decoding faults first, then the advance, then its effect. -/
def issue (i : Instr) (c : Ctl) (regs : List (Opnd × Bool)) (pre : Env → State → Option (Nat × DWord))
    (eff : Env → State → State) (s : State) : Host.Outcome State Fault Refusal :=
  match s.focus with
  | .group isl core gid =>
    match s.env? isl core gid c with
    | some e =>
      match decodeFault ((s.isl isl).core core) i c regs (pre e s) e with
      | some p => .next (s.takeDecode e p.1 p.2)
      | none => .next (eff e (s.advance e i c))
    | none => .fault .noAgent
  | .none | .seq _ _ _ | .event _ => .fault .noAgent

/-- No check beyond the decoding faults. -/
def noPre (_ : Env) (_ : State) : Option (Nat × DWord) := none

/-- The check of the inter-island instructions (R264, R350): a group under a hypothesis takes HYP_REMOTE. -/
def hypRemote (opc : Nat) (e : Env) (_ : State) : Option (Nat × DWord) :=
  if e.g.hy ≠ 0 then some (0x0A, BitVec.ofNat 64 (256 * opc)) else none

/-! ## Results -/

/-- The fixed-latency write of a destination in a lane (R84). -/
def writeAt (due : Nat) (x : Opnd) (wide : Bool) (l : Nat) (v : DWord) (g : Group) : Group :=
  let hi := v >>> 32
  match x with
  | .v k => addWrite g due (.v k.toNat l) v
  | .vp k => addWrite (addWrite g due (.v k.toNat l) v) due (.v (k.toNat + 1) l) hi
  | .s k =>
    let g := addWrite g due (.s k.toNat) v
    if wide then addWrite g due (.s (k.toNat + 1)) hi else g
  | .o k =>
    let g := addWrite g due (.o k.toNat l) v
    if wide then addWrite g due (.o (k.toNat + 1) l) hi else g
  | .sr _ | .lt | .imm _ => g

/-- The fixed-latency result of an instruction in the lanes of a mask; a uniform destination takes the value of the
lowest lane once and leaves the latch (R25, R27, R30). `f` gives a lane's value and its latch value. -/
def Env.result (e : Env) (lat : Nat) (x : Opnd) (wide latch : Bool) (m : LaneMask) (f : Nat → DWord × DWord)
    (g : Group) : Group :=
  let due := e.cyc + lat
  match x with
  | .s _ =>
    match lowLane m with
    | some l => writeAt due x wide 0 (f l).1 g
    | none => g
  | .v _ | .vp _ | .sr _ | .o _ | .lt | .imm _ =>
    (lanesOf m).foldl (fun g l =>
      let r := f l
      let g := writeAt due x wide l r.1 g
      if latch then addWrite g due (.lt l) r.2 else g) g

/-- The completion flag falls when the result is written (R31). -/
def Env.done (e : Env) (c : Ctl) (lat : Nat) (g : Group) : Group :=
  match setFlag c with
  | some f => addWrite g (e.cyc + lat) (.flag f) 0
  | none => g

/-- The flag of an instruction without long-latency work and without a result falls at once (R31, R114). -/
def State.flagNow (s : State) (e : Env) (c : Ctl) : State := s.onGroup e fun g => flagDown g (setFlag c)

/-- Delivers a user trap at the issuing instruction (R112). -/
def State.trapAt (s : State) (e : Env) (lanes : LaneMask) (code : Nat) (info : DWord) (ret : Word) : State :=
  s.trap e.isl e.core e.gid lanes code info e.cp ret e.g4.tvec

/-- A per-lane instruction with one fixed-latency result (R84, R150). -/
def laneOp (i : Instr) (c : Ctl) (lat : Nat) (x : Opnd) (wide : Bool) (regs : List (Opnd × Bool))
    (f : Env → Nat → DWord) (s : State) : Host.Outcome State Fault Refusal :=
  issue i c ((x, wide) :: regs) noPre
    (fun e s => s.onGroup e fun g => e.done c lat (e.result lat x wide true e.guard (fun l => (f e l, f e l)) g)) s

/-- The operations that occupy a copy queue and a fabric queue (R284, R346). -/
def copyInstr (i : Instr) : Bool :=
  match i with
  | .cpy .. | .cpyb .. => true
  | _ => false
def fabricInstr (i : Instr) : Bool :=
  match i with
  | .put .. | .get .. | .ratom .. | .rntfy .. | .coll .. => true
  | _ => false

end Sys2Proof.Machine
end

