-- ==== Sys2Proof/Machine/Home.lean ====
section
/-! DEFINITION. The L1s, the cluster filters and the home slices (R211-R229, R246, R265-R268, R434, R435). -/

namespace Sys2Proof.Machine

/-! ## Lines, slices and distances -/

/-- The number of the first SLICE line of the model's memory (log 8). -/
def sliceLine0 : Nat := Config.sliceBase / 128

/-- The home slice of a line (R212). -/
def sliceOf (ln : Nat) : Nat :=
  if ln < sliceLine0 then
    let pa := ln * 128
    (bitsN pa 9 6) ^^^ (bitsN pa 15 6) ^^^ (bitsN pa 21 6) ^^^ (bitsN pa 27 6)
  else (ln - sliceLine0) / (32 * 512) % 64

/-- One way between a core and a slice (R435). -/
def hop (core slice : Nat) : Nat := if halfOf core = slice / 32 then Config.hopNear else Config.hopFar

/-- The four lines of a line's 512-byte region (R215). -/
def regionOf (ln : Nat) : List Nat := [ln / 4 * 4, ln / 4 * 4 + 1, ln / 4 * 4 + 2, ln / 4 * 4 + 3]

def Island.hline (x : Island) (ln : Nat) : HLine := tgetD x.homes ln {}
def Island.modH (x : Island) (ln : Nat) (f : HLine → HLine) : Island := { x with homes := tput x.homes ln (f (x.hline ln)) }

/-- The region's cluster bitmap and L-hint bitmap (R215). -/
def Island.bitmap (x : Island) (ln : Nat) : BitVec 32 := (regionOf ln).foldl (fun m l => m ||| (x.hline l).clusters) 0
def Island.lhints (x : Island) (ln : Nat) : BitVec 32 := (regionOf ln).foldl (fun m l => m ||| (x.hline l).lhint) 0

/-- The home copy of a line. -/
def Island.homeData (x : Island) (ln : Nat) : Line := memLine x.mem (128 * ln)

/-- Whether a line has a tagged version (R265). -/
def Island.hasVersion (x : Island) (ln : Nat) : Bool := x.versions.any fun v => v.line = ln

/-! ## The L1 and the cluster filter -/

def Island.l1? (x : Island) (core ln : Nat) : Option L1Line := tget? (x.core core).l1 ln

/-- A filter's entry (R215). -/
def filterKey (cluster ln : Nat) : Nat := ln * 32 + cluster
def Island.filter (x : Island) (cluster ln : Nat) : FEntry := tgetD x.filters (filterKey cluster ln) {}

/-- Puts a line into a core's L1, or takes it out, and keeps the filter's core mask and L rank (R215). -/
def Island.setL1 (x : Island) (core ln : Nat) (l : Option L1Line) : Island :=
  let k := clusterOf core
  let f := x.filter k ln
  let bit : BitVec 4 := 1#4 <<< (core % 4)
  let f : FEntry := match l with
    | some a => { mask := f.mask ||| bit,
                  lrank := if a.st = .l then some (core % 4) else if f.lrank = some (core % 4) then none else f.lrank }
    | none => { mask := f.mask &&& ~~~bit, lrank := if f.lrank = some (core % 4) then none else f.lrank }
  let x := { x with filters := if f.mask = 0 then tdel x.filters (filterKey k ln) else tput x.filters (filterKey k ln) f }
  x.modCore core fun c => match l with
    | some a => { c with l1 := tput c.l1 ln a }
    | none => { c with l1 := tdel c.l1 ln, soft := c.soft.filter fun e => match e.loc with
        | .line l _ => l ≠ ln
        | _ => true }

/-- The cores of a cluster that hold a line. -/
def Island.holders (x : Island) (cluster ln : Nat) : List Nat :=
  ((List.range 4).filter fun r => (x.filter cluster ln).mask.getLsbD r).map fun r => 4 * cluster + r

/-- The clusters of a bitmap, ascending. -/
def clustersOf (m : BitVec 32) : List Nat := (List.range 32).filter fun k => m.getLsbD k

/-- Sets of the L1 (R213). -/
def Island.l1Sets (x : Island) (core : Nat) : Nat := fld (x.core core).part 16 6 * 32

/-- Marks a line as the most recently used, or as the least for `.once` (R213, R223), and sets the protection bit for
an urgent group (R90). -/
def Island.touch (x : Island) (core ln : Nat) (once prot : Bool) : Island :=
  match x.l1? core ln with
  | some a =>
    let c := (x.core core).l1Clock + 1
    (x.setL1 core ln (some { a with used := if once then a.used else c, prot := a.prot || prot })).modCore core
      fun k => { k with l1Clock := c }
  | none => x

/-! ## Messages -/

/-- Adds a request of a core to an island's requests. -/
def State.newReq (s : State) (isl : Nat) (r : Req) : Nat × State :=
  (s.nextId, { s with nextId := s.nextId + 1 }.modIsl isl fun x => { x with reqs := tput x.reqs s.nextId r })

/-- The row of a request's arrival at its home. -/
def reqRow : ReqKind → Instr
  | .read | .farRead | .view | .fetch => .homeRead
  | .readEx | .farWrite | .farAtom => .homeReadExclusive
  | .upgrade => .homeUpgrade
  | .writeBack _ => .homeWriteBack
  | .merge _ => .homeMerge
  | .tagged | .taggedAtom => .taggedWrite

/-- Sends a request to its home slice, `d` cycles from now (R435). -/
def State.sendHome (s : State) (isl d : Nat) (r : Req) : Nat × State :=
  let p := s.newReq isl r
  (p.1, p.2.after isl (d + hop r.core (sliceOf r.line)) (reqRow r.kind) [isl, p.1])

def State.modReq (s : State) (isl id : Nat) (f : Req → Req) : State :=
  s.modIsl isl fun x => { x with reqs := tmod x.reqs id f }
def State.delReq (s : State) (isl id : Nat) : State := s.modIsl isl fun x => { x with reqs := tdel x.reqs id }

/-- Events that touch a line in a core's L1 or store fire the monitors on it (R241). -/
def locMatches (m l : Loc) : Bool :=
  match m, l with
  | .line a _, .line b _ => a = b
  | .scr c p o, .scr d q r => c = d && p = q && o / 128 = r / 128
  | .pin c o, .pin d r => c = d && o / 128 = r / 128
  | _, _ => false

def State.fireMonitors (s : State) (isl core : Nat) (l : Loc) : State :=
  (((s.isl isl).core core).monitors.filter fun m => locMatches m.loc l).foldl
    (fun s m => s.afterOnce isl 0 .waitaMonitorFire [isl, core, m.op]) s

/-! ## Leaving the L1 (R219, R220) -/

/-- Merges or writes back what a core's copy of a line owes, and leaves it clean in S (`keep`) or in I; an owner's
clean copy is told to the home too, so that no probe waits for it. Answers the request sent, if one was. -/
def State.cleanLine (s : State) (isl core ln d : Nat) (keep : Bool) (op sub : Nat) : Option Nat × State :=
  let x := s.isl isl
  match x.l1? core ln with
  | none => (none, s)
  | some a =>
    let after : Option L1Line := if keep then some { a with st := .s, dirty := 0 } else none
    let s' := (s.modIsl isl fun x => x.setL1 core ln after).fireMonitors isl core (.line ln 0)
    let base : Req := { core := core, line := ln, data := a.data, mask := a.dirty, poison := a.poison, op := op,
                        sub := sub, launch := a.launch }
    match a.st with
    | .l => let p := s'.sendHome isl d { base with kind := .merge keep }; (some p.1, p.2)
    | .m | .o => let p := s'.sendHome isl d { base with kind := .writeBack keep }; (some p.1, p.2)
    | .e =>
      if keep then (none, s)
      else let p := s'.sendHome isl d { base with kind := .writeBack false }; (some p.1, p.2)
    | .s => (none, s')

/-- Replaces a line (R213, R220). -/
def State.evict (s : State) (isl core ln : Nat) : State := (s.cleanLine isl core ln 0 false 0 0).2

/-- Makes room in a line's set: least recently used among unprotected lines, else among all (R90, R213). -/
def State.makeRoom (s : State) (isl core ln : Nat) : State :=
  let x := s.isl isl
  let sets := x.l1Sets core
  let inSet := (x.core core).l1.filter fun p => p.1 % sets = ln % sets && p.1 ≠ ln
  if inSet.length < 16 then s
  else
    let pool := if inSet.any fun p => !p.2.prot then inSet.filter fun p => !p.2.prot else inSet
    match pool.foldl (fun (m : Option (Nat × L1Line)) p =>
        match m with | some q => if p.2.used < q.2.used then some p else m | none => some p) none with
    | some v => s.evict isl core v.1
    | none => s

/-- Fills a line. -/
def State.fill (s : State) (isl core ln : Nat) (a : L1Line) (once prot : Bool) : State :=
  let s := s.makeRoom isl core ln
  let s := s.modIsl isl fun x => (x.setL1 core ln (some { a with used := 0 })).touch core ln once prot
  s.fireMonitors isl core (.line ln 0)

/-! ## The pending-invalidation queue (R222, R246) -/

/-- Drops a core's copy for an invalidation: a copy in L merges first, and an owner's copy that the home did not recall
is written back, so that no dirty byte is lost. Where the home waits for the merge (`force`), the answer names the
invalidation, with no bytes where the copy is not in L. -/
def State.dropCopy (s : State) (isl id : Nat) (v : Inv) : State :=
  let answer (s : State) (r : Req) : State := (s.sendHome isl 0 { r with kind := .merge false, core := v.core, line := v.line, inv := some id }).2
  match (s.isl isl).l1? v.core v.line with
  | none => if v.force then answer s {} else s
  | some a =>
    if v.viewOnly && a.view = 0 then s
    else if v.force then
      if a.st = LineSt.l then
        answer ((s.modIsl isl fun x => x.setL1 v.core v.line none).fireMonitors isl v.core (.line v.line 0))
          { data := a.data, mask := a.dirty, poison := a.poison, launch := a.launch }
      else answer s {}
    else (s.cleanLine isl v.core v.line 0 false 0 0).2

/-- Applies an invalidation: the copy is dropped, the entry leaves the queue, acquires that waited for it go on (R225). -/
def State.applyInv (s : State) (isl id : Nat) : State :=
  match tget? (s.isl isl).invs id with
  | none => s
  | some v =>
    let s := s.dropCopy isl id v
    let s := s.modIsl isl fun x =>
      { x.modCore v.core fun k => { k with pinv := k.pinv.filter fun i => i ≠ id } with
        invs := if v.acked then tdel x.invs id else tmod x.invs id fun v => { v with arrived := true } }
    (s.isl isl).ops.foldl (fun (s : State) (p : Nat × Op) =>
      if p.2.drains.contains id then
        let s := s.modOp isl p.1 fun o => { o with drains := o.drains.filter fun i => i ≠ id }
        if p.2.drains.length ≤ 1 then s.afterOnce isl 0 .acquireWaitEnd [isl, v.core, p.1] else s
      else s) s

/-- Applies the entries of a core's queue up to the last one for a line, in order: a write on the line, or a supply of it to
a peer, finds no copy whose invalidation has arrived (R217, R218, R253). -/
def State.drainFor (s : State) (isl core ln : Nat) : State :=
  let q := ((s.isl isl).core core).pinv
  let last := (List.range q.length).foldl (fun m i =>
    match tget? (s.isl isl).invs (q.getD i 0) with
    | some v => if v.line = ln then i + 1 else m
    | none => m) 0
  (q.take last).foldl (fun s i => s.applyInv isl i) s

/-- Applies what has arrived for a line at every core of a cluster that holds it. -/
def State.drainCluster (s : State) (isl core ln : Nat) : State :=
  ((s.isl isl).holders (clusterOf core) ln).foldl (fun s c => s.drainFor isl c ln) s

/-- An invalidation enters a core's queue; the model applies it after a choice below 256 cycles (R222, R246). -/
def State.queueInv (s : State) (isl id core : Nat) : State :=
  let s := s.modIsl isl fun x => x.modCore core fun k => { k with pinv := k.pinv ++ [id] }
  let p := s.choose 255
  p.2.after isl (1 + p.1) .invalidationApply [isl, core, id]

/-- Whether an invalidation of a core's copy is on its way or not yet applied. -/
def Island.invPending (x : Island) (core ln : Nat) : Bool :=
  x.invs.any fun p => p.2.core = core && p.2.line = ln && !p.2.arrived

/-- Sends an invalidation to a core, `d` cycles from now; answers its identity. -/
def State.sendInv (s : State) (isl d ln core : Nat) (viewOnly force : Bool) (spare : Option Nat) : Nat × State :=
  let id := s.nextId
  let s := { s with nextId := id + 1 }.modIsl isl fun x =>
    { x with invs := tput x.invs id { line := ln, core := core, viewOnly := viewOnly, force := force, spare := spare } }
  (id, s.after isl (d + hop core (sliceOf ln)) .invalidationArrival [isl, id])

/-- Sends invalidations to cores in turn. -/
def State.sendInvs (s : State) (isl d ln : Nat) (viewOnly force : Bool) (spare : Option Nat) : List Nat → List Nat × State
  | [] => ([], s)
  | c :: r =>
    let p := s.sendInv isl d ln c viewOnly force spare
    let q := p.2.sendInvs isl d ln viewOnly force spare r
    (p.1 :: q.1, q.2)

/-! ## Writing the home copy -/

/-- Whether bytes of a line touch a field of a descriptor at a physical address: `n` bytes from byte `off` of it. -/
def touches (ln : Nat) (mask : ByteMask) (pa off n : Nat) : Bool :=
  pa / 128 = ln && ((mask >>> (pa % 128 + off)) &&& BitVec.ofNat 128 (2 ^ n - 1)) ≠ 0

/-- What a store that is performed at the home tells the command processors and the island: an advance of a launch
queue's TAIL, with the launch that wrote it, and the setting of its STATE (R98, R105, R106); an advance of HEAD of the
fault queue or the event queue (R375, R422). -/
def State.watchTails (s : State) (isl ln : Nat) (mask : ByteMask) (launch : Nat) : State :=
  let x := s.isl isl
  let go (host : Bool) (s : State) (p : Nat × DWord) : State :=
    let pa := fld p.2 0 42 * 64
    if !p.2.getLsbD 63 then s
    else
      let s := if touches ln mask pa 24 8 then s.after isl 1 .queueTailAdvance [isl, b2n host, p.1, launch, memNat x.mem (pa + 24) 8] else s
      if touches ln mask pa 11 1 then s.after isl 1 .queueRestart [isl, b2n host, p.1] else s
  let s := x.sys.dq.foldl (go false) s
  let s := if s.bell.any fun b => b / 2 = isl then x.sys.hq.foldl (go true) s else s
  if (x.faults.isEmpty && x.events.isEmpty) ||
      !(touches ln mask (fld x.sys.fq 0 48) 16 8 || touches ln mask (fld x.host.eq 0 48) 16 8) then s
  else s.after isl 1 .faultQueueRoom [isl]

/-! ## The slices' capacity (R14, R265) -/

/-- Lines of a slice: 4 MiB (R14). -/
def sliceLines : Nat := 32768

/-- The lines of a line's slice that it holds and may replace: those of SLICE pages never are (R212), nor is a line in a
transaction. -/
def Island.replaceable (x : Island) (ln : Nat) : List Nat :=
  (x.homes.filter fun p => p.2.inSlice && sliceOf p.1 = sliceOf ln && p.1 ≠ ln && p.1 < sliceLine0 && p.2.txn.isNone).map (·.1)

/-- Whether a line's slice holds more than it has room for: each tagged version takes a line's room (R265). -/
def Island.sliceOver (x : Island) (ln : Nat) : Bool :=
  sliceLines < (x.homes.filter fun p => p.2.inSlice && sliceOf p.1 = sliceOf ln).length +
    (x.versions.filter fun v => sliceOf v.line = sliceOf ln).length

/-- Replaces a line of a slice that holds more than it has room for; the manual names no policy, so a choice picks it
(log 28). Its bytes go to HBM, where they stand in the model already. -/
def State.trimSlice (s : State) (isl ln : Nat) : State :=
  let x := s.isl isl
  if !x.sliceOver ln then s
  else
    let ls := x.replaceable ln
    if ls.isEmpty then s
    else
      let p := s.choose ls.length
      p.2.modIsl isl fun x => x.modH (ls.getD p.1 0) fun h => { h with inSlice := false, dirty := false }

/-- Has a slice's idleness looked at 1 ms from now (R428). -/
def State.sleepCheck (s : State) (isl sl : Nat) : State :=
  if s.agenda.any (fun p => p.2 == .row .sliceRetentionSleep [isl, sl]) then s
  else s.afterPs 1000000000 .sliceRetentionSleep [isl, sl]

/-- Notes an access at a slice: one in retention sleep is awake from then on (R428). -/
def State.useSlice (s : State) (isl sl : Nat) : State :=
  (s.modIsl isl fun x =>
    { x with sliceUsed := tput x.sliceUsed sl s.now, asleep := x.asleep.filter fun i => i ≠ sl }).sleepCheck isl sl

/-- Notes the accesses of a unit to the slices of a range of physical addresses (R428). -/
def State.useSlices (s : State) (isl a n : Nat) : State :=
  ((List.range ((a + n + 127) / 128 - a / 128)).map fun i => sliceOf (a / 128 + i)).eraseDups.foldl
    (fun (s : State) sl => s.useSlice isl sl) s

/-- Writes bytes of a line into the home copy (R219, R220, R223); a write of all 128 bytes clears its poison (R227). -/
def State.homeWrite (s : State) (isl ln : Nat) (data : Line) (mask : ByteMask) (poison : Bool) (launch : Nat) : State :=
  let up (h : HLine) : HLine :=
    { h with inSlice := true, dirty := h.dirty || mask ≠ 0,
             poison := if mask = BitVec.allOnes 128 then poison else h.poison || poison }
  let s := s.modIsl isl fun x => { x.modH ln up with mem := memMergeLine x.mem (128 * ln) data mask }
  let s := s.trimSlice isl ln
  if mask = 0 then s else s.watchTails isl ln mask launch

/-- Whether every copy of a line that must be asked has been; used after a merge to find the other clusters' cores. -/
def Island.copiesIn (x : Island) (ln : Nat) (m : BitVec 32) : List Nat := (clustersOf m).flatMap fun k => x.holders k ln

/-! ## The chain view (R262, R267) -/

/-- The chain of a hypothesis from depth 1 down to itself. -/
def chainOf (hyps : Tbl Hyp) : Nat → Nat → List Nat
  | 0, _ => []
  | fuel + 1, g => if g = 0 then [] else chainOf hyps fuel (tgetD hyps g {}).parent.toNat ++ [g]

/-- Whether a request carries a write-back, or an owner's answer, that has not reached the home. -/
def Req.back (r : Req) (ln : Nat) : Bool := r.line = ln && match r.kind with | .writeBack _ => true | _ => false

/-- The home copy as a read performed at the home finds it: with the owner's bytes, still held or on their way, and
without L bytes (R219, R223). -/
def Island.homeView (x : Island) (ln : Nat) : Line :=
  let l := x.reqs.foldl (fun l p => if p.2.back ln then lineMerge l p.2.data p.2.mask else l) (x.homeData ln)
  match (x.hline ln).owner with
  | some (o, _) => match x.l1? o ln with
    | some a => if a.view = 0 && a.st ≠ .l then lineMerge l a.data a.dirty else l
    | none => l
  | none => l

/-- Whether a line read at the home is poisoned (R227). -/
def Island.homePoison (x : Island) (ln : Nat) : Bool :=
  (x.hline ln).poison || (match (x.hline ln).owner with
    | some (o, _) => (x.l1? o ln).any (·.poison)
    | none => false) || x.reqs.any fun p => p.2.back ln && p.2.poison

/-- A line with the versions of a chain laid over it (R267). -/
def Island.overChain (x : Island) (ln : Nat) (g : BitVec 8) (l : Line) : Line :=
  (chainOf x.hyps 9 g.toNat).foldl (fun l h =>
    match x.versions.find? fun v => v.line = ln && v.tag.toNat = h with
    | some v => lineMerge l v.data v.mask
    | none => l) l

/-- The chain view of a line (R267). -/
def Island.chainView (x : Island) (ln : Nat) (g : BitVec 8) : Line := x.overChain ln g (x.homeData ln)

/-- Cores to which a grant of a line is on its way. -/
def Island.inFlight (x : Island) (ln : Nat) : List Nat :=
  (x.reqs.filter fun p => p.2.line = ln && p.2.granted && match p.2.kind with
    | .read | .readEx | .upgrade | .view => true
    | .writeBack _ | .merge _ | .farRead | .farWrite | .farAtom | .fetch | .tagged | .taggedAtom => false).map fun p => p.2.core

/-- Whether nothing is in progress on a line: an access of a unit at the home may be performed in one step. -/
def Island.quiet (x : Island) (ln : Nat) : Bool :=
  let h := x.hline ln
  h.txn.isNone && !h.held && (x.inFlight ln).isEmpty && !(x.reqs.any fun p => p.2.line = ln && p.2.mask ≠ 0)

/-! ## Access of the units at the home

Walkers, engines, the command processors, arriving fabric operations and the host are served at the home in one step,
with the recall's effects made in it. -/

/-- Takes dirty bytes home and drops every copy. -/
def Island.recallNow (x : Island) (ln : Nat) : Island :=
  let put (x : Island) (a : L1Line) : Island :=
    if a.dirty = 0 && !a.poison then x
    else { x.modH ln fun h => { h with inSlice := true, dirty := true, poison := h.poison || a.poison } with
           mem := memMergeLine x.mem (128 * ln) a.data a.dirty }
  let take (x : Island) (c : Nat) : Island := match x.l1? c ln with
    | some a => (put x a).setL1 c ln none
    | none => x
  let x := (List.range 32).foldl (fun x k =>
    match (x.filter k ln).lrank with
    | some r => take x (4 * k + r)
    | none => x) x
  let x := match (x.hline ln).owner with
    | some (o, _) => take x o
    | none => x
  let x := (List.range 32).foldl (fun x k => (x.holders k ln).foldl (fun x c => x.setL1 c ln none) x) x
  { x.modH ln fun h => { h with clusters := 0, lhint := 0, owner := none, txn := h.txn.map fun t => { t with wbSeen := true } } with
    reqs := tmap x.reqs fun _ r => if r.line = ln && r.ans.isSome then { r with stays := none } else r }

/-- Bytes at physical addresses as a `.far` load of a view reads them at the home (R223, R258, R267). -/
def State.readHome (s : State) (isl : Nat) (g : BitVec 8) (n a : Nat) : List Byte :=
  let x := s.isl isl
  let first := a / 128
  ((List.range ((a + n + 127) / 128 - first)).flatMap fun i =>
    let ln := first + i
    let l := x.overChain ln g (x.homeView ln)
    let lo := a - 128 * ln
    (List.range (min 128 (a + n - 128 * ln) - lo)).map fun j => lineByte l (lo + j))

/-- A little-endian number read at the home. -/
def State.readHomeN (s : State) (isl a n : Nat) : Nat := leNat (s.readHome isl 0 n a)

/-- The pieces of a byte string from an address that lie in one line each: offset from its start, and length. -/
def linePieces (a n : Nat) : List (Nat × Nat) :=
  (List.range ((a + n + 127) / 128 - a / 128)).map fun i =>
    let lo := max a (128 * (a / 128 + i))
    (lo - a, min (a + n) (128 * (a / 128 + i) + 128) - lo)

/-- Bytes laid into a line from an offset. -/
def bytesLine (off : Nat) (bs : List Byte) : Line := BitVec.ofNat 1024 (leNat bs * 256 ^ off)

/-- Recalls every copy of a line; the monitors of the cores that held one fire (R219, R241). -/
def State.recallLine (s : State) (isl ln : Nat) : State :=
  let x := s.isl isl
  let held := x.cores.filter fun p => !p.2.monitors.isEmpty && (x.l1? p.1 ln).isSome
  let s := held.foldl (fun (s : State) p => s.fireMonitors isl p.1 (.line ln 0)) (s.modIsl isl fun x => x.recallNow ln)
  s.trimSlice isl ln

/-- Writes bytes of one line with home reach, untagged: every copy is recalled and view lines dropped first (R216, R268). -/
def State.writeHomeLine (s : State) (isl ln off : Nat) (launch : Nat) (bs : List Byte) : State :=
  ((s.recallLine isl ln).homeWrite isl ln (bytesLine off bs) (maskN off bs.length) false launch).useSlice isl (sliceOf ln)

/-- Writes bytes with home reach. -/
def State.writeHome (s : State) (isl a : Nat) (launch : Nat) (bs : List Byte) : State :=
  (linePieces a bs.length).foldl (fun s p =>
    s.writeHomeLine isl ((a + p.1) / 128) ((a + p.1) % 128) launch ((bs.drop p.1).take p.2)) s

/-- Writes a little-endian number with home reach. -/
def State.writeHomeN (s : State) (isl a n v : Nat) : State := s.writeHome isl a 0 (leBytes n v)

/-- Whether the lines of a range of physical addresses are quiet. -/
def Island.quietRange (x : Island) (a n : Nat) : Bool :=
  (List.range ((a + n + 127) / 128 - a / 128)).all fun i => x.quiet (a / 128 + i)

end Sys2Proof.Machine
end

