-- ==== Sys2Proof/Machine/Numbers.lean ====
section
/-! DEFINITION. Numbers: integer helpers (R53-R55, R153), exact values of the floating and narrow formats and their
rounding (R56-R72), and enclosures of the special functions (R188). -/

namespace Sys2Proof.Machine

/-! ## Integers -/

/-- The low `n` bits of an integer as a pattern (R54). -/
def truncI (x : Int) (n : Nat) : Nat := (x % (2 : Int) ^ n).toNat

/-- An `n`-bit pattern read as signed (R54). -/
def sextN (p n : Nat) : Int :=
  let p := p % 2 ^ n
  if p < 2 ^ (n - 1) then (p : Int) else (p : Int) - (2 : Int) ^ n

/-- `sat_i` and `sat_n` (R54). -/
def satI (x : Int) (n : Nat) : Int := max (-((2 : Int) ^ (n - 1))) (min x ((2 : Int) ^ (n - 1) - 1))
def satN (x : Int) (n : Nat) : Int := max 0 (min x ((2 : Int) ^ n - 1))

/-- Width and signedness of a type (R151). -/
def tWidth : IType → Nat
  | .i32 | .n32 | .b32 => 32
  | .i16 | .n16 => 16
  | .i8 | .n8 => 8
  | .i64 | .n64 | .b64 => 64
def tSigned : IType → Bool
  | .i32 | .i16 | .i8 | .i64 => true
  | .n32 | .b32 | .n16 | .n8 | .n64 | .b64 => false

/-- `rd(v, T)` (R153). -/
def rdT (v : DWord) (t : IType) : Int :=
  if tSigned t then sextN v.toNat (tWidth t) else (v.toNat % 2 ^ tWidth t : Nat)

/-- `put(x, T, V)` (R153): wrapped or saturated, then extended to 32 bits where the type is narrower. -/
def putT (x : Int) (t : IType) (sat : Bool) : DWord :=
  let n := tWidth t
  let p := truncI (if sat then (if tSigned t then satI x n else satN x n) else x) n
  if n < 32 ∧ tSigned t then BitVec.ofNat 64 (truncI (sextN p n) 32) else BitVec.ofNat 64 p

/-! ## Exact values -/

/-- An exact value: `fin s n e` is (−1)^s × n × 2^e, a signed zero where n = 0. -/
inductive Fv where
  | nan
  | inf (s : Bool)
  | fin (s : Bool) (n : Nat) (e : Int)
  deriving DecidableEq, Repr, Inhabited

/-- A binary format: exponent bits, mantissa bits, bias (R56). -/
structure Fmt where
  eb : Nat
  mb : Nat
  bias : Int
  deriving DecidableEq, Repr, Inhabited

def fmt32 : Fmt := { eb := 8, mb := 23, bias := 127 }
def fmt16 : Fmt := { eb := 5, mb := 10, bias := 15 }
def fmtB16 : Fmt := { eb := 8, mb := 7, bias := 127 }
def fmt40 : Fmt := { eb := 8, mb := 31, bias := 127 }

/-- The element format of a type; the narrow types have formats of their own. -/
def fmtOf : FType → Fmt
  | .f16 | .f16x2 => fmt16
  | .bf16 | .bf16x2 => fmtB16
  | .f32 | .q4 | .q6 | .q8 => fmt32

/-- The pattern of its parts. -/
def Fmt.join (f : Fmt) (s : Bool) (e m : Nat) : Nat := b2n s * 2 ^ (f.eb + f.mb) + e * 2 ^ f.mb + m
def Fmt.top (f : Fmt) : Nat := 2 ^ f.eb - 1
/-- The default NaN (R56, R57). -/
def Fmt.nan (f : Fmt) : Nat := f.join false f.top (2 ^ (f.mb - 1))
def Fmt.inf (f : Fmt) (s : Bool) : Nat := f.join s f.top 0
def Fmt.largest (f : Fmt) (s : Bool) : Nat := f.join s (f.top - 1) (2 ^ f.mb - 1)
/-- Exponent of the least normal value. -/
def Fmt.emin (f : Fmt) : Int := 1 - f.bias

/-- The value of a pattern (R56). -/
def decodeF (f : Fmt) (p : Nat) : Fv :=
  let s := p / 2 ^ (f.eb + f.mb) % 2 = 1
  let e := p / 2 ^ f.mb % 2 ^ f.eb
  let m := p % 2 ^ f.mb
  if e = f.top then (if m = 0 then .inf s else .nan)
  else if e = 0 then .fin s m (f.emin - f.mb)
  else .fin s (2 ^ f.mb + m) (e - f.bias - f.mb)

/-- The value with a BF16 subnormal read as a signed zero (R64). -/
def flushSub (f : Fmt) (v : Fv) : Fv :=
  match v with
  | .fin s n e => if n < 2 ^ f.mb then .fin s 0 e else v
  | .nan | .inf _ => v

/-! ## Sticky flags -/

/-- Flag bits of the FP control word (R62). -/
def fNv : Nat := 0x100
def fDz : Nat := 0x200
def fOf : Nat := 0x400
def fUf : Nat := 0x800
def fNx : Nat := 0x1000

/-- One flag word when a condition holds. -/
def flagIf (b : Bool) (f : Nat) : Nat := if b then f else 0

/-! ## Rounding -/

/-- n / 2^sh rounded by mode `rm` for sign `s`, and whether it was inexact (R59). -/
def shiftRound (rm : Nat) (s : Bool) (n : Nat) (sh : Int) : Nat × Bool :=
  if sh ≤ 0 then (n * 2 ^ (-sh).toNat, false)
  else if sh > Nat.log2 n + 2 then
    let up := n ≠ 0 && ((rm = 2 && !s) || (rm = 3 && s))
    (b2n up, n ≠ 0)
  else
    let d := 2 ^ sh.toNat
    let q := n / d
    let r := n % d
    let up := match rm with
      | 0 => 2 * r > d || (2 * r = d && q % 2 = 1)
      | 1 => false
      | 2 => !s && r ≠ 0
      | _ => s && r ≠ 0
    (if up then q + 1 else q, r ≠ 0)

/-- A nonzero value rounded to `mb` mantissa bits with least normal exponent `emin`: the integer, its unit's exponent,
whether it is inexact, whether it is tiny after rounding (R59). -/
def gridRound (mb : Nat) (emin : Int) (rm : Nat) (s : Bool) (n : Nat) (e : Int) : Nat × Int × Bool × Bool :=
  let top := e + Nat.log2 n
  let lsb := max (top - mb) (emin - mb)
  let r := shiftRound rm s n (lsb - e)
  let u := shiftRound rm s n (top - mb - e)
  let tiny := top < emin - 1 || (top = emin - 1 && u.1 < 2 ^ (mb + 1))
  if r.1 = 2 ^ (mb + 1) then (2 ^ mb, lsb + 1, r.2, tiny) else (r.1, lsb, r.2, tiny)

/-- `round_fp(x, fmt, rm)` (R59): the pattern and the flags of, uf, nx. -/
def roundFp (f : Fmt) (rm : Nat) (x : Fv) : Nat × Nat :=
  match x with
  | .nan => (f.nan, 0)
  | .inf s => (f.inf s, 0)
  | .fin s n e =>
    if n = 0 then (f.join s 0 0, 0)
    else
      let g := gridRound f.mb f.emin rm s n e
      let q := g.1
      let ex : Int := if q < 2 ^ f.mb then 0 else g.2.1 + f.mb + f.bias
      if ex ≥ f.top then
        let toInf := rm = 0 || (rm = 2 && !s) || (rm = 3 && s)
        (if toInf then f.inf s else f.largest s, fOf + fNx)
      else (f.join s ex.toNat (q % 2 ^ f.mb), flagIf g.2.2.1 fNx + flagIf (g.2.2.1 && g.2.2.2) fUf)

/-! ## Exact arithmetic -/

def Fv.neg : Fv → Fv
  | .nan => .nan
  | .inf s => .inf !s
  | .fin s n e => .fin (!s) n e

/-- The product and its invalid flag (R63, R180). -/
def Fv.mul (a b : Fv) : Fv × Nat :=
  match a, b with
  | .nan, _ | _, .nan => (.nan, 0)
  | .inf s, .inf t => (.inf (xor s t), 0)
  | .inf s, .fin t n _ => if n = 0 then (.nan, fNv) else (.inf (xor s t), 0)
  | .fin t n _, .inf s => if n = 0 then (.nan, fNv) else (.inf (xor s t), 0)
  | .fin s n e, .fin t m d => (.fin (xor s t) (n * m) (e + d), 0)

/-- The exact sum of finite values on the unit 2^u. -/
def sumOn (u : Int) : List Fv → Int
  | [] => 0
  | .fin s n e :: r => (if s then -((n : Int) * 2 ^ (e - u).toNat) else (n : Int) * 2 ^ (e - u).toNat) + sumOn u r
  | .nan :: r | .inf _ :: r => sumOn u r

/-- The exact sum of values, with the sign of an exact zero by the mode (R59), and the invalid flag: opposite
infinities raise it, beside a NaN too (R63, R182). -/
def sumFv (rm : Nat) (xs : List Fv) : Fv × Nat :=
  let pos := xs.contains (.inf false)
  let neg := xs.contains (.inf true)
  if pos && neg then (.nan, fNv)
  else if xs.contains .nan then (.nan, 0)
  else if pos then (.inf false, 0)
  else if neg then (.inf true, 0)
  else
    let u := xs.foldl (fun u v => match v with | .fin _ n e => if n = 0 then u else min u e | .nan | .inf _ => u) (1024 : Int)
    let t := sumOn u (xs.filter fun v => match v with | .fin _ n _ => n ≠ 0 | .nan | .inf _ => false)
    if t = 0 then
      let s (v : Fv) : Bool := match v with | .fin s _ _ => s | .nan | .inf _ => false
      (.fin (if xs.all s then true else if xs.any s then rm = 3 else false) 0 0, 0)
    else (.fin (t < 0) t.natAbs u, 0)

/-- −1, 0 or 1 as a finite or infinite value compares with another; none with a NaN (R184). -/
def cmpFv (a b : Fv) : Option Int :=
  match a, b with
  | .nan, _ | _, .nan => none
  | .inf s, .inf t => some (if s = t then 0 else if s then -1 else 1)
  | .inf s, .fin _ _ _ => some (if s then -1 else 1)
  | .fin _ _ _, .inf t => some (if t then 1 else -1)
  | .fin s n e, .fin t m d =>
    let u := min e d
    some (sumOn u [.fin s n e, .fin (!t) m d]).sign

/-- minimumNumber and maximumNumber (R58): −0 is less than +0. -/
def minFv (a b : Fv) : Fv :=
  match cmpFv a b with
  | none => if a = .nan then b else a
  | some c =>
    if c = 0 then (match a with | .fin true 0 _ => a | _ => b) else if c < 0 then a else b
def maxFv (a b : Fv) : Fv :=
  match cmpFv a b with
  | none => if a = .nan then b else a
  | some c =>
    if c = 0 then (match a with | .fin true 0 _ => b | _ => a) else if c < 0 then b else a

/-- The floating conditions (R184). -/
def condF (cc : FCond) (a b : Fv) : Bool :=
  match cc, cmpFv a b with
  | .ne, none | .nan, none => true
  | .eq, none | .lt, none | .le, none | .gt, none | .ge, none | .num, none => false
  | .eq, some c => c = 0
  | .ne, some c => c ≠ 0
  | .lt, some c => c < 0
  | .le, some c => c ≤ 0
  | .gt, some c => c > 0
  | .ge, some c => c ≥ 0
  | .num, some _ => true
  | .nan, some _ => false

/-- The integer conditions (R163). -/
def condI (cc : ICond) (a b : Int) : Bool :=
  match cc with
  | .eq => a = b
  | .ne => a ≠ b
  | .lt => a < b
  | .le => a ≤ b
  | .gt => a > b
  | .ge => a ≥ b

/-- An exact integer as a value. -/
def ofIntFv (x : Int) : Fv := .fin (x < 0) x.natAbs 0

/-- A finite value rounded to an integer by a mode, and whether it was inexact (R65, R183). -/
def toIntegral (rm : Nat) (s : Bool) (n : Nat) (e : Int) : Int × Bool :=
  let r := shiftRound rm s n (-e)
  (if s then -(r.1 : Int) else r.1, r.2)

/-- A conversion to an integer type (R65): the integer delivered, with nv and nx. A magnitude beyond every type is not
formed. -/
def fpToInt (rm : Nat) (t : IType) (v : Fv) : Int × Nat :=
  let lo : Int := if tSigned t then -((2 : Int) ^ (tWidth t - 1)) else 0
  let hi : Int := if tSigned t then (2 : Int) ^ (tWidth t - 1) - 1 else (2 : Int) ^ tWidth t - 1
  match v with
  | .nan => (0, fNv)
  | .inf s => (if s then lo else hi, fNv)
  | .fin s n e =>
    if n ≠ 0 ∧ e + Nat.log2 n > 70 then (if s then lo else hi, fNv)
    else
      let r := toIntegral rm s n e
      if r.1 < lo then (lo, fNv) else if r.1 > hi then (hi, fNv) else (r.1, flagIf r.2 fNx)

/-! ## Narrow formats (R66-R71) -/

def fmS (w : Word) : Bool := w.getLsbD 0
def fmE (w : Word) : Nat := fld w 1 3
def fmM (w : Word) : Nat := fld w 4 3
def fmBias (w : Word) : Int := sextN (fld w 8 8) 8
def fmSpec (w : Word) : Nat := fld w 16 2
def fmSat (w : Word) : Bool := w.getLsbD 18
/-- Bits of a code. -/
def fmN (w : Word) : Nat := b2n (fmS w) + fmE w + fmM w

/-- Whether a format register is valid for a width (R67). -/
def fmValid (w : Word) (n : Nat) : Bool :=
  fmN w = n && (n = 4 || n = 6 || n = 8) && fmSpec w ≠ 3 && !(fmSpec w = 1 && (fmE w = 0 || fmM w = 0)) &&
    !(fmSpec w = 2 && !fmS w) && fld w 7 1 = 0 && fld w 19 13 = 0

/-- `decode_narrow` (R70). -/
def decodeNarrow (w : Word) (code : Nat) : Fv :=
  let n := fmN w
  let code := code % 2 ^ n
  let m := fmM w
  if fmSpec w = 2 && code = 2 ^ (n - 1) then .nan
  else if fmE w = 0 then
    let k : Int := if fmS w then sextN code n else code
    .fin (k < 0) k.natAbs (-(fmBias w))
  else
    let s := fmS w && code / 2 ^ (n - 1) % 2 = 1
    let e := code / 2 ^ m % 2 ^ fmE w
    let f := code % 2 ^ m
    if fmSpec w = 1 && e = 2 ^ fmE w - 1 then (if f = 0 then .inf s else .nan)
    else if e = 0 then .fin s f (1 - fmBias w - m)
    else .fin s (2 ^ m + f) (e - fmBias w - m)

/-- The NaN code of a format (R71). -/
def narrowNan (w : Word) : Nat × Nat :=
  if fmSpec w = 1 then ((2 ^ fmE w - 1) * 2 ^ fmM w + 2 ^ (fmM w - 1), 0)
  else if fmSpec w = 2 then (2 ^ (fmN w - 1), 0)
  else (0, fNv)

/-- `round_narrow` of a finite value or infinity into a scaled integer (R69, R71). -/
def roundScaled (w : Word) (s : Bool) (n : Nat) (e : Int) (isInf : Bool) : Nat × Nat :=
  let bits := fmN w
  let maxMag : Nat :=
    if fmS w then (if s && fmSpec w ≠ 2 then 2 ^ (bits - 1) else 2 ^ (bits - 1) - 1) else 2 ^ bits - 1
  let code (q : Nat) : Nat := if s then (2 ^ bits - q) % 2 ^ bits else q
  let big := isInf || (n ≠ 0 && e + fmBias w + Nat.log2 n > 64)
  let r := if big then (maxMag + 1, true) else shiftRound 0 s n (-(e + fmBias w))
  if r.1 > maxMag then
    (if fmSpec w = 2 && !fmSat w then 2 ^ (bits - 1) else code maxMag, fOf + fNx)
  else (code r.1, flagIf r.2 fNx)

/-- `round_narrow` into a format with exponents (R71). With no mantissa bit to be even, a tie between two normal values
goes to the larger magnitude (log 16). -/
def roundNarrowE (w : Word) (s : Bool) (n : Nat) (e : Int) (isInf : Bool) : Nat × Nat :=
  let m := fmM w
  let emin : Int := 1 - fmBias w
  let sgn := b2n (s && fmS w) * 2 ^ (fmN w - 1)
  let topE := 2 ^ fmE w - 1 - b2n (fmSpec w = 1)
  let maxCode := topE * 2 ^ m + 2 ^ m - 1
  let inf := sgn + (2 ^ fmE w - 1) * 2 ^ m
  if isInf then
    if fmSpec w = 1 then (inf, fOf)
    else if fmSpec w = 2 && !fmSat w then (2 ^ (fmN w - 1), fOf + fNx) else (sgn + maxCode, fOf + fNx)
  else if n = 0 then (if fmSpec w = 2 then 0 else sgn, 0)
  else
    let g := gridRound m emin 0 s n e
    let ex : Int := if g.1 < 2 ^ m then 0 else g.2.1 + m + fmBias w
    let mag : Int := ex * 2 ^ m + (g.1 % 2 ^ m : Nat)
    if mag > maxCode then
      (if fmSpec w = 1 then inf
       else if fmSpec w = 2 && !fmSat w then 2 ^ (fmN w - 1) else sgn + maxCode, fOf + fNx)
    else
      (if mag = 0 && fmSpec w = 2 then 0 else sgn + mag.toNat,
        flagIf g.2.2.1 fNx + flagIf (g.2.2.1 && g.2.2.2) fUf)

/-- `round_narrow` (R71): the code and the flags. A value below zero into an unsigned format gives +0 and nv, and no other
flag (log 16). -/
def roundNarrow (w : Word) (x : Fv) : Nat × Nat :=
  match x with
  | .nan => narrowNan w
  | .inf s => if s && !fmS w then (0, fNv) else if fmE w = 0 then roundScaled w s 0 0 true else roundNarrowE w s 0 0 true
  | .fin s n e =>
    if s && !fmS w && n ≠ 0 then (0, fNv)
    else if fmE w = 0 then roundScaled w s n e false else roundNarrowE w s n e false

/-! ## Enclosures of the special functions (R188)

Fixed point on the unit 2^−200: an enclosure is two integers, and the function's value lies between them. -/

/-- Fraction bits of the enclosures. -/
def fxP : Nat := 200
/-- ln 2 on the unit 2^−200, rounded down. -/
def ln2Fx : Nat := 0xb17217f7d1cf79abc9e3b39803f2f6af40f343267298b62d8a
/-- π/2 on the unit 2^−400, rounded down. -/
def halfPiFx : Nat :=
  0x1921fb54442d18469898cc51701b839a252049c1114cf98e804177d4c76273644a29410f31c6809bbdf2a33679a7486366056

/-- n × 2^e on the unit 2^−p, rounded down. -/
def toFx (p : Nat) (n : Nat) (e : Int) : Nat :=
  let sh := e + p
  if sh ≥ 0 then n * 2 ^ sh.toNat else n / 2 ^ (-sh).toNat

/-- Σ y^k / k! for k from `k` while fuel lasts, given the term before (fixed point, y ≥ 0): the exponential's series. -/
def expSeries (y : Nat) : Nat → Nat → Nat → Nat
  | 0, _, _ => 0
  | fuel + 1, k, term => term + expSeries y fuel (k + 1) (term * y / 2 ^ fxP / (k + 1))

/-- 2^f for 0 ≤ f < 1, fixed point, within 2^12 units. -/
def exp2Fx (f : Nat) : Nat := expSeries (f * ln2Fx / 2 ^ fxP) 64 0 (2 ^ fxP)

/-- Σ t^(2k+1) / (2k+1): the series of atanh. -/
def atanhSeries (t2 : Nat) : Nat → Nat → Nat → Nat
  | 0, _, _ => 0
  | fuel + 1, k, pow => pow / (2 * k + 1) + atanhSeries t2 fuel (k + 1) (pow * t2 / 2 ^ fxP)

/-- log₂ m for m = 1 + f/2^200 in [1, 2), fixed point, within 2^12 units. -/
def log2Fx (m : Nat) : Nat :=
  let t := (m - 2 ^ fxP) * 2 ^ fxP / (m + 2 ^ fxP)
  2 * atanhSeries (t * t / 2 ^ fxP) 80 0 t * 2 ^ fxP / ln2Fx

/-- The alternating series of sine (first term r, k = 1) and cosine (first term 1, k = 0). -/
def trigSeries (r2 : Nat) : Nat → Nat → Nat → Int
  | 0, _, _ => 0
  | fuel + 1, k, term => (term : Int) - trigSeries r2 fuel (k + 2) (term * r2 / 2 ^ fxP / ((k + 1) * (k + 2)))

/-- sin of a nonnegative finite value, fixed point, within 2^12 units; `q` quarter turns are added. -/
def sinFx (n : Nat) (e : Int) (q : Nat) : Int :=
  let a := toFx 400 n e
  let k := a / halfPiFx
  let r := (a - k * halfPiFx) / 2 ^ 200
  let r2 := r * r / 2 ^ fxP
  let s := trigSeries r2 64 1 r
  let c := trigSeries r2 64 0 (2 ^ fxP)
  match (k + q) % 4 with
  | 0 => s
  | 1 => c
  | 2 => -s
  | _ => -c

/-- The integer square root, by bits from the top. -/
def isqrtAux (n : Nat) : Nat → Nat → Nat
  | 0, r => r
  | b + 1, r => let c := r + 2 ^ b; isqrtAux n b (if c * c ≤ n then c else r)
def isqrt (n : Nat) : Nat := isqrtAux n (Nat.log2 n / 2 + 1) 0

/-- The special functions. -/
inductive Sfn where
  | rcp | rsq | sqrt | exp2 | log2 | sin | cos | tanh
  deriving DecidableEq, Repr, Inhabited

/-- √(n × 2^e) to about 100 bits with a sticky last bit, so that one rounding of it is correct (R188). -/
def sqrtFv (n : Nat) (e : Int) : Fv :=
  let sh : Nat := 200 + (e % 2).toNat
  let m := n * 2 ^ sh
  let r := isqrt m
  .fin false (2 * r + b2n (r * r ≠ m)) ((e - sh) / 2 - 1)

/-- The enclosure of a function at a nonzero finite argument with sign `s`: (lo, hi) on the unit 2^u. -/
def enclose (f : Sfn) (s : Bool) (n : Nat) (e : Int) : Int × Int × Int :=
  let sg (x : Int × Int) : Int × Int := if s then (-x.2, -x.1) else x
  let fx (x : Int) : Int × Int × Int := (x - 4096, x + 4096, -(fxP : Int))
  match f with
  | .rcp =>
    let q : Int := (2 ^ 200 / n : Nat)
    let r := sg (q, if 2 ^ 200 % n = 0 then q else q + 1)
    (r.1, r.2, -200 - e)
  | .rsq =>
    let b : Nat := (e % 2).toNat
    let r : Int := isqrt (2 ^ (400 + b) / n)
    (r, r + 1, -((e + b) / 2) - 200)
  | .sqrt => match sqrtFv n e with
    | .fin _ r d => (r - 1, r + 1, d)
    | .nan | .inf _ => (0, 0, 0)
  | .exp2 =>
    let a : Int := if s then -((toFx fxP n e : Nat) : Int) else toFx fxP n e
    let i := a / (2 : Int) ^ fxP
    let r : Int := exp2Fx (a - i * (2 : Int) ^ fxP).toNat
    (r - 4096, r + 4096, i - fxP)
  | .log2 =>
    let top := Nat.log2 n
    let m := n * 2 ^ fxP / 2 ^ top
    fx ((e + top) * (2 : Int) ^ fxP + log2Fx m)
  | .sin => let r := fx (sinFx n e 0); let q := sg (r.1, r.2.1); (q.1, q.2, r.2.2)
  | .cos => fx (sinFx n e 1)
  | .tanh =>
    if e + Nat.log2 n ≥ 6 then
      let r := sg ((2 : Int) ^ fxP - 1, (2 : Int) ^ fxP)
      (r.1, r.2, -(fxP : Int))
    else
      -- e^(2a) = 2^(2a / ln 2)
      let b := 2 * toFx fxP n e * 2 ^ fxP / ln2Fx
      let x := exp2Fx (b % 2 ^ fxP) * 2 ^ (b / 2 ^ fxP)
      let r := (x - 2 ^ fxP) * 2 ^ fxP / (x + 2 ^ fxP)
      let q := sg ((r : Int) - 4096, (r : Int) + 4096)
      (q.1, q.2, -(fxP : Int))

/-- The bound of R188 for an FP32 result on the unit 2^u: `k` ulps of the enclosed value's binade, and where the table
gives one the absolute bound; at least one unit. -/
def spBound (f : Sfn) (lo hi u : Int) (n : Nat) (e : Int) : Int :=
  let mag : Nat := max lo.natAbs hi.natAbs
  let top : Int := u + Nat.log2 mag
  let ulpE : Int := max (top - 23) (-149)
  let at2 (e : Int) : Int := if e ≥ u then (2 : Int) ^ (e - u).toNat else 1
  match f with
  | .rcp => at2 ulpE
  | .rsq | .exp2 => 2 * at2 ulpE
  | .sqrt => 0
  | .log2 | .tanh => max (2 * at2 ulpE) (at2 (-22))
  | .sin | .cos =>
    let above := e + Nat.log2 n > 12 || (e + Nat.log2 n = 12 && n ≠ 2 ^ Nat.log2 n)
    at2 (-21) + (if above then n * at2 (e - 34) else 0)

/-- An FP32 pattern that lies within the bound of the enclosed value. -/
def withinBound (f : Sfn) (lo hi u : Int) (n : Nat) (e : Int) (p : Nat) : Bool :=
  match decodeF fmt32 p with
  | .fin t m d =>
    let w := min u d
    let v : Int := (if t then -(m : Int) else m) * (2 : Int) ^ (d - w).toNat
    let sc : Int := (2 : Int) ^ (u - w).toNat
    let b := spBound f lo hi u n e * sc
    decide ((v - lo * sc).natAbs ≤ b.natAbs) && decide ((v - hi * sc).natAbs ≤ b.natAbs)
  | .nan | .inf _ => false

/-- Whether a function is exact at an argument: a power of two for `FRCP` and `FLOG2`, an even power for `FRSQ`, an
integer for `FEXP2` (R188). -/
def exactArg (f : Sfn) (n : Nat) (e : Int) : Bool :=
  let pow2 := n = 2 ^ Nat.log2 n
  match f with
  | .rcp | .log2 => pow2
  | .rsq => pow2 && (e + Nat.log2 n) % 2 = 0
  | .exp2 => e ≥ 0 || n % 2 ^ (-e).toNat = 0
  | .sqrt | .sin | .cos | .tanh => false

/-- The number by which `Config.special` names a function. -/
def sfnIndex : Sfn → Nat
  | .rcp => 0
  | .rsq => 1
  | .sqrt => 2
  | .exp2 => 3
  | .log2 => 4
  | .sin => 5
  | .cos => 6
  | .tanh => 7

/-- The results at zeros, infinities, NaNs and negative arguments (R188): the value with nv or dz. -/
def specialCase (f : Sfn) (a : Fv) : Option (Fv × Nat) :=
  match f, a with
  | _, .nan => some (.nan, 0)
  | .rcp, .inf s => some (.fin s 0 0, 0)
  | .rcp, .fin s 0 _ => some (.inf s, fDz)
  | .rsq, .fin s 0 _ => some (.inf s, fDz)
  | .rsq, .inf false => some (.fin false 0 0, 0)
  | .rsq, .inf true => some (.nan, fNv)
  | .rsq, .fin true _ _ => some (.nan, fNv)
  | .sqrt, .fin s 0 _ => some (.fin s 0 0, 0)
  | .sqrt, .inf false => some (.inf false, 0)
  | .sqrt, .inf true => some (.nan, fNv)
  | .sqrt, .fin true _ _ => some (.nan, fNv)
  | .exp2, .inf s => some (if s then .fin false 0 0 else .inf false, 0)
  | .exp2, .fin _ 0 _ => some (.fin false 1 0, 0)
  | .log2, .fin _ 0 _ => some (.inf true, fDz)
  | .log2, .inf false => some (.inf false, 0)
  | .log2, .inf true => some (.nan, fNv)
  | .log2, .fin true _ _ => some (.nan, fNv)
  | .sin, .inf _ | .cos, .inf _ => some (.nan, fNv)
  | .sin, .fin s 0 _ => some (.fin s 0 0, 0)
  | .cos, .fin _ 0 _ => some (.fin false 1 0, 0)
  | .tanh, .inf s => some (.fin s 1 0, 0)
  | .tanh, .fin s 0 _ => some (.fin s 0 0, 0)
  | _, _ => none

/-- The FP32 result at a nonzero finite argument, and whether it differs from the exact value: the chip's fixed
function where the bound admits it, else the nearest value; exact cases exact (R188, R189). -/
def spFinite (f : Sfn) (s : Bool) (n : Nat) (e : Int) : Fv × Nat :=
  let pat := (roundFp fmt32 0 (.fin s n e)).1
  let big : Bool := f = .exp2 && !s && e + Nat.log2 n ≥ 7
  let small : Bool := f = .exp2 && s && e + Nat.log2 n ≥ 9
  if big then (.inf false, fOf + fNx)
  else if exactArg f n e && !small then
    let v : Fv := match f with
      | .rcp => .fin s 1 (-(e + Nat.log2 n))
      | .rsq => .fin false 1 (-((e + Nat.log2 n) / 2))
      | .log2 => ofIntFv (e + Nat.log2 n)
      | .exp2 => let a : Int := toFx 0 n e; .fin false 1 (if s then -a else a)
      | .sqrt | .sin | .cos | .tanh => .fin s n e
    let r := roundFp fmt32 0 v
    (decodeF fmt32 r.1, r.2)
  else
    let en := if small then ((0, 1, -400) : Int × Int × Int) else enclose f s n e
    let lo := en.1
    let hi := en.2.1
    let u := en.2.2
    let near := roundFp fmt32 0 (.fin (lo < 0) lo.natAbs u)
    if near.2 / fOf % 2 = 1 then (.inf (lo < 0), fOf + fNx)
    else
      let free := (Config.special (sfnIndex f) (BitVec.ofNat 32 pat)).toNat
      (decodeF fmt32 (if withinBound f lo hi u n e free then free else near.1), fNx)

/-- A special function of a value, rounded to its destination format (R188): the pattern and the flags. -/
def specialFn (f : Sfn) (d : Fmt) (rm : Nat) (a : Fv) : Nat × Nat :=
  match specialCase f a with
  | some r => ((roundFp d 0 r.1).1, r.2)
  | none =>
    match a with
    | .fin s n e =>
      if f = .sqrt then roundFp d rm (sqrtFv n e)
      else
        let r := spFinite f s n e
        let o := roundFp d 0 r.1
        let fl := (r.2 ||| o.2) - (r.2 ||| o.2) / fUf % 2 * fUf
        let tiny : Bool := match decodeF d o.1 with
          | .fin _ m _ => m < 2 ^ d.mb
          | .nan | .inf _ => false
        (o.1, fl ||| flagIf (tiny && fl / fNx % 2 = 1) fUf)
    | .nan | .inf _ => (d.nan, 0)

end Sys2Proof.Machine
end

