-- ==== Sys2Proof/Machine/Access.lean ====
section
/-! DEFINITION. What one access does to the bytes it names: the combine functions of `ATOM` (R233), loads, stores and
compare-and-swap (R236-R238), on a line, on an array of bytes or on a register area (R206), and the audit signature of
written bytes (R398). -/

namespace Sys2Proof.Machine

/-! ## The combine functions (R233) -/

/-- A floating combine of one element: the exact value rounded to nearest even; flags are not raised. -/
def fcombine (f : Fmt) (m v : Nat) : Nat := (roundFp f 0 (sumFv 0 [decodeF f m, decodeF f v]).1).1

/-- A floating combine of each half of a word. -/
def fcombine2 (f : Fmt) (m v : Nat) : Nat :=
  fcombine f (m % 65536) (v % 65536) + 65536 * fcombine f (m / 65536 % 65536) (v / 65536 % 65536)

/-- `combine(m, v)` of an atomic of `n` bits. -/
def atomCombine (op : AtomOp) (n m v : Nat) : Nat :=
  match op with
  | .add => (m + v) % 2 ^ n
  | .minI => if sextN m n ≤ sextN v n then m else v
  | .minN => if m ≤ v then m else v
  | .maxI => if sextN v n ≤ sextN m n then m else v
  | .maxN => if v ≤ m then m else v
  | .and => m &&& v
  | .or => m ||| v
  | .xor => m ^^^ v
  | .swap => v
  | .inc => if v ≤ m then 0 else m + 1
  | .fadd => fcombine fmt32 m v
  | .faddF16x2 => fcombine2 fmt16 m v
  | .faddBf16x2 => fcombine2 fmtB16 m v
  | .fmin => (roundFp fmt32 0 (minFv (decodeF fmt32 m) (decodeF fmt32 v))).1
  | .fmax => (roundFp fmt32 0 (maxFv (decodeF fmt32 m) (decodeF fmt32 v))).1

/-! ## One access -/

/-- The value an access writes where the bytes held `m`, if it writes. -/
def accWrites (i : Instr) (a : Acc) (m : Nat) : Option Nat :=
  match i with
  | .st .. => some (a.x.toNat % 256 ^ a.n)
  | .atom _ op _ _ _ _ _ => some (atomCombine op (8 * a.n) m (a.x.toNat % 256 ^ a.n))
  | .cas .. => if m = a.x.toNat % 256 ^ a.n then some (a.y.toNat % 256 ^ a.n) else none
  | _ => none

/-- Whether the value the bytes held is the access's result. -/
def accReads (i : Instr) : Bool :=
  match i with
  | .st .. | .markEmpty .. | .markFull .. | .pref .. | .flush .. | .flushAll _ | .invl .. | .invlAll _ => false
  | _ => true

/-- An access after its performance on bytes that held `m`. -/
def accAfter (i : Instr) (a : Acc) (m : Nat) : Acc :=
  { a with done := true, res := if accReads i then some (BitVec.ofNat 64 m) else none }

/-- Whether an instruction writes memory: stores, atomics and compare-and-swap, `MARK` (R224, R383). -/
def isWrite (i : Instr) : Bool :=
  match i with
  | .st .. | .atom .. | .cas .. => true
  | _ => false

/-- The offset of an access in its line. -/
def Acc.off (a : Acc) : Nat :=
  match a.loc with
  | some (.line _ o) => o
  | _ => 0

/-- The lanes of a request performed on a line, in ascending lane order (R235): the line, the bytes written and the
accesses with their results. -/
def performLine (i : Instr) : Line → ByteMask → List Acc → Line × ByteMask × List Acc
  | l, m, [] => (l, m, [])
  | l, m, a :: r =>
    if a.done then
      let q := performLine i l m r
      (q.1, q.2.1, a :: q.2.2)
    else
      let old := lineNat l a.off a.n
      let lm := match accWrites i a old with
        | some v => (linePutN l a.off a.n v, m ||| maskN a.off a.n)
        | none => (l, m)
      let q := performLine i lm.1 lm.2 r
      (q.1, q.2.1, accAfter i a old :: q.2.2)

/-- The same on bytes reached through `rd` and `wr`: an array, the pinned area, UNCACHED memory, a register area. -/
def performAt {σ : Type} (i : Instr) (rd : σ → Acc → Nat) (wr : σ → Acc → Nat → σ) : σ → List Acc → σ × List Acc
  | s, [] => (s, [])
  | s, a :: r =>
    if a.done then
      let q := performAt i rd wr s r
      (q.1, a :: q.2)
    else
      let old := rd s a
      let s := match accWrites i a old with
        | some v => wr s a v
        | none => s
      let q := performAt i rd wr s r
      (q.1, accAfter i a old :: q.2)

/-! ## Register areas (R206) -/

/-- The group index, register, lane and byte of an offset in a register area. -/
def regPlace (w : Wg) (off : Nat) : Nat × Nat × Nat × Nat :=
  let n := off / 4
  let regs := hdrRegs w.hdr
  (n / 64 / regs, n / 64 % regs, n % 64, off % 4)

/-- The residency slot of a workgroup's group. -/
def CoreS.slotOf (k : CoreS) (place gidx : Nat) : Option Nat :=
  (k.groups.find? fun p => p.2.place = place && p.2.gidx = gidx).map (·.1)

/-- A register word of a workgroup's register area as it stands at a cycle. -/
def CoreS.regWord (k : CoreS) (place cyc : Nat) (g r l : Nat) : Word :=
  match k.slotOf place g with
  | some gid => match tget? k.groups gid with
    | some gr => (settle gr cyc).vreg r l
    | none => 0
  | none => match tget? k.places place with
    | some w => tgetD (tgetD w.gone g []) (64 * r + l) 0
    | none => 0

/-- Writes a register word of a register area. -/
def CoreS.putRegWord (k : CoreS) (place cyc : Nat) (g r l : Nat) (v : Word) : CoreS :=
  match k.slotOf place g with
  | some gid => { k with groups := tmod k.groups gid fun gr =>
      let gr := settle gr cyc
      { gr with v := tput gr.v (64 * r + l) v } }
  | none => { k with places := tmod k.places place fun w =>
      { w with gone := tput w.gone g (tput (tgetD w.gone g []) (64 * r + l) v) } }

/-- `n` bytes of a register area. -/
def CoreS.regRead (k : CoreS) (place cyc off n : Nat) : Nat :=
  match tget? k.places place with
  | some w => leNat ((List.range n).map fun i =>
      let p := regPlace w (off + i)
      (k.regWord place cyc p.1 p.2.1 p.2.2.1).extractLsb' (8 * p.2.2.2) 8)
  | none => 0

/-- Writes `n` bytes of a register area. -/
def CoreS.regWrite (k : CoreS) (place cyc off n v : Nat) : CoreS :=
  match tget? k.places place with
  | some w => (List.range n).foldl (fun k i =>
      let p := regPlace w (off + i)
      let old := k.regWord place cyc p.1 p.2.1 p.2.2.1
      k.putRegWord place cyc p.1 p.2.1 p.2.2.1 (putFld old (8 * p.2.2.2) 8 (v / 256 ^ i))) k
  | none => k

/-! ## Soft errors of the unified store (R203, R400) -/

/-- Whether the 32-bit word at a place is touched by `n` bytes from another place of the same array. -/
def Loc.touches (l : Loc) (n : Nat) (w : Loc) : Bool :=
  let meet (a b : Nat) : Bool := decide (b < a + n) && decide (a < b + 4)
  match l, w with
  | .scr c p a, .scr c' p' b => c = c' && p = p' && meet a b
  | .reg c p a, .reg c' p' b => c = c' && p = p' && meet a b
  | .pin c a, .pin c' b => c = c' && meet a b
  | .line ln a, .line ln' b => ln = ln' && meet a b
  | _, _ => false

/-- The error counters after some more corrected and uncorrectable errors; they saturate (R400). -/
def countErrors (c : DWord) (corr unc : Nat) : DWord :=
  let top := 2 ^ 32 - 1
  BitVec.ofNat 64 (min top (fld c 0 32 + corr) + 2 ^ 32 * min top (fld c 32 32 + unc))

/-- A core's store is read: single-bit errors are corrected, uncorrectable ones make the consumer take POISON; both are
counted. -/
def CoreS.softRead (k : CoreS) (l : Loc) (n : Nat) : Bool × CoreS :=
  let hit := k.soft.filter fun e => l.touches n e.loc
  if hit.isEmpty then (false, k)
  else
    let unc := (hit.filter (·.double)).length
    (unc ≠ 0, { k with errcnt := countErrors k.errcnt (hit.length - unc) unc,
                       soft := k.soft.filter fun e => e.double || !l.touches n e.loc })

/-- A write of a word writes its check bits. -/
def CoreS.softWrite (k : CoreS) (l : Loc) (n : Nat) : CoreS :=
  if k.soft.isEmpty then k else { k with soft := k.soft.filter fun e => !l.touches n e.loc }

/-- Reads the store that holds a place: whether the consumer takes POISON. -/
def State.softRead (s : State) (isl core : Nat) (l : Loc) (n : Nat) : Bool × State :=
  let r := ((s.isl isl).core core).softRead l n
  if ((s.isl isl).core core).soft.isEmpty then (false, s) else (r.1, s.modIsl isl fun x => x.modCore core fun _ => r.2)

/-- The same for a write. -/
def State.softWrite (s : State) (isl core : Nat) (l : Loc) (n : Nat) : State :=
  if ((s.isl isl).core core).soft.isEmpty then s else s.modIsl isl fun x => x.modCore core fun k => k.softWrite l n

/-! ## Targets that are not lines (R209, R211) -/

/-- A location some bytes on. -/
def Loc.plus (l : Loc) (i : Nat) : Loc :=
  match l with
  | .scr c p o => .scr c p (o + i)
  | .reg c p o => .reg c p (o + i)
  | .pin c o => .pin c (o + i)
  | .unc a => .unc (a + i)
  | .line ln o => .line (ln + (o + i) / 128) ((o + i) % 128)
  | .buf c p a u => .buf c p (a + i) (u.plus i)

/-- A byte of memory as a rerun reads it where it has not written (R397). -/
def Island.underByte (x : Island) (l : Loc) : Byte :=
  match l with
  | .pin c o => memRead (x.core c).pinned o
  | .unc pa => memRead x.mem pa
  | .line ln o => lineByte (x.homeView ln) o
  | .scr _ _ _ | .reg _ _ _ | .buf _ _ _ _ => 0

/-- Bytes at a target. -/
def State.targetRead (s : State) (isl : Nat) (l : Loc) (n : Nat) : Nat :=
  let x := s.isl isl
  match l with
  | .scr c p o => match x.wg? c p with
    | some w => memNat w.scr o n
    | none => 0
  | .reg c p o => (x.core c).regRead p (s.cyc isl) o n
  | .pin c o => memNat (x.core c).pinned o n
  | .unc pa => memNat x.mem pa n
  | .line ln o => lineNat (x.homeData ln) o n
  | .buf c p a u =>
    let b := ((x.wg? c p).map (·.buffer)).getD []
    leNat ((List.range n).map fun i => (tget? b (a + i)).getD (x.underByte (u.plus i)))

/-- The core whose array or pinned area holds a location. -/
def Loc.core? : Loc → Option Nat
  | .scr c _ _ | .reg c _ _ | .pin c _ => some c
  | .unc _ | .line _ _ | .buf _ _ _ _ => none

/-- Writes bytes at a target. -/
def State.targetWrite (s : State) (isl : Nat) (l : Loc) (n v : Nat) : State :=
  let cyc := s.cyc isl
  let s := match l.core? with
    | some c => s.softWrite isl c l n
    | none => s
  match l with
  | .scr c p o => s.modIsl isl fun x => x.modWg c p fun w => { w with scr := memPut w.scr o n v }
  | .reg c p o => s.modIsl isl fun x => x.modCore c fun k => k.regWrite p cyc o n v
  | .pin c o => s.modIsl isl fun x => x.modCore c fun k => { k with pinned := memPut k.pinned o n v }
  | .unc pa => s.modIsl isl fun x => { x with mem := memPut x.mem pa n v }
  | .line ln o => s.modIsl isl fun x => { x with mem := memPut x.mem (128 * ln + o) n v }
  | .buf c p a _ =>
    let s := s.modIsl isl fun x => x.modWg c p fun w =>
      { w with buffer := (List.range n).foldl (fun b i => tput b (a + i) (BitVec.ofNat 8 (v / 256 ^ i))) w.buffer }
    -- a rerun whose buffer overflows is abandoned (R397)
    match (s.isl isl).wg? c p with
    | some w => match w.audit with
      | some u => if Config.auditBuffer < w.buffer.length then s.afterOnce isl 0 .auditTimeout [isl, u] else s
      | none => s
    | none => s

/-- Whether `n` bytes at a place are tainted for a consumer that reads them there: a poisoned line at its home (R227), or an
uncorrectable word of the store that holds the place (R203). -/
def State.tainted (s : State) (isl : Nat) (l : Loc) (n : Nat) : Bool × State :=
  match l with
  | .line ln _ => ((s.isl isl).homePoison ln, s)
  | .scr c _ _ | .reg c _ _ | .pin c _ => s.softRead isl c l n
  | .unc _ | .buf _ _ _ _ => (false, s)

/-- Whether a location's scratchpad line is empty (R210). -/
def State.isEmptyLoc (s : State) (isl : Nat) (l : Loc) : Bool :=
  match l with
  | .scr c p o => match (s.isl isl).wg? c p with
    | some w => w.emptyLines.contains (o / 128)
    | none => false
  | .reg _ _ _ | .pin _ _ | .unc _ | .line _ _ | .buf _ _ _ _ => false

/-- Sets or clears the full bit of a scratchpad line (R210, R240). -/
def Wg.setFull (w : Wg) (ln : Nat) (full : Bool) : Wg :=
  { w with emptyLines := if full then w.emptyLines.filter fun i => i ≠ ln
                         else if w.emptyLines.contains ln then w.emptyLines else w.emptyLines ++ [ln] }

/-! ## The audit signature (R398) -/

/-- `mix(VA, v)`. -/
def mixSig (va : VA) (v : Byte) : DWord :=
  let a : DWord := va.setWidth 64
  let h : DWord := ((va >>> 64).setWidth 64) <<< 56
  ((a * 256 + v.setWidth 64) ^^^ h) * 0x9E3779B97F4A7C15#64

/-- The signature of the bytes of a line under a mask, the line at an address. -/
def sigLine (va : VA) (l : Line) (m : ByteMask) : DWord :=
  (List.range 128).foldl (fun s i => if m.getLsbD i then s + mixSig (va + BitVec.ofNat 72 i) (lineByte l i) else s) 0

/-- The signature of consecutive bytes. -/
def sigBytes (va : VA) (bs : List Byte) : DWord :=
  (bs.foldl (fun (p : DWord × VA) b => (p.1 + mixSig p.2 b, p.2 + 1)) (0, va)).1

/-- Adds to a workgroup's signature. -/
def State.addSig (s : State) (isl core place launch : Nat) (d : DWord) : State :=
  s.modIsl isl fun x => x.modWg core place fun w => if w.launch = launch then { w with sig := w.sig + d } else w

end Sys2Proof.Machine
end

