-- ==== Sys2Proof/Machine/Packet.lean ====
section
/-! DEFINITION. The fields of launch packets, dependency conditions, windows and queue descriptors (R98, R99), of
context-table entries (R385) and of page-table entries (R382), and the keys of launches (R103). -/

namespace Sys2Proof.Machine

/-! ## Launch packets (R99) -/

def pkMagic (p : BitVec 1024) : Nat := fld p 0 16
def pkVersion (p : BitVec 1024) : Nat := fld p 16 8
def pkSnap (p : BitVec 1024) : Bool := p.getLsbD 24
def pkReplay (p : BitVec 1024) : Bool := p.getLsbD 25
def pkWgn (p : BitVec 1024) : Bool := p.getLsbD 26
def pkLn (p : BitVec 1024) : Bool := p.getLsbD 27
def pkIslMask (p : BitVec 1024) : Nat := fld p 32 16
def pkNdep (p : BitVec 1024) : Nat := fld p 48 3
def pkStatus (p : BitVec 1024) : Nat := fld p 56 8
def pkCodeptr (p : BitVec 1024) : Word := BitVec.ofNat 32 (fld p 64 32)
def pkW (p : BitVec 1024) (i : Nat) : Nat := fld p (96 + 8 * i) 8
def pkKhdrVa (p : BitVec 1024) : VA := BitVec.ofNat 72 (fld p 144 72)
def pkArgVa (p : BitVec 1024) : VA := BitVec.ofNat 72 (fld p 224 72)
def pkNcl (p : BitVec 1024) : Nat := fld p 296 32
def pkE4 (p : BitVec 1024) : Nat := fld p 328 16
def pkWgnc (p : BitVec 1024) : Nat := fld p 352 10
def pkLnc (p : BitVec 1024) : Nat := fld p 368 10
def pkLni (p : BitVec 1024) : Nat := fld p 378 4
def pkDep (p : BitVec 1024) (i : Nat) : Nat := fld p (384 + 128 * i) 128
def pkWinVa (p : BitVec 1024) : VA := BitVec.ofNat 72 (fld p 896 72)
def pkWinCnt (p : BitVec 1024) : Nat := fld p 968 8
def pkLnum (p : BitVec 1024) : Nat := fld p 1008 16
/-- Whether every reserved field is zero. -/
def pkReservedOk (p : BitVec 1024) : Bool :=
  fld p 28 4 = 0 && fld p 51 5 = 0 && fld p 216 8 = 0 && fld p 344 8 = 0 && fld p 362 6 = 0 && fld p 382 2 = 0 &&
    fld p 976 32 = 0

def depValue (d : Nat) : Nat := bitsN d 0 64
def depCounter (d : Nat) : Nat := bitsN d 64 10
def depIsland (d : Nat) : Nat := bitsN d 74 4

def winVa (w : BitVec 128) : Nat := fld w 0 72
def winIsland (w : BitVec 128) : Nat := fld w 72 4
def winPages (w : BitVec 128) : Nat := fld w 80 32
/-- Whether an entry declares a window: reserved fields zero (R8), at least one page, from a page's start. R99 states no outcome
for one that does not; the model has it declare none (log 61). -/
def winOk (w : BitVec 128) : Bool := fld w 76 4 = 0 && fld w 112 16 = 0 && winPages w ≠ 0 && winVa w % 65536 = 0

/-- The islands of a mask, ascending. -/
def islandsOf (m : Nat) : List Nat := (List.range 16).filter fun i => bitsN m i 1 = 1

/-! ## Keys of launches (R103) -/

/-- The key under which a launch of an island's number is held: device numbers are island-local. -/
def launchKey (isl num : Nat) : Nat := if num < 0x8000 then num else num + 65536 * (isl + 1)
/-- The launch number of a key. -/
def launchNum (key : Nat) : Nat := key % 65536
/-- Whether a launch runs on an island. -/
def Launch.onIsland (l : Launch) (isl : Nat) : Bool :=
  if l.hostQ then bitsN (pkIslMask l.packet) isl 1 = 1 else l.island = isl

/-! ## Context-table entries (R385) -/

def cxV (c : BitVec 512) : Bool := c.getLsbD 0
def cxPriv (c : BitVec 512) : Bool := c.getLsbD 1
def cxPtroot (c : BitVec 512) : Nat := fld c 7 41 * 128
def cxSnepoch (c : BitVec 512) : Nat := fld c 48 16
def cxOvdir (c : BitVec 512) : VA := BitVec.ofNat 72 (fld c 64 72)
def cxOvcount (c : BitVec 512) : Nat := fld c 136 19
def cxSlotmask (c : BitVec 512) : Nat := fld c 160 32
def cxPrivbase (c : BitVec 512) : Nat := fld c 192 72
def cxPrivhwm (c : BitVec 512) : Nat := fld c 272 32
def cxPrivlim (c : BitVec 512) : Nat := fld c 304 32
def cxReservedOk (c : BitVec 512) : Bool := fld c 2 5 = 0 && fld c 155 5 = 0 && fld c 264 8 = 0 && fld c 336 176 = 0

/-! ## Page-table entries (R382) -/

def pteV (p : Nat) : Bool := bitsN p 0 1 = 1
def pteLeaf (p : Nat) : Bool := bitsN p 1 1 = 1
def pteW (p : Nat) : Bool := bitsN p 2 1 = 1
def pteX (p : Nat) : Bool := bitsN p 3 1 = 1
def pteU (p : Nat) : Bool := bitsN p 4 1 = 1
def pteHome (p : Nat) : Nat := bitsN p 8 2
def pteAddr (p : Nat) : Nat := bitsN p 16 32 * 65536
def pteEpoch (p : Nat) : Nat := bitsN p 48 16

end Sys2Proof.Machine
end

