-- ==== Sys2Proof/Machine/Translate.lean ====
section
/-! DEFINITION. Addresses (R17, R207, R208) and translation (R380-R386): the context table, the page walk, the TLBs, the
permissions of a leaf, and the snapshot rule's test (R393). -/

namespace Sys2Proof.Machine

/-! ## Fault codes of accesses (R371) -/

def cXlate : Nat := 0x10
def cPerm : Nat := 0x11
def cHome : Nat := 0x12
def cAlign : Nat := 0x13
def cHypHome : Nat := 0x09

/-! ## The context table (R385) -/

/-- A context's entry: the cached one, else read from the table and cached. -/
def State.ctxEntry (s : State) (isl : Nat) (asid : BitVec 16) : BitVec 512 × State :=
  let x := s.isl isl
  match tget? x.ctxs asid.toNat with
  | some c => (c, s)
  | none =>
    if fld x.sys.ctxtab 48 16 ≤ asid.toNat then (0, s)
    else
      let c := BitVec.ofNat 512 (s.readHomeN isl (fld x.sys.ctxtab 0 48 + 64 * asid.toNat) 64)
      (c, s.modIsl isl fun x => { x with ctxs := tput x.ctxs asid.toNat c })

/-- Whether a context has a valid entry: within the table, V set, and no reserved field nonzero (R8, R385). -/
def State.ctxOk (s : State) (isl : Nat) (asid : BitVec 16) : Bool :=
  let c := (s.ctxEntry isl asid).1
  asid.toNat < fld (s.isl isl).sys.ctxtab 48 16 && cxV c && cxReservedOk c

/-- Writes a field of a context's entry (R385, R392): in the cached entry, and in the table, where every other bit stays as it
is, a change that awaits its `TLBI.ctx` among them. -/
def State.putCtxField (s : State) (isl : Nat) (asid : BitVec 16) (lo n v : Nat) : State :=
  let x := s.isl isl
  let s := s.modIsl isl fun x => { x with ctxs := tmod x.ctxs asid.toNat fun c => putFld c lo n v }
  if fld x.sys.ctxtab 48 16 ≤ asid.toNat then s
  else
    let first := lo / 8
    let bytes := (lo + n + 7) / 8 - first
    let at' := fld x.sys.ctxtab 0 48 + 64 * asid.toNat + first
    let old : BitVec 512 := BitVec.ofNat 512 (s.readHomeN isl at' bytes)
    s.writeHomeN isl at' bytes (putFld old (lo - 8 * first) n v).toNat

/-- A context's entry is read anew: what runs in the context on the island is privileged as the entry then says (R374,
R385). -/
def State.reloadCtx (s : State) (isl : Nat) (asid : BitVec 16) : State :=
  let c := (s.modIsl isl fun x => { x with ctxs := tdel x.ctxs asid.toNat }).ctxEntry isl asid
  let own (w : Wg) : Wg := if w.asid = asid then { w with priv := cxPriv c.1 } else w
  c.2.modIsl isl fun x => { x with cores := tmap x.cores fun _ k => { k with places := tmap k.places fun _ w => own w } }

/-! ## The walk (R381-R383) -/

/-- What a walk finds. -/
inductive Found where
  | bad
  /-- A leaf: its entry, its level, and the entry's own address. -/
  | leaf (pte level ea : Nat)
  deriving DecidableEq, Repr, Inhabited

/-- The index of an address at a level (R381). -/
def walkIndex (va : VA) (level : Nat) : Nat := if level = 4 then fld va 68 4 else fld va (16 + 13 * level) 13

/-- Bytes of a page of a level's leaf. -/
def pageBytes (level : Nat) : Nat := 2 ^ (16 + 13 * level)

/-- Whether an entry is bad at a level (R383); `pin` gives the pinned units of a core. -/
def pteBad (pin : Nat → Nat) (present : Nat → Bool) (p level : Nat) : Bool :=
  !pteV p || bitsN p 10 6 ≠ 0 || bitsN p 5 3 ≠ 0 ||
    (pteLeaf p && 3 ≤ level) || (!pteLeaf p && level = 0) ||
    (!pteLeaf p && (pteHome p ≠ 0 || pteU p || pteX p || pteW p || pteEpoch p ≠ 0)) ||
    (pteLeaf p && pteHome p < 2 && pteAddr p % pageBytes level ≠ 0) ||
    (pteLeaf p && 2 ≤ pteHome p && level ≠ 0) ||
    (pteLeaf p && pteHome p = 2 && 31 < bitsN p 22 6) ||
    (pteLeaf p && pteHome p = 3 && (pin (bitsN p 16 7) ≤ bitsN p 23 4 || !present (bitsN p 16 7)))

/-- The walk from a table at `at` on `level`. -/
def walkFrom (s : State) (isl : Nat) (va : VA) : Nat → Nat → Nat → Found
  | 0, _, _ => .bad
  | fuel + 1, level, tab =>
    let ea := tab + 8 * walkIndex va level
    let p := s.readHomeN isl ea 8
    let x := s.isl isl
    if pteBad (fun c => fld (x.core c).part 24 4) (fun c => !(x.core c).disabled) p level then .bad
    else if pteLeaf p then .leaf p level ea
    else walkFrom s isl va fuel (level - 1) (pteAddr p)

/-- A whole walk for a context (R381). -/
def State.walk (s : State) (isl : Nat) (asid : BitVec 16) (va : VA) : Found × State :=
  let c := s.ctxEntry isl asid
  (if cxV c.1 then walkFrom c.2 isl va 5 4 (cxPtroot c.1) else .bad, c.2)

/-- The cycles a walk takes from a half: one home read for each entry it reads (R384, R244). -/
def walkCycles (s : State) (isl half : Nat) (va : VA) : Nat → Nat → Nat → Nat
  | 0, _, _ => 0
  | fuel + 1, level, tab =>
    let ea := tab + 8 * walkIndex va level
    let x := s.isl isl
    let t := if (x.hline (ea / 128)).inSlice then 2 * hop (64 * half) (sliceOf (ea / 128)) else Config.latHbm
    let p := s.readHomeN isl ea 8
    if !pteV p || pteLeaf p then t else t + walkCycles s isl half va fuel (level - 1) (pteAddr p)

/-- The lines of the entries a walk reads (R380, R381). -/
def walkLines (s : State) (isl : Nat) (va : VA) : Nat → Nat → Nat → List Nat
  | 0, _, _ => []
  | fuel + 1, level, tab =>
    let ea := tab + 8 * walkIndex va level
    let p := s.readHomeN isl ea 8
    ea / 128 :: (if !pteV p || pteLeaf p then [] else walkLines s isl va fuel (level - 1) (pteAddr p))

/-- A walk's reads are made at the home as `.far` loads (R380): the lines it reads are in their slices afterwards. -/
def State.walkTouch (s : State) (isl : Nat) (asid : BitVec 16) (va : VA) : State :=
  (walkLines s isl va 5 4 (cxPtroot (s.ctxEntry isl asid).1)).foldl
    (fun (s : State) ln =>
      (((s.modIsl isl fun x => x.modH ln fun h => { h with inSlice := true }).useSlice isl (sliceOf ln)).trimSlice isl ln)) s

/-- The cycles of a context's walk of an address from a half (R384). -/
def State.walkTime (s : State) (isl half : Nat) (asid : BitVec 16) (va : VA) : Nat :=
  let c := (s.ctxEntry isl asid).1
  if cxV c then walkCycles s isl half va 5 4 (cxPtroot c) else 2 * hop (64 * half) 0

/-- The place of an address under a leaf (R211, R382); none where no memory is there (R380). -/
def leafLoc (pte level : Nat) (va : VA) : Option Loc :=
  let off := va.toNat % pageBytes level
  let pa := pteAddr pte + off
  match pteHome pte with
  | 0 => if pa < Config.hbmBytes then some (.line (pa / 128) (pa % 128)) else none
  | 1 => if pa < Config.hbmBytes then some (.unc pa) else none
  | 2 => some (.line (sliceLine0 + bitsN pte 16 6 * (32 * 512) + bitsN pte 22 6 * 512 + off / 128) (off % 128))
  | _ => some (.pin (bitsN pte 16 7) (bitsN pte 23 4 * 65536 + off))

/-- What an access does, for the permissions of a leaf (R383). -/
inductive Want where
  | read | write | image
  deriving DecidableEq, Repr, Inhabited

/-- A leaf's answer to an access: the place, or XLATE or PERM. -/
def leafGrant (pte level : Nat) (priv : Bool) (w : Want) (va : VA) : Except Nat Loc :=
  if (w = .write && !pteW pte) || (w = .image && !pteX pte) || (!priv && !pteU pte) then .error cPerm
  else match leafLoc pte level va with
    | some l => .ok l
    | none => .error cXlate

/-! ## TLBs (R384) -/

/-- Whether an entry covers an address of a context. -/
def Tlbe.covers (t : Tlbe) (asid : BitVec 16) (va : VA) : Bool :=
  t.asid == asid && va.toNat / pageBytes t.level == t.va.toNat / pageBytes t.level

/-- The entry of a list that covers an address. -/
def tlbFind (l : List Tlbe) (asid : BitVec 16) (va : VA) : Option Tlbe := l.find? fun t => t.covers asid va

/-- Adds an entry at the front, within a capacity. -/
def tlbAdd (l : List Tlbe) (cap : Nat) (t : Tlbe) : List Tlbe := (t :: l.filter fun u => u ≠ t).take cap

/-- The set of an 8-way TLB of 2,048 entries that holds an entry: by its page number. -/
def Tlbe.set (t : Tlbe) : Nat := t.va.toNat / pageBytes t.level % 256

/-- The first `n` entries of a set, and every entry of the others. -/
def keepWays (set : Nat) : Nat → List Tlbe → List Tlbe
  | _, [] => []
  | n, t :: r =>
    if t.set ≠ set then t :: keepWays set n r
    else match n with
      | 0 => keepWays set 0 r
      | n + 1 => t :: keepWays set n r

/-- Adds an entry to an 8-way TLB: the entry of its set that came first gives way. -/
def tlbAddWays (l : List Tlbe) (t : Tlbe) : List Tlbe := t :: keepWays t.set 7 (l.filter fun u => u ≠ t)

/-- Installs a translation in the TLB of a core's cluster. -/
def Island.clusterInstall (x : Island) (core : Nat) (t : Tlbe) : Island :=
  { x with clusterTlb := tput x.clusterTlb (clusterOf core) (tlbAddWays (tgetD x.clusterTlb (clusterOf core) []) t) }

/-- Installs a translation for a core. -/
def Island.tlbInstall (x : Island) (core : Nat) (t : Tlbe) : Island :=
  let x := x.clusterInstall core t
  { x with microTlb := tput x.microTlb core (tlbAdd (tgetD x.microTlb core []) 64 t) }

/-! ## The snapshot rule (R392, R393) -/

/-- The running SNAP launch of a context whose rule covers an address on an island. -/
def State.snapLaunch (s : State) (isl : Nat) (asid : BitVec 16) (va : VA) : Option (Nat × Launch) :=
  s.launches.find? fun p =>
    p.2.started && !p.2.done && pkSnap p.2.packet && p.2.asid == asid && !p.2.nonReplayable &&
      (p.2.onIsland isl ||
        p.2.windows.any fun w => winIsland w = isl && winVa w ≤ va.toNat && va.toNat < winVa w + 65536 * winPages w)

/-- The launch for which a write under a leaf must copy the page first, or marks it non-replayable (R393): a page of 64 KiB
whose EPOCH is not the context's, and every larger page. -/
def State.needsSnap (s : State) (isl : Nat) (asid : BitVec 16) (va : VA) (pte level : Nat) : Option Nat :=
  match s.snapLaunch isl asid va with
  | some p =>
    let c := (s.ctxEntry isl asid).1
    if pteW pte && (level ≠ 0 || pteEpoch pte ≠ cxSnepoch c) then some p.1 else none
  | none => none

/-- The bytes of a page: of memory at the home, or of a core's pinned area; with its address. -/
def State.pageImage (s : State) (isl : Nat) (pte : Nat) : Option (Nat × Option (Nat × Nat) × List Byte) :=
  match leafLoc pte 0 0 with
  | some (.line ln o) => some (128 * ln + o, none, s.readHome isl 0 65536 (128 * ln + o))
  | some (.unc a) => some (a, none, s.readHome isl 0 65536 a)
  | some (.pin c o) => some (0, some (c, o / 65536), memReadN ((s.isl isl).core c).pinned o 65536)
  | _ => none

/-- Copies a page to the snapshot pool and sets the leaf's EPOCH, or marks the launch non-replayable (R393). -/
def State.snapPage (s : State) (isl : Nat) (key : Nat) (asid : BitVec 16) (pte level ea : Nat) : State :=
  let x := s.isl isl
  let mark (s : State) : State := { s with launches := tmod s.launches key fun l => { l with nonReplayable := true } }
  let used := x.pageLogs.map (·.pool)
  match (List.range (fld x.sys.snpool 48 16)).find? fun i => !used.contains i with
  | none => mark s
  | some i =>
    if level ≠ 0 then mark s
    else
      match s.pageImage isl pte with
      | none => s
      | some (a, pin, bytes) =>
        let pool := fld x.sys.snpool 0 48 + 65536 * i
        let s := s.writeHome isl pool 0 bytes
        let epoch := cxSnepoch (s.ctxEntry isl asid).1
        let pte' := pte % 2 ^ 48 + epoch * 2 ^ 48
        let s := s.writeHomeN isl ea 8 pte'
        s.modIsl isl fun x =>
          { x with pageLogs := x.pageLogs ++ [{ launch := key, asid := asid, pa := a, pin := pin, pte := ea, pool := i }],
                   microTlb := tmap x.microTlb fun _ l => l.map fun t => if t.asid == asid && t.pte.toNat = pte then { t with pte := BitVec.ofNat 64 pte' } else t,
                   clusterTlb := tmap x.clusterTlb fun _ l => l.map fun t => if t.asid == asid && t.pte.toNat = pte then { t with pte := BitVec.ofNat 64 pte' } else t,
                   oedTlb := x.oedTlb.map fun t => if t.asid == asid && t.pte.toNat = pte then { t with pte := BitVec.ofNat 64 pte' } else t }

/-! ## Translation in one step

The engines, the sequencers, the command processors and the OED are served in one step: the walk, the copy of a page
(R393) and the permissions. -/

/-- Translates an address for an agent that is not a group's memory instruction. -/
def State.xlateNow (s : State) (isl : Nat) (asid : BitVec 16) (priv : Bool) (w : Want) (va : VA) : Except Nat Loc × State :=
  match s.walk isl asid va with
  | (.bad, s) => (.error cXlate, s)
  | (.leaf pte level ea, s) =>
    match leafGrant pte level priv w va with
    | .error c => (.error c, s)
    | .ok l =>
      if w = .write then
        match s.needsSnap isl asid va pte level with
        | some key => (.ok l, s.snapPage isl key asid pte level ea)
        | none => (.ok l, s)
      else (.ok l, s)

/-- Translates an address for an engine or a sequencer of a core: through its cluster's TLB, else by a walk, which fills it
(R384, R387). -/
def State.xlateAt (s : State) (isl core : Nat) (asid : BitVec 16) (priv : Bool) (w : Want) (va : VA) : Except Nat Loc × State :=
  match tlbFind (tgetD (s.isl isl).clusterTlb (clusterOf core) []) asid va with
  | some t =>
    (match leafGrant t.pte.toNat t.level priv w va with
    | .error c => (.error c, s)
    | .ok l =>
      if w = .write && (s.needsSnap isl asid va t.pte.toNat t.level).isSome then s.xlateNow isl asid priv w va else (.ok l, s))
  | none =>
    match s.walk isl asid va with
    | (.bad, s) => (.error cXlate, s)
    | (.leaf pte level _, s) =>
      (s.modIsl isl fun x => x.clusterInstall core { asid := asid, va := va, level := level, pte := BitVec.ofNat 64 pte }).xlateNow
        isl asid priv w va

/-- The cycles that a translation adds for an engine or a sequencer of a core: those of a walk where its cluster's TLB does not
hold the page (R384). -/
def State.xlateDelay (s : State) (isl core : Nat) (asid : BitVec 16) (va : VA) : Nat :=
  if 0xF0 ≤ va.toNat / 2 ^ 64 || (tlbFind (tgetD (s.isl isl).clusterTlb (clusterOf core) []) asid va).isSome then 0
  else s.walkTime isl (halfOf core) asid va

/-! ## Audited reruns (R397) -/

/-- The place of a translated access for a workgroup: a rerun's goes to its buffer, and falls back to the page's copy in the
snapshot pool where the page was copied. -/
def Island.auditLoc (x : Island) (core place : Nat) (asid : BitVec 16) (va : VA) (l : Loc) : Loc :=
  match x.wg? core place with
  | none => l
  | some w =>
    if w.audit.isNone then l
    else
      let pa : Option Nat := match l with
        | .line ln o => some (128 * ln + o)
        | .unc a => some a
        | .scr _ _ _ | .reg _ _ _ | .pin _ _ | .buf _ _ _ _ => none
      let mine (g : PageLog) : Bool := g.launch = w.launch && g.asid == asid
      let pool (a : Nat) (g : PageLog) : Nat := fld x.sys.snpool 0 48 + 65536 * g.pool + a % 65536
      let copy := match l with
        | .pin c o => (x.pageLogs.find? fun g => mine g && g.pin = some (c, o / 65536)).map (pool o)
        | _ => pa.bind fun a => (x.pageLogs.find? fun g => mine g && g.pin.isNone && g.pa / 65536 = a / 65536).map (pool a)
      .buf core place va.toNat (match copy with
        | some a => .line (a / 128) (a % 128)
        | none => l)

/-- Whether a workgroup place holds a rerun. -/
def Island.audited (x : Island) (core place : Nat) : Bool := (x.wg? core place).any fun w => w.audit.isSome

/-! ## Windows (R17, R18, R207, R208) -/

/-- The place an address in a window reaches; none where R207 or R208 give XLATE, or the window is reserved. -/
def windowLoc (x : Island) (core place : Nat) (va : VA) : Option Loc :=
  let off := va.toNat % 2 ^ 64
  match x.wg? core place with
  | none => none
  | some w =>
    let kib := hdrScratchKib w.hdr * 1024
    if va.toNat / 2 ^ 64 = 0xFE then
      if off < kib then some (.scr core place off)
      else if 2 ^ 32 ≤ off && off < 2 ^ 32 + hdrGroups w.hdr * hdrRegs w.hdr * 256 then some (.reg core place (off - 2 ^ 32))
      else none
    else if va.toNat / 2 ^ 64 = 0xFD then
      let r := off / 2 ^ 32
      if hdrCluster w.hdr ≤ r || kib ≤ off % 2 ^ 32 then none
      else match tget? x.cls w.cl with
        | some c => match c.ranks[r]? with
          | some (k, pl) => some (.scr k pl (off % 2 ^ 32))
          | none => none
        | none => none
    else none

/-- Whether an address lies in a window or a reserved one, and so is not translated (R18). -/
def inWindow (va : VA) : Bool := 0xF0 ≤ va.toNat / 2 ^ 64

/-! ## Latencies (R244) -/

/-- The whole latency of an access to a target that is not a line, from a core. -/
def targetLatency (core : Nat) (l : Loc) : Nat :=
  match l with
  | .scr c _ _ => if c = core then Config.latOwn else Config.latPeer
  | .reg _ _ _ => Config.latOwn
  | .pin c _ =>
    if c = core then Config.latOwn
    else if clusterOf c = clusterOf core then Config.latPeer
    else if halfOf c = halfOf core then 2 * Config.hopNear else 2 * Config.hopFar
  | .unc _ | .buf _ _ _ _ => Config.latHbm
  | .line ln _ => 2 * hop core (sliceOf ln)

end Sys2Proof.Machine
end

