-- ==== Sys2Proof/Machine/Memory.lean ====
section
/-! DEFINITION. The memory class (R203-R260): forming addresses and requests (R234, R235), translation on the way, the
place where each access is performed, completion, releases and acquires (R225, R251, R252), monitors (R241). -/

namespace Sys2Proof.Machine

/-! ## What an instruction asks for -/

/-- The modifiers of a memory instruction (R231); absent fields are as the assembler leaves them. -/
def memExt (i : Instr) : MemExt :=
  let z : MemExt := { win := 0, pol := .near, scope := .none, ord := .none }
  match i with
  | .ld _ _ e _ _ _ | .st _ _ e _ _ _ | .ldu _ _ e _ _ _ | .atom _ _ _ e _ _ _ | .cas _ _ e _ _ _ => e
  | .fence _ sc o => { z with scope := sc, ord := o }
  | .markEmpty _ w p _ _ _ | .markFull _ w p _ _ _ => { z with win := w, pol := p }
  | .waita _ _ _ w p _ _ _ => { z with win := w, pol := p }
  | .pref _ w p _ _ => { z with win := w, pol := p }
  | .flush _ w _ _ | .invl _ w _ _ => { z with win := w }
  | _ => z

/-- The reach of a write (R216). -/
inductive Reach where
  | cluster | island | home
  deriving DecidableEq, Repr, Inhabited

def reachOf (e : MemExt) : Reach :=
  match e.pol with
  | .far | .once => .home
  | .near => if e.scope = .isl || e.scope = .sys then .island else .cluster

/-- The scope of the release an instruction begins with (R225, R302, R306, R308, R312, R356, R406). -/
def releases (i : Instr) : Option Scope :=
  let e := memExt i
  match i with
  | .st .. | .atom .. | .cas .. | .fence .. => if e.ord = .rel || e.ord = .ar then some e.scope else none
  | .ntfy _ sys _ _ | .ntfySet _ sys _ _ => some (if sys then .sys else .isl)
  | .barArv _ _ k _ | .barArw _ k _ => some (if k = 0 then .clu else .wg)
  | .mbarArv k _ | .mbarArw k _ => some (if k = 0 then .clu else .wg)
  | .ringPushCmt .. | .ringPopFree .. | .mbarCmt .. | .mbarFree .. => some .wg
  | .pbarArv .. | .pbarArw .. | .route .. => some .sys
  | .rntfy .. => some .isl
  | .ratom _ _ _ _ o _ _ _ => if o = .rel || o = .ar then some .sys else none
  | .tlbiAll _ | .tlbiCtx _ _ | .tlbiPage _ _ _ _ | .ctxsv _ _ _ | .ctxld _ _ _ | .resumeReplay _ _ _ |
    .resumeSkip _ _ _ | .resumeTrap _ _ _ => some .isl
  | _ => none

/-- The scope of the acquire an instruction ends with (R225, R302, R306, R309, R312, R355). -/
def acquires (i : Instr) : Option Scope :=
  let e := memExt i
  match i with
  | .ld .. | .ldu .. | .atom .. | .cas .. | .fence .. => if e.ord = .acq || e.ord = .ar then some e.scope else none
  | .barWait _ k _ | .barArw _ k _ => some (if k = 0 then .clu else .wg)
  | .ringPushRsv .. | .ringPopTake .. => some .wg
  | .nwait _ sys _ _ _ => some (if sys then .sys else .isl)
  | .pbarWait .. | .pbarArw .. => some .sys
  | .ratom _ _ _ _ o _ _ _ => if o = .acq || o = .ar then some .isl else none
  | _ => none

/-- Whether an acquire of a scope waits for the pending-invalidation queue (R225). -/
def acqDrains : Scope → Bool
  | .clu | .isl | .sys => true
  | .none | .grp | .wg => false

/-- The destination a group instruction's operation writes when it ends, and whether it is a pair. -/
def destOf (i : Instr) : Option (Opnd × Bool) :=
  match i with
  | .ovlLd _ x _ _ => some (x, false)
  | .ovlAddr _ x _ => some (x, true)
  | .hypOpen _ x _ | .hypEnter _ x _ | .hypLeave _ x | .hypResolveConfirm _ x _ | .hypResolveRefute _ x _ => some (x, false)
  | .hypQry _ x _ | .hypQryCur _ x => some (x, true)
  | .barInit _ x _ _ | .ringInit _ x _ _ | .ringPushRsv _ x _ | .ringPushCmt _ x _ _ | .ringPopTake _ x _ |
    .ringPopFree _ x _ _ => some (x, false)
  | .barArv _ x _ _ => x.map fun o => (o, false)
  | .nwait _ _ x _ _ => some (x, true)
  | .pbarInit _ x _ _ | .pbarArv _ x _ | .pbarArw _ x _ | .route _ x _ _ => some (x, false)
  | .mstart _ x _ | .mstartV _ x _ | .mstop _ x => some (x, false)
  | .mqry _ x | .mqryClr _ x => some (x, true)
  | .sysrd _ x _ | .sysrdSel _ x _ _ => some (x, true)
  | .coll _ x _ => some (x, false)
  | .ctxsv _ x _ | .ctxld _ x _ | .resumeReplay _ x _ | .resumeSkip _ x _ | .resumeTrap _ x _ | .snap _ x _ |
    .topq _ x _ => some (x, false)
  | _ => none

/-- The instructions whose run sleeps until they end (R298, R241). -/
def blocks (i : Instr) : Bool :=
  match i with
  | .waita .. | .barWait .. | .barArw .. | .ringPushRsv .. | .ringPopTake .. | .nwait .. | .pbarWait .. | .pbarArw .. => true
  | _ => false

/-! ## The issuing group of an operation -/

/-- The core an operation belongs to. -/
def Op.core (o : Op) : Nat :=
  match o.agent with
  | .group c _ | .seq c _ | .unit c => c
  | .island => 0

/-- The group that issued an operation, if it still holds its slot. -/
def Island.opGroup? (x : Island) (o : Op) : Option Group :=
  match o.agent with
  | .group c gid => match x.group? c gid with
    | some g => if g.age = o.age then some g else none
    | none => none
  | .seq _ _ | .unit _ | .island => none

/-- Changes the group that issued an operation, with its writes due by now made first (R84). -/
def State.onOpGroup (s : State) (isl : Nat) (o : Op) (f : Group → Group) : State :=
  let cyc := s.cyc isl
  match o.agent with
  | .group c gid => s.modIsl isl fun x => x.modGroup c gid fun g => if g.age = o.age then f (settle g cyc) else g
  | .seq _ _ | .unit _ | .island => s

/-- Whether two operations come from one agent. -/
def sameAgent (a b : Op) : Bool := a.agent = b.agent && a.age = b.age

/-- Has the release that waits first in a group looked at again (R225). -/
def State.kickRelease (s : State) (isl : Nat) (o : Op) : State :=
  match (s.isl isl).opGroup? o with
  | some g => match g.releasing with
    | r :: _ => s.afterOnce isl 0 .releaseWaitEnd [isl, o.core, r]
    | [] => s
  | none => s

/-- One more, or one fewer, write request without acknowledgement (R224). -/
def State.countUp (s : State) (isl : Nat) (o : Op) : State :=
  s.onOpGroup isl o fun g => { g with unacked := g.unacked + 1 }
def State.countDown (s : State) (isl : Nat) (o : Op) : State :=
  (s.onOpGroup isl o fun g => { g with unacked := g.unacked - 1 }).kickRelease isl o

/-! ## Fault records of accesses (R373, R376, R378) -/

/-- Whether an address lies in the growth range of private memory (R386). -/
def privGrowth (c : BitVec 512) (va : VA) : Bool :=
  cxPrivbase c + 65536 * cxPrivhwm c ≤ va.toNat && va.toNat < cxPrivbase c + 65536 * cxPrivlim c

/-- Whether a record is the pending one to which an XLATE on a page attaches (R378). -/
def attachesTo (r : FaultRec) (asid : BitVec 16) (va : VA) : Bool :=
  recCoal r.bits && recAsid r.bits == asid && (recAddr r.bits).toNat / 65536 = va.toNat / 65536 && r.attached.length < 255

/-- Attaches an agent to a record, once. -/
def FaultRec.attach (r : FaultRec) (a : Word) (op : Option Nat) : FaultRec :=
  if r.attached.contains (a, op) then r else { r with attached := r.attached ++ [(a, op)] }

/-- Whether requests of an operation are still being translated: their faults are not known. -/
def Op.seeking (o : Op) : Bool :=
  o.subs.any fun u => (u.stage = .walking || u.stage = .waiting) && u.accs.any fun a => a.loc.isNone && a.fault.isNone && !a.done

/-- More lanes of an instruction join its record, whose address is that of the lowest faulting lane (R376). -/
def FaultRec.join (r : FaultRec) (lanes : LaneMask) (va : VA) (priv : Bool) : FaultRec :=
  let old := recLanes r.bits
  let b := putFld r.bits 128 64 (old ||| lanes).toNat
  let b := if (lowLane lanes).getD 64 < (lowLane old).getD 64 then putFld b 256 72 va.toNat else b
  { r with bits := if priv then putFld b 20 1 1 else b, lanes := r.lanes ||| lanes }

/-- One record more for the group that issued an operation, which parks (R373). -/
def State.parkIssuer (s : State) (isl : Nat) (o : Op) : State :=
  s.onOpGroup isl o fun g => { g with parked := true, records := g.records + 1 }

/-- Reports the fault of lanes of a group's instruction (R373, R376): lanes that take the same fault while others of its
requests are still being translated share one record, which is written once the last translation is known; the record of an
XLATE found in a walk (`walked`) names one page, and the instruction attaches where one is pending for that page (R378). A
fault that has been found before, at the forming of addresses or in an earlier try, is known at once. -/
def State.opFault (s : State) (isl id : Nat) (o : Op) (code : Nat) (accs : List Acc) (walked : Bool) : State :=
  match o.agent with
  | .group core gid =>
    let lanes := maskOf (accs.map (·.lane))
    let va := match accs with | a :: _ => a.va | [] => 0
    let coal := walked && code = cXlate
    let c := s.ctxEntry isl o.asid
    let priv := code = cXlate && accs.any fun a => privGrowth c.1 a.va
    let x := c.2.isl isl
    let change (s : State) (i : Nat) (f : FaultRec → FaultRec) : State := s.modIsl isl fun x => { x with faults := x.faults.modify i f }
    let own (r : FaultRec) : Bool :=
      r.gathering && r.op = some id && recCode r.bits = code && recCoal r.bits = coal &&
        (!coal || (recAddr r.bits).toNat / 65536 = va.toNat / 65536)
    match x.faults.findIdx? own, (if coal then x.findRec fun r => attachesTo r o.asid va else none) with
    | some i, _ => change c.2 i fun r => r.join lanes va priv
    | none, some i =>
      let me := (agentWord 0 core gid, some id)
      if ((x.faults.getD i {}).attached).contains me then c.2
      else (change c.2 i fun r => r.attach me.1 me.2).parkIssuer isl o
    | none, none =>
      let r : RecArgs :=
        { code := code, addr := va, lanes := lanes, cp := o.cp, write := isWrite o.instr, coal := coal, priv := priv,
          agent := agentWord 0 core gid, asid := o.asid, launch := o.launch }
      (c.2.parkIssuer isl o).post isl
        { bits := recordBits r, age := o.age, op := some id, lanes := lanes,
          gathering := (s.op? isl id).any (·.seeking) && accs.all (·.fault.isNone) }
  | .seq _ _ | .unit _ | .island => s

/-- Once the last request of an operation has been translated, its records are written (R375). -/
def State.gathered (s : State) (isl id : Nat) : State :=
  if (s.op? isl id).any (·.seeking) || !((s.isl isl).faults.any fun r => r.gathering && r.op = some id) then s
  else
    let done (r : FaultRec) : FaultRec := if r.op = some id then { r with gathering := false } else r
    (s.modIsl isl fun x => { x with faults := x.faults.map done }).after isl 0 .faultRecordPost [isl]

/-! ## Completion -/

/-- Lets the run of a blocked operation go on after it (R241, R298): it issues again from 2 cycles after its wake on (R438). -/
def wakeRun (g : Group) (cyc id : Nat) (next : Word) : Group :=
  { g with threads := g.threads.map fun p =>
      if p.2.stat = .blocked id then (p.1, { p.2 with cp := next, stat := .asleep (cyc + 2), wait := none }) else p }

/-- Whether an instruction is a `FENCE`. -/
def isFence (i : Instr) : Bool :=
  match i with
  | .fence .. => true
  | _ => false

/-- The fences that wait for an operation which has ended go on (R254). -/
def State.kickFences (s : State) (isl id : Nat) (o : Op) : State :=
  ((s.isl isl).ops.filter fun p => sameAgent p.2 o && isFence p.2.instr && p.2.after = [id]).foldl
    (fun (s : State) p => s.after isl 0 .acquireWaitEnd [isl, p.2.core, p.1]) s

/-- A result is written unless the group has ended: results that arrive for an ended group are discarded (R86). -/
def Group.take (g : Group) (f : Group → Group) : Group := if g.ended then g else f g

/-- The end of an operation: its result is written, its run wakes, its flag falls (R31), waits look again. -/
def State.endOp (s : State) (isl id : Nat) : State :=
  match s.op? isl id with
  | none => s
  | some o =>
    let s := s.onOpGroup isl o fun g =>
      let g := match destOf o.instr with
        | some (x, wide) => g.take fun g => putAll g x wide o.lanes o.res
        | none => g
      let g := if blocks o.instr then wakeRun g (s.cyc isl) id (o.cp + 1) else g
      let rm (l : List Nat) : List Nat := l.filter fun i => i ≠ id
      let g := { g with acquiring := rm g.acquiring, entering := rm g.entering, rfencing := rm g.rfencing,
                        qfencing := rm g.qfencing, releasing := rm g.releasing }
      flagDown g o.flag
    ((s.delOp isl id).kickRelease isl o).kickFences isl id o

/-- The acquire an operation ends with: it waits for the invalidations that entered the queue before now (R225). -/
def State.acquireThenEnd (s : State) (isl id : Nat) : State :=
  match s.op? isl id with
  | none => s
  | some o =>
    match acquires o.instr with
    | some sc =>
      let q := if acqDrains sc then ((s.isl isl).core o.core).pinv else []
      let s := s.onOpGroup isl o fun g =>
        { g with acquiring := if g.acquiring.contains id then g.acquiring else g.acquiring ++ [id] }
      if q.isEmpty then s.endOp isl id else s.modOp isl id fun o => { o with drains := q }
    | none => s.endOp isl id

/-- A value written by a load (R236): sign-extended for signed short types. -/
def loadValue (t : IType) (m : DWord) : DWord :=
  match t with
  | .i8 => ((m.setWidth 8).signExtend 32).setWidth 64
  | .i16 => ((m.setWidth 16).signExtend 32).setWidth 64
  | .n8 => (m.setWidth 8).setWidth 64
  | .n16 => (m.setWidth 16).setWidth 64
  | .i32 | .n32 | .b32 => (m.setWidth 32).setWidth 64
  | .i64 | .n64 | .b64 => m

/-- Writes a lane's result (R236, R238). -/
def accResult (i : Instr) (a : Acc) (g : Group) : Group :=
  match a.res with
  | none => g
  | some m =>
    match i with
    | .ld _ t _ x _ _ | .ldu _ t _ x _ _ =>
      if tWidth t = 64 then putReg64 g x a.lane (loadValue t m) else putReg g x a.lane (loadValue t m)
    | .atom _ _ wide _ x _ _ => if wide then putReg64 g x a.lane m else putReg g x a.lane m
    | .cas _ wide _ x _ _ => if wide then putReg64 g x a.lane m else putReg g (match x with | .vp k => .v k | o => o) a.lane m
    | .waita _ _ _ _ _ x _ _ => putReg g x a.lane m
    | _ => g

/-- The loads that a fence's acquire half turns into an acquiring load: the group's last load before it, where that has not
completed (R254). A `WAITA` is none: its run goes on only after it. -/
def Island.fenceAfter (x : Island) (id : Nat) (o : Op) : List Nat :=
  let loads := x.ops.filter fun p => p.1 < id && sameAgent p.2 o && match p.2.instr with
    | .ld .. | .ldu .. | .atom .. | .cas .. => true
    | _ => false
  match loads.getLast? with
  | some p => [p.1]
  | none => []

/-- A fence whose release half has ended: its acquire half waits for the last load before it (R239, R254). -/
def State.fenceGo (s : State) (isl id : Nat) : State :=
  match s.op? isl id with
  | none => s
  | some o =>
    let w := if (acquires o.instr).isSome then (s.isl isl).fenceAfter id o else []
    let s := s.modOp isl id fun o => { o with after := w }
    if w.isEmpty then s.acquireThenEnd isl id else s

/-- Looks whether a memory operation is complete: every request done and no lane waiting for `RESUME` (R234). -/
def State.opCheck (s : State) (isl id : Nat) : State :=
  match s.op? isl id with
  | none => s
  | some o =>
    if o.released && o.subs.all fun u => u.stage = .done then
      match o.instr with
      | .waita .. =>
        let accs := o.subs.flatMap (·.accs)
        let s := s.onOpGroup isl o fun g => g.take fun g => accs.foldl (fun g a => accResult o.instr a g) g
        s.endOp isl id
      | _ => s.acquireThenEnd isl id
    else s

/-- A request completes without effect: no access is made and no destination is written (R379). -/
def State.skipSub (s : State) (isl id key : Nat) : State :=
  match s.op? isl id with
  | none => s
  | some o =>
    let counted := o.subs.any fun u => u.key = key && u.counted
    let s := s.modSub isl id key fun u => { u with stage := .done, counted := false, accs := [] }
    let s := if counted then s.countDown isl o else s
    s.opCheck isl id

/-- Whether the launch of an operation has been killed: its faults have no record (R379). -/
def State.opKilled (s : State) (o : Op) : Bool := (tget? s.launches o.launch).any (·.killed)

/-- A request whose lanes take a fault: nothing is performed, the fault is reported (R234). A write among them stays counted: a
release of the group waits until it has been performed, or has been completed without effect (R224, R251). A prefetch is
dropped, and so are the faulting lanes of a killed launch. -/
def State.faultSub (s : State) (isl id key code : Nat) (walked : Bool) : State :=
  match s.op? isl id with
  | none => s
  | some o =>
    match o.subs.find? fun u => u.key = key with
    | none => s
    | some u =>
      match o.instr with
      | .pref .. => s.skipSub isl id key
      | _ =>
        if s.opKilled o then (s.skipSub isl id key).gathered isl id
        else
          ((s.modSub isl id key fun u =>
            { u with stage := .waiting,
                     accs := u.accs.map fun a => { a with fault := some (BitVec.ofNat 8 code) } }).opFault isl id o code u.accs
            walked).gathered isl id

/-- The value or the acknowledgement of a request has returned (R224, R236): registers are written, the counter falls. -/
def State.subDone (s : State) (isl id key : Nat) : State :=
  match s.op? isl id with
  | none => s
  | some o =>
    match o.subs.find? fun u => u.key = key with
    | none => s
    | some u =>
      if u.stage ≠ .performed then s
      else
        match o.instr with
        | .waita .. =>
          (s.modSub isl id key fun u =>
            { u with stage := if u.accs.all (·.done) then .done else .waiting }).opCheck isl id
        | _ =>
          let s := s.modSub isl id key fun u => { u with stage := .done, counted := false }
          let s := s.onOpGroup isl o fun g => g.take fun g => u.accs.foldl (fun g a => accResult o.instr a g) g
          let s := if u.counted then s.countDown isl o else s
          s.opCheck isl id

/-- Schedules the return of a request's value or acknowledgement. -/
def State.returns (s : State) (isl d : Nat) (o : Op) (id key : Nat) : State :=
  if accReads o.instr then s.after isl d .loadValueReturn [isl, o.core, id, key]
  else s.after isl d .writeAcknowledgement [isl, o.core, id, key, 0]

/-! ## Monitors (R241) -/

/-- Whether a `WAITA` lane's condition holds. -/
def waitaMet (i : Instr) (a : Acc) : Bool :=
  match i, a.res with
  | .waita _ _ ne _ _ _ _ _, some m => ((m.setWidth 32 : Word) = a.x.setWidth 32) != ne
  | _, _ => true

/-- Whether a monitor of a core sees the events of a location. -/
def monitored (core : Nat) (far : Bool) (l : Loc) : Bool :=
  !far && match l with
    | .scr c _ _ | .reg c _ _ | .pin c _ => c = core
    | .line _ _ => true
    | .unc _ | .buf _ _ _ _ => false

/-- After a `WAITA`'s read: satisfied lanes keep their value, the others are armed or polled. -/
def State.waitaAfter (s : State) (isl id key : Nat) (o : Op) : State :=
  match o.instr with
  | .waita _ _ _ _ pol _ _ _ =>
    match ((s.op? isl id).getD {}).subs.find? fun u => u.key = key with
    | none => s
    | some u =>
      let bad := u.accs.filter fun a => !waitaMet o.instr a
      let s := s.modSub isl id key fun u =>
        { u with accs := u.accs.map fun a => if waitaMet o.instr a then a else { a with done := false, res := none } }
      -- a rerun that would sleep is abandoned (R397)
      let s := match ((s.isl isl).wg? o.core o.place).bind (·.audit) with
        | some a => if bad.isEmpty then s else s.after isl 0 .auditTimeout [isl, a]
        | none => s
      bad.foldl (fun s a =>
        match a.loc with
        | none => s
        | some l =>
          let k := (s.isl isl).core o.core
          if monitored o.core (pol = .far) l && k.monitors.length < 64 then
            s.modIsl isl fun x => x.modCore o.core fun k => { k with monitors := k.monitors ++ [{ op := id, loc := l }] }
          else s.afterOnce isl 256 .waitaPoll [isl, o.core, id]) s
  | _ => s

/-! ## Poison (R227) -/

/-- The slot by which an agent word names an operation's agent (R377). -/
def Op.slot (o : Op) : Nat :=
  match o.agent with
  | .group _ gid => gid
  | .seq _ p => p
  | .unit _ | .island => 0

/-- What a consumption of poison names: the consuming agent's core, SOURCE and slot, its launch, the consuming lanes, the
instruction's code pointer and the virtual address of the lowest such lane (R227, R376). -/
structure Eater where
  core : Nat := 0
  source : Nat := 0
  slot : Nat := 0
  launch : Nat := 0
  cp : Word := 0
  lanes : LaneMask := 0
  va : VA := 0
  deriving DecidableEq, Repr, Inhabited

/-- A consumer of poison: the launch is rolled back (R394). -/
def State.consumed (s : State) (isl : Nat) (e : Eater) : State :=
  s.afterOnce isl 0 .poisonConsumption [isl, e.core, e.source, e.slot, e.launch, e.cp.toNat, e.lanes.toNat, e.va.toNat]

/-- A group's memory instruction consumes poison in the lanes of a request. -/
def State.poisoned (s : State) (isl : Nat) (o : Op) (accs : List Acc) : State :=
  s.consumed isl
    { core := o.core, slot := o.slot, launch := o.launch, cp := o.cp, lanes := maskOf (accs.map (·.lane)),
      va := match accs with | a :: _ => a.va | [] => 0 }

/-! ## The counter of a compare-and-swap (R238) -/

/-- A `CAS` request that has written nothing is not counted by R224: once it has been performed without a write, no release
waits for its answer. -/
def State.uncountFailed (s : State) (isl id key : Nat) (o : Op) (wrote : Bool) : State :=
  match o.instr with
  | .cas .. =>
    if !wrote && o.subs.any fun u => u.key = key && u.counted then
      (s.modSub isl id key fun u => { u with counted := false }).countDown isl o
    else s
  | _ => s

/-! ## Performing at a target that is not a line (R209-R211, R240) -/

/-- The line of a scratchpad location. -/
def Loc.scrLine : Loc → Option (Nat × Nat × Nat)
  | .scr c p o => some (c, p, o / 128)
  | .reg _ _ _ | .pin _ _ | .unc _ | .line _ _ | .buf _ _ _ _ => none

/-- The signature of the bytes that performed accesses have written at a target, each byte once (R235, R398). -/
def State.sigTarget (s : State) (isl : Nat) (i : Instr) (accs : List Acc) : DWord :=
  let wrote := accs.filter fun a => isWrite i && (accWrites i a (a.res.getD 0).toNat).isSome
  let bytes : List (VA × Loc) := wrote.flatMap fun a => match a.loc with
    | some l => (List.range a.n).map fun k => (a.va + BitVec.ofNat 72 k, l.plus k)
    | none => []
  let once := bytes.foldl (fun (acc : List (VA × Loc)) p => if acc.any fun q => q.1 == p.1 then acc else acc ++ [p]) []
  once.foldl (fun d p => d + mixSig p.1 (BitVec.ofNat 8 (s.targetRead isl p.2 1))) 0

/-- Performs a request at its target; `d` is the time its value or acknowledgement takes to return. -/
def State.performTarget (s : State) (isl id key d : Nat) (o : Op) (u : Sub) (l : Loc) : State :=
  match o.instr with
  | .markEmpty .. | .markFull .. =>
    let full := match o.instr with | .markFull .. => true | _ => false
    let s := match l.scrLine, u.accs with
      | some (c, p, ln), a :: _ =>
        s.modIsl isl fun x => x.modWg c p fun w => (List.range a.x.toNat).foldl (fun w i => w.setFull (ln + i) full) w
      | _, _ => s
    (s.modSub isl id key fun u => { u with stage := .performed, accs := u.accs.map fun a => { a with done := true } }).returns isl d o id key
  | .pref .. | .flush .. | .invl .. =>
    (s.modSub isl id key fun u => { u with stage := .performed }).returns isl d o id key
  | _ =>
    let eat := if !accReads o.instr then ([], s) else u.accs.foldl (fun (p : List Acc × State) a =>
      let t := p.2.tainted isl (a.loc.getD l) a.n
      (if t.1 && !a.done then p.1 ++ [a] else p.1, t.2)) ([], s)
    let s := if eat.1.isEmpty then eat.2 else eat.2.poisoned isl o eat.1
    let r := performAt o.instr (fun s a => s.targetRead isl (a.loc.getD l) a.n)
      (fun s a v => s.targetWrite isl (a.loc.getD l) a.n v) s u.accs
    let s := r.1.modSub isl id key fun u => { u with stage := .performed, accs := r.2 }
    let s := s.uncountFailed isl id key o (r.2.any fun a => (accWrites o.instr a (a.res.getD 0).toNat).isSome)
    let s := if isWrite o.instr then
        match l.core? with
        | some c => s.fireMonitors isl c l
        | none => s
      else s
    let s := match l with
      | .pin _ _ | .unc _ | .buf _ _ _ _ => s.addSig isl o.core o.place o.launch (s.sigTarget isl o.instr r.2)
      | .scr _ _ _ | .reg _ _ _ | .line _ _ => s
    (s.waitaAfter isl id key o).returns isl d o id key

/-- A request reaches its target: a read of an empty scratchpad line is held there (R210). -/
def State.atTarget (s : State) (isl id key : Nat) : State :=
  match s.op? isl id with
  | none => s
  | some o =>
    match o.subs.find? fun u => u.key = key with
    | none => s
    | some u =>
      match u.accs.findSome? (·.loc) with
      | none => s
      | some l =>
        let lat := targetLatency o.core l
        let copy := match o.instr with | .cpy .. | .cpyb .. => true | _ => false
        if u.stage ≠ .going then s
        else if copy then s.after isl 0 .copyLineTransfer [isl, o.core, id, key]
        else if accReads o.instr && s.isEmptyLoc isl l then
          match l.scrLine with
          | some (c, p, _) => s.modIsl isl fun x => x.modWg c p fun w => { w with held := w.held ++ [(id, key)] }
          | none => s
        else s.performTarget isl id key (lat - lat / 2) o u l

/-- Performs the accesses held on lines that are full now, in arrival order (R210). -/
def State.releaseHeld (s : State) (isl core place : Nat) : State :=
  match (s.isl isl).wg? core place with
  | none => s
  | some w =>
    let s := s.modIsl isl fun x => x.modWg core place fun w => { w with held := [] }
    w.held.foldl (fun s p => s.atTarget isl p.1 p.2) s

/-! ## Performing in the L1 (R213-R223) -/

/-- The signature of bytes written to a line (R398). -/
def State.sigOnLine (s : State) (isl : Nat) (o : Op) (accs : List Acc) (l : Line) (m : ByteMask) : State :=
  match accs with
  | a :: _ =>
    if m = 0 || !((s.isl isl).wg? o.core o.place).any (fun w => hdrAud w.hdr) then s
    else s.addSig isl o.core o.place o.launch (sigLine (a.va - BitVec.ofNat 72 a.off) l m)
  | [] => s

/-- Performs a request on the issuing core's copy of its line; a write leaves the copy in state `st`. -/
def State.performL1 (s : State) (isl id key ln lat : Nat) (o : Op) (st : LineSt) : State :=
  let x := s.isl isl
  match x.l1? o.core ln, o.subs.find? fun u => u.key = key with
  | some a, some u =>
    let eat : Bool × State := if !accReads o.instr then (false, s) else u.accs.foldl (fun (p : Bool × State) b =>
      let t := p.2.softRead isl o.core (.line ln b.off) b.n
      (p.1 || t.1, t.2)) (a.poison, s)
    let s := eat.2
    let s := if isWrite o.instr then u.accs.foldl (fun (s : State) b => s.softWrite isl o.core (.line ln b.off) b.n) s else s
    let r := performLine o.instr a.data 0 u.accs
    let e := memExt o.instr
    let clears := reachOf e ≠ .cluster && r.2.1 = BitVec.allOnes 128
    let a' : L1Line :=
      if isWrite o.instr then
        { a with st := st, data := r.1, dirty := a.dirty ||| r.2.1, launch := o.launch, poison := a.poison && !clears }
      else a
    let s := s.modIsl isl fun x => (x.setL1 o.core ln (some a')).touch o.core ln (e.pol = .once)
      ((x.opGroup? o).any (·.urgent))
    let s := if isWrite o.instr then s.fireMonitors isl o.core (.line ln 0) else s
    let s := if eat.1 then s.poisoned isl o u.accs else s
    let s := s.sigOnLine isl o u.accs r.1 r.2.1
    let s := s.modSub isl id key fun u => { u with stage := .performed, accs := r.2.2 }
    ((s.uncountFailed isl id key o (r.2.1 ≠ 0)).waitaAfter isl id key o).returns isl lat o id key
  | _, _ => s

/-- Sends a request of an operation to the home of its line. -/
def State.ask (s : State) (isl id key ln : Nat) (o : Op) (r : Req) : State :=
  (s.sendHome isl 0 { r with core := o.core, line := ln, op := id, sub := key, tag := o.hy, launch := o.launch }).2

/-- The cores of a cluster other than one, that hold a line. -/
def Island.peers (x : Island) (core ln : Nat) : List Nat := (x.holders (clusterOf core) ln).filter fun c => c ≠ core

/-- The peer that supplies a line by the filter's forward (R218, R268), where none of the peers' arrived invalidations of the
line is still to be applied (State.drainCluster). -/
def Island.supplier (x : Island) (core ln : Nat) (hy : BitVec 8) : Option (Nat × L1Line) :=
  (x.peers core ln).findSome? fun c =>
    match x.l1? c ln with
    | some a =>
      if a.view = 0 && a.st ≠ .s && (hy = 0 || a.vf) then some (c, a) else none
    | none => none

/-- Whether a copy serves a read under a hypothesis (R268). -/
def L1Line.serves (a : L1Line) (hy : BitVec 8) : Bool :=
  if hy = 0 then a.view = 0 else a.view = hy || (a.view = 0 && a.vf)

/-- A request that its line's presence completes: a prefetch; another is performed on the copy (R235, R242). -/
def State.filled (s : State) (isl id key ln hit : Nat) (o : Op) (st : LineSt) : State :=
  match o.instr with
  | .pref .. => (s.modSub isl id key fun u => { u with stage := .done }).opCheck isl id
  | _ => s.performL1 isl id key ln hit o st

/-- A near read or prefetch (R218, R242, R268): a copy that serves it, else the filter's forward, else the home. A copy of
another view is dropped, and dirty bytes of the core's own are merged or written back, before the line is asked for. -/
def State.nearRead (s : State) (isl id key ln hit : Nat) (o : Op) : State :=
  let e := memExt o.instr
  let prot := ((s.isl isl).opGroup? o).any (·.urgent)
  match ((s.isl isl).l1? o.core ln).filter (·.serves o.hy) with
  | some a => s.filled isl id key ln hit o a.st
  | none =>
    let s := ((s.cleanLine isl o.core ln 0 false 0 0).2).drainCluster isl o.core ln
    match (s.isl isl).supplier o.core ln o.hy with
    | some (c, a) =>
      let st : LineSt := match a.st with | .m => .o | .e => .s | .o => .o | .s => .s | .l => .l
      let s := s.modIsl isl fun x => x.setL1 c ln (some { a with st := st })
      let s := s.fill isl o.core ln { st := .s, data := a.data, poison := a.poison, vf := a.vf } (e.pol = .once) prot
      s.filled isl id key ln Config.latPeer o .s
    | none => s.ask isl id key ln o { kind := if o.hy = 0 then .read else .view, once := e.pol = .once }

/-- Drops a peer's clean copy. -/
def State.dropL1 (s : State) (isl core ln : Nat) : State :=
  (s.modIsl isl fun x => x.setL1 core ln none).fireMonitors isl core (.line ln 0)

/-- A write of cluster reach (R217). A peer's M, O or E copy is written back and invalidated. What invalidations have arrived
for the line in the cluster are applied first: a copy that one of them ends is not written on, nor moved. -/
def State.clusterWrite (s : State) (isl id key ln hit : Nat) (o : Op) : State :=
  let s := s.drainCluster isl o.core ln
  let s : State := match (s.isl isl).l1? o.core ln with
    | some a => if a.st = LineSt.o then (s.cleanLine isl o.core ln 0 true 0 0).2 else if a.view ≠ 0 then s.dropL1 isl o.core ln else s
    | none => s
  let x := s.isl isl
  let peers := x.peers o.core ln
  let lat := if peers.isEmpty then hit else max hit Config.latPeer
  let prot := (x.opGroup? o).any (·.urgent)
  let fromS (own : Option L1Line) : State :=
    let copies : List L1Line := peers.filterMap fun c => x.l1? c ln
    let lcopy : Option L1Line := copies.find? fun a => a.st = .l
    let src : Option L1Line := match lcopy with
      | some a => some a
      | none => match copies.find? fun a => a.st ≠ .s with
        | some a => some a
        | none => match own with
          | some a => some a
          | none => copies.find? fun a => a.view = 0
    match src with
    | none => (peers.foldl (fun s c => s.dropL1 isl c ln) s).ask isl id key ln o { kind := .read, forL := true }
    | some a =>
      let s : State := peers.foldl (fun (s : State) c => match (s.isl isl).l1? c ln with
        | some b => if b.st = .l then s.dropL1 isl c ln else (s.cleanLine isl c ln 0 false 0 0).2
        | none => s) s
      let mine : L1Line := { st := .l, data := a.data, dirty := if a.st = .l then a.dirty else 0, poison := a.poison,
                             vf := a.vf, launch := a.launch }
      let s := s.fill isl o.core ln mine false prot
      let s := s.performL1 isl id key ln lat o .l
      if lcopy.isNone then s.after isl (hop o.core (sliceOf ln)) .lNotice [isl, clusterOf o.core, ln] else s
  match x.l1? o.core ln with
  | some a =>
    match a.st with
    | .m | .e => s.performL1 isl id key ln hit o .m
    | .l => (peers.foldl (fun s c => s.dropL1 isl c ln) s).performL1 isl id key ln lat o .l
    | .o | .s => fromS (some a)
  | none => fromS none

/-- A near write of island reach: performed on M or E, else ownership is asked of the home (R219). -/
def State.islandWrite (s : State) (isl id key ln hit : Nat) (o : Op) : State :=
  match (s.isl isl).l1? o.core ln with
  | some a =>
    if a.view ≠ 0 then (s.dropL1 isl o.core ln).ask isl id key ln o { kind := .readEx }
    else
      match a.st with
      | .m | .e => s.performL1 isl id key ln hit o .m
      | .l => ((s.cleanLine isl o.core ln 0 true 0 0).2).ask isl id key ln o { kind := .upgrade }
      | .o => s.ask isl id key ln o { kind := .upgrade, data := a.data, mask := a.dirty }
      | .s => s.ask isl id key ln o { kind := .upgrade }
  | none => s.ask isl id key ln o { kind := .readEx }

/-- `FLUSH` and `INVL` of one line (R242). -/
def State.flushLine (s : State) (isl id key ln : Nat) (o : Op) (keep : Bool) : State :=
  let s := s.modSub isl id key fun u => { u with stage := .performed }
  match (s.isl isl).l1? o.core ln with
  | some a =>
    if a.view = 0 && (a.st = .m || a.st = .o || a.st = .l) then (s.cleanLine isl o.core ln 0 keep id key).2
    else if keep then s.returns isl Config.latL1 o id key
    else ((s.cleanLine isl o.core ln 0 false 0 0).2).returns isl Config.latL1 o id key
  | none => s.returns isl Config.latL1 o id key

/-- Whether a request waits: behind an earlier access of its group to the line (R235), or for a line its core has asked
for already. -/
def Island.lineBusy (x : Island) (id : Nat) (o : Op) (u : Sub) (ln : Nat) : Bool :=
  let va := match u.accs with | a :: _ => a.va.toNat / 128 | [] => 0
  (x.ops.any fun p => p.1 < id && sameAgent p.2 o && p.2.subs.any fun w =>
      (w.stage = .going && w.accs.any fun a => match a.loc with | some (.line l _) => l = ln | _ => false) ||
      (w.stage = .walking && w.accs.any fun a => a.va.toNat / 128 = va)) ||
    (x.reqs.any fun p => p.2.core = o.core && p.2.line = ln && p.2.ans.isNone && match p.2.kind with
      | .read | .readEx | .upgrade | .view => true
      | .writeBack _ | .merge _ | .farRead | .farWrite | .farAtom | .fetch | .tagged | .taggedAtom => false)

/-- The line of a request. -/
def Sub.line? (u : Sub) : Option Nat :=
  u.accs.findSome? fun a => match a.loc with
    | some (.line l _) => some l
    | _ => none

/-- Tries a request on a line: performed in the L1, or asked of the home (R223); `hit` is the latency of an L1 hit. -/
def State.tryLine (s : State) (isl id key hit : Nat) : State :=
  match s.op? isl id with
  | none => s
  | some o =>
    match o.subs.find? fun u => u.key = key with
    | none => s
    | some u =>
      match u.line? with
      | none => s
      | some ln =>
        let x := s.isl isl
        if u.stage ≠ .going || x.lineBusy id o u ln || x.reqs.any fun p => p.2.op = id && p.2.sub = key && p.2.ans.isNone then s
        else
          let e := memExt o.instr
          let cleaned (s : State) : State := (s.cleanLine isl o.core ln 0 false 0 0).2
          match o.instr with
          | .flush .. | .flushAll _ => s.flushLine isl id key ln o true
          | .invl .. | .invlAll _ => s.flushLine isl id key ln o false
          | .pref .. =>
            if e.pol = .far then s.ask isl id key ln o { kind := .fetch } else s.nearRead isl id key ln hit o
          | .st .. =>
            if o.hy ≠ 0 then s.ask isl id key ln o { kind := .tagged }
            else match reachOf e with
              | .home => (cleaned s).ask isl id key ln o { kind := .farWrite }
              | .island => s.islandWrite isl id key ln hit o
              | .cluster => s.clusterWrite isl id key ln hit o
          | .atom .. | .cas .. =>
            if o.hy ≠ 0 then s.ask isl id key ln o { kind := .taggedAtom }
            else match reachOf e with
              | .home => (cleaned s).ask isl id key ln o { kind := .farAtom }
              | .island => s.islandWrite isl id key ln hit o
              | .cluster => s.clusterWrite isl id key ln hit o
          | _ =>
            if e.pol = .far || (e.pol = .once && o.hy ≠ 0) then
              (if e.pol = .far then cleaned s else s).ask isl id key ln o { kind := .farRead }
            else s.nearRead isl id key ln hit o

/-- Tries every request of a core that waits on a line again, the earliest operation first. -/
def State.kick (s : State) (isl core ln : Nat) : State :=
  (s.isl isl).ops.foldl (fun s p =>
    if p.2.core = core then
      p.2.subs.foldl (fun s u => if u.stage = .going && u.line? = some ln then s.tryLine isl p.1 u.key 0 else s) s
    else s) s

/-! ## Translation of a group's requests (R234, R384) -/

/-- The memory instructions whose accesses are performed at a place. -/
def memAccess (i : Instr) : Bool :=
  match i with
  | .ld .. | .st .. | .ldu .. | .atom .. | .cas .. | .markEmpty .. | .markFull .. | .waita .. => true
  | _ => false

/-- What a memory instruction's access does, for permissions: `MARK` is no write (R383). -/
def wantOf (i : Instr) : Want := if isWrite i then .write else .read

/-- Adds a request to the walk of its page, or starts one; misses that find the half's walkers busy wait (R384). -/
def State.needWalk (s : State) (isl id key : Nat) (o : Op) (va : VA) : State :=
  let x := s.isl isl
  let s := s.modSub isl id key fun u => { u with stage := .walking }
  let half := halfOf o.core
  match x.walks.find? fun p => p.2.asid == o.asid && p.2.va.toNat / 65536 = va.toNat / 65536 with
  | some (w, _) => s.modIsl isl fun x => { x with walks := tmod x.walks w fun k => { k with waiters := k.waiters ++ [(id, key)] } }
  | none =>
    let w := s.nextId
    let running := (x.walks.filter fun p => p.2.half = half && !x.walkQueue.contains p.1).length
    let s := { s with nextId := w + 1 }.modIsl isl fun x =>
      { x with walks := tput x.walks w { asid := o.asid, va := va, half := half, waiters := [(id, key)] } }
    if 32 ≤ running then s.modIsl isl fun x => { x with walkQueue := x.walkQueue ++ [w] }
    else s.after isl (s.walkTime isl half o.asid va) .tableWalk [isl, w]

/-- The faults of R234 that follow translation. -/
def placeFault (o : Op) (l : Loc) : Option Nat :=
  let mark := match o.instr with | .markEmpty .. | .markFull .. => true | _ => false
  let atomic := match o.instr with | .atom .. | .cas .. | .waita .. => true | _ => false
  match l with
  | .scr _ _ _ => none
  | .reg _ _ _ => if mark || atomic then some cHome else none
  | .pin _ _ | .unc _ => if mark then some cHome else if isWrite o.instr && o.hy ≠ 0 then some cHypHome else none
  | .line _ _ | .buf _ _ _ _ => if mark then some cHome else none

/-- Whether an earlier memory access of the core is still being translated: it may go to the same pinned area or stack
(R250, case 5). -/
def Island.behindWalk (x : Island) (id key : Nat) (o : Op) : Bool :=
  x.ops.any fun p => p.1 ≤ id && p.2.core = o.core && memAccess p.2.instr &&
    p.2.subs.any fun u => u.stage = .walking && (p.1 < id || u.key < key)

/-- Sends a located request on to the place where it is performed. Accesses to CORE and UNCACHED pages leave a core in the
order in which it issued them: one behind an earlier access whose place is not yet known looks again a cycle later (R209,
R211, R250). -/
def State.dispatchSub (s : State) (isl id key : Nat) (o : Op) (l : Loc) : State :=
  match placeFault o l with
  | some c => s.faultSub isl id key c false
  | none =>
    match l with
    | .line _ _ => s.tryLine isl id key Config.latL1
    | .scr _ _ _ | .reg _ _ _ => s.at (.cyc isl (s.cyc isl + targetLatency o.core l / 2)) (.perform isl o.core id key)
    | .pin _ _ | .unc _ | .buf _ _ _ _ =>
      if (s.isl isl).behindWalk id key o then
        (s.modSub isl id key fun u => { u with stage := .walking }).at (.cyc isl (s.cyc isl + 1)) (.perform isl o.core id key)
      else s.at (.cyc isl (s.cyc isl + targetLatency o.core l / 2)) (.perform isl o.core id key)

/-- Places the lanes of a request under a leaf, or faults. -/
def State.locateSub (s : State) (isl id key : Nat) (o : Op) (u : Sub) (t : Tlbe) : State :=
  match leafGrant t.pte.toNat t.level o.priv (wantOf o.instr) (match u.accs with | a :: _ => a.va | [] => 0) with
  | .error c => s.faultSub isl id key c false
  | .ok l =>
    let s := s.modSub isl id key fun u =>
      { u with stage := .going, accs := u.accs.map fun a =>
          { a with loc := (leafLoc t.pte.toNat t.level a.va).map ((s.isl isl).auditLoc o.core o.place o.asid a.va) } }
    (s.dispatchSub isl id key o ((s.isl isl).auditLoc o.core o.place o.asid (match u.accs with | a :: _ => a.va | [] => 0) l)).gathered isl id

/-- Starts a request: a window access goes to its array; another is translated (R384). -/
def State.startSub (s : State) (isl id key : Nat) : State :=
  match s.op? isl id with
  | none => s
  | some o =>
    match o.subs.find? fun u => u.key = key with
    | none => s
    | some u =>
      match u.accs with
      | [] => s.modSub isl id key fun u => { u with stage := .done }
      | a :: _ =>
        let counts := match o.instr with
          | .markEmpty .. | .markFull .. => true
          | _ => isWrite o.instr
        if u.stage = .done || u.stage = .performed then s
        else
          let s := if counts && !u.counted then (s.countUp isl o).modSub isl id key fun u => { u with counted := true } else s
          if a.fault.isSome then s
          else
          match a.loc with
          | some l => (s.modSub isl id key fun u => { u with stage := .going }).dispatchSub isl id key o l
          | none =>
            let x := s.isl isl
            let stale (t : Tlbe) : Bool := wantOf o.instr = .write && !x.audited o.core o.place && (s.needsSnap isl o.asid a.va t.pte.toNat t.level).isSome
            match tlbFind (tgetD x.microTlb o.core []) o.asid a.va with
            | some t => if stale t then s.needWalk isl id key o a.va else s.locateSub isl id key o u t
            | none =>
              match tlbFind (tgetD x.clusterTlb (clusterOf o.core) []) o.asid a.va with
              | some t =>
                if stale t then s.needWalk isl id key o a.va
                else (s.modSub isl id key fun u => { u with stage := .walking }).at
                  (.cyc isl (s.cyc isl + 20)) (.perform isl o.core id key)
              | none => s.needWalk isl id key o a.va

/-- The translation that a cluster TLB has supplied enters the core's micro-TLB when it arrives there (R384). -/
def State.microFill (s : State) (isl : Nat) (o : Op) (u : Sub) : State :=
  match u.accs with
  | a :: _ =>
    match tlbFind (tgetD (s.isl isl).clusterTlb (clusterOf o.core) []) o.asid a.va with
    | some t => s.modIsl isl fun x => { x with microTlb := tput x.microTlb o.core (tlbAdd (tgetD x.microTlb o.core []) 64 t) }
    | none => s
  | [] => s

/-- `Act.perform`: a translated request goes on, or a request reaches its target. -/
def State.performAct (s : State) (isl id key : Nat) : State :=
  match s.op? isl id with
  | none => s
  | some o =>
    match o.subs.find? fun u => u.key = key with
    | none => s
    | some u =>
      if u.stage = .walking then (s.microFill isl o u).startSub isl id key
      else
        let s := s.atTarget isl id key
        match o.instr, u.accs.findSome? fun a => a.loc.bind Loc.scrLine with
        | .markFull .., some (c, p, _) => s.releaseHeld isl c p
        | _, _ => s

/-! ## Starting an operation -/

/-- Whether a release in progress holds an instruction's operation: the memory, copy and inter-island classes (R251, R256). A
synchronisation instruction without a release of its own goes on (R299). -/
def heldByRelease (i : Instr) : Bool :=
  match i with
  | .ld .. | .st .. | .ldu .. | .atom .. | .cas .. | .fence .. | .markEmpty .. | .markFull .. | .waita .. | .pref .. |
    .flush .. | .flushAll _ | .invl .. | .invlAll _ | .cpy .. | .cpyb .. | .put .. | .get .. | .ratom .. | .rntfy .. |
    .coll .. => true
  | _ => false

/-- The barrier an instruction names is `b0` (R299). -/
def namesB0 (i : Instr) : Bool :=
  match i with
  | .barInit _ _ k _ | .barArv _ _ k _ | .barWait _ k _ | .barArw _ k _ | .mbarArv k _ | .mbarWait k _ | .mbarArw k _ => k = 0
  | _ => false

/-- Cycles from a core to a unit of H0 one way for the controllers of R283 and R401, and for those of R307 and R310. -/
def halfTrip (core : Nat) : Nat := if halfOf core = 0 then Config.sysNear else Config.sysFar
def fullTrip (core : Nat) : Nat := if halfOf core = 0 then Config.unitNear else Config.unitFar

/-- An operation begins: its requests start, or it goes to its unit or its queue. -/
def State.startOp (s : State) (isl id : Nat) : State :=
  match s.op? isl id with
  | none => s
  | some o =>
    let s := s.modOp isl id fun o => { o with released := true }
    let mem (s : State) : State := (o.subs.foldl (fun s u => s.startSub isl id u.key) s).opCheck isl id
    let queue (s : State) (copy : Bool) : State :=
      s.modIsl isl fun x => x.modWg o.core o.place fun w =>
        if copy then { w with copyq := w.copyq ++ [id] } else { w with fabq := w.fabq ++ [id] }
    match o.instr with
    | .ld .. | .st .. | .ldu .. | .atom .. | .cas .. | .markEmpty .. | .markFull .. | .waita .. | .pref .. | .flush .. |
      .flushAll _ | .invl .. | .invlAll _ => mem s
    | .fence .. => s.fenceGo isl id
    | .barInit .. | .barArv .. | .barWait .. | .barArw .. | .ringInit .. | .ringPushRsv .. | .ringPushCmt .. |
      .ringPopTake .. | .ringPopFree .. | .mbarArv .. | .mbarWait .. | .mbarArw .. | .mbarRsv .. | .mbarCmt .. |
      .mbarTake .. | .mbarFree .. =>
      let due := max (s.cyc isl) (o.issued + if namesB0 o.instr then 60 else 4)
      s.at (.cyc isl due) (.row .syncUnitOperation [isl, id])
    | .ntfy .. | .ntfySet .. | .nwait .. => s.after isl (fullTrip o.core) .notifyUnitRequest [isl, id]
    | .pbarInit .. | .pbarArv .. | .pbarWait .. | .pbarArw .. | .route .. =>
      s.after isl (fullTrip o.core) .panelBarrierAgentRequest [isl, id]
    | .hypOpen .. | .hypEnter .. | .hypLeave .. | .hypQry .. | .hypQryCur .. =>
      s.after isl (halfTrip o.core) .hypothesisControllerRequest [isl, id]
    | .hypResolveConfirm .. | .hypResolveRefute .. => s.after isl (halfTrip o.core) .resolveArrival [isl, id]
    | .sysrd .. | .sysrdSel .. | .syswr .. | .syswrSel .. | .tlbiAll _ | .tlbiCtx .. | .tlbiPage .. | .ctxsv .. | .ctxld .. |
      .resumeReplay .. | .resumeSkip .. | .resumeTrap .. | .snap .. | .topq .. =>
      s.after isl (halfTrip o.core) .systemUnitRequest [isl, id]
    | .mstart .. | .mstartV .. | .mstop .. | .mqry .. | .mqryClr .. => s.after isl 4 .mstartCheck [isl, o.core, o.place, id]
    | .cpy .. | .cpyb .. => (queue s true).afterOnce isl 1 .copyLineTransfer [isl, o.core]
    | .put .. | .get .. | .ratom .. | .rntfy .. | .coll .. => (queue s false).after isl 1 .fabricInject [isl, id]
    | _ => s

/-! ## Releases (R225, R251) -/

/-- Writes every L line of a core to its home, keeping clean copies: the push of a release. Answers the merges of the core that
the home has not performed, those of evictions and of other pushes among them (R225, R251). -/
def State.pushLines (s : State) (isl core op : Nat) : List Nat × State :=
  let ls := (((s.isl isl).core core).l1.filter fun p => p.2.st = .l).map (·.1)
  let s := ls.foldl (fun (s : State) ln => (s.cleanLine isl core ln 0 true op 0).2) s
  (((s.isl isl).reqs.filter fun p => p.2.core = core && match p.2.kind with | .merge _ => true | _ => false).map (·.1), s)

/-- Starts the operations a release held, up to the next that begins with a release. -/
def State.startHeld (s : State) (isl : Nat) (o : Op) : State :=
  let later := (s.isl isl).ops.filter fun p => sameAgent p.2 o && !p.2.released
  let next := match (s.isl isl).opGroup? o with
    | some g => match g.releasing with | r :: _ => some r | [] => none
    | none => none
  let s := later.foldl (fun s p =>
    match next with
    | some r => if p.1 < r then s.startOp isl p.1 else s
    | none => s.startOp isl p.1) s
  match next with
  | some r => s.afterOnce isl 0 .releaseWaitEnd [isl, o.core, r]
  | none => s

/-- A release goes as far as it can: the counter and the fences before it, the push, then its own write (R225). -/
def State.releaseStep (s : State) (isl id : Nat) : State :=
  match s.op? isl id with
  | none => s
  | some o =>
    match (s.isl isl).opGroup? o, releases o.instr with
    | some g, some sc =>
      if g.releasing.head? ≠ some id || g.unacked ≠ 0 || o.after.any (fun i => (s.op? isl i).isSome) || !o.pushes.isEmpty then s
      else
        let p : List Nat × State := if o.pushed || !(sc = .isl || sc = .sys) then ([], s) else s.pushLines isl o.core id
        let s := p.2.modOp isl id fun o => { o with pushed := true, pushes := p.1 }
        if !p.1.isEmpty then s
        else
          let s := s.onOpGroup isl o fun g => { g with releasing := g.releasing.filter fun i => i ≠ id }
          (s.startOp isl id).startHeld isl o
    | none, some _ => match o.agent with
      -- a core's own release (R93)
      | .unit _ => if o.pushes.isEmpty && !o.released then (s.modOp isl id fun o => { o with released := true }).startOp isl id else s
      | .group _ _ | .seq _ _ | .island => s
    | _, _ => s

/-! ## Launching an operation from an issue -/

/-- An operation of the issuing group. -/
def Env.op (e : Env) (i : Instr) (c : Ctl) : Op :=
  { agent := .group e.core e.gid, age := e.g.age, instr := i, cp := e.cp, issued := e.cyc, hy := e.g.hy, asid := e.wg.asid,
    priv := e.wg.priv, launch := e.wg.launch, place := e.g.place, flag := setFlag c, lanes := e.guard }

/-- Whether an operation is one of the fabric's that a release of `.sys` waits for (R258). -/
def sysAwaits (i : Instr) : Bool :=
  match i with
  | .put .. | .ratom .. | .rntfy .. => true
  | _ => false

/-- Enters an operation: its run sleeps where it blocks, an acquire holds later instructions (R252), a release of its
own or one before it comes first (R251). -/
def State.launchOp (s : State) (e : Env) (o : Op) : State :=
  let id := s.nextId
  let s := (s.newOp e.isl o).2
  let s := if blocks o.instr then
      s.onGroup e fun g => modThreads g e.run fun _ t => { t with cp := e.cp, stat := .blocked id }
    else s
  let s := match o.instr, acquires o.instr with
    | .ld .., some _ | .ldu .., some _ | .atom .., some _ | .cas .., some _ | .fence .., some _ | .ratom .., some _ =>
      s.onGroup e fun g => { g with acquiring := g.acquiring ++ [id] }
    | _, _ => s
  match (s.isl e.isl).opGroup? o with
  | none => s
  | some g =>
    match if o.performed then none else releases o.instr with
    | some sc =>
      let fab := if sc = .sys then ((s.isl e.isl).ops.filter fun p => sameAgent p.2 o && sysAwaits p.2.instr && p.1 ≠ id).map (·.1) else []
      let s := s.modOp e.isl id fun o => { o with released := false, after := g.qfencing ++ fab }
      (s.onGroup e fun g => { g with releasing := g.releasing ++ [id] }).releaseStep e.isl id
    | none =>
      if !g.releasing.isEmpty && heldByRelease o.instr then s.modOp e.isl id fun o => { o with released := false }
      else s.startOp e.isl id

/-! ## Forming the requests of an instruction (R234, R235) -/

/-- The address a lane forms (R17, R234); window registers are read at issue (R168). -/
def Env.addr (e : Env) (win : BitVec 2) (a : Opnd) (off : BitVec 10) (l : Nat) : VA :=
  let w : BitVec 8 := (tgetD e.g.aw win.toNat 0).setWidth 8
  w ++ (e.rd64 a l + off.signExtend 64)

/-- The faults of an access that need no translation (R234), and the place of a window access. -/
def placeAcc (x : Island) (core place : Nat) (i : Instr) (a : Acc) : Acc :=
  if inWindow a.va then
    match windowLoc x core place a.va with
    | none => { a with fault := some (BitVec.ofNat 8 cXlate) }
    | some l =>
      let beyond : Bool := match i, l with
        | .markEmpty .., .scr c p o | .markFull .., .scr c p o =>
          match x.wg? c p with
          | some w => decide (hdrScratchKib w.hdr * 8 < o / 128 + a.x.toNat)
          | none => true
        | _, _ => false
      if beyond then { a with fault := some (BitVec.ofNat 8 cXlate) }
      else if a.va.toNat % a.n ≠ 0 then { a with fault := some (BitVec.ofNat 8 cAlign) }
      else { a with loc := some l }
  else if a.va.toNat % a.n ≠ 0 then { a with fault := some (BitVec.ofNat 8 cAlign) }
  else a

/-- Puts an access into the request of its line, or into a new one. -/
def addAcc (one : Bool) : List Sub → Nat → Acc → List Sub
  | [], k, a => [{ key := k, accs := [a] }]
  | u :: r, k, a =>
    let same := match u.accs with
      | b :: _ => b.fault = a.fault && b.va.toNat / 128 = a.va.toNat / 128
      | [] => false
    if same && !one then { u with accs := u.accs ++ [a] } :: r else u :: addAcc one r (k + 1) a

/-- The requests of an instruction: one for each line (R235). A `MARK` makes one for each lane. -/
def formSubs (one : Bool) (accs : List Acc) : List Sub := accs.foldl (fun us a => addAcc one us 0 a) []

/-- Posts the faults found at the forming of addresses, one record for each code. -/
def State.postFormed (s : State) (isl id : Nat) (o : Op) (codes : List Nat) : State :=
  codes.foldl (fun s c =>
    let accs := o.subs.flatMap fun u => u.accs.filter fun a => a.fault = some (BitVec.ofNat 8 c)
    if accs.isEmpty then s else s.opFault isl id o c accs false) s

/-- Issues a memory instruction with the accesses its lanes form. -/
def memOp (i : Instr) (c : Ctl) (regs : List (Opnd × Bool)) (f : Env → List Acc) (s : State) :
    Host.Outcome State Fault Refusal :=
  issue i c regs noPre (fun e s =>
    let accs := (f e).map (placeAcc (s.isl e.isl) e.core e.g.place i)
    let one := match i with | .markEmpty .. | .markFull .. => true | _ => false
    let subs := formSubs one accs
    if subs.isEmpty && (releases i).isNone && (acquires i).isNone then s.flagNow e c
    else
      let o := { e.op i c with subs := subs }
      let id := s.nextId
      (s.launchOp e o).postFormed e.isl id o [cXlate, cAlign]) s

/-- The bytes an access of a type takes. -/
def tBytes (t : IType) : Nat := tWidth t / 8

def execLd (c : Ctl) (t : IType) (e : MemExt) (x a : Opnd) (off : BitVec 10) (s : State) : Host.Outcome State Fault Refusal :=
  memOp (.ld c t e x a off) c [(x, tWidth t = 64), (a, true)] (fun v =>
    (lanesOf v.guard).map fun l => { lane := l, va := v.addr e.win a off l, n := tBytes t }) s

def execSt (c : Ctl) (t : IType) (e : MemExt) (x a : Opnd) (off : BitVec 10) (s : State) : Host.Outcome State Fault Refusal :=
  memOp (.st c t e x a off) c [(x, tWidth t = 64), (a, true)] (fun v =>
    (lanesOf v.guard).map fun l =>
      { lane := l, va := v.addr e.win a off l, n := tBytes t, x := v.rdW (tWidth t = 64) x l }) s

/-- `LDU` (R236): one access, at the address of the lowest active lane where the guard holds. -/
def execLdu (c : Ctl) (t : IType) (e : MemExt) (x a : Opnd) (off : BitVec 10) (s : State) :
    Host.Outcome State Fault Refusal :=
  memOp (.ldu c t e x a off) c [(x, tWidth t = 64), (a, true)] (fun v =>
    (lowLane v.guard).toList.map fun l => { lane := l, va := v.addr e.win a off l, n := tBytes t }) s

def execAtom (c : Ctl) (op : AtomOp) (wide : Bool) (e : MemExt) (x a : Opnd) (off : BitVec 10) (s : State) :
    Host.Outcome State Fault Refusal :=
  memOp (.atom c op wide e x a off) c [(x, wide), (a, true)] (fun v =>
    (lanesOf v.guard).map fun l => { lane := l, va := v.addr e.win a off l, n := if wide then 8 else 4, x := v.rdW wide x l }) s

/-- The compare and new operands of `CAS` (R238): consecutive registers, or pairs of a register quad. -/
def casOperands (v : Env) (wide : Bool) (x : Opnd) (l : Nat) : DWord × DWord :=
  match x with
  | .vp k =>
    if wide then (v.rd64 (.vp k) l, v.rd64 (.vp (k + 2)) l)
    else ((v.rd32 (.v k) l).setWidth 64, (v.rd32 (.v (k + 1)) l).setWidth 64)
  | .o k => ((v.rd32 (.o k) l).setWidth 64, (v.rd32 (.o (k + 1)) l).setWidth 64)
  | .v _ | .s _ | .sr _ | .lt | .imm _ => (0, 0)

def execCas (c : Ctl) (wide : Bool) (e : MemExt) (x a : Opnd) (off : BitVec 10) (s : State) :
    Host.Outcome State Fault Refusal :=
  let quad : List (Opnd × Bool) := match x with | .vp k => if wide then [(.vp (k + 2), true)] else [] | _ => []
  memOp (.cas c wide e x a off) c ([(x, true), (a, true)] ++ quad) (fun v =>
    (lanesOf v.guard).map fun l =>
      let p := casOperands v wide x l
      { lane := l, va := v.addr e.win a off l, n := if wide then 8 else 4, x := p.1, y := p.2 }) s

/-- `FENCE` (R239) acts for the whole group, whatever the guard (R225). -/
def execFence (c : Ctl) (scope : Scope) (ord : MOrd) (s : State) : Host.Outcome State Fault Refusal :=
  memOp (.fence c scope ord) c [] (fun _ => []) s

/-- The count of `MARK`: an immediate is zero-extended (R232). -/
def markCount (v : Env) (x : Opnd) (l : Nat) : DWord :=
  match x with
  | .imm i => i.setWidth 64
  | .v _ | .vp _ | .s _ | .sr _ | .o _ | .lt => (v.rd32 x l).setWidth 64

def execMarkEmpty (c : Ctl) (win : BitVec 2) (pol : Policy) (x a : Opnd) (off : BitVec 10) (s : State) :
    Host.Outcome State Fault Refusal :=
  memOp (.markEmpty c win pol x a off) c [(x, false), (a, true)] (fun v =>
    (lanesOf v.guard).map fun l => { lane := l, va := v.addr win a off l, n := 1, x := markCount v x l }) s

def execMarkFull (c : Ctl) (win : BitVec 2) (pol : Policy) (x a : Opnd) (off : BitVec 10) (s : State) :
    Host.Outcome State Fault Refusal :=
  memOp (.markFull c win pol x a off) c [(x, false), (a, true)] (fun v =>
    (lanesOf v.guard).map fun l => { lane := l, va := v.addr win a off l, n := 1, x := markCount v x l }) s

def execWaita (c : Ctl) (t : IType) (ne : Bool) (win : BitVec 2) (pol : Policy) (x a : Opnd) (off : BitVec 10) (s : State) :
    Host.Outcome State Fault Refusal :=
  memOp (.waita c t ne win pol x a off) c [(x, false), (a, true)] (fun v =>
    (lanesOf v.guard).map fun l => { lane := l, va := v.addr win a off l, n := 4, x := (v.rd32 x l).setWidth 64 }) s

/-- `PREF` (R235, R242): its flag falls after 4 cycles, its fill goes on without it; a lane that would fault is dropped. -/
def execPref (c : Ctl) (win : BitVec 2) (pol : Policy) (a : Opnd) (off : BitVec 10) (s : State) :
    Host.Outcome State Fault Refusal :=
  let i : Instr := .pref c win pol a off
  issue i c [(a, true)] noPre (fun e s =>
    let accs := (lanesOf e.guard).map fun l =>
      placeAcc (s.isl e.isl) e.core e.g.place i { lane := l, va := e.addr win a off l, n := 1 }
    let subs := formSubs false (accs.filter fun a => a.fault.isNone)
    let s := s.onGroup e (e.done c 4)
    if subs.isEmpty then s else s.launchOp e { e.op i c with subs := subs, flag := none }) s

def execFlush (c : Ctl) (win : BitVec 2) (a : Opnd) (off : BitVec 10) (s : State) : Host.Outcome State Fault Refusal :=
  memOp (.flush c win a off) c [(a, true)] (fun v =>
    (lanesOf v.guard).map fun l => { lane := l, va := v.addr win a off l, n := 1 }) s

def execInvl (c : Ctl) (win : BitVec 2) (a : Opnd) (off : BitVec 10) (s : State) : Host.Outcome State Fault Refusal :=
  memOp (.invl c win a off) c [(a, true)] (fun v =>
    (lanesOf v.guard).map fun l => { lane := l, va := v.addr win a off l, n := 1 }) s

/-- The requests of `FLUSH.all` and `INVL.all`: every line of the L1 (R242). -/
def allLines (i : Instr) (c : Ctl) (s : State) : Host.Outcome State Fault Refusal :=
  issue i c [] noPre (fun e s =>
    let ls := (((s.isl e.isl).core e.core).l1.map (·.1))
    let subs := (List.range ls.length).map fun k => ({ key := k, accs := [{ loc := some (.line (ls.getD k 0) 0) }] } : Sub)
    if !e.any || subs.isEmpty then s.flagNow e c else s.launchOp e { e.op i c with subs := subs }) s

def execFlushAll (c : Ctl) (s : State) : Host.Outcome State Fault Refusal := allLines (.flushAll c) c s

def execInvlAll (c : Ctl) (s : State) : Host.Outcome State Fault Refusal := allLines (.invlAll c) c s

/-! ## Events -/

/-- A load's value returns (R236). -/
def execLoadValueReturn (s : State) : Host.Outcome State Fault Refusal :=
  event s fun as s => s.subDone (ar as 0) (ar as 2) (ar as 3)

/-- A write, or a merge pushed by a release, is acknowledged (R224, R225). -/
def execWriteAcknowledgement (s : State) : Host.Outcome State Fault Refusal :=
  event s fun as s =>
    let isl := ar as 0
    let id := ar as 2
    match s.op? isl id with
    | none => s
    | some o =>
      if o.pushes.contains (ar as 4) then
        (s.modOp isl id fun o => { o with pushes := o.pushes.filter fun i => i ≠ ar as 4 }).releaseStep isl id
      else s.subDone isl id (ar as 3)

/-- A release may go on (R225). -/
def execReleaseWaitEnd (s : State) : Host.Outcome State Fault Refusal :=
  event s fun as s => s.releaseStep (ar as 0) (ar as 2)

/-- The last invalidation an acquire waited for has been applied (R225, R252), or the load that a fence waited for has
completed, from which its acquire goes on (R254). -/
def execAcquireWaitEnd (s : State) : Host.Outcome State Fault Refusal :=
  event s fun as s =>
    match s.op? (ar as 0) (ar as 2) with
    | some o =>
      if isFence o.instr && !o.after.isEmpty then
        (s.modOp (ar as 0) (ar as 2) fun o => { o with after := [] }).acquireThenEnd (ar as 0) (ar as 2)
      else if o.drains.isEmpty then s.endOp (ar as 0) (ar as 2) else s
    | none => s

/-- Re-reads the unsatisfied lanes of a `WAITA` (R241). -/
def State.reread (s : State) (isl id : Nat) : State :=
  match s.op? isl id with
  | none => s
  | some o =>
    let s := s.modIsl isl fun x => x.modCore o.core fun k => { k with monitors := k.monitors.filter fun m => m.op ≠ id }
    o.subs.foldl (fun s u =>
      if (u.stage = .waiting || u.stage = .performed) && u.accs.any fun a => !a.done && a.fault.isNone then
        (s.modSub isl id u.key fun u => { u with stage := .waiting }).startSub isl id u.key
      else s) s

def execWaitaMonitorFire (s : State) : Host.Outcome State Fault Refusal :=
  event s fun as s => s.reread (ar as 0) (ar as 2)

def execWaitaPoll (s : State) : Host.Outcome State Fault Refusal :=
  event s fun as s => s.reread (ar as 0) (ar as 2)

/-- Ends a walk: its requests go on or fault, and the next walk of the half that waits begins (R384). -/
def State.endWalk (s : State) (isl w : Nat) (k : Walk) : State :=
  let s := s.modIsl isl fun x => { x with walks := tdel x.walks w }
  let x := s.isl isl
  match x.walkQueue.find? fun i => (tgetD x.walks i {}).half = k.half with
  | some i =>
    let n := tgetD x.walks i {}
    (s.modIsl isl fun x => { x with walkQueue := x.walkQueue.filter fun j => j ≠ i }).after isl (s.walkTime isl n.half n.asid n.va)
      .tableWalk [isl, i]
  | none => s

/-- A page walk (R383, R384): it installs the translation, or its requests take XLATE. A walk overtaken by a shootdown
starts again (R387); a write that must copy its page first waits for the copy (R393). -/
def execTableWalk (s : State) : Host.Outcome State Fault Refusal :=
  event s fun as s =>
    let isl := ar as 0
    let w := ar as 1
    match tget? (s.isl isl).walks w with
    | none => s
    | some k =>
      if k.stale then
        (s.modIsl isl fun x => { x with walks := tmod x.walks w fun k => { k with stale := false } }).after isl 1 .tableWalk [isl, w]
      else
        match (s.walkTouch isl k.asid k.va).walk isl k.asid k.va with
        | (.bad, s) =>
          let s := s.endWalk isl w k
          k.waiters.foldl (fun s p => s.faultSub isl p.1 p.2 cXlate true) s
        | (.leaf pte level _, s) =>
          let writes := k.waiters.any fun p => ((s.op? isl p.1).map fun o => isWrite o.instr && !(s.isl isl).audited o.core o.place).getD false
          if writes && (s.needsSnap isl k.asid k.va pte level).isSome then s.after isl 1 .snapshotPageCopy [isl, w]
          else
            let s := s.endWalk isl w k
            let t : Tlbe := { asid := k.asid, va := k.va, level := level, pte := BitVec.ofNat 64 pte }
            let s := k.waiters.foldl (fun s p => match s.op? isl p.1 with
              | some o => s.modIsl isl fun x => x.tlbInstall o.core t
              | none => s) s
            k.waiters.foldl (fun s p => s.startSub isl p.1 p.2) s

/-- A page is copied to the snapshot pool before its first write (R393); then the walk starts again. -/
def execSnapshotPageCopy (s : State) : Host.Outcome State Fault Refusal :=
  event s fun as s =>
    let isl := ar as 0
    let w := ar as 1
    match tget? (s.isl isl).walks w with
    | none => s
    | some k =>
      match s.walk isl k.asid k.va with
      | (.bad, s) => s.after isl 1 .tableWalk [isl, w]
      | (.leaf pte level ea, s) =>
        let s := match s.needsSnap isl k.asid k.va pte level with
          | some key => s.snapPage isl key k.asid pte level ea
          | none => s
        s.after isl 1 .tableWalk [isl, w]

/-- POISON is consumed (R227): the record is posted and the launch is rolled back (R394). -/
def execPoisonConsumption (s : State) : Host.Outcome State Fault Refusal :=
  event s fun as s =>
    let isl := ar as 0
    let l := tgetD s.launches (ar as 4) {}
    let r : RecArgs :=
      { code := 0x30, info := BitVec.ofNat 64 (ar as 7 / 128 * 128), addr := BitVec.ofNat 72 (ar as 7), launch := ar as 4,
        asid := l.asid, agent := agentWord (ar as 2) (ar as 1) (ar as 3), source := ar as 2, cp := BitVec.ofNat 32 (ar as 5),
        lanes := BitVec.ofNat 64 (ar as 6) }
    (s.post isl { bits := recordBits r }).after isl 1 .launchRollback [ar as 4]

end Sys2Proof.Machine
end

