-- ==== Sys2Proof/Machine/Coherence.lean ====
section
/-! DEFINITION. The steps of the coherence machinery: the home's service of requests one line at a time (R219, R434),
messages and their times (R435), invalidations (R222), grants, tagged writes (R266, R269), and the loss of a half or of a
flit (R228, R229). -/

namespace Sys2Proof.Machine

/-! ## Performing at the home (R223, R238, R266) -/

/-- Adds bytes to a version, allocating it (R265, R266). -/
def putVersion (vs : List Version) (ln : Nat) (g : BitVec 8) (data : Line) (m : ByteMask) : List Version :=
  if vs.any fun v => v.line = ln && v.tag == g then
    vs.map fun v => if v.line = ln && v.tag == g then { v with data := lineMerge v.data data m, mask := v.mask ||| m } else v
  else vs ++ [{ line := ln, tag := g, data := lineMerge 0 data m, mask := m }]

/-- Performs the access of a far or tagged request at the home; answers the line as written and the bytes written. -/
def State.performHome (s : State) (isl : Nat) (r : Req) : (Line × ByteMask) × State :=
  match s.op? isl r.op with
  | none => ((0, 0), s)
  | some o =>
    match o.subs.find? fun u => u.key = r.sub with
    | none => ((0, 0), s)
    | some u =>
      let x := s.isl isl
      let base := x.chainView r.line r.tag
      let q : Line × ByteMask × List Acc := match o.instr with
        | .pref .. => (base, 0, u.accs)
        | _ => performLine o.instr base 0 u.accs
      let s := if (x.hline r.line).poison && accReads o.instr then s.poisoned isl o u.accs else s
      let s := s.sigOnLine isl o u.accs q.1 q.2.1
      let s : State :=
        if q.2.1 = 0 then s
        else if r.tag = 0 then s.homeWrite isl r.line q.1 q.2.1 false o.launch
        else (s.modIsl isl fun x => { x with versions := putVersion x.versions r.line r.tag q.1 q.2.1 }).trimSlice isl r.line
      let s := s.modSub isl r.op r.sub fun u => { u with stage := .performed, accs := q.2.2 }
      ((q.1, q.2.1), (s.uncountFailed isl r.op r.sub o (q.2.1 ≠ 0)).waitaAfter isl r.op r.sub o)

/-! ## The end of a request's service -/

/-- The line returns to ST: the head of the queue is taken one cycle later (R435). -/
def State.homeIdle (s : State) (isl ln d : Nat) : State :=
  let s := s.modIsl isl fun x => x.modH ln fun h => { h with txn := none }
  let h := (s.isl isl).hline ln
  match h.queue with
  | q :: _ =>
    if h.held then s
    else match tget? (s.isl isl).reqs q with
      | some r => s.after isl (d + 1) (reqRow r.kind) [isl, q]
      | none => s
  | [] => s

/-- Refuses a tagged write for capacity: the answer leaves the home `d` cycles from now (R269). -/
def State.refuseTagged (s : State) (isl id d : Nat) (r : Req) : State :=
  (s.modReq isl id fun r => { r with granted := true }).after isl (d + hop r.core (sliceOf r.line)) .taggedWriteRefusal [isl, id]

/-- The version area of a line's slice has no room for a new version of it (R265, R269). -/
def Island.versionFull (x : Island) (ln : Nat) (g : BitVec 8) : Bool :=
  !(x.versions.any fun v => v.line = ln && v.tag == g) &&
    Config.versionLines ≤ (x.versions.filter fun v => sliceOf v.line = sliceOf ln).length

/-- Serves a request whose recall or forward has ended: the grant leaves the home `d` cycles from now. `data` is the
owner's answer to a forwarded read. -/
def State.finishHome (s : State) (isl id d : Nat) (data : Option (Line × Bool)) : State :=
  match tget? (s.isl isl).reqs id with
  | none => s
  | some r =>
    let x := s.isl isl
    let h := x.hline r.line
    let k := clusterOf r.core
    let bit : BitVec 32 := 1#32 <<< k
    let needsData := match r.kind with
      | .upgrade | .farWrite | .tagged => false
      | _ => data.isNone
    let stores := match (s.op? isl r.op).map (·.instr) with
      | some (.st ..) => true
      | _ => false
    if needsData && !h.inSlice && r.line < sliceLine0 && !stores then
      -- a slice miss: the data comes from HBM; a store is acknowledged as at the home slice (R244)
      let s := s.modIsl isl fun x =>
        { x.modH r.line fun h => { h with inSlice := true, txn := some { req := id, phase := .invals } } with refresh := [] }
      s.after isl (d + (Config.latHbm - 2 * hop r.core (sliceOf r.line))) (reqRow r.kind) [isl, id]
    else
      let vf := !x.hasVersion r.line
      let base := match data with
        | some p => p
        | none => (x.homeData r.line, h.poison)
      let give (s : State) (f : Req → Req) (g : HLine → HLine) : State :=
        (((s.modReq isl id fun r => { f r with granted := true }).modIsl isl fun x =>
            x.modH r.line fun h => { g h with inSlice := h.inSlice || needsData }).trimSlice isl r.line).after isl
          (d + hop r.core (sliceOf r.line)) .grantArrival [isl, id]
      let tagged := match r.kind with | .tagged | .taggedAtom => true | _ => false
      let s : State := match r.kind with
        | .read =>
          let alone := x.bitmap r.line = 0 && x.lhints r.line = 0 && (x.inFlight r.line).isEmpty && h.owner.isNone
          let st : LineSt := if alone && !r.forL then .e else .s
          give s (fun r => { r with grant := st, data := base.1, poison := base.2, vf := vf })
            (fun h => { h with clusters := h.clusters ||| bit, owner := if st = .e then some (r.core, .e) else h.owner })
        | .view =>
          give s (fun r => { r with grant := .s, data := x.chainView r.line r.tag, poison := h.poison,
                                    view := if vf then 0 else r.tag, vf := vf })
            (fun h => { h with clusters := h.clusters ||| bit })
        | .fetch => give s (fun r => r) (fun h => h)
        | .readEx | .upgrade =>
          give s (fun r => { r with grant := .m, data := base.1, poison := base.2, vf := vf,
                                    withData := match r.kind with | .upgrade => false | _ => true })
            (fun h => { h with clusters := bit, lhint := 0, owner := some (r.core, .m) })
        | .farRead | .farWrite | .farAtom | .tagged | .taggedAtom | .writeBack _ | .merge _ =>
          -- the version area may have filled since the request was taken (R265, R269)
          if tagged && x.versionFull r.line r.tag then s.refuseTagged isl id d r
          else
          let p := s.performHome isl r
          give p.2 (fun r => { r with data := p.1.1, mask := p.1.2 }) (fun h => { h with inSlice := true })
      s.homeIdle isl r.line d

/-! ## Recalls (R219) -/

/-- An upgrade whose copy is gone becomes read-exclusive; what it said of the copy's dirty bytes no longer holds: they have
been taken home with the copy (R219, R434). -/
def Req.converted (r : Req) : Req := { r with kind := .readEx, data := 0, mask := 0 }

/-- Upgrades of cores whose copies are invalidated become read-exclusive (R219). -/
def State.convertUpgrades (s : State) (isl ln : Nat) (cores : List Nat) : State :=
  s.modIsl isl fun x => { x with reqs := tmap x.reqs fun _ r =>
    if r.line = ln && cores.contains r.core && !r.granted && (match r.kind with | .upgrade => true | _ => false) then
      r.converted else r }

/-- The last phase of a recall: every other copy is invalidated. -/
def State.invalPhase (s : State) (isl id d : Nat) : State :=
  match tget? (s.isl isl).reqs id with
  | none => s
  | some r =>
    let x := s.isl isl
    let keeps (c : Nat) : Bool := match r.kind with
      | .readEx | .upgrade => c = r.core
      | .tagged | .taggedAtom => c = r.core && (x.l1? c r.line).any fun a => a.view = r.tag
      | _ => false
    let cores := ((List.range 32).flatMap fun k => x.holders k r.line) ++ x.inFlight r.line
    let cores := (cores.eraseDups).filter fun c => !keeps c
    let p := s.sendInvs isl 1 r.line false false (if keeps r.core then some r.core else none) cores
    let s := p.2.convertUpgrades isl r.line cores
    let s := s.modIsl isl fun x => x.modH r.line fun h => { h with clusters := 0, lhint := 0 }
    let s := if keeps r.core then s.modIsl isl fun x => x.modH r.line fun h => { h with clusters := 1#32 <<< clusterOf r.core } else s
    if p.1.isEmpty then s.finishHome isl id d none
    else s.modIsl isl fun x => x.modH r.line fun h => { h with txn := some { req := id, phase := .invals, acks := p.1 } }

/-- Asks the owner for its data: a forwarded read, or the recall of its copy. -/
def State.ownerPhase (s : State) (isl id d : Nat) : State :=
  match tget? (s.isl isl).reqs id with
  | none => s
  | some r =>
    let recalls := match r.kind with
      | .read | .view | .farRead | .fetch => false
      | _ => true
    match ((s.isl isl).hline r.line).owner with
    | some (o, _) =>
      if o = r.core && !(match r.kind with | .farRead | .farWrite | .farAtom | .tagged | .taggedAtom | .view => true | _ => false) then
        let s := s.modIsl isl fun x => x.modH r.line fun h => { h with owner := none }
        if recalls then s.invalPhase isl id d else s.finishHome isl id d none
      else
        let s := s.modIsl isl fun x => x.modH r.line fun h => { h with txn := some { req := id, phase := .owner, target := o } }
        s.after isl (1 + hop o (sliceOf r.line)) .forwardedRead [isl, id]
    | none => if recalls then s.invalPhase isl id d else s.finishHome isl id d none

/-- The first phase of a recall: every L copy of the line is forced to merge. -/
def State.mergePhase (s : State) (isl id d : Nat) : State :=
  match tget? (s.isl isl).reqs id with
  | none => s
  | some r =>
    -- an upgrade from O brings the dirty bytes that its core owes (R219)
    let s := if r.mask ≠ 0 && ((s.isl isl).hline r.line).owner.any (fun p => p.1 = r.core) then
        (s.homeWrite isl r.line r.data r.mask r.poison r.launch).modIsl isl fun x => x.modH r.line fun h => { h with owner := none }
      else s
    let x := s.isl isl
    let merging (k : Nat) : Bool := x.reqs.any fun p => p.2.line = r.line && clusterOf p.2.core = k &&
      !p.2.granted && match p.2.kind with | .merge _ => true | _ => false
    let ks := (List.range 32).filter fun k =>
      (x.hline r.line).lhint.getLsbD k || (x.filter k r.line).lrank.isSome || merging k
    let cores := ks.map fun k => 4 * k + (x.filter k r.line).lrank.getD 0
    let p := s.sendInvs isl 1 r.line false true none cores
    if p.1.isEmpty then p.2.ownerPhase isl id d
    else p.2.modIsl isl fun x => x.modH r.line fun h => { h with txn := some { req := id, phase := .merges, merges := p.1 } }

/-! ## The arrival of requests -/

/-- Whether a hypothesis lies in a subtree that is being refuted (R274). -/
def Island.refuting (x : Island) (g : BitVec 8) : Bool :=
  (x.resolve.toList ++ x.resolveQ).any fun v => !v.confirm && (chainOf x.hyps 9 g.toNat).contains v.id.toNat

/-- Takes a request into service. -/
def State.serveHome (s : State) (isl id d : Nat) : State :=
  match tget? (s.isl isl).reqs id with
  | none => s
  | some r =>
    let x := s.isl isl
    match r.kind with
    | .read | .view | .farRead => s.ownerPhase isl id d
    | .fetch => s.finishHome isl id d none
    | .tagged | .taggedAtom =>
      if x.refuting r.tag then
        -- dropped and acknowledged as performed (R274)
        let s := s.modSub isl r.op r.sub fun u => { u with stage := .performed, accs := u.accs.map fun a => { a with done := true } }
        ((s.modReq isl id fun r => { r with granted := true, mask := 0 }).after isl (d + hop r.core (sliceOf r.line))
          .grantArrival [isl, id]).homeIdle isl r.line d
      else if x.versionFull r.line r.tag then
        (s.refuseTagged isl id d r).homeIdle isl r.line d
      else s.mergePhase isl id d
    | .readEx | .upgrade | .farWrite | .farAtom => s.mergePhase isl id d
    | .writeBack _ | .merge _ => s

/-- Whether an upgrade's copy is gone (R219, R434): a peer of its cluster that took the line leaves the cluster's bit set, so
the copy itself is looked for too. -/
def Island.copyGone (x : Island) (r : Req) : Bool :=
  !((x.l1? r.core r.line).any fun a => a.view = 0) || !(x.hline r.line).clusters.getLsbD (clusterOf r.core) ||
    x.invs.any fun p => p.2.line = r.line && p.2.core = r.core && !p.2.acked && !p.2.viewOnly

/-- A message finds its slice in retention sleep: it is taken again when the slice has woken, 2,000 cycles on (R428). -/
def State.wakeFirst (s : State) (isl id : Nat) (r : Req) : State :=
  (s.afterOnce isl 2000 .sliceWake [isl, sliceOf r.line]).after isl 2000 (reqRow r.kind) [isl, id]

/-- A request arrives at its home, or is taken from the queue (R219, R434). A slice in retention sleep is woken first
(R428). -/
def State.arriveHome (s : State) (isl id : Nat) : State :=
  match tget? (s.isl isl).reqs id with
  | none => s
  | some r =>
    let x := s.isl isl
    let sl := sliceOf r.line
    if x.asleep.contains sl then s.wakeFirst isl id r
    else
      let s := s.useSlice isl sl
      let s := match r.kind with
        | .upgrade => if x.copyGone r then s.modReq isl id Req.converted else s
        | _ => s
      let h := x.hline r.line
      if r.granted then s
      else if h.txn.any fun t => t.req = id then s.finishHome isl id 0 none
      else if h.txn.isSome || h.held || (!h.queue.isEmpty && h.queue.head? ≠ some id) then
        if h.queue.contains id then s else s.modIsl isl fun x => x.modH r.line fun h => { h with queue := h.queue ++ [id] }
      else
        let s' := s.modIsl isl fun x => x.modH r.line fun h => { h with queue := h.queue.filter fun i => i ≠ id }
        s'.serveHome isl id (if h.queue.contains id then 1 else 0)

def execHomeRead (s : State) : Host.Outcome State Fault Refusal := event s fun as s => s.arriveHome (ar as 0) (ar as 1)

def execHomeReadExclusive (s : State) : Host.Outcome State Fault Refusal :=
  event s fun as s => s.arriveHome (ar as 0) (ar as 1)

def execHomeUpgrade (s : State) : Host.Outcome State Fault Refusal := event s fun as s => s.arriveHome (ar as 0) (ar as 1)

/-- A tagged write reaches the home (R266). -/
def execTaggedWrite (s : State) : Host.Outcome State Fault Refusal := event s fun as s => s.arriveHome (ar as 0) (ar as 1)

/-! ## Owners' answers, write-backs and merges -/

/-- The wait for an owner ends with the home copy as it stands (R434). -/
def State.ownerDone (s : State) (isl ln : Nat) (data : Option (Line × Bool)) : State :=
  match ((s.isl isl).hline ln).txn with
  | some t =>
    match tget? (s.isl isl).reqs t.req with
    | some r =>
      match r.kind with
      | .read | .view | .farRead | .fetch => s.finishHome isl t.req 1 data
      | _ => s.invalPhase isl t.req 1
    | none => s.homeIdle isl ln 1
  | none => s

/-- A cluster leaves a line's bitmap when its filter holds no copy and none is on its way. -/
def Island.dropBit (x : Island) (ln core : Nat) : Island :=
  let k := clusterOf core
  if (x.filter k ln).mask = 0 && (x.inFlight ln).all fun c => clusterOf c ≠ k then
    x.modH ln fun h => { h with clusters := h.clusters &&& ~~~(1#32 <<< k) }
  else x

/-- Acknowledges a write-back or a merge to the operation that sent it, and to every release that waits for it (R225,
R251). -/
def State.ackBack (s : State) (isl id d : Nat) (r : Req) : State :=
  let s := s.delReq isl id
  let ack (s : State) (op sub : Nat) : State :=
    s.after isl (d + hop r.core (sliceOf r.line)) .writeAcknowledgement [isl, r.core, op, sub, id]
  let s := if r.op = 0 then s else ack s r.op r.sub
  ((s.isl isl).ops.filter fun p => p.1 ≠ r.op && p.2.pushes.contains id).foldl (fun (s : State) p => ack s p.1 0) s

/-- A write-back, or an owner's data in answer to a forwarded read or a recall (R219, R434). -/
def execHomeWriteBack (s : State) : Host.Outcome State Fault Refusal :=
  event s fun as s =>
    let isl := ar as 0
    let id := ar as 1
    match tget? (s.isl isl).reqs id with
    | none => s
    | some r =>
      if (s.isl isl).asleep.contains (sliceOf r.line) then s.wakeFirst isl id r
      else
      let s := s.useSlice isl (sliceOf r.line)
      let keep := match r.kind with | .writeBack k => k | _ => false
      match r.ans with
      | some q =>
        let s := s.delReq isl id
        let fwd := match tget? (s.isl isl).reqs q with
          | some v => (match v.kind with | .read => true | _ => false)
          | none => false
        if fwd then
          let s := s.modIsl isl fun x => x.modH r.line fun h => { h with owner := r.stays.map fun st => (r.core, st) }
          s.ownerDone isl r.line (some (r.data, r.poison))
        else
          let s := s.homeWrite isl r.line r.data r.mask r.poison r.launch
          let s := s.modIsl isl fun x => (x.modH r.line fun h => { h with owner := none }).dropBit r.line r.core
          s.ownerDone isl r.line none
      | none =>
        let s := s.homeWrite isl r.line r.data r.mask r.poison r.launch
        let h := (s.isl isl).hline r.line
        let s := if h.owner.any fun p => p.1 = r.core then
            s.modIsl isl fun x => x.modH r.line fun h => { h with owner := none } else s
        let s := s.ackBack isl id 1 r
        let s := if keep then s else s.modIsl isl fun x => x.dropBit r.line r.core
        match h.txn with
        | some t =>
          if t.target ≠ r.core then s
          else match t.phase with
            | .owner => s.modIsl isl fun x => x.modH r.line fun h => { h with txn := some { t with wbSeen := true } }
            | .writeBack => s.ownerDone isl r.line none
            | .merges | .invals => s
        | none => s

/-- An owner in O, or its write-back on its way, is taken home before a merge overwrites its bytes: its writes come
earlier in the home order (R249). -/
def State.takeOwner (s : State) (isl ln : Nat) : State :=
  match ((s.isl isl).hline ln).owner with
  | none => s
  | some (o, _) =>
    let s : State := match (s.isl isl).l1? o ln with
      | some a =>
        if a.st = LineSt.m || a.st = LineSt.o then
          (s.homeWrite isl ln a.data a.dirty a.poison a.launch).modIsl isl fun x =>
            (x.setL1 o ln (some { a with st := .s, dirty := 0 })).modH ln fun h => { h with owner := none }
        else s
      | none => s
    (s.isl isl).reqs.foldl (fun (s : State) (p : Nat × Req) =>
      if p.2.line = ln && p.2.core = o && p.2.ans.isNone && (match p.2.kind with | .writeBack _ => true | _ => false) then
        (s.homeWrite isl ln p.2.data p.2.mask p.2.poison p.2.launch).modReq isl p.1 fun r => { r with mask := 0 }
      else s) s

/-- A merge is performed at the home: its bytes are written, then every other cluster is invalidated (R219, R220). -/
def execHomeMerge (s : State) : Host.Outcome State Fault Refusal :=
  event s fun as s =>
    let isl := ar as 0
    let id := ar as 1
    match tget? (s.isl isl).reqs id with
    | none => s
    | some r =>
      if (s.isl isl).asleep.contains (sliceOf r.line) then s.wakeFirst isl id r
      else
      let s := s.useSlice isl (sliceOf r.line)
      let ln := r.line
      let k := clusterOf r.core
      let keep := match r.kind with | .merge k => k | _ => false
      -- a merge is no write of island reach: it never clears the line's poison (R227)
      let s := if r.mask = 0 then s
        else (s.takeOwner isl ln).homeWrite isl ln r.data r.mask (r.poison || ((s.isl isl).hline ln).poison) r.launch
      let s := s.modIsl isl fun x => x.modH ln fun h => { h with lhint := h.lhint &&& ~~~(1#32 <<< k) }
      let s := if keep then s else s.modIsl isl fun x => x.dropBit ln r.core
      let x := s.isl isl
      let t := (x.hline ln).txn
      let forced := r.inv.isSome && t.any fun t => t.merges.contains (r.inv.getD 0) || t.acks.contains (r.inv.getD 0)
      -- a grant of a copy of the merging cluster that left before the merge
      let late := (x.reqs.filter fun p => p.2.line = ln && p.2.granted && p.2.core ≠ r.core && clusterOf p.2.core = k &&
        match p.2.kind with | .read | .view => true | _ => false).map fun p => p.2.core
      let all := (((List.range 32).flatMap fun j => x.holders j ln) ++ x.inFlight ln).eraseDups
      let others := all.filter fun c => clusterOf c ≠ k
      let viewing (c : Nat) : Bool := x.reqs.any fun p => p.2.line = ln && p.2.core = c && p.2.granted && p.2.view ≠ 0
      let views := all.filter fun c => clusterOf c = k && (((x.l1? c ln).any fun a => a.view ≠ 0) || viewing c)
      if r.mask = 0 && !forced then s.ackBack isl id 1 r
      else if forced then
        -- a forced merge of a recall, whose last phase invalidates the other copies
        let s := if r.mask = 0 then s else s.convertUpgrades isl ln ((List.range 128).filter fun c => clusterOf c ≠ k)
        let s := s.ackBack isl id 1 r
        let s := s.modIsl isl fun x => { x with invs := tdel x.invs (r.inv.getD 0) }
        match t with
        | some t =>
          let left := t.merges.filter fun i => some i ≠ r.inv
          let acks := t.acks.filter fun i => some i ≠ r.inv
          let s := s.modIsl isl fun x => x.modH ln fun h => { h with txn := some { t with merges := left, acks := acks } }
          if left.isEmpty && t.phase = .merges then s.ownerPhase isl t.req 1
          else if acks.isEmpty && t.phase = .invals then s.finishHome isl t.req 1 none else s
        | none => s
      else
        let p := s.sendInvs isl 1 ln false false none others
        let q := p.2.sendInvs isl 1 ln true false none views
        let l := q.2.sendInvs isl 1 ln false false none late
        let s := l.2.convertUpgrades isl ln others
        let s := s.modIsl isl fun x => x.modH ln fun h => { h with clusters := h.clusters &&& (1#32 <<< k) }
        let waits := p.1 ++ q.1 ++ l.1
        if waits.isEmpty then s.ackBack isl id 1 r
        else s.modReq isl id fun r => { r with waits := waits, mask := 0, granted := true }

/-- A forwarded read, or a recall, reaches the owner (R219). -/
def execForwardedRead (s : State) : Host.Outcome State Fault Refusal :=
  event s fun as s =>
    let isl := ar as 0
    let q := ar as 1
    match tget? (s.isl isl).reqs q with
    | none => s
    | some v =>
      let ln := v.line
      match ((s.isl isl).hline ln).txn with
      | none => s
      | some t =>
        let c := t.target
        let none' (s : State) : State := s.after isl (1 + hop c (sliceOf ln)) .noCopyAnswer [isl, q]
        let answer (s : State) (a : L1Line) (stays : Option OwnSt) : State :=
          (s.sendHome isl 1 { kind := .writeBack false, core := c, line := ln, data := a.data, mask := a.dirty,
                              poison := a.poison, ans := some q, stays := stays, launch := a.launch }).2
        let reads := match v.kind with | .read => true | _ => false
        match (s.isl isl).l1? c ln with
        | none => none' s
        | some a =>
          if a.view ≠ 0 || a.st = .l then none' s
          else if reads then
            match a.st with
            | .m | .o => answer (s.modIsl isl fun x => x.setL1 c ln (some { a with st := .o })) a (some .o)
            | .e | .s | .l => answer (s.modIsl isl fun x => x.setL1 c ln (some { a with st := .s })) a none
          else
            match a.st with
            | .m | .o | .e =>
              answer ((s.modIsl isl fun x => x.setL1 c ln none).fireMonitors isl c (.line ln 0)) a none
            | .s | .l => answer s { a with dirty := 0 } none

/-- The owner had no copy any more (R219, R434). -/
def execNoCopyAnswer (s : State) : Host.Outcome State Fault Refusal :=
  event s fun as s =>
    let isl := ar as 0
    match tget? (s.isl isl).reqs (ar as 1) with
    | none => s
    | some r =>
      match ((s.isl isl).hline r.line).txn with
      | some t =>
        if t.req ≠ ar as 1 || t.phase ≠ .owner then s
        else if t.wbSeen then s.ownerDone isl r.line none
        else if !((s.isl isl).reqs.any fun p => p.2.core = t.target && p.2.ans.isNone && p.2.back r.line) then
          -- the owner gave up a clean copy without a word, after a peer's read had made it S (R218)
          (s.modIsl isl fun x => x.modH r.line fun h => { h with owner := none }).ownerDone isl r.line none
        else s.modIsl isl fun x => x.modH r.line fun h => { h with txn := some { t with phase := .writeBack } }
      | none => s

/-- A cluster tells the home that a line has entered L (R215). -/
def execLNotice (s : State) : Host.Outcome State Fault Refusal :=
  event s fun as s => s.modIsl (ar as 0) fun x =>
    if (x.filter (ar as 1) (ar as 2)).lrank.isSome then
      x.modH (ar as 2) fun h => { h with lhint := h.lhint ||| (1#32 <<< ar as 1) } else x

/-! ## Invalidations (R222, R246) -/

/-- Where an invalidation goes in its cluster: the filter passes one that a recall waits for to the core that holds the line
in L now, another to the core it was sent to (R215, R217). -/
def Island.invTarget (x : Island) (id : Nat) (v : Inv) (awaited : Bool) : Nat :=
  match (x.filter (clusterOf v.core) v.line).lrank with
  | some r =>
    let c := 4 * clusterOf v.core + r
    let other := x.invs.any fun p => p.1 ≠ id && p.2.core = c && p.2.line = v.line && !p.2.arrived
    if !v.viewOnly && (v.force || awaited) && !other then c else v.core
  | none => v.core

/-- The cores of an invalidation's cluster to which the filter passes it on: they took their copies from a peer after it had
left the home (R215, R218). -/
def Island.followers (x : Island) (v : Inv) : List Nat :=
  (x.peers v.core v.line).filter fun c => v.spare ≠ some c && !x.invPending c v.line

/-- An invalidation enters a core's queue and is acknowledged one cycle later; it is applied within 256 cycles. One that a
recall waits for and that meets the line in L is answered by the merge it forces (R220, R221). -/
def execInvalidationArrival (s : State) : Host.Outcome State Fault Refusal :=
  event s fun as s =>
    let isl := ar as 0
    let id := ar as 1
    match tget? (s.isl isl).invs id with
    | none => s
    | some v =>
      let x := s.isl isl
      let awaited := (x.hline v.line).txn.any fun t => t.acks.contains id
      let core := x.invTarget id v awaited
      let merges := awaited && (x.l1? core v.line).any fun a => a.st = .l
      let v' := { v with core := core, force := v.force || merges }
      let s := (s.modIsl isl fun x => { x with invs := tput x.invs id v' }).queueInv isl id core
      let s := if merges then s else s.after isl (1 + hop v.core (sliceOf v.line)) .invalidationAckArrival [isl, id]
      if v'.force then s
      else (x.followers v').foldl (fun (s : State) c =>
        let n := s.nextId
        ({ s with nextId := n + 1 }.modIsl isl fun x =>
          { x with invs := tput x.invs n { line := v.line, core := c, viewOnly := v.viewOnly, acked := true } }).queueInv isl n c) s

/-- The queue is applied in order, up to an entry. -/
def execInvalidationApply (s : State) : Host.Outcome State Fault Refusal :=
  event s fun as s =>
    let isl := ar as 0
    let q := ((s.isl isl).core (ar as 1)).pinv
    if q.contains (ar as 2) then
      (q.takeWhile (fun i => i ≠ ar as 2) ++ [ar as 2]).foldl (fun s i => s.applyInv isl i) s
    else s

/-- An acknowledgement reaches the home. -/
def execInvalidationAckArrival (s : State) : Host.Outcome State Fault Refusal :=
  event s fun as s =>
    let isl := ar as 0
    let id := ar as 1
    match tget? (s.isl isl).invs id with
    | none => s
    | some v =>
      let s := s.modIsl isl fun x =>
        { x with invs := if v.arrived then tdel x.invs id else tmod x.invs id fun v => { v with acked := true } }
      -- merges that wait for it
      let s := (s.isl isl).reqs.foldl (fun s p =>
        if p.2.waits.contains id then
          let left := p.2.waits.filter fun i => i ≠ id
          if left.isEmpty then s.ackBack isl p.1 1 p.2 else s.modReq isl p.1 fun r => { r with waits := left }
        else s) s
      match ((s.isl isl).hline v.line).txn with
      | some t =>
        if !t.acks.contains id then s
        else
          let left := t.acks.filter fun i => i ≠ id
          let s := s.modIsl isl fun x => x.modH v.line fun h => { h with txn := some { t with acks := left } }
          if left.isEmpty && t.phase = .invals then s.finishHome isl t.req 1 none else s
      | none => s

/-! ## Grants -/

/-- A grant, or the answer of an access performed at the home, reaches the core (R219, R435). -/
def execGrantArrival (s : State) : Host.Outcome State Fault Refusal :=
  event s fun as s =>
    let isl := ar as 0
    let id := ar as 1
    match tget? (s.isl isl).reqs id with
    | none => s
    | some r =>
      let s := s.delReq isl id
      let prot := match s.op? isl r.op with
        | some o => ((s.isl isl).opGroup? o).any fun g => g.urgent
        | none => false
      match r.kind with
      | .read | .view | .readEx | .upgrade =>
        let s := s.drainFor isl r.core r.line
        let done (s : State) : State := match s.op? isl r.op with
          | some o => (match o.instr with
            | .pref .. => (s.modSub isl r.op r.sub fun u => { u with stage := .done }).opCheck isl r.op
            | _ => s)
          | none => s
        -- a view of a hypothesis that has been resolved since is not kept: the reads that wait ask again (R268, R276)
        if r.stale then (done s).kick isl r.core r.line
        else
        let own := (s.isl isl).l1? r.core r.line
        let keeps := !r.withData && own.any fun a => a.view = 0
        let a : L1Line := match own with
          | some a => if keeps then { a with st := .m, vf := r.vf } else { st := r.grant, data := r.data, poison := r.poison, view := r.view, vf := r.vf }
          | none => { st := r.grant, data := r.data, poison := r.poison, view := r.view, vf := r.vf }
        -- a peer that has taken the line in L since the grant left supplies its own bytes (R218, R247)
        let a : L1Line := match r.kind, ((s.isl isl).peers r.core r.line).findSome? fun c =>
            ((s.isl isl).l1? c r.line).filter fun b => b.st = .l with
          | .read, some b => { st := .s, data := b.data, poison := b.poison, vf := b.vf }
          | _, _ => a
        (done (s.fill isl r.core r.line a r.once prot)).kick isl r.core r.line
      | .fetch => ((s.modSub isl r.op r.sub fun u => { u with stage := .done }).opCheck isl r.op).kick isl r.core r.line
      | .farRead | .farWrite | .farAtom | .tagged | .taggedAtom | .writeBack _ | .merge _ =>
        let s : State := match r.kind, (s.isl isl).l1? r.core r.line with
          | .tagged, some a | .taggedAtom, some a =>
            if a.view = r.tag && r.mask ≠ 0 then
              (s.modIsl isl fun x => x.setL1 r.core r.line (some { a with data := lineMerge a.data r.data r.mask })).fireMonitors
                isl r.core (.line r.line 0)
            else s
          | _, _ => s
        (s.subDone isl r.op r.sub).kick isl r.core r.line

/-- A tagged write was refused for capacity (R269): it counts as acknowledged, its lanes take HYP_FULL at their next
issue. -/
def execTaggedWriteRefusal (s : State) : Host.Outcome State Fault Refusal :=
  event s fun as s =>
    let isl := ar as 0
    match tget? (s.isl isl).reqs (ar as 1) with
    | none => s
    | some r =>
      let s := s.delReq isl (ar as 1)
      match s.op? isl r.op with
      | none => s
      | some o =>
        let accs := (o.subs.filter fun u => u.key = r.sub).flatMap (·.accs)
        let s := s.onOpGroup isl o fun g => accs.foldl (fun (g : Group) a =>
          let va : DWord := BitVec.ofNat 64 (a.va.toNat / 128 * 128)
          if g.due.any fun d => d.op = r.op && d.lane = a.lane then
            { g with due := g.due.map fun d =>
                if d.op = r.op && d.lane = a.lane && va.toNat < d.info.toNat then { d with info := va } else d }
          else { g with due := g.due ++ [{ lane := a.lane, op := r.op, code := 8, info := va }] }) g
        let s := s.modSub isl r.op r.sub fun u =>
          { u with stage := .performed, accs := u.accs.map fun a => { a with done := true, res := none } }
        (s.subDone isl r.op r.sub).kick isl r.core r.line

/-- A line leaves an L1 (R213, R220). -/
def execL1Eviction (s : State) : Host.Outcome State Fault Refusal :=
  event s fun as s => s.evict (ar as 0) (ar as 1) (ar as 2)

/-! ## Loss of a half or of a flit (R228, R229) -/

/-- Ends the transaction of a line as if every message it waits for had arrived. -/
def State.forceTxn (s : State) (isl ln : Nat) : State :=
  match ((s.isl isl).hline ln).txn with
  | some t =>
    let s := s.modIsl isl fun x => x.modH ln fun h => { h with owner := none, txn := some { t with acks := [], merges := [] } }
    s.finishHome isl t.req 1 none
  | none => s

/-- Poisons the lines of a region (R227). -/
def Island.poisonRegion (x : Island) (ln : Nat) : Island :=
  (regionOf ln).foldl (fun x l => x.modH l fun h => { h with poison := true }) x

/-- The clusters of a half. -/
def halfMask (half : Nat) : BitVec 32 := if half = 0 then 0xFFFF else 0xFFFF0000

/-- A line's record after the reset of the other half, where its region's L hints were `hints` (R228): poisoned where its
owner was lost in M or O or a lost cluster may have held it in L; the lost clusters and the lost owner go. -/
def HLine.loseHalf (h : HLine) (half : Nat) (hints : BitVec 32) : HLine :=
  let lost := h.owner.any fun p => halfOf p.1 = half
  { h with poison := h.poison || (lost && h.owner.any fun p => p.2 ≠ .e) || (hints &&& halfMask half) ≠ 0,
           clusters := h.clusters &&& ~~~halfMask half, lhint := h.lhint &&& ~~~halfMask half,
           owner := if lost then none else h.owner }

/-- The reset half loses its cores, its filters, its directories and what its cores had in flight; its registers, and in H0
those of the system unit, take their reset values, but for those that formation sets (R7, R228, R401). Each slice of the other
half marks the lines of every region of its own. -/
def Island.loseHalf (x : Island) (half cyc : Nat) : Island :=
  let lost (c : Nat) : Bool := halfOf c = half
  let lines := (((x.homes.map (·.1)).flatMap regionOf).eraseDups).filter fun ln => sliceOf ln / 32 ≠ half
  let gone (i : Nat) : Bool := (tget? x.reqs i).any fun r => lost r.core
  let y := lines.foldl (fun (y : Island) ln => y.modH ln fun h =>
    { h.loseHalf half (x.lhints ln) with queue := h.queue.filter fun i => !gone i }) x
  let y := { y with
    cores := y.cores.map fun (p : Nat × CoreS) =>
      if lost p.1 then (p.1, ({ disabled := p.2.disabled, badLanes := p.2.badLanes } : CoreS)) else p,
    filters := y.filters.filter fun p => !lost (4 * (p.1 % 32)),
    homes := y.homes.filter fun (p : Nat × HLine) => sliceOf p.1 / 32 ≠ half,
    versions := y.versions.filter fun v => sliceOf v.line / 32 ≠ half,
    invs := y.invs.filter fun p => !lost p.2.core,
    microTlb := y.microTlb.filter fun p => !lost p.1,
    clusterTlb := y.clusterTlb.filter fun p => !lost (4 * p.1),
    ops := y.ops.filter fun p => !(lost p.2.core && (match p.2.agent with | .island => false | _ => true)) }
  if half = 0 then { y with half0 := { y.half0 with resetAt := cyc }, sys := { topo := y.sys.topo } }
  else { y with half1 := { y.half1 with resetAt := cyc } }

/-- One half of the die is reset while the other runs (R228): what waited for the reset half is answered "no copy", and a
transaction whose requester is gone ends. -/
def execHalfReset (s : State) : Host.Outcome State Fault Refusal :=
  event s fun as s =>
    let isl := ar as 0
    let half := ar as 1
    let lost (c : Nat) : Bool := halfOf c = half
    let x := s.isl isl
    let lines := (x.homes.map (·.1)).filter fun ln => sliceOf ln / 32 ≠ half
    let s := s.setIsl isl (x.loseHalf half (s.cyc isl))
    -- merges that waited for lost cores' invalidations
    let s := (s.isl isl).reqs.foldl (fun (s : State) (p : Nat × Req) =>
      if lost p.2.core || p.2.waits.isEmpty then s
      else
        let left := p.2.waits.filter fun i => (tget? (s.isl isl).invs i).isSome
        if left.isEmpty then s.ackBack isl p.1 1 p.2 else s.modReq isl p.1 fun r => { r with waits := left }) s
    let s := lines.foldl (fun s ln =>
      match ((s.isl isl).hline ln).txn with
      | some t =>
        if (tget? (s.isl isl).reqs t.req).all fun r => lost r.core then s.homeIdle isl ln 1
        else
        let acks := t.acks.filter fun i => (tget? (s.isl isl).invs i).isSome
        let merges := t.merges.filter fun i => (tget? (s.isl isl).invs i).isSome
        let s := s.modIsl isl fun x => x.modH ln fun h => { h with txn := some { t with acks := acks, merges := merges } }
        match t.phase with
        | .owner | .writeBack => if lost t.target then s.ownerDone isl ln none else s
        | .merges => if merges.isEmpty then s.ownerPhase isl t.req 1 else s
        | .invals => if acks.isEmpty && !t.acks.isEmpty then s.finishHome isl t.req 1 none else s
      | none => if ((s.isl isl).hline ln).queue = (x.hline ln).queue then s else s.homeIdle isl ln 0) s
    s.modIsl isl fun x => { x with reqs := x.reqs.filter fun p => !lost p.2.core }

/-- The link over which a message between a core and the home of a line travels: that of its cluster and the slice. -/
def linkOf (core ln : Nat) : Nat := 64 * clusterOf core + sliceOf ln

/-- The lines with a message in flight on a link. -/
def Island.linesOn (x : Island) (link : Nat) : List Nat :=
  ((x.reqs.filter fun p => linkOf p.2.core p.2.line = link).map (fun p => p.2.line) ++
    (x.invs.filter fun p => linkOf p.2.core p.2.line = link).map fun p => p.2.line).eraseDups

/-- A flit stays uncorrectable (R229): the region its header names is poisoned, or, where the header itself is lost, every
region with a transaction in flight on the link; MACHINE_CHECK with cause 1; transactions that wait end, and merges, write-backs
and grants on their way arrive, over poisoned data. -/
def execFlitUncorrectable (s : State) : Host.Outcome State Fault Refusal :=
  event s fun as s =>
    let isl := ar as 0
    let lines := if ar as 2 = 0 then regionOf (4 * ar as 1) else (((s.isl isl).linesOn (ar as 3)).flatMap regionOf).eraseDups
    let s := s.modIsl isl fun x =>
      { lines.foldl (fun (x : Island) ln => x.poisonRegion ln) x with
        reqs := tmap x.reqs fun _ r => if lines.contains r.line then { r with poison := true } else r }
    let s := lines.foldl (fun s ln => s.forceTxn isl ln) s
    s.post isl { bits := recordBits { code := 0x31, info := 1, source := 5 } }

end Sys2Proof.Machine
end

