-- ==== Sys2Proof/Machine/Sched.lean ====
section
/-! DEFINITION. What moves next: the pending step that is due, the group a SIMD unit picks (R83, R87), the sequencer
context that dispatches (R320), or the clock. -/

namespace Sys2Proof.Machine

/-! ## Stepped operands of a repeated instruction (R34) -/

/-- An operand field `k` index steps on; none where the index passes the limits of R24. -/
def stepCode (o : BitVec 12) (k : Nat) : Option (BitVec 12) :=
  if o.toNat / 1024 ≠ 0 then some o
  else
    let i := o.toNat % 256
    let put (j lim : Nat) : Option (BitVec 12) := if j ≤ lim then some (BitVec.ofNat 12 (o.toNat / 256 * 256 + j)) else none
    match o.toNat / 256 % 4 with
    | 0 => put (i + k) 254
    | 1 => put (i + 2 * k) 252
    | 2 => put (i + k) 63
    | _ => some o

/-- The fields of repeat `i`. The data fields of `MOVW` are no operands (R29). -/
def stepFields (r : Rep) (i : Nat) (f : Fields) : Option Fields := do
  let x ← stepCode f.x (i * r.sx)
  let y ← if f.opc = 0x35#8 then some f.y else stepCode f.y (i * r.sy)
  let z ← if f.opc = 0x35#8 then some f.z else stepCode f.z (i * r.sz)
  pure { f with x := x, y := y, z := z }

/-- Whether an opcode is repeatable (R33). -/
def repeatable (opc : Nat) : Bool :=
  opcodeAssigned opc &&
    ((0x18 ≤ opc && opc ≤ 0x67) || (0x68 ≤ opc && opc ≤ 0x72 && opc ≠ 0x6D && opc ≠ 0x6F) || opc = 0x90)

/-! ## Eligibility of a group (R87) -/

/-- What a group would issue. -/
inductive Cand where
  /-- An instruction. -/
  | run (i : Instr)
  /-- A decoding fault of the word, or of a stepped repeat: code and information word. -/
  | bad (code : Nat) (info : DWord)
  /-- The trap of orphaned lanes of the run (R275). -/
  | orphan
  /-- Traps that wait for the issue of their lanes (R269, R359). -/
  | due
  deriving DecidableEq, Repr, Inhabited

/-- The hints of an instruction; a word that is none has no hints. -/
def ctlOf (i : Instr) : Ctl :=
  match fieldsOf i with
  | some f => f.c
  | none => default

/-- The instruction of a word in a group's stream: an opcode of the matrix streams is illegal there (R37). -/
def groupDecode (w : IWord) : Cand :=
  let hi : DWord := BitVec.ofNat 64 (fld w 64 32)
  if streamOpcode (fld w 88 8) then .bad 1 hi
  else match decode w with
    | some i => .run i
    | none => .bad 1 hi

/-- Whether every repeat that a word under `REP` comes to passes the checks of decoding: they are made before repeat 0 (R35). -/
def repeatsLegal (r : Rep) (f : Fields) : Bool :=
  (List.range r.n).all fun i => match stepFields r i f with
    | some f' => (parse f').any legal
    | none => true

/-- The instruction at the group's turn with the hints of its word, which every word carries (R31); no word is fetched where
the overlay ends (R38). -/
def wordCand (k : CoreS) (g : Group) (w : Wg) (cp : Word) : Cand × Ctl :=
  match fetchWord k cp w.asid false with
  | none => (.bad 1 0, streamCtl)
  | some iw =>
    let f := Fields.split iw
    match g.rep with
    | none => (groupDecode iw, f.c)
    | some r =>
      match groupDecode iw with
      | .run _ =>
        if g.rpi = 0 && !repeatsLegal r f then (.bad 1 (BitVec.ofNat 64 (fld iw 64 32)), f.c)
        else match stepFields r g.rpi f with
        | none => (.bad 3 (BitVec.ofNat 64 (fld iw 64 32 + g.rpi * 2 ^ 32)), f.c)
        | some f' => (match parse f' with | some i => .run i | none => .bad 1 (BitVec.ofNat 64 (fld iw 64 32)), f.c)
      | b => (b, f.c)

/-- The trap that a run's lanes take at its next issue, before the instruction (R275, R269, R359). -/
def dueTrap (g : Group) (run : LaneMask) : Option Cand :=
  if g.threads.any fun p => run.getLsbD p.1 && p.2.orph then some .orphan
  else if g.due.any fun d => run.getLsbD d.lane then some .due
  else none

/-- STALL, WAIT and SETF allow the issue (R31). -/
def hintsMet (g : Group) (cyc : Nat) (c : Ctl) : Bool :=
  let g := settle g cyc
  (match g.lastIssue with | some l => l + c.stall.toNat ≤ cyc | none => true) &&
    ((List.range 12).all fun f => !c.wait.getLsbD f || g.flagVal f = 0) &&
    (match setFlag c with | some f => g.flagVal f < 63 | none => true)

/-- The memory, copy and inter-island classes (R36). -/
def memQueueOp (opc : Nat) : Bool :=
  (0x68 ≤ opc && opc ≤ 0x72) || (0x90 ≤ opc && opc ≤ 0x93) || (0xC8 ≤ opc && opc ≤ 0xCF)

/-- A collective whose identifier is still running on the island (R360): the identifier is in the descriptor's fifth word. -/
def collRunning (x : Island) (g : Group) (cyc : Nat) (i : Instr) : Bool :=
  match i with
  | .coll _ _ (.s k) =>
    let ident := fld ((settle g (cyc + 4)).sreg (k.toNat + 4)) 24 8
    x.ops.any fun p => fld p.2.bulk.desc 152 8 = ident && match p.2.instr with
      | .coll .. => true
      | _ => false
  | _ => false

/-- The conditions of the class chapters that keep an instruction from issuing (R87). -/
def classBlocked (x : Island) (core : Nat) (k : CoreS) (gid : Nat) (g : Group) (cyc : Nat) (i : Instr) : Bool :=
  let opc := ((fieldsOf i).map (·.opc.toNat)).getD 0
  let mine (f : Instr → Bool) : Nat := (x.ops.filter fun p => f p.2.instr && p.2.place = g.place && (match p.2.agent with
    | .group c _ => c = core
    | .seq _ _ | .unit _ | .island => false)).length
  -- the special-function pipe (R173)
  (0x54 ≤ opc && opc ≤ 0x5B && cyc < tgetD k.sfBusy (gid % 4) 0) ||
  -- four overlay loads (R140)
  (opc = 0x10 && 4 ≤ (k.rtab.filter fun p => p.2.loading).length) ||
  -- an acquire in progress (R252), and an RFENCE in progress (R357)
  ((!g.acquiring.isEmpty || !g.rfencing.isEmpty) && memQueueOp opc) ||
  -- a confirm in progress (R272)
  (g.quiesced && memQueueOp opc) ||
  -- a change of hypothesis in progress (R280)
  (!g.entering.isEmpty && (memQueueOp opc || (0x88 ≤ opc && opc ≤ 0x8C))) ||
  -- a full copy queue (R284) and a full fabric queue (R346)
  ((opc = 0x90 || opc = 0x91) && 32 ≤ mine copyInstr) ||
  (0xC8 ≤ opc && opc ≤ 0xCD && opc ≠ 0xCC && 64 ≤ mine fabricInstr) ||
  collRunning x g cyc i

/-- What stands at a group's turn, eligible but for the governor's class (R87), with the lanes of the run. -/
def readyTurn (x : Island) (core : Nat) (k : CoreS) (gid : Nat) (g : Group) (cyc : Nat) : Option (LaneMask × Cand) :=
  if g.ended || g.parked then none
  else
    match tget? k.places g.place with
    | none => none
    | some w =>
      match if (tget? x.cls w.cl).any (·.forced) then none else g.turn cyc with
      | none => none
      | some (run, cp) =>
        let c := wordCand k g w cp
        let free := match c.1 with
          | .run i => !classBlocked x core k gid g cyc i
          | .bad _ _ | .orphan | .due => true
        if hintsMet g cyc c.2 && free then some (run, c.1) else none

/-- The instruction at a group's turn but for the governor's class (R87). -/
def readyCand (x : Island) (core : Nat) (k : CoreS) (gid : Nat) (g : Group) (cyc : Nat) : Option Cand :=
  (readyTurn x core k gid g cyc).map (·.2)

/-- The governor class that a candidate needs (R429). -/
def Cand.need (c : Cand) : Nat :=
  match c with
  | .run i => classOf (opcOf i)
  | .bad _ _ | .orphan | .due => 0

/-- What an eligible group would issue (R87): the trap that its lanes wait for is taken at the issue, in place of the
instruction (R275). -/
def eligibleCand (x : Island) (core : Nat) (k : CoreS) (gid : Nat) (g : Group) (cyc : Nat) : Option Cand :=
  match readyTurn x core k gid g cyc with
  | some (run, c) => if c.need ≤ k.cls then some ((dueTrap g run).getD c) else none
  | none => none

/-- Whether a group is picked before another: starved, then urgent, then older (R87). -/
def before (cyc : Nat) (a b : Nat × Group) : Bool :=
  let st (g : Group) : Bool := match g.eligible with | some e => e + 48 ≤ cyc | none => false
  if st a.2 ≠ st b.2 then st a.2
  else if a.2.urgent ≠ b.2.urgent then a.2.urgent
  else if a.2.age ≠ b.2.age then a.2.age < b.2.age else a.1 < b.1

/-- The group a SIMD unit picks, with what it issues. -/
def pickGroup (cyc : Nat) : List (Nat × Group × Cand) → Option (Nat × Group × Cand)
  | [] => none
  | c :: r =>
    match pickGroup cyc r with
    | some d => if before cyc (c.1, c.2.1) (d.1, d.2.1) then some c else some d
    | none => some c

/-- The eligible groups of a SIMD unit that is free. -/
def unitCands (x : Island) (core : Nat) (k : CoreS) (cyc unit : Nat) : List (Nat × Group × Cand) :=
  if cyc < tgetD k.simdNext unit 0 then []
  else k.groups.filterMap fun p =>
    if p.1 % 4 = unit then (eligibleCand x core k p.1 p.2 cyc).map fun c => (p.1, p.2, c) else none

/-- The issue of a core: of its units' choices, the lowest residency slot first. -/
def coreIssue (x : Island) (core : Nat) (k : CoreS) (cyc : Nat) : Option (Nat × Group × Cand) :=
  let picks := (List.range 4).filterMap fun u => pickGroup cyc (unitCands x core k cyc u)
  picks.foldl (fun a p => match a with | some q => if p.1 < q.1 then some p else a | none => some p) none

/-- The first core of an island that issues. -/
def islandIssue (x : Island) (cyc : Nat) : Tbl CoreS → Option (Nat × Nat × Group × Cand)
  | [] => none
  | (c, k) :: r =>
    match coreIssue x c k cyc with
    | some p => some (c, p)
    | none => islandIssue x cyc r

/-- The first issue of the panel at this time. -/
def firstIssue (now : Nat) : Tbl Island → Option (Nat × Nat × Nat × Group × Cand)
  | [] => none
  | (i, x) :: r =>
    match if x.running then islandIssue x (x.cycAt now) x.cores else none with
    | some p => some (i, p)
    | none => firstIssue now r

/-! ## Sequencer contexts (R317, R320) -/

/-- Whether a context dispatches now. -/
def ctxReady (w : Wg) (cyc : Nat) : Bool :=
  match w.ctx with
  | some c => c.st = .running && c.waitOp.isNone && c.faults.isEmpty && !c.killed && c.nextDispatch ≤ cyc &&
      c.readout.all fun m => m.turn ≠ 0
  | none => false

/-- The accumulator slot that a stream instruction names. -/
def slotNamed (i : Instr) : Option Nat :=
  match i with
  | .mma _ _ _ _ sl .. | .mmas _ _ _ _ sl .. => some sl.toNat
  | .mrd _ _ sl _ | .mwr _ _ sl _ | .mzero sl => some sl.toNat
  | _ => none

/-- Whether the instruction at a context's stream pointer is held: a third operation while two are handed, a readout
operation while an earlier one on the array has not completed its slot (R320), an access during a confirm (R272). -/
def dispatchHeld (k : CoreS) (w : Wg) (c : Ctx) : Bool :=
  match fetchWord k c.sp w.asid true with
  | some iw =>
    let opc := fld iw 88 8
    (0xBB ≤ opc && opc ≤ 0xBF && c.quiesced) || ((opc = 0xBB || opc = 0xBC) && 2 ≤ c.handed.length) ||
      (0xBD ≤ opc && opc ≤ 0xBF && (c.handed ++ c.current.toList ++ c.draining).any fun a => slotNamed a.instr = some (fld iw 70 10))
  | none => false

/-- Whether a dispatch needs a class that the core does not hold (R429). -/
def dispatchDenied (k : CoreS) (w : Wg) (c : Ctx) : Bool :=
  match fetchWord k c.sp w.asid true with
  | some iw => !(fld iw 88 8 = 0xBB || fld iw 88 8 = 0xBC) && k.cls = 0
  | none => false

/-- The first context that dispatches: island, core, place. -/
def firstDispatch (now : Nat) : Tbl Island → Option (Nat × Nat × Nat)
  | [] => none
  | (i, x) :: r =>
    let here := if x.running then
        x.cores.findSome? fun k => (k.2.places.find? fun p =>
          !((tget? x.cls p.2.cl).any (·.forced)) && ctxReady p.2 (x.cycAt now) && !(p.2.ctx.any fun c => dispatchHeld k.2 p.2 c || dispatchDenied k.2 p.2 c)).map fun p => (k.1, p.1)
      else none
    match here with
    | some p => some (i, p)
    | none => firstDispatch now r

/-! ## The agenda -/

/-- The earliest entry of the agenda: its index, its time and what it is; of equals the first made. -/
def earliest (s : State) : List (Due × Act) → Nat → Option (Nat × Nat × Act)
  | [], _ => none
  | p :: r, n =>
    match earliest s r (n + 1) with
    | some q => if s.dueTime p.1 ≤ q.2.1 then some (n, s.dueTime p.1, p.2) else some q
    | none => some (n, s.dueTime p.1, p.2)

/-- Whether anything of the panel may issue at a coming cycle. -/
def busy (s : State) : Bool :=
  s.islands.any fun p => p.2.running && p.2.cores.any fun k => !k.2.groups.isEmpty || k.2.places.any fun w => w.2.ctx.isSome

/-- Marks since when each group has been eligible (R87). -/
def markEligible (x : Island) (cyc : Nat) : Island :=
  { x with cores := x.cores.map fun p =>
      (p.1, { p.2 with groups := p.2.groups.map fun q =>
        (q.1, { q.2 with eligible :=
          if (eligibleCand x p.1 p.2 q.1 q.2 cyc).isSome then (match q.2.eligible with | some e => some e | none => some cyc)
          else none }) }) }

/-- The time of the next cycle edge of an island after `now`. -/
def nextEdge (x : Island) (now : Nat) : Nat := x.timeBase + (x.cycAt now + 1 - x.cycBase) * x.period

/-- The class that a core's groups and contexts ask for beyond the one it holds; 0 where they ask for none (R429). -/
def CoreS.wants (k : CoreS) (x : Island) (core : Nat) (cyc : Nat) : Nat :=
  let g := k.groups.foldl (fun m p => match readyCand x core k p.1 p.2 cyc with
    | some c => if k.cls < c.need then max m c.need else m
    | none => m) 0
  if k.places.any fun p => ctxReady p.2 cyc && p.2.ctx.any fun c => !dispatchHeld k p.2 c && dispatchDenied k p.2 c then max g 1 else g

/-- Notes what the cores ask of the governor, and has its next window come where one asks (R429). -/
def State.askGovernor (s : State) (isl : Nat) : State :=
  let x := s.isl isl
  let cyc := x.cycAt s.now
  let x := { x with cores := tmap x.cores fun c k => { k with clsWant := max k.clsWant (k.wants x c cyc) } }
  if x.running && !x.governing && x.cores.any fun p => p.2.cls < p.2.clsWant then
    (s.setIsl isl { x with governing := true }).at (.ps (max x.govNext ((s.now + 199999) / 200000 * 200000))) (.row .governorWindow [isl])
  else s.setIsl isl x

/-- Time passes: to the next pending step, and to the next cycle while anything may issue. -/
def tick (s : State) : State :=
  let s := (s.islands.map (·.1)).foldl (fun s i => s.askGovernor i) s
  let s := { s with islands := s.islands.map fun p =>
    if p.2.running then (p.1, markEligible p.2 (p.2.cycAt s.now)) else p }
  let edge := s.islands.foldl (fun a p => if p.2.running then min a (nextEdge p.2 s.now) else a) (s.now + 625)
  let edge := if edge ≤ s.now then s.now + 1 else edge
  match earliest s s.agenda 0 with
  | some q => { s with now := if busy s then min edge q.2.1 else q.2.1 }
  | none => { s with now := edge }

end Sys2Proof.Machine
end

