-- ==== Sys2Proof/Machine/Life.lean ====
section
/-! DEFINITION. The end of threads, groups, workgroups and launches (R86, R93, R94, R104, R122), the cancelling of a
blocked operation (R110, R315), the stop of a sequencer context (R339), and the parking of a cluster launch that is being
pre-empted (R108, R109). -/

namespace Sys2Proof.Machine

/-! ## Cancelling (R110, R315) -/

/-- The wait that remains of an arrival already made: barrier and phase (R315). -/
def arrivedWait (o : Op) : Option WaitRec :=
  if !o.performed then none
  else match o.instr with
    | .barArw _ k _ => some { cp := o.cp, panel := false, bar := k.toNat, phase := o.b.getLsbD 0 }
    | .pbarArw _ _ k => some { cp := o.cp, panel := true, bar := k.toNat, phase := o.b.getLsbD 0 }
    | _ => none

/-- Takes an operation out of every list in which it waits. -/
def Island.unwait (x : Island) (id : Nat) : Island :=
  let rm (l : List Nat) : List Nat := l.filter fun i => i ≠ id
  let bar (b : Bar) : Bar := { b with waiters := rm b.waiters }
  { x with
    cores := tmap x.cores fun _ (k : CoreS) =>
      { k with monitors := k.monitors.filter fun m => m.op ≠ id,
               engFlight := k.engFlight.filter fun p => p.1 ≠ id,
               places := tmap k.places fun _ (w : Wg) =>
                 { w with copyq := rm w.copyq, fabq := rm w.fabq, bars := tmap w.bars fun _ b => bar b,
                          rings := tmap w.rings fun _ (r : Ring) => { r with reservers := rm r.reservers, takers := rm r.takers },
                          held := w.held.filter fun p => p.1 ≠ id } },
    cls := tmap x.cls fun _ (c : Cl) => { c with b0 := bar c.b0 },
    pbars := tmap x.pbars fun _ (b : PBar) => { b with waiters := rm b.waiters },
    nwaiters := x.nwaiters.filter fun w => w.op ≠ id,
    walks := tmap x.walks fun _ (k : Walk) => { k with waiters := k.waiters.filter fun p => p.1 ≠ id } }

/-- Has the first operation of a fabric queue that is not injected looked at again (R346). -/
def State.kickFab (s : State) (isl core place : Nat) : State :=
  match ((s.isl isl).wg? core place).bind fun w => w.fabq.find? fun id => (s.op? isl id).any fun o => !o.injected with
  | some id => s.afterOnce isl 0 .fabricInject [isl, id]
  | none => s

/-- Cancels an operation without effect: its run stands at the instruction again, its flag falls, the writes it counted
are no longer awaited; a wait whose arrival was made is recorded with the threads (R110, R315). -/
def State.cancelOp (s : State) (isl id : Nat) : State :=
  match s.op? isl id with
  | none => s
  | some o =>
    let counted := (o.subs.filter (·.counted)).length
    let s := (s.modIsl isl fun x => x.unwait id).onOpGroup isl o fun g =>
      let rm (l : List Nat) : List Nat := l.filter fun i => i ≠ id
      let g := { g with threads := g.threads.map fun p =>
                          if p.2.stat = .blocked id then (p.1, { p.2 with stat := .ready, wait := arrivedWait o }) else p,
                        acquiring := rm g.acquiring, entering := rm g.entering, rfencing := rm g.rfencing,
                        qfencing := rm g.qfencing, releasing := rm g.releasing, unacked := g.unacked - counted }
      flagDown g o.flag
    let s := match o.instr with
      | .cpy .. | .cpyb .. => s.afterOnce isl 1 .copyLineTransfer [isl, o.core]
      | _ => s.kickFab isl o.core o.place
    ((((s.delOp isl id).startHeld isl o).kickRelease isl o).kickFences isl id o).gathered isl id

/-- The operations of a group, by identity. -/
def Island.opsOf (x : Island) (core gid age : Nat) : List (Nat × Op) :=
  x.ops.filter fun p => p.2.agent = .group core gid && p.2.age = age

/-- Whether an operation waits on a scratchpad line that is empty. -/
def Island.opHeld (x : Island) (id : Nat) : Bool :=
  x.cores.any fun k => k.2.places.any fun w => w.2.held.any fun p => p.1 = id

/-- Whether the run of an operation waits for a condition that another agent must make true (R110). -/
def opBlocked (o : Op) : Bool := blocks o.instr && !o.sure

/-- Whether an instruction is a load: held on an empty line, it has no effect yet but to wait (R110, R210). -/
def isLoad (i : Instr) : Bool :=
  match i with
  | .ld .. | .ldu .. => true
  | _ => false

/-! ## Sequencer contexts (R122, R317, R339) -/

/-- Changes every operation that a context has handed over. -/
def Ctx.onOps (c : Ctx) (f : MxOp → MxOp) : Ctx :=
  { c with handed := c.handed.map f, current := c.current.map f, draining := c.draining.map f, readout := c.readout.map f }

/-- A context and its operations under other hypotheses (R272, R277). -/
def Ctx.mapHy (c : Ctx) (f : BitVec 8 → BitVec 8) : Ctx := { c.onOps fun m => { m with hy := f m.hy } with hy := f c.hy }

/-- Whether an operation is an `MRD`, which writes memory under its tag. -/
def MxOp.isMrd (m : MxOp) : Bool :=
  match m.instr with
  | .mrd .. => true
  | _ => false

/-- A context that is being stopped is idle once nothing of it runs; the `MSTOP`s that wait are answered. -/
def State.ctxStopped (s : State) (isl core place : Nat) : State :=
  match ((s.isl isl).wg? core place).bind (·.ctx) with
  | none => s
  | some c =>
    if c.killed && c.current.isNone && c.draining.isEmpty && c.readout.isEmpty then
      let s := s.modIsl isl fun x => x.modCtx core place fun c =>
        { c with st := .idle, sp := 0, killed := false, stopping := [], faults := [], ckpt := none, mrow := 0,
                 handed := [], waitOp := none, arw := none }
      c.stopping.foldl (fun s id => (s.modOp isl id fun o => { o with res := 0 }).endOp isl id) s
    else s

/-- Stops a context: what it has handed over and not begun is discarded, a blocked `MBAR` is cancelled, an operation that
has faulted is abandoned; the operation on the array and the readout end first (R339). -/
def State.stopCtx (s : State) (isl core place : Nat) : State :=
  match ((s.isl isl).wg? core place).bind (·.ctx) with
  | none => s
  | some c =>
    if c.st = .idle && c.handed.isEmpty && c.current.isNone then s
    else
      let s := match c.waitOp with
        | some id => ((s.modIsl isl fun x => x.unwait id).delOp isl id)
        | none => s
      let s := s.modIsl isl fun x => x.modCtx core place fun c =>
        { c with handed := [], waitOp := none, killed := true, nextDispatch := 0,
                 current := c.current.filter fun m => !c.faults.contains m.id,
                 readout := c.readout.filter fun m => !c.faults.contains m.id, faults := [] }
      s.ctxStopped isl core place

/-! ## Parking for a checkpoint save (R108, R109) -/

/-- Whether a group has ended or parked at `CKPT` with every thread. -/
def groupParked (g : Group) : Bool :=
  g.ended || g.threads.all fun p => match p.2.stat with | .ckpt _ => true | _ => false

/-- Whether a context has parked or ended, with nothing on the array and nothing to read out. -/
def ctxParked (c : Ctx) : Bool :=
  (c.st = .idle || c.st = .parked) && c.handed.isEmpty && c.current.isNone && c.draining.isEmpty && c.readout.isEmpty

/-- Whether every group and context of a cluster launch has parked, ended or retired. -/
def Island.clParked (x : Island) (cl : Cl) : Bool :=
  cl.ranks.all fun p =>
    let k := x.core p.1
    (k.groups.all fun g => g.2.place ≠ p.2 || groupParked g.2) &&
      match tget? k.places p.2 with
      | some w => w.ctx.all ctxParked
      | none => true

/-- Has a pre-empting cluster launch saved once all of it has parked. -/
def State.checkParked (s : State) (isl cl : Nat) : State :=
  match tget? (s.isl isl).cls cl with
  | some c =>
    if c.saving.isSome && !c.forced && (s.isl isl).clParked c then s.afterOnce isl 0 .checkpointSave [isl, cl] else s
  | none => s

/-! ## The end of groups and workgroups (R86, R93) -/

/-- Room may have come on an island: what waits for a place looks again (R96, R97, R391, R396). -/
def State.kickPlaces (s : State) (isl : Nat) : State :=
  let x := s.isl isl
  let s := x.handout.foldl (fun (s : State) p => s.afterOnce isl 0 .clusterLaunchHandout [isl, p.1]) s
  let s := x.restoring.foldl (fun (s : State) id => s.afterOnce isl 0 .systemUnitRequest [isl, id]) s
  x.audits.foldl (fun (s : State) p => if p.2.rerun.isNone then s.afterOnce isl 0 .auditRerunStart [isl, p.1] else s) s

/-- The residency slots of a place's groups. -/
def CoreS.gidsOf (k : CoreS) (place : Nat) : List Nat := (k.groups.filter fun p => p.2.place = place).map (·.1)

/-- Whether everything that keeps a workgroup from ending has ended (R93): its groups' slots, its context, its queues. -/
def Island.wgDone (x : Island) (core place : Nat) : Bool :=
  match x.wg? core place with
  | none => false
  | some w =>
    !w.ended && (!w.waiting || w.killed) && ((x.core core).gidsOf place).isEmpty && w.copyq.isEmpty && w.fabq.isEmpty &&
      match w.ctx with
      | none => true
      | some c => c.st = .idle && c.handed.isEmpty && c.current.isNone && c.draining.isEmpty && c.readout.isEmpty

/-- Has a workgroup end when it may. -/
def State.checkWgEnd (s : State) (isl core place : Nat) : State :=
  if (s.isl isl).wgDone core place then s.afterOnce isl 0 .workgroupEnd [isl, core, place] else s

/-- Posts the traps that wait for lanes whose threads do not issue again (R269, R359). -/
def State.postDue (s : State) (isl core gid : Nat) (lanes : LaneMask) : State :=
  match (s.isl isl).group? core gid with
  | none => s
  | some g =>
    let w := ((s.isl isl).wg? core g.place).getD {}
    let lost := g.due.filter fun d => lanes.getLsbD d.lane
    let s := s.modIsl isl fun x => x.modGroup core gid fun g => { g with due := g.due.filter fun d => !lanes.getLsbD d.lane }
    lost.foldl (fun s d =>
      let r : RecArgs :=
        { code := d.code.toNat, info := d.info, addr := d.info.setWidth 72, lanes := maskOf [d.lane], launch := w.launch,
          asid := w.asid, agent := agentWord 0 core gid }
      s.post isl { bits := recordBits r }) s

/-- A group without threads has ended: it keeps what it has written, results on their way to it are discarded while its flags
still fall (R86), and its frame is free (R386). -/
def Group.finish (g : Group) (cyc : Nat) : Group :=
  let g := settle g cyc
  { g with ended := true, frame := none, pend := g.pend.filter fun p => match p.dest with
      | .flag _ => true
      | _ => false }

/-- Frees a frame of private memory of a context. -/
def Island.freeFrame (x : Island) (asid : BitVec 16) (f : Option Nat) : Island :=
  match f with
  | some f => { x with frames := x.frames.filter fun p => p ≠ (asid.toNat, f) }
  | none => x

/-- Ends the threads of a set of lanes: they leave the PC table; a group without threads has ended (R117, R93). -/
def State.endLanes (s : State) (isl core gid : Nat) (m : LaneMask) : State :=
  let cyc := s.cyc isl
  let s := (s.postDue isl core gid m).modIsl isl fun x =>
    let x := x.modGroup core gid fun g => fixRep { g with threads := g.threads.filter fun p => !m.getLsbD p.1 }
    match x.group? core gid with
    | some g =>
      if g.threads.isEmpty && !g.ended then
        (x.freeFrame ((x.wg? core g.place).getD {}).asid g.frame).modGroup core gid fun g => g.finish cyc
      else x
    | none => x
  match (s.isl isl).group? core gid with
  | some g =>
    if g.ended then
      (s.afterOnce isl 0 .groupSlotRelease [isl, core, gid]).checkParked isl (((s.isl isl).wg? core g.place).getD {}).cl
    else s
  | none => s

/-- Whether a residency slot may be freed (R86): every flag is zero, and no write or release of the group is open. -/
def groupQuiet (g : Group) (cyc : Nat) : Bool :=
  let g := settle g cyc
  g.pend.isEmpty && (g.flags.all fun p => p.2 = 0) && g.unacked = 0 && g.releasing.isEmpty

/-- An ended group's residency slot is freed (R86); until it may be, the step looks again. The registers stay in the
workgroup's register area (R206). -/
def execGroupSlotRelease (s : State) : Host.Outcome State Fault Refusal :=
  event s fun as s =>
    let isl := ar as 0
    let core := ar as 1
    let gid := ar as 2
    match (s.isl isl).group? core gid with
    | none => s
    | some g =>
      if !g.ended then s
      else if !groupQuiet g (s.cyc isl) then s.afterOnce isl 4 .groupSlotRelease [isl, core, gid]
      else
        let s := s.postDue isl core gid (BitVec.allOnes 64)
        let v := (settle g (s.cyc isl)).v
        let u := (settle g (s.cyc isl)).s
        let s := s.modIsl isl fun x =>
          (x.modWg core g.place fun w => { w with gone := tput w.gone g.gidx v, goneS := tput w.goneS g.gidx u }).modCore core fun k =>
            { k with groups := tdel k.groups gid }
        s.checkWgEnd isl core g.place

/-! ## Kills (R122) -/

/-- Ends every thread of a group at once. Instructions that wait for a condition, and loads held on an empty line, are
cancelled; what else has been issued completes. -/
def State.killGroup (s : State) (isl core gid : Nat) : State :=
  match (s.isl isl).group? core gid with
  | none => s
  | some g =>
    let ops := (s.isl isl).opsOf core gid g.age
    let s := ops.foldl (fun (s : State) (p : Nat × Op) =>
      if opBlocked p.2 || (isLoad p.2.instr && (s.isl isl).opHeld p.1) then s.cancelOp isl p.1 else s) s
    let s := s.modIsl isl fun x => x.modGroup core gid fun g => { g with parked := false, records := 0 }
    s.endLanes isl core gid (BitVec.allOnes 64)

/-- Kills a workgroup. -/
def State.killWg (s : State) (isl core place : Nat) : State :=
  let s := (((s.isl isl).core core).gidsOf place).foldl (fun s gid => s.killGroup isl core gid) s
  (s.stopCtx isl core place).checkWgEnd isl core place

/-- Whether a launch has nothing left on an island: no cluster launch resident, waiting, saved or to be handed out. -/
def Island.launchGone (x : Island) (key : Nat) : Bool :=
  !(x.cls.any fun p => p.2.launch = key) && !(x.audits.any fun p => p.2.launch = key) && (tget? x.handout key).isNone &&
    !(x.saved.any fun v => v.cl.launch = key && !v.discarded)

/-- The islands of a launch that are neither dark nor quarantined (R389). -/
def State.islesOf (s : State) (l : Launch) : List Nat := (List.range 16).filter fun i => l.onIsland i && !(s.isl i).dark

/-- Has a launch complete when every cluster launch has retired (R104). -/
def State.checkLaunch (s : State) (key : Nat) : State :=
  match tget? s.launches key with
  | some l =>
    let gone := (s.islesOf l).all fun i => (s.isl i).launchGone key
    if l.started && !l.done && gone then s.afterOnce l.island 0 .launchComplete [key] else s
  | none => s

/-- One record less is pending for the agent of an agent word: a group, a context, or the group that issued an operation
of a queue. It unparks when it has none left (R373). `age` is that of the group a record parked; an operation names its
own. -/
def State.unpark (s : State) (isl : Nat) (a : Word) (age : Option Nat) (op : Option Nat) : State :=
  let core := fld a 0 7
  let slot := fld a 11 5
  let less (g : Group) : Group := { g with records := g.records - 1, parked := g.parked && 2 ≤ g.records }
  match fld a 8 3, op.bind fun id => s.op? isl id with
  | 1, _ => s.modIsl isl fun x => x.modCtx core slot fun c => { c with records := c.records - 1 }
  | 0, some o | 2, some o | 3, some o => s.onOpGroup isl o less
  | 0, none => s.modIsl isl fun x => x.modGroup core slot fun g =>
      if age = some g.age then less g else g
  | _, _ => s

/-- An agent that stood with a record which has been withdrawn faults again, unless it is withdrawn with it: the first posts a
record of its own, to which the others attach (R378, R379). -/
def State.refault (s : State) (isl : Nat) (gone : Op → Bool) (r : FaultRec) (q : Word × Option Nat) : State :=
  let again (s : State) (c : FaultRec) : State :=
    match (s.isl isl).findRec fun f => attachesTo f (recAsid r.bits) (recAddr r.bits) with
    | some i => s.modIsl isl fun x => { x with faults := x.faults.modify i fun f => f.attach q.1 q.2 }
    | none => s.post isl c
  match q.2.bind fun id => (s.op? isl id).map fun o => (id, o) with
  | none =>
    let core := fld q.1 0 7
    let place := fld q.1 11 5
    match fld q.1 8 3, (s.isl isl).wg? core place with
    | 1, some w =>
      if gone { agent := .seq core place, place := place, launch := w.launch } then s
      else again (s.modIsl isl fun x => x.modCtx core place fun c => { c with records := c.records + 1 })
        { r with bits := putFld (putFld r.bits 32 32 q.1.toNat) 80 16 w.launch, op := q.2, attached := [], posted := false, num := 0,
                 settled := false }
    | _, _ => s
  | some (id, o) =>
    let page := (recAddr r.bits).toNat / 65536
    let accs := (o.subs.flatMap (·.accs)).filter fun a => a.fault = some (BitVec.ofNat 8 cXlate) && !a.done && a.va.toNat / 65536 = page
    if gone o || accs.isEmpty then s
    else match o.agent, fld q.1 8 3 with
      | .group _ _, 0 => s.opFault isl id o cXlate accs true
      | _, _ =>
        let c : FaultRec :=
          { r with bits := putFld (putFld (putFld r.bits 32 32 q.1.toNat) 80 16 o.launch) 128 64 (maskOf (accs.map (·.lane))).toNat,
                   age := o.age, op := some id, lanes := maskOf (accs.map (·.lane)), attached := [], posted := false, num := 0,
                   settled := false }
        again (s.parkIssuer isl o) c

/-- Withdraws records: agents they parked unpark when they have none left; a record not yet written is written all the same
(R375, R379). `gone` tells the operations withdrawn with them. -/
def State.withdraw (s : State) (isl : Nat) (p : FaultRec → Bool) (gone : Op → Bool) : State :=
  let out := (s.isl isl).faults.filter fun r => p r && !r.settled
  let s := s.modIsl isl fun x => { x with faults := settleRec x.faults p }
  out.foldl (fun (s : State) r =>
    let s := r.attached.foldl (fun (s : State) q => s.unpark isl q.1 none q.2) (s.unpark isl (recAgent r.bits) (some r.age) r.op)
    r.attached.foldl (fun (s : State) q => s.refault isl gone r q) s) s

/-! ## Holders of hypotheses (R262, R277) -/

/-- An entry of the tree. -/
def Island.hyp (x : Island) (g : Nat) : Hyp := if g = 0 then { st := .opened } else tgetD x.hyps g {}

/-- One holder fewer: a FORWARD entry without holders becomes FREE and lets go of the ID it forwards to (R277). -/
def Island.dropHolder (x : Island) : Nat → Nat → Island
  | 0, _ => x
  | fuel + 1, h =>
    if h = 0 then x
    else
      let e := x.hyp h
      let x := { x with hyps := tput x.hyps h { e with holders := e.holders - 1 } }
      if e.st = .forward && e.holders ≤ 1 then
        { x with hyps := tput x.hyps h { e with st := .free, holders := 0, asid := 0, launch := 0, refuted := false } }.dropHolder fuel e.fwd.toNat
      else x

/-- The hypotheses that a saved cluster launch holds: of its groups and its contexts. -/
def Saved.hys (v : Saved) : List Nat :=
  ((v.groups.filter fun p => !p.2.ended).map fun p => p.2.hy.toNat) ++ v.wgs.filterMap fun w => match w.ctx with
    | some c => if c.st = .idle then none else some c.hy.toNat
    | none => none

/-- What a saved image held is let go: its hypotheses (R277) and its groups' frames (R386). -/
def Island.dropSaved (x : Island) (v : Saved) : Island :=
  let x := v.hys.foldl (fun (x : Island) h => x.dropHolder 256 h) x
  v.groups.foldl (fun (x : Island) p => x.freeFrame (v.wgs.getD p.1 {}).asid p.2.frame) x

/-- Discards the saved images of a launch (R277, R391, R394). -/
def Island.discardSaved (x : Island) (key : Nat) : Island :=
  let mine := x.saved.filter fun v => v.cl.launch = key && !v.discarded
  let x := mine.foldl Island.dropSaved x
  { x with saved := x.saved.map fun v => if v.cl.launch = key then { v with discarded := true } else v }

/-- The faulting lanes of an operation of a killed launch complete without effect, and the rest of it goes on: of an engine's
operation, at the engine's next turn (R122, R379). -/
def State.dropFaults (s : State) (isl id : Nat) (o : Op) : State :=
  match o.instr with
  | .cpy .. | .cpyb .. => s.afterOnce isl 1 .copyLineTransfer [isl, o.core]
  | .put .. | .get .. | .ratom .. | .rntfy .. | .coll .. => s.afterOnce isl 1 .fabricInject [isl, id]
  | _ => (o.subs.filter fun u => u.accs.any fun a => a.fault.isSome).foldl (fun (s : State) u => s.skipSub isl id u.key) s

/-- Kills a launch on every island: its workgroups end without completion events, cluster launches not started and saved
images are withdrawn, and so are its records (R122, R379). -/
def State.killLaunch (s : State) (key : Nat) : State :=
  let s := { s with launches := tmod s.launches key fun l => { l with killed := true } }
  let s := ((s.islands.filter fun p => !p.2.dark).map (·.1)).foldl (fun (s : State) isl =>
    let s := (s.modIsl isl fun x =>
      { x.discardSaved key with handout := tdel x.handout key, audits := x.audits.filter fun p => p.2.launch ≠ key }).kickPlaces isl
    let mine (r : FaultRec) : Bool := recLaunch r.bits = launchNum key && match tget? s.launches key with
      | some l => l.onIsland isl
      | none => false
    let s := s.withdraw isl mine fun o => o.launch = key
    let s := (s.isl isl).cores.foldl (fun (s : State) (k : Nat × CoreS) =>
      k.2.places.foldl (fun (s : State) (w : Nat × Wg) =>
        if w.2.launch = key then
          (s.modIsl isl fun x => x.modWg k.1 w.1 fun w => { w with killed := true }).killWg isl k.1 w.1
        else s) s) s
    (s.isl isl).ops.foldl (fun (s : State) (p : Nat × Op) =>
      if p.2.launch = key && p.2.subs.any fun u => u.accs.any fun a => a.fault.isSome then s.dropFaults isl p.1 p.2 else s) s) s
  s.checkLaunch key

end Sys2Proof.Machine
end

