-- ==== Sys2Proof/Machine/Units.lean ====
section
/-! DEFINITION. The accesses of the units that are not groups' memory instructions: engines, loaders, sequencers, the
command processors and arriving fabric operations. They translate, and they read and write at the home, at the bank array
or at the target, one line's bytes in one step (R211, R258, R285, R347). -/

namespace Sys2Proof.Machine

/-- An address some bytes on: the window byte is kept (R17). -/
def vaPlus (va : VA) (n : Nat) : VA := BitVec.ofNat 72 (va.toNat / 2 ^ 64 * 2 ^ 64 + (va.toNat + n) % 2 ^ 64)

/-- A place that no workgroup has: of an access that is made for no workgroup. -/
def noPlace : Nat := 4

/-- The place of an address: a window of a workgroup, or translated memory. -/
def State.placeOf (s : State) (isl core place : Nat) (asid : BitVec 16) (priv : Bool) (w : Want) (va : VA) :
    Except Nat Loc × State :=
  if inWindow va then
    match windowLoc (s.isl isl) core place va with
    | some l => (.ok l, s)
    | none => (.error cXlate, s)
  else if (s.isl isl).audited core place then
    match s.walk isl asid va with
    | (.bad, s) => (.error cXlate, s)
    | (.leaf pte level _, s) => match leafGrant pte level priv w va with
      | .error c => (.error c, s)
      | .ok l => (.ok ((s.isl isl).auditLoc core place asid va l), s)
  else if place = noPlace then s.xlateNow isl asid priv w va
  else s.xlateAt isl core asid priv w va

/-- Whether an access of a unit at a place may be made now: nothing is in progress on the line. -/
def Island.locQuiet (x : Island) : Loc → Bool
  | .line ln _ => x.quiet ln
  | .scr _ _ _ | .reg _ _ _ | .pin _ _ | .unc _ | .buf _ _ _ _ => true

/-- Bytes at a place, of one line, as a unit reads them under a hypothesis. -/
def State.readLoc (s : State) (isl : Nat) (g : BitVec 8) (l : Loc) (n : Nat) : List Byte :=
  match l with
  | .line ln o => s.readHome isl g n (128 * ln + o)
  | .scr _ _ _ | .reg _ _ _ | .pin _ _ | .unc _ | .buf _ _ _ _ => leBytes n (s.targetRead isl l n)

/-- A tagged write of a unit of a core at the home (R266): refused where the version area is full, dropped where its tag is
being refuted; every copy is invalidated but the core's own view line of the tag, which the write updates in place. -/
def State.writeTagged (s : State) (isl core ln off : Nat) (g : BitVec 8) (bs : List Byte) : Bool × State :=
  if (s.isl isl).refuting g then (true, s)
  else if (s.isl isl).versionFull ln g then (false, s)
  else
    let data := bytesLine off bs
    let mask := maskN off bs.length
    let own := ((s.isl isl).l1? core ln).filter fun a => a.view = g
    let s := ((s.recallLine isl ln).useSlice isl (sliceOf ln)).modIsl isl fun x =>
      { x with versions := putVersion x.versions ln g data mask }
    let s := s.trimSlice isl ln
    match own with
    | some a => (true, (s.modIsl isl fun x =>
        (x.setL1 core ln (some { a with data := lineMerge a.data data mask })).modH ln fun h =>
          { h with clusters := h.clusters ||| (1#32 <<< clusterOf core) }))
    | none => (true, s)

/-- Writes bytes of one line at a place for a unit of a core; false where a tagged write is refused for capacity. -/
def State.writeLoc (s : State) (isl core : Nat) (g : BitVec 8) (launch : Nat) (l : Loc) (bs : List Byte) : Bool × State :=
  match l with
  | .line ln o => if g = 0 then (true, s.writeHomeLine isl ln o launch bs) else s.writeTagged isl core ln o g bs
  | .scr c _ _ | .reg c _ _ | .pin c _ => (true, (s.targetWrite isl l bs.length (leNat bs)).fireMonitors isl c l)
  | .unc _ | .buf _ _ _ _ => (true, s.targetWrite isl l bs.length (leNat bs))

/-- Notes a unit's access to a place at its slice, and a stack that it reads leaves self-refresh (R428). -/
def State.useLoc (s : State) (isl : Nat) (l : Loc) : State :=
  match l with
  | .line ln _ =>
    let miss := !((s.isl isl).hline ln).inSlice && decide (ln < sliceLine0)
    let s := s.useSlice isl (sliceOf ln)
    if miss then
      (s.modIsl isl fun x => { x.modH ln fun h => { h with inSlice := true } with refresh := [] }).trimSlice isl ln
    else s
  | .unc _ | .buf _ _ _ _ => s.modIsl isl fun x => { x with refresh := [] }
  | .scr _ _ _ | .reg _ _ _ | .pin _ _ => s

/-- What a unit's read answers: the bytes up to the first fault, the fault with its address, the tainted addresses. -/
structure Got where
  bytes : List Byte := []
  fault : Option (Nat × VA) := none
  poison : List VA := []
  deriving DecidableEq, Repr, Inhabited

/-- Reads bytes at a virtual address. -/
def State.readVa (s : State) (isl core place : Nat) (asid : BitVec 16) (priv : Bool) (w : Want) (g : BitVec 8) (va : VA)
    (n : Nat) : Got × State :=
  (linePieces (va.toNat % 128) n).foldl (fun (p : Got × State) c =>
    if p.1.fault.isSome then p
    else
      let a := vaPlus va c.1
      match p.2.placeOf isl core place asid priv w a with
      | (.error code, s) => ({ p.1 with fault := some (code, a) }, s)
      | (.ok l, s) =>
        let t := s.tainted isl l c.2
        ({ p.1 with bytes := p.1.bytes ++ t.2.readLoc isl g l c.2,
                    poison := if t.1 then p.1.poison ++ [a] else p.1.poison }, t.2.useLoc isl l)) ({}, s)

/-- A little-endian number at a virtual address; none where an access faults. -/
def State.readVaN (s : State) (isl : Nat) (asid : BitVec 16) (priv : Bool) (va : VA) (n : Nat) : Option Nat × State :=
  if inWindow va then (none, s)
  else
    let p := s.readVa isl 0 noPlace asid priv .read 0 va n
    (if p.1.fault.isSome then none else some (leNat p.1.bytes), p.2)

/-- Writes bytes at a virtual address with home reach; false where an access faults, with nothing further written. -/
def State.writeVa (s : State) (isl core place : Nat) (asid : BitVec 16) (priv : Bool) (launch : Nat) (va : VA) (bs : List Byte) :
    Bool × State :=
  (linePieces (va.toNat % 128) bs.length).foldl (fun (p : Bool × State) c =>
    if !p.1 then p
    else
      match p.2.placeOf isl core place asid priv .write (vaPlus va c.1) with
      | (.error _, s) => (false, s)
      | (.ok l, s) => s.writeLoc isl core 0 launch l ((bs.drop c.1).take c.2)) (true, s)

/-- Whether a unit may write at a virtual address now (a fault is found by the write). -/
def State.vaQuiet (s : State) (isl : Nat) (asid : BitVec 16) (priv : Bool) (va : VA) (n : Nat) : Bool :=
  (linePieces (va.toNat % 128) n).all fun c =>
    match (s.walk isl asid (vaPlus va c.1)).1 with
    | .leaf pte level _ => (match leafGrant pte level priv .write (vaPlus va c.1) with
      | .ok l => (s.isl isl).locQuiet l
      | .error _ => true)
    | .bad => true

/-- Cycles of a read or of a write's way between a core and a place (R244); a slice in retention sleep takes 2,000 more for
its wake (R428). -/
def Island.locCycles (x : Island) (core : Nat) (l : Loc) : Nat :=
  match l with
  | .line ln _ =>
    (if (x.hline ln).inSlice || sliceLine0 ≤ ln then 2 * hop core (sliceOf ln) else Config.latHbm) +
      (if x.asleep.contains (sliceOf ln) then 2000 else 0)
  | .scr _ _ _ | .reg _ _ _ | .pin _ _ | .unc _ | .buf _ _ _ _ => targetLatency core l

/-! ## The records of engines (R289, R336, R358, R373, R378) -/

/-- Posts the record of an agent that is no group's instruction, or attaches the agent to a pending one. An XLATE of
translated memory is one of a walk. -/
def State.postAgent (s : State) (isl : Nat) (r : RecArgs) (op : Option Nat) (lanes : LaneMask) : State :=
  let walked := r.code = cXlate && !inWindow r.addr
  match if walked then (s.isl isl).findRec fun f => attachesTo f r.asid r.addr else none with
  | some i => s.modIsl isl fun x => { x with faults := x.faults.modify i fun f => f.attach r.agent op }
  | none =>
    let c := s.ctxEntry isl r.asid
    c.2.post isl
      { bits := recordBits { r with coal := walked, priv := r.code = cXlate && privGrowth c.1 r.addr }, op := op, lanes := lanes }

/-- A refused tagged write of an engine is charged to a lane of the issuing group, or posted where the lane's thread is
gone (R269). -/
def State.chargeFull (s : State) (isl id lane : Nat) (o : Op) (va : VA) : State :=
  let addr : DWord := BitVec.ofNat 64 (va.toNat / 128 * 128)
  match (s.isl isl).opGroup? o with
  | some g =>
    if (tget? g.threads lane).isSome then
      s.onOpGroup isl o fun g =>
        if g.due.any fun d => d.op = id && d.lane = lane then
          { g with due := g.due.map fun d =>
              if d.op = id && d.lane = lane && addr.toNat < d.info.toNat then { d with info := addr } else d }
        else { g with due := g.due ++ [{ lane := lane, op := id, code := 8, info := addr }] }
    else lost s addr
  | none => lost s addr
where
  /-- The record of a refusal that no thread takes. -/
  lost (s : State) (addr : DWord) : State :=
    let r : RecArgs :=
      { code := 8, info := addr, addr := addr.setWidth 72, lanes := maskOf [lane], cp := o.cp, launch := o.launch,
        asid := o.asid, agent := agentWord 0 o.core o.slot, write := true }
    s.post isl { bits := recordBits r }

end Sys2Proof.Machine
end

