-- ==== Sys2Proof/Machine/Hypothesis.lean ====
section
/-! DEFINITION. The hypothesis instructions, the hypothesis controller and the traps of orphans and of refused writes
(R262-R283). -/

namespace Sys2Proof.Machine

/-! ## The tree (R262) -/

/-- Whether a hypothesis or one of its ancestors is RESOLVING. -/
def Island.resolvingAt (x : Island) (g : Nat) : Bool := (chainOf x.hyps 9 g).any fun h => (x.hyp h).st = .resolving

/-- Whether a context owns a hypothesis; every context owns the root (R279). -/
def Island.owns (x : Island) (g : Nat) (asid : BitVec 16) : Bool := g = 0 || (x.hyp g).asid == asid

/-- Whether a hypothesis lies in the subtree of another. -/
def Island.inSubtree (x : Island) (h g : Nat) : Bool := h = 0 || (chainOf x.hyps 9 g).contains h

/-- Whether a confirm in progress holds the memory instructions of a hypothesis (R272). -/
def Island.holdsHy (x : Island) (hy : BitVec 8) : Bool :=
  hy ≠ 0 && x.resolve.any fun r => r.confirm && !r.committed && x.inSubtree r.id.toNat hy.toNat

/-- Version lines of an ID (R262, R282). -/
def Island.linesOf (x : Island) (g : Nat) : Nat := (x.versions.filter fun v => v.tag.toNat = g).length

/-! ## The requests (R279-R282) -/

/-- `HYP.OPEN` at the controller: the result word, and the new entry. -/
def Island.hypOpen (x : Island) (o : Op) : Nat × Island :=
  let p := o.a.toNat
  if 255 < p || (x.hyp p).st ≠ .opened || x.resolvingAt p || !x.owns p o.asid then (0x200, x)
  else if (x.hyp p).depth.toNat = 8 then (0x300, x)
  else match (List.range 255).find? fun i => (x.hyp (i + 1)).st = .free with
    | none => (0x100, x)
    | some i =>
      let e : Hyp := { st := .opened, parent := BitVec.ofNat 8 p, depth := (x.hyp p).depth + 1, asid := o.asid,
                       launch := BitVec.ofNat 16 (launchNum o.launch) }
      (i + 1, { x with hyps := tput x.hyps (i + 1) e })

/-- `HYP.ENTER` at the controller: the status. -/
def Island.hypEnter (x : Island) (o : Op) : Nat :=
  let g := o.a.toNat
  if 255 < g || ((x.hyp g).st ≠ .opened && (x.hyp g).st ≠ .resolving) then 1
  else if !x.owns g o.asid then 2
  else if x.resolvingAt g then 3
  else 0

/-- The word of `HYP.QRY` (R282). -/
def Island.hypWord (x : Island) (g : Nat) (asid : BitVec 16) : DWord :=
  let h := x.hyp g
  let st := match h.st with | .free => 0 | .opened => 1 | .resolving => 2 | .forward => 3
  if st = 0 then BitVec.ofNat 64 (g + x.linesOf g * 2 ^ 32)
  else BitVec.ofNat 64 (g + (if st = 3 then h.fwd.toNat else h.parent.toNat) * 2 ^ 16 + b2n (st = 3 && h.refuted) * 2 ^ 24 +
    b2n (x.owns g asid) * 2 ^ 25 + h.depth.toNat * 2 ^ 26 + st * 2 ^ 30 + x.linesOf g * 2 ^ 32)

/-- The hypothesis of an operation's group as it stands. -/
def Island.groupHy (x : Island) (o : Op) : Nat :=
  match x.opGroup? o with
  | some g => g.hy.toNat
  | none => o.hy.toNat

/-- Schedules the answer of a unit to the core of an operation. -/
def State.replyIn (s : State) (isl d id : Nat) : State := s.at (.cyc isl (s.cyc isl + d)) (.reply isl id)

/-- A request is performed at the controller (R278-R282); its answer travels back to the core. -/
def execHypothesisControllerRequest (s : State) : Host.Outcome State Fault Refusal :=
  event s fun as s =>
    let isl := ar as 0
    let id := ar as 1
    match s.op? isl id with
    | none => s
    | some o =>
      let x := s.isl isl
      let r : DWord × DWord × Island := match o.instr with
        | .hypOpen .. => let p := x.hypOpen o; (BitVec.ofNat 64 p.1, 0, p.2)
        | .hypEnter .. => (BitVec.ofNat 64 (x.hypEnter o), o.a, x)
        | .hypLeave .. =>
          let p : DWord := (x.hyp (x.groupHy o)).parent.setWidth 64
          (p, p, x)
        | .hypQryCur .. => (x.hypWord (x.groupHy o) o.asid, 0, x)
        | _ => (if 255 < o.a.toNat then 0 else x.hypWord o.a.toNat o.asid, 0, x)
      ((s.setIsl isl r.2.2).modOp isl id fun o => { o with res := r.1, b := r.2.1, performed := true }).replyIn isl (halfTrip o.core) id

/-- The answer of the controller reaches the core: `hy` changes with the completion (R280); a confirm in progress holds the
group from then on, or no longer (R272). -/
def State.hypReply (s : State) (isl id : Nat) : State :=
  match s.op? isl id with
  | none => s
  | some o =>
    let hy : BitVec 8 := o.b.setWidth 8
    let move (s : State) : State := s.onOpGroup isl o fun g => { g with hy := hy, quiesced := (s.isl isl).holdsHy hy }
    let s := match o.instr with
      | .hypEnter .. => if o.res = 0 then move s else s
      | .hypLeave .. => move s
      | _ => s
    s.endOp isl id

/-! ## The instructions (R278) -/

/-- A hypothesis instruction: it acts once for the group; `enters` holds the classes of R280 until it ends. -/
def hypOp (i : Instr) (c : Ctl) (regs : List (Opnd × Bool)) (y : Env → Word) (enters : Bool) (s : State) :
    Host.Outcome State Fault Refusal :=
  issue i c regs noPre (fun e s =>
    if !e.any then s.flagNow e c
    else
      let id := s.nextId
      let s := s.launchOp e { e.op i c with a := (y e).setWidth 64 }
      if enters then s.onGroup e fun g => { g with entering := g.entering ++ [id] } else s) s

def execHypOpen (c : Ctl) (x y : Opnd) (s : State) : Host.Outcome State Fault Refusal :=
  hypOp (.hypOpen c x y) c [(x, false), (y, false)] (fun e => zeroImm e y) false s

def execHypEnter (c : Ctl) (x y : Opnd) (s : State) : Host.Outcome State Fault Refusal :=
  hypOp (.hypEnter c x y) c [(x, false), (y, false)] (fun e => zeroImm e y) true s

def execHypLeave (c : Ctl) (x : Opnd) (s : State) : Host.Outcome State Fault Refusal :=
  hypOp (.hypLeave c x) c [(x, false)] (fun _ => 0) true s

def execHypResolveConfirm (c : Ctl) (x y : Opnd) (s : State) : Host.Outcome State Fault Refusal :=
  hypOp (.hypResolveConfirm c x y) c [(x, false), (y, false)] (fun e => zeroImm e y) false s

def execHypResolveRefute (c : Ctl) (x y : Opnd) (s : State) : Host.Outcome State Fault Refusal :=
  hypOp (.hypResolveRefute c x y) c [(x, false), (y, false)] (fun e => zeroImm e y) false s

def execHypQry (c : Ctl) (x y : Opnd) (s : State) : Host.Outcome State Fault Refusal :=
  hypOp (.hypQry c x y) c [(x, true), (y, false)] (fun e => zeroImm e y) false s

def execHypQryCur (c : Ctl) (x : Opnd) (s : State) : Host.Outcome State Fault Refusal :=
  hypOp (.hypQryCur c x) c [(x, true)] (fun _ => 0) false s

/-! ## Resolves (R271-R277) -/

/-- Whether an operation has a tagged write with a tag of a subtree that is not acknowledged. -/
def Island.tagPending (x : Island) (h : Nat) (o : Op) : Bool :=
  o.hy ≠ 0 && x.inSubtree h o.hy.toNat && match o.instr with
    | .cpy .. | .cpyb .. => true
    | .st .. | .atom .. | .cas .. => o.subs.any fun u => u.stage ≠ .done && u.accs.any fun a => match a.loc with
      | some (.scr _ _ _) | some (.reg _ _ _) => false
      | _ => true
    | _ => false

/-- Whether every tagged write with a tag of a subtree has been acknowledged; a context writes with its own tag (R264). -/
def Island.tagsQuiet (x : Island) (h : Nat) : Bool :=
  !(x.ops.any fun p => x.tagPending h p.2) &&
    !(x.cores.any fun k => k.2.places.any fun w => w.2.ctx.any fun c =>
      c.readout.any fun m => m.isMrd && m.hy ≠ 0 && x.inSubtree h m.hy.toNat)

/-- Invalidates view lines whose VIEW a predicate holds of. -/
def Island.dropViews (x : Island) (p : Nat → Bool) : Island :=
  x.cores.foldl (fun (x : Island) (k : Nat × CoreS) =>
    k.2.l1.foldl (fun (x : Island) (l : Nat × L1Line) =>
      if l.2.view ≠ 0 && p l.2.view.toNat then x.setL1 k.1 l.1 none else x) x) x

/-- Changes every group and every context of an island. -/
def Island.mapHy (x : Island) (f : Group → Group) (g : Ctx → Ctx) : Island :=
  { x with cores := tmap x.cores fun _ (k : CoreS) =>
      { k with groups := tmap k.groups fun _ a => f a, places := tmap k.places fun _ (w : Wg) => { w with ctx := w.ctx.map g } } }

/-- What is in flight after the hypotheses of a list have been resolved: reads see the parent's view, a view on its way to a
core is not kept (R268, R272, R276). A write that stands in a saved image goes on with the parent's tag after a confirm, and
is dropped after a refute (R274). -/
def Island.retag (x : Island) (confirm : Bool) (t : List Nat) (p : BitVec 8) : Island :=
  let hit (g : BitVec 8) : Bool := g ≠ 0 && t.contains g.toNat
  let saved (o : Op) : Op :=
    if !hit o.hy then o
    else if confirm then { o with hy := p }
    else
      let drop := isWrite o.instr
      { o with hy := p, refuted := o.refuted || drop || copyInstr o.instr,
               subs := if drop then o.subs.map fun u => { u with stage := .done } else o.subs }
  { x with
    ops := tmap x.ops fun _ o => if hit o.hy then { o with hy := p } else o,
    reqs := tmap x.reqs fun _ r => if !hit r.tag then r
      else match r.kind with
        | .view => { r with stale := true }
        | _ => { r with tag := p },
    saved := x.saved.map fun v => { v with ops := v.ops.map fun q => (q.1, q.2.1, saved q.2.2) } }

/-- Marks the views on their way to a core whose hypothesis a predicate holds of: they are not kept. -/
def Island.staleViews (x : Island) (p : Nat → Bool) : Island :=
  { x with reqs := tmap x.reqs fun _ r => match r.kind with
      | .view => if r.tag ≠ 0 && p r.tag.toNat then { r with stale := true } else r
      | _ => r }

/-- Wakes every slice that sleeps (R272, R274). -/
def State.wakeAll (s : State) (isl : Nat) : State := (s.isl isl).asleep.foldl (fun (s : State) sl => s.useSlice isl sl) s

/-- The hypotheses of a subtree. -/
def Island.subtree (x : Island) (h : Nat) : List Nat :=
  (x.hyps.filter fun p => p.1 ≠ 0 && (p.2.st = .opened || p.2.st = .resolving) && x.inSubtree h p.1).map (·.1)

/-- A `HYP.ENTER` or `HYP.LEAVE` on its way back to its core brings another hypothesis than the one it was answered with; a
`HYP.LEAVE` writes the new `hy` (R272, R274, R280). -/
def Op.goesTo (o : Op) (p : BitVec 8) : Op :=
  match o.instr with
  | .hypLeave .. => { o with b := p.setWidth 64, res := p.setWidth 64 }
  | _ => { o with b := p.setWidth 64 }

/-- The orphan step of a refute (R274): groups and contexts of the subtree move to the parent; every thread is an orphan,
blocked instructions are cancelled, a lane parked for an overlay too (R132), contexts stop; view lines of the subtree go. -/
def State.orphan (s : State) (isl h : Nat) : State :=
  let x := s.isl isl
  let p := (x.hyp h).parent
  let hit (g : BitVec 8) : Bool := g ≠ 0 && x.inSubtree h g.toNat
  let mark (g : Group) (old : BitVec 8) : Group :=
    { g with hy := p, orphInfo := BitVec.ofNat 64 (old.toNat + h * 256 + p.toNat * 65536),
             threads := tmap g.threads fun _ t =>
               { t with orph := true, stat := match t.stat with | .ovl _ _ _ => .ready | st => st } }
  -- a group that is entering the subtree enters the parent instead, as an orphan
  let entering := x.ops.filter fun q => q.2.performed && hit (q.2.b.setWidth 8) && match q.2.instr with
    | .hypEnter .. => q.2.res = 0
    | .hypLeave .. => true
    | _ => false
  let s := entering.foldl (fun (s : State) (q : Nat × Op) =>
    (s.onOpGroup isl q.2 fun g => { mark g (q.2.b.setWidth 8) with hy := g.hy }).modOp isl q.1 fun o => o.goesTo p) s
  x.cores.foldl (fun (s : State) (k : Nat × CoreS) =>
    let s := k.2.groups.foldl (fun (s : State) (q : Nat × Group) =>
      if hit q.2.hy then
        let s := ((s.isl isl).opsOf k.1 q.1 q.2.age).foldl (fun (s : State) (o : Nat × Op) =>
          if opBlocked o.2 then s.cancelOp isl o.1 else s) s
        s.modIsl isl fun x => x.modGroup k.1 q.1 fun g => mark g q.2.hy
      else s) s
    k.2.places.foldl (fun (s : State) (w : Nat × Wg) =>
      match w.2.ctx with
      | some c =>
        -- what reads sees the parent's view from now on; the writes of an `MRD` are dropped under their own tag
        let s := s.modIsl isl fun x => x.modCtx k.1 w.1 fun c =>
          { c.onOps fun m => if hit m.hy && !m.isMrd then { m with hy := p } else m with hy := if hit c.hy then p else c.hy }
        if c.st ≠ .idle && hit c.hy then s.stopCtx isl k.1 w.1 else s
      | none => s) s) s |>.modIsl isl fun x => x.dropViews fun g => x.inSubtree h g

/-- Cycles more where a slice sleeps (R283). -/
def Island.wakeCycles (x : Island) : Nat := if x.asleep.isEmpty then 0 else 2000

/-- Begins a resolve (R272, R274): a confirm quiesces and comes to its hold step 600 cycles later; a refute orphans and waits
from then on for the acknowledgements of its tagged writes (R283). -/
def State.beginResolve (s : State) (isl : Nat) (r : Resolve) : State :=
  let x := s.isl isl
  let cyc := s.cyc isl
  if r.confirm then
    let s := (s.modIsl isl fun x => { x with resolve := some r }).wakeAll isl
    let s := s.modIsl isl fun x => x.mapHy (fun g => { g with quiesced := x.holdsHy g.hy }) fun c => { c with quiesced := x.holdsHy c.hy }
    s.at (.cyc isl (cyc + 600 + x.wakeCycles)) (.row .confirmCommitPoint [isl])
  else ((s.modIsl isl fun x => { x with resolve := some r }).orphan isl r.id.toNat).after isl 0 .resolveCompletion [isl]

/-- A resolve is accepted: RESOLVING at once, applied when those before it are (R271). -/
def State.acceptResolve (s : State) (isl : Nat) (r : Resolve) : State :=
  let s := s.modIsl isl fun x => { x with hyps := tmod x.hyps r.id.toNat fun h => { h with st := .resolving } }
  if (s.isl isl).resolve.isSome then s.modIsl isl fun x => { x with resolveQ := x.resolveQ ++ [r] } else s.beginResolve isl r

/-- The status with which a resolve is rejected (R281). -/
def Island.resolveStatus (x : Island) (o : Op) : Nat :=
  let g := o.a.toNat
  if g = 0 then 3
  else if 255 < g || (x.hyp g).st = .free || (x.hyp g).st = .forward then 1
  else if !o.priv && !x.owns g o.asid then 2
  else if x.resolvingAt g then 4
  else 0

/-- A resolve arrives at the controller (R271, R281). -/
def execResolveArrival (s : State) : Host.Outcome State Fault Refusal :=
  event s fun as s =>
    let isl := ar as 0
    let id := ar as 1
    match s.op? isl id with
    | none => s
    | some o =>
      let st := (s.isl isl).resolveStatus o
      if st ≠ 0 then (s.modOp isl id fun o => { o with res := BitVec.ofNat 64 st }).replyIn isl (halfTrip o.core) id
      else s.acceptResolve isl
        { op := id, id := o.a.setWidth 8, confirm := match o.instr with | .hypResolveConfirm .. => true | _ => false }

/-- Whether nothing is in progress on a line that a confirm holds. -/
def Island.heldQuiet (x : Island) (ln : Nat) : Bool :=
  (x.hline ln).txn.isNone && (x.inFlight ln).isEmpty &&
    !(x.reqs.any fun p => p.2.line = ln && p.2.mask ≠ 0 && !(x.hline ln).queue.contains p.1)

/-- Cycles of the recall of a line: to the farthest core that holds a copy, and back (R219, R283). -/
def Island.recallCycles (x : Island) (ln : Nat) : Nat :=
  let cores := ((List.range 32).flatMap fun k => x.holders k ln) ++ ((x.hline ln).owner.map (·.1)).toList
  cores.foldl (fun m c => max m (2 * hop c (sliceOf ln))) 0

/-- Applies one version at the commit point (R272). -/
def State.commitVersion (s : State) (isl h : Nat) (p : BitVec 8) (v : Version) : State :=
  let s := (s.recallLine isl v.line).modIsl isl fun x =>
    { x with versions := x.versions.filter fun w => !(w.line = v.line && w.tag.toNat = h) }
  if p = 0 then s.homeWrite isl v.line v.data v.mask false 0
  else s.modIsl isl fun x => { x with versions := putVersion x.versions v.line p v.data v.mask }

/-- The commit point of a confirm (R272, R273): once the tagged writes are acknowledged and the lines held, the copies are
recalled, and the commit point follows the longest recall. -/
def execConfirmCommitPoint (s : State) : Host.Outcome State Fault Refusal :=
  event s fun as s =>
    let isl := ar as 0
    match (s.isl isl).resolve with
    | none => s
    | some r =>
      let h := r.id.toNat
      let x := s.isl isl
      if r.committed || !r.confirm then s
      else if !x.tagsQuiet h then s.afterOnce isl 1 .confirmCommitPoint [isl]
      else
        let vs := x.versions.filter fun v => v.tag.toNat = h
        let s := s.modIsl isl fun x => vs.foldl (fun x v => x.modH v.line fun l => { l with held := true }) x
        let recalls := vs.foldl (fun m v => max m (x.recallCycles v.line)) 0
        if vs.any fun v => !(s.isl isl).heldQuiet v.line then s.afterOnce isl 1 .confirmCommitPoint [isl]
        else if !r.ready && recalls ≠ 0 then
          ((vs.foldl (fun s v => s.recallLine isl v.line) s).modIsl isl fun x => { x with resolve := some { r with ready := true } }).after
            isl recalls .confirmCommitPoint [isl]
        else
          let p := (x.hyp h).parent
          let s := vs.foldl (fun s v => s.commitVersion isl h p v) s
          let sub := x.subtree h
          let s := s.modIsl isl fun x =>
            let x := (x.mapHy (fun g => { g with quiesced := false, hy := if g.hy = r.id then p else g.hy }) fun c =>
              { c.mapHy fun g => if g = r.id then p else g with quiesced := false }).retag true [h] p
            let x := { x with
              ops := tmap x.ops fun _ o => match o.instr with
                | .hypEnter .. | .hypLeave .. => if o.performed && o.b = r.id.setWidth 64 then o.goesTo p else o
                | _ => o,
              hyps := tmap x.hyps fun g e =>
                if g ≠ h && sub.contains g then
                  { e with depth := e.depth - 1, parent := if e.parent = r.id then p else e.parent } else e,
              resolve := some { r with committed := true } }
            (x.staleViews fun g => x.inSubtree p.toNat g).dropViews fun g => x.inSubtree p.toNat g
          -- the held requests go on
          let s := vs.foldl (fun (s : State) v =>
            let s := s.modIsl isl fun x => x.modH v.line fun l => { l with held := false }
            match ((s.isl isl).hline v.line).queue with
            | q :: _ => match tget? (s.isl isl).reqs q with
              | some rq => s.after isl 1 (reqRow rq.kind) [isl, q]
              | none => s
            | [] => s) s
          let most := (List.range 64).foldl (fun m sl => max m (vs.filter fun v => sliceOf v.line = sl).length) 0
          s.after isl (300 + 2 * most) .resolveCompletion [isl]

/-- An ID ends: FREE, or FORWARD while saved groups hold it; a FORWARD entry holds the ID it forwards to (R274, R277). -/
def Island.endHyp (x : Island) (h : Nat) (refuted : Bool) (dest : BitVec 8) : Island :=
  let e := x.hyp h
  if e.holders = 0 then { x with hyps := tput x.hyps h { e with st := .free, asid := 0, launch := 0, refuted := false } }
  else
    let x := { x with hyps := tput x.hyps h { e with st := .forward, refuted := refuted, fwd := dest } }
    { x with hyps := if dest = 0 then x.hyps else tmod x.hyps dest.toNat fun p => { p with holders := p.holders + 1 } }

/-- A resolve completes (R272, R274): the IDs end, the status goes back, the next resolve begins. A refute completes 600 cycles
after the last of its acknowledgements, 2,000 more where a slice had to wake (R283); nothing bears its IDs from then on
(R276). -/
def execResolveCompletion (s : State) : Host.Outcome State Fault Refusal :=
  event s fun as s =>
    let isl := ar as 0
    match (s.isl isl).resolve with
    | none => s
    | some r =>
      let h := r.id.toNat
      let x := s.isl isl
      if r.confirm && !r.committed then s
      else if !r.confirm && !x.tagsQuiet h then s.afterOnce isl 1 .resolveCompletion [isl]
      else if !r.confirm && !r.ready then
        ((s.modIsl isl fun x => { x with resolve := some { r with ready := true } }).wakeAll isl).after isl (600 + x.wakeCycles)
          .resolveCompletion [isl]
      else
        let p := (x.hyp h).parent
        let s := s.modIsl isl fun x =>
          let t := if r.confirm then [h] else x.subtree h
          let x := if r.confirm then x
            else ({ x with versions := x.versions.filter fun v => !t.contains v.tag.toNat }.retag false t p).dropViews fun g => t.contains g
          let x := t.foldl (fun x g => x.endHyp g (!r.confirm) p) x
          { x with resolve := none, resolveQ := x.resolveQ.drop 1 }
        let s := match x.resolveQ with
          | n :: _ => s.beginResolve isl n
          | [] => s
        match s.op? isl r.op with
        | some o => (s.modOp isl r.op fun o => { o with res := 0 }).replyIn isl (halfTrip o.core) r.op
        | none => s

/-! ## Traps before an issue (R269, R275, R359) -/

/-- The run whose turn it is, with the code pointer its threads stand at: under `REP`, the `REP` (R35). -/
def Group.standing (g : Group) (cyc : Nat) : Option (LaneMask × Word) :=
  match g.turn cyc with
  | some (m, cp) => match g.rep with
    | some r => some (m, r.cp)
    | none => some (m, cp)
  | none => none

/-- Orphaned lanes of the run whose turn it is take HYP_ORPHAN before the instruction; delivery clears ORPH (R275). -/
def execHypOrphanTrap (s : State) : Host.Outcome State Fault Refusal :=
  event s fun as s =>
    let isl := ar as 0
    let core := ar as 1
    let gid := ar as 2
    let cyc := s.cyc isl
    match (s.isl isl).group? core gid with
    | none => s
    | some g =>
      match g.standing cyc with
      | none => s
      | some (run, cp) =>
        let lanes := run &&& maskOf ((g.threads.filter fun p => p.2.orph).map (·.1))
        let s := s.modIsl isl fun x => x.modGroup core gid fun g =>
          modThreads (settle g cyc) lanes fun _ t => { t with orph := false, stat := .ready }
        s.trap isl core gid lanes 7 g.orphInfo cp cp (settle g (cyc + 4)).tvec

/-- The traps that wait for the issue of the run whose turn it is: of each lane the earliest (R269, R359). -/
def State.deliverDue (s : State) (isl core gid : Nat) : State :=
  let cyc := s.cyc isl
  match (s.isl isl).group? core gid with
  | none => s
  | some g =>
    match g.standing cyc with
    | none => s
    | some (run, cp) =>
      let first := g.due.filter fun d => run.getLsbD d.lane && !(g.due.any fun e => e.lane = d.lane && e.op < d.op)
      let s := s.modIsl isl fun x => x.modGroup core gid fun g =>
        let g := settle g cyc
        { modThreads g (maskOf (first.map (·.lane))) fun _ t => { t with stat := .ready } with
          due := g.due.filter fun d => !first.contains d }
      let kinds := (first.map fun d => (d.code, d.info)).eraseDups
      kinds.foldl (fun (s : State) q =>
        s.trap isl core gid (maskOf ((first.filter fun d => d.code = q.1 && d.info = q.2).map (·.lane))) q.1.toNat q.2 cp cp
          (settle g (cyc + 4)).tvec) s

end Sys2Proof.Machine
end

