-- ==== Sys2Proof/Machine/Sync.lean ====
section
/-! DEFINITION. Synchronisation objects: barriers (R299-R304), stage rings (R305, R306), notify counters (R307-R309), panel
barriers with the route swap (R310-R314, R365), and what a forced save or a refute leaves of a wait (R315). -/

namespace Sys2Proof.Machine

/-! ## Issue (R298) -/

/-- A synchronisation instruction: it acts once for the group, if the guard holds anywhere. -/
def syncOp (i : Instr) (c : Ctl) (regs : List (Opnd × Bool)) (f : Env → State → Op → Op) (s : State) :
    Host.Outcome State Fault Refusal :=
  issue i c regs noPre (fun e s => if !e.any then s.flagNow e c else s.launchOp e (f e s (e.op i c))) s

/-- The barrier wait that remains with a run whose arrival was made already (R315). -/
def Env.kept (e : Env) (panel : Bool) : Option WaitRec :=
  e.g.threads.findSome? fun p => if e.run.getLsbD p.1 then p.2.wait.filter fun w => w.cp == e.cp && w.panel == panel else none

/-- An arrival that also waits: one that was made before its cancelling does not arrive again (R315). -/
def arriveOrWait (e : Env) (panel : Bool) (o : Op) : Op :=
  match e.kept panel with
  | some w => { o with performed := true, b := BitVec.ofNat 64 (b2n w.phase), lanes := 0 }
  | none => o

def execBarInit (c : Ctl) (x : Opnd) (k : BitVec 10) (z : ZOp) (s : State) : Host.Outcome State Fault Refusal :=
  syncOp (.barInit c x k z) c [(x, false), zreg z false]
    (fun e _ o => { o with a := (e.rdZ32 z e.lane0).setWidth 64 }) s

def execBarArv (c : Ctl) (x : Option Opnd) (k : BitVec 10) (z : ZOp) (s : State) : Host.Outcome State Fault Refusal :=
  syncOp (.barArv c x k z) c ((x.map fun o => (o, false)).toList ++ [zreg z false])
    (fun e _ o => { o with a := (e.rdZ32 z e.lane0).setWidth 64 }) s

def execBarWait (c : Ctl) (k : BitVec 10) (z : ZOp) (s : State) : Host.Outcome State Fault Refusal :=
  syncOp (.barWait c k z) c [zreg z false] (fun e _ o => { o with b := (e.rdZ32 z e.lane0).setWidth 64 }) s

def execBarArw (c : Ctl) (k : BitVec 10) (z : ZOp) (s : State) : Host.Outcome State Fault Refusal :=
  syncOp (.barArw c k z) c [zreg z false]
    (fun e _ o => arriveOrWait e false { o with a := (e.rdZ32 z e.lane0).setWidth 64 }) s

def execRingInit (c : Ctl) (x : Opnd) (k : BitVec 10) (z : ZOp) (s : State) : Host.Outcome State Fault Refusal :=
  syncOp (.ringInit c x k z) c [(x, false), zreg z false]
    (fun e _ o => { o with a := (e.rdZ32 z e.lane0).setWidth 64 }) s

def execRingPushRsv (c : Ctl) (x : Opnd) (k : BitVec 10) (s : State) : Host.Outcome State Fault Refusal :=
  syncOp (.ringPushRsv c x k) c [(x, false)] (fun _ _ o => o) s

def execRingPushCmt (c : Ctl) (x : Opnd) (k : BitVec 10) (z : ZOp) (s : State) : Host.Outcome State Fault Refusal :=
  syncOp (.ringPushCmt c x k z) c [(x, false), zreg z false]
    (fun e _ o => { o with a := (e.rdZ32 z e.lane0).setWidth 64 }) s

def execRingPopTake (c : Ctl) (x : Opnd) (k : BitVec 10) (s : State) : Host.Outcome State Fault Refusal :=
  syncOp (.ringPopTake c x k) c [(x, false)] (fun _ _ o => o) s

def execRingPopFree (c : Ctl) (x : Opnd) (k : BitVec 10) (z : ZOp) (s : State) : Host.Outcome State Fault Refusal :=
  syncOp (.ringPopFree c x k z) c [(x, false), zreg z false]
    (fun e _ o => { o with a := (e.rdZ32 z e.lane0).setWidth 64 }) s

def execNtfy (c : Ctl) (sys : Bool) (y : Opnd) (z : ZOp) (s : State) : Host.Outcome State Fault Refusal :=
  syncOp (.ntfy c sys y z) c [(y, false), zreg z false]
    (fun e _ o => { o with a := (e.rd32 y e.lane0).setWidth 64, b := (e.rdZ32 z e.lane0).setWidth 64 }) s

def execNtfySet (c : Ctl) (sys : Bool) (y : Opnd) (z : ZOp) (s : State) : Host.Outcome State Fault Refusal :=
  syncOp (.ntfySet c sys y z) c [(y, false), zreg z true]
    (fun e _ o => { o with a := (e.rd32 y e.lane0).setWidth 64, b := e.rdZ64 z e.lane0 }) s

def execNwait (c : Ctl) (sys : Bool) (x y : Opnd) (z : ZOp) (s : State) : Host.Outcome State Fault Refusal :=
  syncOp (.nwait c sys x y z) c [(x, true), (y, false), zreg z true]
    (fun e _ o => { o with a := (e.rd32 y e.lane0).setWidth 64, b := e.rdZ64 z e.lane0 }) s

def execPbarInit (c : Ctl) (x : Opnd) (k : BitVec 10) (z : ZOp) (s : State) : Host.Outcome State Fault Refusal :=
  syncOp (.pbarInit c x k z) c [(x, false), zreg z false]
    (fun e _ o => { o with a := (e.rdZ32 z e.lane0).setWidth 64 }) s

def execPbarArv (c : Ctl) (x : Opnd) (k : BitVec 10) (s : State) : Host.Outcome State Fault Refusal :=
  syncOp (.pbarArv c x k) c [(x, false)] (fun _ _ o => o) s

def execPbarWait (c : Ctl) (k : BitVec 10) (z : ZOp) (s : State) : Host.Outcome State Fault Refusal :=
  syncOp (.pbarWait c k z) c [zreg z false] (fun e _ o => { o with b := (e.rdZ32 z e.lane0).setWidth 64 }) s

def execPbarArw (c : Ctl) (x : Opnd) (k : BitVec 10) (s : State) : Host.Outcome State Fault Refusal :=
  syncOp (.pbarArw c x k) c [(x, false)] (fun e _ o => arriveOrWait e true o) s

/-- `ROUTE` (R365): an arrival at a panel barrier that arms a swap. -/
def execRoute (c : Ctl) (x : Opnd) (t k : BitVec 10) (s : State) : Host.Outcome State Fault Refusal :=
  let i : Instr := .route c x t k
  issue i c [(x, false)] (hypRemote 0xCE) (fun e s => if !e.any then s.flagNow e c else s.launchOp e (e.op i c)) s

/-! ## Barriers (R300-R303) -/

/-- A barrier of a workgroup: `b0` is the cluster launch's (R300). -/
def Island.bar (x : Island) (core place k : Nat) : Bar :=
  match x.wg? core place with
  | none => {}
  | some w => if k = 0 then ((tget? x.cls w.cl).map (·.b0)).getD {} else tgetD w.bars k {}

/-- Replaces a barrier of a workgroup. -/
def Island.setBar (x : Island) (core place k : Nat) (b : Bar) : Island :=
  match x.wg? core place with
  | none => x
  | some w =>
    if k = 0 then { x with cls := tmod x.cls w.cl fun c => { c with b0 := b } }
    else x.modWg core place fun w => { w with bars := tput w.bars k b }

/-- An arrival of a count: the barrier after it, and the waiters it wakes (R301). -/
def arrive : Nat → Bar → Bar × List Nat
  | 0, b => (b, [])
  | n + 1, b =>
    if b.rem - 1 = 0 then
      let r := arrive n { b with rem := b.exp, phase := !b.phase, waiters := [] }
      (r.1, b.waiters ++ r.2)
    else arrive n { b with rem := b.rem - 1 }

/-- Cycles between a barrier operation and its result, and between an arrival and a wake (R299). -/
def barTime (k : Nat) : Nat := if k = 0 then 60 else 4

/-- Makes an arrival: waiters wake after the time of the barrier. -/
def State.arriveAt (s : State) (isl core place k count : Nat) : State :=
  let r := arrive count ((s.isl isl).bar core place k)
  r.2.foldl (fun s id => s.replyIn isl (barTime k) id) (s.modIsl isl fun x => x.setBar core place k r.1)

/-- The barrier, its index, and whether it blocks, of an operation that waits on one: it blocks while PHASE is the low bit
of the operation's value (R302). -/
def Op.waitsOn (o : Op) : Option Nat :=
  match o.instr with
  | .barWait _ k _ | .barArw _ k _ | .mbarWait k _ | .mbarArw k _ => some k.toNat
  | _ => none

/-- Blocks an operation on a barrier, or answers it (R299, R302). -/
def State.waitOn (s : State) (isl id k : Nat) (o : Op) : State :=
  let b := (s.isl isl).bar o.core o.place k
  if b.phase = o.b.getLsbD 0 then s.modIsl isl fun x => x.setBar o.core o.place k { b with waiters := b.waiters ++ [id] }
  else (s.modOp isl id fun o => { o with sure := true }).replyIn isl (barTime k) id

/-- An arrival that waits: the phase before it is the operation's value (R302). -/
def State.arriveWait (s : State) (isl id k count : Nat) (o : Op) : State :=
  let o : Op := if o.performed then o else
    { o with performed := true, b := BitVec.ofNat 64 (b2n ((s.isl isl).bar o.core o.place k).phase) }
  let first := !((s.op? isl id).any (·.performed))
  let s := s.modOp isl id fun _ => o
  (if first then s.arriveAt isl o.core o.place k count else s).waitOn isl id k o

/-- `BAR.INIT`'s status and the barrier after it (R303). -/
def barInit (b : Bar) (z : Nat) : Nat × Bar :=
  if z = 0 ∨ 4095 < z then (1, b)
  else if b.rem ≠ b.exp ∨ !b.waiters.isEmpty then (2, b)
  else (0, { b with exp := BitVec.ofNat 12 z, rem := BitVec.ofNat 12 z })

/-! ## Stage rings (R305, R306) -/

def Island.ring (x : Island) (core place k : Nat) : Ring :=
  match x.wg? core place with
  | some w => tgetD w.rings k {}
  | none => {}
def Island.setRing (x : Island) (core place k : Nat) (r : Ring) : Island :=
  x.modWg core place fun w => { w with rings := tput w.rings k r }

/-- `RING.INIT`'s status and the ring after it (R305). -/
def ringInit (r : Ring) (n : Nat) : Nat × Ring :=
  if n < 2 ∨ 16 < n then (1, r)
  else if r.slots = 0 ∨ ((r.st.all fun t => t = .empty) ∧ r.put = r.get ∧ r.reservers.isEmpty ∧ r.takers.isEmpty) then
    (0, { slots := n, st := List.replicate n .empty, ph := List.replicate n false })
  else (2, r)

/-- The slot word of a slot (R306). -/
def slotWord (r : Ring) (i : Nat) : Nat := i + 16 * b2n (r.ph.getD i false)

/-- The slot at PUT reserved, if it is EMPTY. -/
def ringRsv (r : Ring) : Option (Nat × Ring) :=
  if r.st.getD r.put .full = .empty then
    some (slotWord r r.put, { r with st := r.st.set r.put .rsvd, put := (r.put + 1) % r.slots })
  else none

/-- The slot at GET taken, if it is FULL. -/
def ringTake (r : Ring) : Option (Nat × Ring) :=
  if r.st.getD r.get .empty = .full then
    some (slotWord r r.get, { r with st := r.st.set r.get .held, get := (r.get + 1) % r.slots })
  else none

/-- Whether a slot word names a slot of a ring in a state and phase. -/
def slotIs (r : Ring) (z : Nat) (t : SlotSt) : Bool :=
  z < 32 && z % 16 < r.slots && r.st.getD (z % 16) .empty = t && b2n (r.ph.getD (z % 16) false) = z / 16

/-- A commit's status and the ring after it. -/
def ringCmt (r : Ring) (z : Nat) : Nat × Ring :=
  if r.slots = 0 then (2, r) else if slotIs r z .rsvd then (0, { r with st := r.st.set (z % 16) .full }) else (1, r)

/-- A free's status and the ring after it. -/
def ringFree (r : Ring) (z : Nat) : Nat × Ring :=
  if r.slots = 0 then (2, r)
  else if slotIs r z .held then
    (0, { r with st := r.st.set (z % 16) .empty, ph := r.ph.set (z % 16) (!r.ph.getD (z % 16) false) })
  else (1, r)

/-- Serves blocked reservers and takers in arrival order: the ring, and the operations served with their slot words. -/
def ringServe : Nat → Ring → Ring × List (Nat × Nat)
  | 0, r => (r, [])
  | fuel + 1, r =>
    match r.reservers, ringRsv r with
    | id :: q, some (w, r') =>
      let p := ringServe fuel { r' with reservers := q }
      (p.1, (id, w) :: p.2)
    | _, _ =>
      match r.takers, ringTake r with
      | id :: q, some (w, r') =>
        let p := ringServe fuel { r' with takers := q }
        (p.1, (id, w) :: p.2)
      | _, _ => (r, [])

/-- Answers an operation with a value, some cycles from now. -/
def State.answer (s : State) (isl id v d : Nat) : State :=
  (s.modOp isl id fun o => { o with res := BitVec.ofNat 64 v, sure := true }).replyIn isl d id

/-- Puts a ring back and answers those it can serve now. -/
def State.putRing (s : State) (isl core place k : Nat) (r : Ring) : State :=
  let p := ringServe (r.reservers.length + r.takers.length) r
  p.2.foldl (fun s q => s.answer isl q.1 q.2 4) (s.modIsl isl fun x => x.setRing core place k p.1)

/-- A reservation or a take: answered, or blocked behind those that came before. -/
def State.ringWait (s : State) (isl id k : Nat) (o : Op) (take : Bool) : State :=
  let r := (s.isl isl).ring o.core o.place k
  if r.slots = 0 then s.answer isl id 0x80000000 4
  else s.putRing isl o.core o.place k
    (if take then { r with takers := r.takers ++ [id] } else { r with reservers := r.reservers ++ [id] })

/-! ## A context's operations (R331) -/

/-- A context fault (R336): dispatch stops; the record is posted by the event. `op` names the operation that
has faulted, where dispatch has passed it. -/
def State.ctxFault (s : State) (isl core place code info addr cp : Nat) (write : Bool) (op : Option Nat) : State :=
  (s.modIsl isl fun x => x.modCtx core place fun c => { c with st := .faulted }).after isl 0 .contextFault
    ([isl, core, place, code, info, addr, cp, b2n write] ++ match op with | some id => [1, id] | none => [0])

/-- The end of an `MBAR`: its setting register is written, dispatch goes on in the next cycle. -/
def State.mbarEnd (s : State) (isl id : Nat) : State :=
  match s.op? isl id with
  | none => s
  | some o =>
    match o.agent with
    | .seq core place =>
      let s := (s.delOp isl id).modIsl isl fun x => x.modCtx core place fun c =>
        let c := { c with waitOp := none, sp := c.sp + 1, st := if c.st = .blocked then .running else c.st, nextDispatch := s.cyc isl + 1 }
        match o.instr with
        | .mbarWait _ y => { c with ms := tput c.ms y.toNat (tgetD c.ms y.toNat 0 ^^^ 1) }
        | .mbarRsv _ y | .mbarTake _ y => { c with ms := tput c.ms y.toNat o.res }
        | _ => c
      s
    | .group _ _ | .unit _ | .island => s

/-- A ring operation of a context that failed: the context faults at the `MBAR` (R331). -/
def State.mbarFail (s : State) (isl id info : Nat) : State :=
  match s.op? isl id with
  | none => s
  | some o =>
    match o.agent with
    | .seq core place =>
      ((s.delOp isl id).modIsl isl fun x => x.modCtx core place fun c => { c with waitOp := none, sp := o.cp }).ctxFault isl
        core place 1 info 0 o.cp.toNat false none
    | .group _ _ | .unit _ | .island => s

/-- The status of a commit or free goes to its agent. -/
def State.ringStatus (s : State) (isl id st : Nat) (o : Op) : State :=
  match o.agent with
  | .seq _ _ => if st = 0 then s.mbarEnd isl id else s.mbarFail isl id st
  | .group _ _ | .unit _ | .island => s.answer isl id st 4

/-! ## The unit (R299) -/

/-- The flag of an instruction without a destination falls when it is performed, though its run may sleep on (R298). -/
def State.performFlag (s : State) (isl id : Nat) : State :=
  match s.op? isl id with
  | none => s
  | some o =>
    if (destOf o.instr).isSome then s
    else (s.onOpGroup isl o fun g => flagDown g o.flag).modOp isl id fun o => { o with flag := none }

/-- An operation is performed at its synchronisation unit. -/
def execSyncUnitOperation (s : State) : Host.Outcome State Fault Refusal :=
  event s fun as s =>
    let isl := ar as 0
    let id := ar as 1
    match s.op? isl id with
    | none => s
    | some o =>
      let x := s.isl isl
      let z := fld o.a 0 32
      let core := o.core
      let place := o.place
      match o.instr with
      | .barInit _ _ k _ =>
        let r := barInit (x.bar core place k.toNat) z
        (s.setIsl isl (x.setBar core place k.toNat r.2)).answer isl id r.1 (barTime k.toNat)
      | .barArv _ d k _ =>
        let p := b2n (x.bar core place k.toNat).phase
        let s := s.arriveAt isl core place k.toNat (z % 4096)
        if d.isSome then s.answer isl id p (barTime k.toNat) else s.endOp isl id
      | .barWait _ k _ => (s.waitOn isl id k.toNat o).performFlag isl id
      | .barArw _ k _ => (s.arriveWait isl id k.toNat (z % 4096) o).performFlag isl id
      | .ringInit _ _ k _ =>
        let r := ringInit (x.ring core place k.toNat) z
        (s.setIsl isl (x.setRing core place k.toNat r.2)).answer isl id r.1 4
      | .ringPushRsv _ _ k => s.ringWait isl id k.toNat o false
      | .ringPopTake _ _ k => s.ringWait isl id k.toNat o true
      | .ringPushCmt _ _ k _ | .mbarCmt k _ =>
        let r := ringCmt (x.ring core place k.toNat) z
        (s.putRing isl core place k.toNat r.2).ringStatus isl id r.1 o
      | .ringPopFree _ _ k _ | .mbarFree k _ =>
        let r := ringFree (x.ring core place k.toNat) z
        (s.putRing isl core place k.toNat r.2).ringStatus isl id r.1 o
      | .mbarArv k _ => (s.arriveAt isl core place k.toNat (z % 4096)).mbarEnd isl id
      | .mbarWait k _ => s.waitOn isl id k.toNat o
      | .mbarArw k _ => s.arriveWait isl id k.toNat (z % 4096) o
      | .mbarRsv k _ => s.ringWait isl id k.toNat o false
      | .mbarTake k _ => s.ringWait isl id k.toNat o true
      | _ => s

/-- The answer of a unit reaches the core of an operation: a waiter whose barrier shows its phase again blocks (R302);
otherwise the operation ends with its acquire. -/
def State.syncReply (s : State) (isl id : Nat) : State :=
  match s.op? isl id with
  | none => s
  | some o =>
    let again := match o.waitsOn with
      | some k => !o.sure && ((s.isl isl).bar o.core o.place k).phase = o.b.getLsbD 0
      | none => false
    if again then
      match o.waitsOn with
      | some k => s.modIsl isl fun x =>
          let b := x.bar o.core o.place k
          x.setBar o.core o.place k { b with waiters := b.waiters ++ [id] }
      | none => s
    else
      match o.agent, o.instr with
      | .seq _ _, .mbarRsv .. | .seq _ _, .mbarTake .. =>
        if o.res = 0x80000000 then s.mbarFail isl id 0x80000000 else s.mbarEnd isl id
      | .seq _ _, _ => s.mbarEnd isl id
      | _, _ => s.acquireThenEnd isl id

/-! ## Notify counters (R307-R309) -/

/-- A counter. -/
def Island.counter (x : Island) (k : Nat) : DWord := tgetD x.nc (k % 1024) 0

/-- An increment, saturating (R308). -/
def satAdd (a b : Nat) : DWord := BitVec.ofNat 64 (min (a + b) (2 ^ 64 - 1))

/-- A counter takes a value: the waiters it satisfies are answered (R309), and launches that depend on it look again
(R101). -/
def State.setCounter (s : State) (isl k : Nat) (v : DWord) : State :=
  let x := s.isl isl
  let go := x.nwaiters.filter fun w => w.ctr = k % 1024 && w.thr.toNat ≤ v.toNat
  let s := s.setIsl isl { x with nc := tput x.nc (k % 1024) v, nwaiters := x.nwaiters.filter fun w => !go.contains w }
  let s := go.foldl (fun (s : State) w =>
    match s.op? isl w.op with
    | some o => s.answer isl w.op v.toNat (fullTrip o.core)
    | none => s) s
  s.launches.foldl (fun (s : State) (l : Nat × Launch) =>
    if !l.2.started && !l.2.killed && pkNdep l.2.packet ≠ 0 then s.afterOnce l.2.island 1 .launchStart [l.1] else s) s

/-- Adds to a counter. -/
def State.notify (s : State) (isl k v : Nat) : State := s.setCounter isl k (satAdd ((s.isl isl).counter k).toNat v)

/-- A request reaches the notify unit. -/
def execNotifyUnitRequest (s : State) : Host.Outcome State Fault Refusal :=
  event s fun as s =>
    let isl := ar as 0
    let id := ar as 1
    match s.op? isl id with
    | none => s
    | some o =>
      let k := fld o.a 0 10
      match o.instr with
      | .ntfy .. => (s.notify isl k o.b.toNat).endOp isl id
      | .ntfySet .. => (s.setCounter isl k o.b).endOp isl id
      | _ =>
        let v := (s.isl isl).counter k
        if o.b.toNat ≤ v.toNat then s.answer isl id v.toNat (fullTrip o.core)
        else if (s.isl isl).nwaiters.length < 512 then
          s.modIsl isl fun x => { x with nwaiters := x.nwaiters ++ [{ op := id, ctr := k, thr := o.b }] }
        else s.after isl (1024 - fullTrip o.core) .nwaitResend [isl, id]

/-- The core sends an `NWAIT` again that found no waiter free (R309). -/
def execNwaitResend (s : State) : Host.Outcome State Fault Refusal :=
  event s fun as s =>
    match s.op? (ar as 0) (ar as 1) with
    | some o => s.after (ar as 0) (fullTrip o.core) .notifyUnitRequest [ar as 0, ar as 1]
    | none => s

/-! ## Panel barriers (R310-R314) -/

def Island.pbar (x : Island) (k : Nat) : PBar := tgetD x.pbars k {}
def State.modPbar (s : State) (isl k : Nat) (f : PBar → PBar) : State :=
  s.modIsl isl fun x => { x with pbars := tput x.pbars k (f (x.pbar k)) }

/-- Whether an island is present in an island's copy of the topology table (R345). -/
def Island.present (x : Island) (site : Nat) : Bool := (tgetD x.topo.sites site {}).st = 1

/-- A route entry of an island's OED (R344). -/
def Island.routeEntry (x : Island) (table site : Nat) : DWord := tgetD x.sys.rtab (16 * table + site) 0

/-- Whether a route table is valid (R344). -/
def Island.tableValid (x : Island) (table : Nat) : Bool :=
  (List.range 16).all fun i => !x.present i || (x.routeEntry table i).getLsbD 63

/-- An arrival at an island's agent: when LOCAL are made, the island's arrival goes up the tree, half of the 320 ns away
from the root (R312, R313). -/
def State.pbarArrive (s : State) (isl k : Nat) : State :=
  let b := (s.isl isl).pbar k
  if b.arr + 1 = b.loc then
    (s.modPbar isl k fun b => { b with arr := 0 }).afterPs 160000 .panelBarrierRootArrival [isl, k, b.mask.toNat, s.now]
  else s.modPbar isl k fun b => { b with arr := b.arr + 1 }

/-- Blocks an operation on a panel barrier, or answers it. -/
def State.pbarWait (s : State) (isl id k : Nat) (o : Op) : State :=
  if ((s.isl isl).pbar k).phase = o.b.getLsbD 0 then s.modPbar isl k fun b => { b with waiters := b.waiters ++ [id] }
  else (s.modOp isl id fun o => { o with sure := true }).replyIn isl (fullTrip o.core) id

/-- `PBAR.init` (R311): the status and the barrier after it. -/
def pbarInit (b : PBar) (isl z : Nat) : Nat × PBar :=
  if bitsN z 16 12 = 0 ∨ bitsN z 28 4 ≠ 0 ∨ bitsN z isl 1 = 0 ∨ 16 ≤ isl then (1, b)
  else if b.arr ≠ 0 ∨ !b.waiters.isEmpty then (2, b)
  else (0, { b with mask := BitVec.ofNat 16 z, loc := BitVec.ofNat 12 (bitsN z 16 12), arr := 0 })

/-- A request reaches the panel-barrier agent (R311, R312, R365). -/
def execPanelBarrierAgentRequest (s : State) : Host.Outcome State Fault Refusal :=
  event s fun as s =>
    let isl := ar as 0
    let id := ar as 1
    match s.op? isl id with
    | none => s
    | some o =>
      let trip := fullTrip o.core
      let bar (k : BitVec 10) : PBar := (s.isl isl).pbar k.toNat
      match o.instr with
      | .pbarInit _ _ k _ =>
        let r := pbarInit (bar k) isl (fld o.a 0 32)
        (s.modPbar isl k.toNat fun _ => r.2).answer isl id r.1 trip
      | .pbarArv _ _ k =>
        if (bar k).mask = 0 then s.answer isl id (256 + b2n (bar k).phase) trip
        else (s.pbarArrive isl k.toNat).answer isl id (b2n (bar k).phase) trip
      | .route _ _ t k =>
        if (bar k).mask = 0 then s.answer isl id (256 + b2n (bar k).phase) trip
        else if !(s.isl isl).tableValid t.toNat then s.answer isl id (512 + b2n (bar k).phase) trip
        else ((s.modPbar isl k.toNat fun b => { b with armed := some t.toNat }).pbarArrive isl k.toNat).answer isl id
          (b2n (bar k).phase) trip
      | .pbarWait _ k _ => (s.pbarWait isl id k.toNat o).performFlag isl id
      | .pbarArw _ _ k =>
        if o.performed then s.pbarWait isl id k.toNat o
        else if (bar k).mask = 0 then s.answer isl id 1 trip
        else
          let o : Op := { o with performed := true, b := BitVec.ofNat 64 (b2n (bar k).phase) }
          ((s.modOp isl id fun _ => o).pbarArrive isl k.toNat).pbarWait isl id k.toNat o
      | _ => s

/-- An island's agent completes a phase: the armed swap is made, waiters whose phase has passed end now (R313, R365). -/
def State.pbarFlip (s : State) (isl k : Nat) : State :=
  let b := (s.isl isl).pbar k
  let stay := b.waiters.filter fun id => (s.op? isl id).any fun o => o.b.getLsbD 0 = !b.phase
  let s := s.modPbar isl k fun b => { b with phase := !b.phase, waiters := stay, armed := none }
  let s := match b.armed with
    | some t => s.modIsl isl fun x => { x with sys := { x.sys with rtact := t = 1 } }
    | none => s
  (b.waiters.filter fun id => !stay.contains id).foldl (fun s id => s.acquireThenEnd isl id) s

/-- Ends a blocked instruction by a user trap at it, without effect (R112, R314). -/
def State.trapOp (s : State) (isl id code : Nat) (info : DWord) : State :=
  match s.op? isl id with
  | none => s
  | some o =>
    let core := o.core
    let gid := o.slot
    match (s.isl isl).opGroup? o with
    | none => s.delOp isl id
    | some g =>
      let lanes := maskOf ((g.threads.filter fun p => p.2.stat = .blocked id).map (·.1))
      let s := s.cancelOp isl id
      let s := s.modIsl isl fun x => x.modGroup core gid fun g => modThreads g lanes fun _ t => { t with wait := none }
      s.trap isl core gid lanes code info o.cp o.cp (settle g (s.cyc isl + 4)).tvec

/-- A panel barrier breaks (R314). -/
def State.breakBar (s : State) (k : Nat) (waiting : List Nat) : State :=
  let root := tgetD s.pbRoot k []
  let sent := (root.map (·.isl)).eraseDups
  let arrived := islandsMask sent
  let named := (root.foldl (fun m a => m ||| a.mask.toNat) 0) ||| waiting.foldl (fun m i => m ||| ((s.isl i).pbar k).mask.toNat) 0
  let s := { s with pbRoot := tdel s.pbRoot k }
  (s.islands.map (·.1)).foldl (fun (s : State) isl =>
    let x := s.isl isl
    let here := sent.contains isl
    if here || (bitsN named isl 1 = 1 && x.present isl) then
      let b := x.pbar k
      let missing := b.mask.toNat &&& (65535 - arrived)
      let s := s.modPbar isl k fun b =>
        { b with phase := if here then !b.phase else b.phase, mask := 0, arr := 0, waiters := [], armed := none }
      b.waiters.foldl (fun (s : State) id =>
        let ph := (s.op? isl id).any fun o => o.b.getLsbD 0
        s.trapOp isl id 0x28 (BitVec.ofNat 64 (k + 256 * b2n ph + 65536 * missing))) s
    else s) s
where
  /-- The mask of a list of islands. -/
  islandsMask (l : List Nat) : Nat := l.foldl (fun m i => m ||| 2 ^ i) 0

/-- An island's arrival reaches the root: it breaks the barrier, or completes the phase (R313, R314). -/
def execPanelBarrierRootArrival (s : State) : Host.Outcome State Fault Refusal :=
  event s fun as s =>
    let isl := ar as 0
    let k := ar as 1
    let a : RootArr := { isl := isl, mask := BitVec.ofNat 16 (ar as 2), leftAt := ar as 3 }
    let root := tgetD s.pbRoot k [] ++ [a]
    let s := { s with pbRoot := tput s.pbRoot k root }
    if root.any fun r => r.mask ≠ a.mask || bitsN a.mask.toNat r.isl 1 = 0 then s.breakBar k []
    else if (islandsOf a.mask.toNat).all fun i => root.any fun r => r.isl = i then
      let last := root.foldl (fun m r => max m r.leftAt) 0
      s.at (.ps (max s.now (last + 320000))) (.row .panelBarrierRelease [k])
    else s

/-- The phase completes on every island at one instant (R313). -/
def execPanelBarrierRelease (s : State) : Host.Outcome State Fault Refusal :=
  event s fun as s =>
    let k := ar as 0
    match tgetD s.pbRoot k [] with
    | [] => s
    | a :: r =>
      if !(islandsOf a.mask.toNat).all (fun i => (a :: r).any fun q => q.isl = i) then s
      else
      let left := (a :: r).foldl (fun (p : List RootArr × List Nat) q =>
        if p.2.contains q.isl then (p.1 ++ [q], p.2) else (p.1, p.2 ++ [q.isl])) ([], [])
      let s := { s with pbRoot := if left.1.isEmpty then tdel s.pbRoot k else tput s.pbRoot k left.1 }
      (islandsOf a.mask.toNat).foldl (fun s i => s.pbarFlip i k) s

end Sys2Proof.Machine
end

