-- ==== Sys2Proof/Machine/Copy.lean ====
section
/-! DEFINITION. The copy engine: queues and line transfers (R284-R287), `CPY` (R288, R289), `CPYB` (R290-R293), queue
fences and queue status (R294, R295). -/

namespace Sys2Proof.Machine

/-! ## Queue fences (R257, R294) -/

/-- Whether an operation that a fence waits for has not completed: of a copy or fabric queue, or an `MRD`. -/
def Island.pending (x : Island) (id : Nat) : Bool :=
  (tget? x.ops id).isSome || x.cores.any fun k => k.2.places.any fun w => w.2.ctx.any fun c => c.readout.any fun m => m.id = id

/-- Ends the `QFENCE`s and `RFENCE`s that have nothing left to wait for. -/
def State.checkFences (s : State) (isl : Nat) : State :=
  (s.isl isl).ops.foldl (fun (s : State) (p : Nat × Op) =>
    match p.2.instr with
    | .qfence .. | .rfence _ => if p.2.after.any fun i => (s.isl isl).pending i then s else s.endOp isl p.1
    | _ => s) s

/-- The operations of a workgroup's copy or fabric queue, from their issue. -/
def Island.queueOps (x : Island) (core place : Nat) (f : Instr → Bool) : List (Nat × Op) :=
  x.ops.filter fun p => f p.2.instr && p.2.place = place && p.2.core = core

/-- The readout operations of a workgroup's context that are `MRD`s. -/
def Wg.mrds (w : Wg) : List MxOp :=
  match w.ctx with
  | some c => c.readout.filter (·.isMrd)
  | none => []

/-- `QFENCE` (R294): it acts for the whole group, whatever the guard. -/
def execQfence (c : Ctl) (m : BitVec 20) (s : State) : Host.Outcome State Fault Refusal :=
  let i : Instr := .qfence c m
  issue i c [] noPre (fun e s =>
    let x := s.isl e.isl
    let q (b : Nat) (l : List Nat) : List Nat := if m.getLsbD b then l else []
    let after := q 0 ((x.queueOps e.core e.g.place copyInstr).map (·.1)) ++
      q 1 ((x.queueOps e.core e.g.place fabricInstr).map (·.1)) ++
      q 2 ((((x.wg? e.core e.g.place).getD {}).mrds).map (·.id))
    let id := s.nextId
    let s := (s.newOp e.isl { e.op i c with after := after }).2
    (s.onGroup e fun g => { g with qfencing := g.qfencing ++ [id] }).checkFences e.isl) s

/-- Whether an operation waits for `RESUME`. -/
def Op.faulted (o : Op) : Bool := o.subs.any fun u => u.accs.any fun a => a.fault.isSome

/-- The state of a queue (R295). -/
def Island.queueWord (x : Island) (core place q : Nat) : Nat :=
  let word (n cap : Nat) (rpl : Bool) : Nat := min n 255 + 256 * (cap - n) + 65536 * b2n rpl
  match q with
  | 0 => let l := x.queueOps core place copyInstr; word l.length 32 (l.any fun p => p.2.faulted)
  | 1 => let l := x.queueOps core place fabricInstr; word l.length 64 (l.any fun p => p.2.faulted)
  | _ =>
    let w := (x.wg? core place).getD {}
    let n := (w.mrds.map (·.left)).sum
    word (min n 255) 0 (w.ctx.any fun c => w.mrds.any fun m => c.faults.contains m.id)

/-- `QSTAT` (R295, R296). -/
def execQstat (c : Ctl) (x : Opnd) (q : BitVec 20) (s : State) : Host.Outcome State Fault Refusal :=
  issue (.qstat c x q) c [(x, false)] noPre (fun e s =>
    if !e.any then s.flagNow e c
    else
      let v := (s.isl e.isl).queueWord e.core e.g.place q.toNat
      s.onGroup e fun g => e.done c 4 (e.result 4 x false false e.guard (fun _ => (BitVec.ofNat 64 v, 0)) g)) s

/-! ## The bulk descriptor (R290-R292) -/

def bdSrc (d : BitVec 256) : VA := BitVec.ofNat 72 (fld d 0 72)
def bdDwin (d : BitVec 256) : Nat := fld d 72 8
def bdSwin (d : BitVec 256) : Nat := fld d 64 8
def bdMcast (d : BitVec 256) : Nat := fld d 80 16
def bdDst (d : BitVec 256) : Nat := fld d 96 64
def bdLen (d : BitVec 256) : Nat := fld d 160 32
def bdBar (d : BitVec 256) : Nat := fld d 192 4
def bdBen (d : BitVec 256) : Bool := d.getLsbD 196
def bdSen (d : BitVec 256) : Bool := d.getLsbD 197
def bdFill (d : BitVec 256) : Bool := d.getLsbD 198
def bdScope (d : BitVec 256) : Nat := fld d 200 3
def bdSoff (d : BitVec 256) : Nat := fld d 203 21
def bdSval (d : BitVec 256) : Nat := fld d 224 32

/-- The destinations: ranks of a multicast, or one (R291). -/
def bdDests (d : BitVec 256) : List Nat := if bdMcast d = 0 then [0] else islandsOf (bdMcast d)

/-- The address of a destination. -/
def bdDestVa (d : BitVec 256) (r : Nat) : VA :=
  if bdMcast d = 0 then BitVec.ofNat 72 (bdDwin d * 2 ^ 64 + bdDst d)
  else BitVec.ofNat 72 (0xFD * 2 ^ 64 + r * 2 ^ 32 + bdDst d % 2 ^ 32)

/-- A reserved window (R18). -/
def reservedWin (w : Nat) : Bool := 0xF0 ≤ w && w ≠ 0xFD && w ≠ 0xFE

/-- Whether bytes at an address lie in their window (R207, R208); translated memory has no range. -/
def windowFits (x : Island) (core place : Nat) (va : VA) (n : Nat) : Bool :=
  if !inWindow va then true
  else if va.toNat % 2 ^ 64 + n > 2 ^ 64 then false
  else match windowLoc x core place va, windowLoc x core place (vaPlus va (n - 1)) with
    | some (.scr c p a), some (.scr c' p' b) => c = c' && p = p' && b = a + n - 1
    | some (.reg _ _ _), some (.reg _ _ _) => true
    | _, _ => false

/-- The workgroup that takes a destination's signal and arrival (R291). -/
def signalPlace (x : Island) (core place : Nat) (va : VA) : Nat × Nat :=
  match windowLoc x core place va with
  | some (.scr c p _) => (c, p)
  | _ => (core, place)

/-- The checks of a descriptor (R292): status 1, status 2, MCAST, status 3, in this order. -/
inductive BdCheck where
  | status (n : Nat) | mcast
  deriving DecidableEq, Repr, Inhabited

def checkBd (x : Island) (core place : Nat) (w : Wg) (d : BitVec 256) : BdCheck :=
  let dests := bdDests d
  let win (n : Nat) : Bool := n = 0xFD || n = 0xFE
  if d.getLsbD 199 || bdScope d = 0 || 5 < bdScope d || bdLen d = 0 || 16777216 < bdLen d ||
      (bdMcast d ≠ 0 && (bdDwin d ≠ 0xFD || bdDst d / 2 ^ 32 ≠ 0)) || (!win (bdSwin d) && !win (bdDwin d)) then .status 1
  else if reservedWin (bdSwin d) || reservedWin (bdDwin d) then .status 2
  else if bdMcast d ≠ 0 && dests.any (fun r => hdrCluster w.hdr ≤ r) then .mcast
  else if !windowFits x core place (bdSrc d) (bdLen d) || dests.any (fun r => !windowFits x core place (bdDestVa d r) (bdLen d)) ||
      (bdSen d && hdrScratchKib w.hdr * 1024 < 4 * bdSoff d + 4) then .status 3
  else .status 0

/-- The descriptor in eight uniform registers. -/
def Env.desc8 (e : Env) (y : Opnd) : BitVec 256 :=
  match y with
  | .s k => (List.range 8).foldl (fun d i => d ||| ((e.g4.sreg (k.toNat + i)).setWidth 256 <<< (32 * i))) 0
  | .v _ | .vp _ | .sr _ | .o _ | .lt | .imm _ => 0

/-- The last register of a descriptor's `n` uniforms, for the range check. -/
def descReg (y : Opnd) (n : Nat) : Opnd × Bool :=
  match y with
  | .s k => (.s (k + BitVec.ofNat 8 (n - 1)), false)
  | o => (o, false)

/-- The 128 bits of four uniform registers. -/
def Env.desc4 (e : Env) (y : Opnd) : BitVec 128 := (e.desc8 y).setWidth 128

/-- `CPYB` (R290-R293): X four cycles after issue; an accepted descriptor enters the copy queue. -/
def execCpyb (c : Ctl) (x y : Opnd) (s : State) : Host.Outcome State Fault Refusal :=
  let i : Instr := .cpyb c x y
  let check (e : Env) (s : State) : BdCheck :=
    if e.any then checkBd (s.isl e.isl) e.core e.g.place e.wg (e.desc8 y) else .status 0
  issue i c [(x, false), descReg y 8]
    (fun e s => match check e s with
      | .mcast => some (0x18, BitVec.ofNat 64 (bdMcast (e.desc8 y)))
      | .status _ => none)
    (fun e s =>
      let wr (n : Nat) (g : Group) : Group := e.result 4 x false false e.guard (fun _ => (BitVec.ofNat 64 n, 0)) g
      if !e.any then s.flagNow e c
      else match check e s with
        | .status 0 =>
          (s.onGroup e (wr 0)).launchOp e
            { e.op i c with lanes := e.run, bulk := { desc := e.desc8 y, dests := bdDests (e.desc8 y) } }
        | .status n => s.onGroup e fun g => e.done c 4 (wr n g)
        | .mcast => s) s

/-! ## CPY (R288) -/

/-- Bytes of a lane's copy. -/
def cpyBytes (n : CpySize) : Nat :=
  match n with
  | .w1 => 4
  | .w2 => 8
  | .w4 => 16

/-- The destination address of a lane of a `CPY`, which the access carries beside its source address. -/
def Acc.dst (a : Acc) : VA := (a.y.setWidth 8 : BitVec 8) ++ a.x

/-- The line transfers of a `CPY`: one for each pair of lines (R288). -/
def copySubs (accs : List Acc) : List Sub :=
  accs.foldl (fun us a => add us 0 a) []
where
  /-- Puts a lane into the transfer of its pair of lines. -/
  add : List Sub → Nat → Acc → List Sub
    | [], k, a => [{ key := k, accs := [a] }]
    | u :: r, k, a =>
      let same := u.accs.any fun b => b.va.toNat / 128 = a.va.toNat / 128 && b.dst.toNat / 128 = a.dst.toNat / 128
      if same then { u with accs := u.accs ++ [a] } :: r else u :: add r (k + 1) a

/-- `CPY` (R288): addresses and windows are read at issue. -/
def execCpy (c : Ctl) (n : CpySize) (fill : Bool) (wd ws : BitVec 2) (scope : Scope) (x y : Opnd) (s : State) :
    Host.Outcome State Fault Refusal :=
  let i : Instr := .cpy c n fill wd ws scope x y
  issue i c [(x, true), (y, true)] noPre (fun e s =>
    if !e.any then s.flagNow e c
    else
      let accs : List Acc := (lanesOf e.guard).map fun l =>
        let d := e.addr wd x 0 l
        { lane := l, va := e.addr ws y 0 l, n := cpyBytes n, x := d.setWidth 64, y := (d >>> 64).setWidth 64 }
      s.launchOp e { e.op i c with subs := copySubs accs }) s

/-! ## Places of a copy (R285) -/

/-- The place of an address of a copy, or its fault. -/
def State.copyPlace (s : State) (isl : Nat) (o : Op) (w : Want) (va : VA) (n : Nat) : Except Nat Loc × State :=
  let ranged := !inWindow va || (windowLoc (s.isl isl) o.core o.place va).isSome
  if ranged && va.toNat % n ≠ 0 then (.error cAlign, s)
  else match s.placeOf isl o.core o.place o.asid o.priv w va with
    | (.error c, s) => (.error c, s)
    | (.ok l, s) =>
      match l with
      | .reg _ _ _ => (.error cHome, s)
      | .buf _ _ _ _ => (.ok l, s)
      | .pin _ _ | .unc _ => (if w = .write && o.hy ≠ 0 then .error cHypHome else .ok l, s)
      | .scr _ _ _ | .line _ _ => (.ok l, s)

/-- The fault of one of a list of addresses, each with what is done there: code, address, and whether a write. -/
def State.copyFault (s : State) (isl : Nat) (o : Op) (n : Nat) : List (Want × VA) → Option (Nat × VA × Bool) × State
  | [] => (none, s)
  | (w, va) :: r =>
    match s.copyPlace isl o w va n with
    | (.error c, s) => (some (c, va, w = .write), s)
    | (.ok _, s) => s.copyFault isl o n r

/-- The place of an address that has been found good. -/
def State.copyLoc (s : State) (isl : Nat) (o : Op) (w : Want) (va : VA) : Option Loc :=
  match (s.copyPlace isl o w va 1).1 with
  | .ok l => some l
  | .error _ => none

/-! ## Faults of the engine (R289) -/

/-- Reports a fault: the event posts the record. -/
def State.engineFault (s : State) (isl id code : Nat) (write : Bool) (lanes : LaneMask) (va : VA) (core : Nat) : State :=
  s.after isl 0 .cpyEngineFault [isl, core, id, code, b2n write, lanes.toNat, va.toNat]

/-- The record of a copy's fault: the issuing group parks (R289). -/
def execCpyEngineFault (s : State) : Host.Outcome State Fault Refusal :=
  event s fun as s =>
    let isl := ar as 0
    let id := ar as 2
    match s.op? isl id with
    | none => s
    | some o =>
      let lanes : LaneMask := BitVec.ofNat 64 (ar as 5)
      let s := s.onOpGroup isl o fun g => { g with parked := true, records := g.records + 1 }
      s.postAgent isl
        { code := ar as 3, write := ar as 4 = 1, addr := BitVec.ofNat 72 (ar as 6), lanes := lanes, cp := o.cp,
          launch := o.launch, asid := o.asid, source := 2, agent := agentWord 2 o.core o.place } (some id) lanes

/-! ## Line transfers (R284) -/

/-- A line transfer that the engine may start for an operation. -/
inductive Next where
  | lanes (u : Sub)
  | bytes (pos n : Nat)
  deriving DecidableEq, Repr, Inhabited

/-- The next line transfer of an operation, if it has one that waits. -/
def Op.nextTransfer (o : Op) : Option Next :=
  match o.instr with
  | .cpyb .. =>
    let d := o.bulk.desc
    let p := o.bulk.moved
    if o.faulted || bdLen d ≤ p then none
    else
      let room (va : VA) : Nat := 128 - (va.toNat + p) % 128
      some (.bytes p (min (bdLen d - p) (min (room (bdSrc d)) (room (bdDestVa d ((bdDests d).headD 0))))))
  | _ => (o.subs.find? fun u => u.stage = .waiting && u.accs.all fun a => a.fault.isNone).map .lanes

/-- The operation of a workgroup's copy queue that the engine serves: the first whose writes are not all performed
(R256, R286). -/
def State.copyHead (s : State) (isl : Nat) (w : Wg) : Option (Nat × Op) :=
  w.copyq.findSome? fun id => match s.op? isl id with
    | some o => if o.performed then none else some (id, o)
    | none => none

/-- The places of a core whose queues have a transfer to start, in the order of their turns. -/
def State.copyTurns (s : State) (isl core : Nat) : List (Nat × Nat × Op × Next) :=
  let k := (s.isl isl).core core
  ((List.range 4).map fun i => (k.engLast + 1 + i) % 4).filterMap fun p =>
    match tget? k.places p with
    | none => none
    | some w => match s.copyHead isl w with
      | some (id, o) => o.nextTransfer.map fun n => (p, id, o, n)
      | none => none

/-- Notes a transfer in flight and has its bytes arrive, `d` cycles later where a translation takes them (R384). -/
def State.flyTransfer (s : State) (isl id key d : Nat) (o : Op) (l : Loc) : State :=
  (s.modIsl isl fun x => x.modCore o.core fun k => { k with engFlight := k.engFlight ++ [(id, key)] }).after isl
    ((s.isl isl).locCycles o.core l + d) .copyLineTransfer [isl, o.core, id, key]

/-- The transfer is over: it no longer is in flight. -/
def State.landTransfer (s : State) (isl core id key : Nat) : State :=
  (s.modIsl isl fun x => x.modCore core fun k => { k with engFlight := k.engFlight.erase (id, key) }).afterOnce isl 1
    .copyLineTransfer [isl, core]

/-- The longest of the translations that addresses take. -/
def State.longestXlate (s : State) (isl : Nat) (o : Op) (vas : List VA) : Nat :=
  vas.foldl (fun m va => max m (s.xlateDelay isl o.core o.asid va)) 0

/-- Leaves lanes out that have faulted, or the rest of a bulk copy's page that has. -/
def Op.skipFaults (o : Op) (mine : Acc → Bool) : Op :=
  match o.instr with
  | .cpyb .. =>
    match o.subs.find? fun u => u.accs.any fun a => a.fault.isSome && mine a with
    | none => o
    | some u =>
      let left := match u.accs with | a :: _ => 65536 - a.va.toNat % 65536 | [] => 0
      { o with subs := o.subs.filter fun v => !(v.key = u.key && v.accs.any fun a => a.fault.isSome),
               bulk := { o.bulk with moved := min (bdLen o.bulk.desc) (u.key + left) } }
  | _ =>
    { o with subs := (o.subs.map fun u => { u with accs := u.accs.filter fun a => !(a.fault.isSome && mine a) }).filter fun u =>
        !u.accs.isEmpty }

/-- Starts a transfer of a `CPY`: lanes that fault are set apart and reported; those of a killed launch are left out. -/
def State.startLanes (s : State) (isl id : Nat) (o : Op) (u : Sub) : State :=
  let d := s.longestXlate isl o (u.accs.flatMap fun a => [a.va, a.dst])
  let r := u.accs.foldl (fun (p : List Acc × List (Acc × Nat × VA × Bool) × State) a =>
    match p.2.2.copyFault isl o a.n [(.read, a.va), (.write, a.dst)] with
    | (none, s) => (p.1 ++ [{ a with loc := s.copyLoc isl o .read a.va }], p.2.1, s)
    | (some f, s) => (p.1, p.2.1 ++ [({ a with fault := some (BitVec.ofNat 8 f.1) }, f)], s)) ([], [], s)
  let bad := if s.opKilled o then [] else r.2.1
  let s := r.2.2
  let kinds := (bad.map fun b => (b.2.1, b.2.2.2)).eraseDups
  let s := s.modOp isl id fun o =>
    let us := if r.1.isEmpty then o.subs.filter fun v => v.key ≠ u.key
      else o.subs.map fun v => if v.key = u.key then { v with accs := r.1, stage := .going } else v
    let top := o.subs.foldl (fun m v => max m v.key) 0
    { o with subs := if bad.isEmpty then us else us ++ [{ key := top + 1, accs := bad.map (·.1) }] }
  let s := kinds.foldl (fun (s : State) q =>
    let mine := bad.filter fun b => b.2.1 = q.1 && b.2.2.2 = q.2
    s.engineFault isl id q.1 q.2 (maskOf (mine.map (·.1.lane))) ((mine.map (·.2.2.1)).headD 0) o.core) s
  match r.1 with
  | [] => s
  | a :: _ => match a.loc with
    | some l => s.flyTransfer isl id u.key d o l
    | none => s

/-- Starts a transfer of a `CPYB`; a fault stops the operation at its page. -/
def State.startBytes (s : State) (isl id : Nat) (o : Op) (p n : Nat) : State :=
  let d := o.bulk.desc
  let src := vaPlus (bdSrc d) p
  let dsts := (bdDests d).map fun r => vaPlus (bdDestVa d r) p
  let delay := s.longestXlate isl o (src :: dsts)
  match s.copyFault isl o 1 ((Want.read, src) :: dsts.map fun va => (Want.write, va)) with
  | (some f, s) =>
    let a : Acc := { va := f.2.1, n := n, fault := some (BitVec.ofNat 8 f.1) }
    let s := s.modOp isl id fun o => { o with subs := o.subs ++ [{ key := p, accs := [a] }] }
    if s.opKilled o then s.modOp isl id fun o => o.skipFaults fun _ => true
    else s.engineFault isl id f.1 f.2.2 (BitVec.allOnes 64) f.2.1 o.core
  | (none, s) =>
    match s.copyLoc isl o .read src with
    | none => s
    | some l =>
      let u : Sub := { key := p, stage := .going, accs := [{ va := src, n := n, loc := some l }] }
      (s.modOp isl id fun o => { o with subs := o.subs ++ [u], bulk := { o.bulk with moved := p + n } }).flyTransfer isl id p delay o l

/-! ## The bytes of a transfer -/

/-- Whether a transfer has not read its bytes, nor has one of its lanes faulted. -/
def Sub.unread (u : Sub) : Bool :=
  (u.stage = .waiting || u.stage = .going) && u.data.isEmpty && u.accs.all fun a => a.fault.isNone

/-- Reads the source bytes of a transfer's accesses, and consumes the poison among them (R227, R285); none where nothing may be
read yet. -/
def State.readSub (s : State) (isl : Nat) (o : Op) (u : Sub) : Option (List Byte) × State :=
  let locs := u.accs.map fun a => s.copyLoc isl o .read a.va
  if locs.any fun l => l.any fun l => s.isEmptyLoc isl l || !(s.isl isl).locQuiet l then (none, s)
  else
    let r := (u.accs.zip locs).foldl (fun (p : List Byte × List Acc × State) q =>
      match q.2 with
      | some l =>
        let t := p.2.2.tainted isl l q.1.n
        (p.1 ++ t.2.readLoc isl o.hy l q.1.n, if t.1 then p.2.1 ++ [q.1] else p.2.1, t.2.useLoc isl l)
      | none => (p.1 ++ List.replicate q.1.n 0, p.2.1, p.2.2)) ([], [], s)
    (some r.1, match r.2.1 with
      | [] => r.2.2
      | a :: _ => r.2.2.consumed isl
        { core := o.core, source := 2, slot := o.place, launch := o.launch, cp := o.cp, va := a.va,
          lanes := match o.instr with | .cpyb .. => 0 | _ => maskOf (r.2.1.map (·.lane)) })

/-- Whether a transfer of an operation waits for an empty line to become full (R210). -/
def State.copyStalled (s : State) (isl : Nat) (o : Op) : Bool :=
  o.subs.any fun u => u.unread && u.accs.any fun a => (s.copyLoc isl o .read a.va).any fun l => s.isEmptyLoc isl l

/-- The destinations of a transfer. -/
def Op.dstsOf (o : Op) (u : Sub) : List VA :=
  match o.instr with
  | .cpyb .. => (bdDests o.bulk.desc).map fun r => vaPlus (bdDestVa o.bulk.desc r) u.key
  | _ => u.accs.map Acc.dst

/-- The core whose bank array holds a place. -/
def Loc.array : Loc → Option Nat
  | .scr c _ _ => some c
  | .reg _ _ _ | .pin _ _ | .unc _ | .line _ _ | .buf _ _ _ _ => none

/-- The bank arrays a transfer writes. -/
def State.arraysOf (s : State) (isl : Nat) (o : Op) (u : Sub) : List Nat :=
  (o.dstsOf u).filterMap fun va => (s.copyLoc isl o .write va).bind Loc.array

/-- Whether a transfer that the engine started before this one is still to write a bank array that this one writes: writes fall
there in the order of issue (R285). One that waits for an empty line lets others pass. -/
def State.writesBefore (s : State) (isl id : Nat) (o : Op) (u : Sub) : Bool :=
  let fl := ((s.isl isl).core o.core).engFlight
  let mine := s.arraysOf isl o u
  fl.contains (id, u.key) && !mine.isEmpty && (fl.takeWhile fun p => p ≠ (id, u.key)).any fun p =>
    match s.op? isl p.1 with
    | none => false
    | some q => !s.copyStalled isl q && q.subs.any fun v => v.key = p.2 && (s.arraysOf isl q v).any mine.contains

/-- The bytes of a transfer arrive: a read of an empty line is held (R210). Bytes that had to be read before a write of the
instruction (R288) have been. -/
def State.transferRead (s : State) (isl id key : Nat) : State :=
  match s.op? isl id with
  | none => s
  | some o =>
    match o.subs.find? fun u => u.key = key with
    | none => s
    | some u =>
      match u.accs.findSome? (·.loc) with
      | none => s
      | some l =>
        let lands (s : State) : State :=
          let s := s.modSub isl id key fun u => { u with stage := .performed }
          let x := s.isl isl
          let lat := ((o.dstsOf u).filterMap fun va => s.copyLoc isl o .write va).foldl (fun m l => max m (x.locCycles o.core l)) 0
          s.after isl lat .copyLineTransfer [isl, o.core, id, key, 1]
        if u.stage ≠ .going then s
        else if !u.data.isEmpty then lands s
        else if s.isEmptyLoc isl l then
          match l.scrLine with
          | some (c, p, _) => s.modIsl isl fun x => x.modWg c p fun w => { w with held := w.held ++ [(id, key)] }
          | none => s
        else
          match s.readSub isl o u with
          | (none, s) => s.after isl 1 .copyLineTransfer [isl, o.core, id, key]
          | (some bs, s) => lands (s.modSub isl id key fun u => { u with data := bs })

/-- Whether two places of some bytes have a byte in common. -/
def Loc.meets (a b : Loc) (n : Nat) : Bool :=
  match a, b with
  | .scr c p i, .scr d q j => c = d && p = q && decide (i < j + n ∧ j < i + n)
  | .pin c i, .pin d j => c = d && decide (i < j + n ∧ j < i + n)
  | .unc i, .unc j => decide (i < j + n ∧ j < i + n)
  | .line l i, .line m j => l = m && decide (i < j + n ∧ j < i + n)
  | .buf c p i _, .buf d q j _ => c = d && p = q && decide (i < j + n ∧ j < i + n)
  | _, _ => false

/-- Every read of a `CPY` comes before a write that changes its bytes (R288): a transfer that has yet to read bytes which `u`
writes takes them now, and moves them when its own turn has come. False where one cannot read yet. -/
def State.readAhead (s : State) (isl id n : Nat) (o : Op) (u : Sub) : Bool × State :=
  let dsts := u.accs.filterMap fun a => s.copyLoc isl o .write a.dst
  o.subs.foldl (fun (p : Bool × State) v =>
    let hit := v.key ≠ u.key && v.unread && v.accs.any fun a => (s.copyLoc isl o .read a.va).any fun l => dsts.any fun d => l.meets d n
    if !hit then p
    else match p.2.readSub isl o v with
      | (some bs, s) => (p.1, s.modSub isl id v.key fun v => { v with data := bs })
      | (none, s) => (false, s)) (true, s)

/-- Writes bytes of a copy at an address; a refused tagged write is charged to a lane (R269). -/
def State.copyWrite (s : State) (isl id lane : Nat) (o : Op) (va : VA) (bs : List Byte) : State :=
  match if o.refuted then none else s.copyLoc isl o .write va with
  | none => s
  | some l =>
    match (s.useLoc isl l).writeLoc isl o.core o.hy o.launch l bs with
    | (true, s) => if inWindow va then s else s.addSig isl o.core o.place o.launch (sigBytes va bs)
    | (false, s) => s.chargeFull isl id lane o va

/-- Sets scratchpad lines full and performs the accesses held there (R210, R288, R293). -/
def State.fillLines (s : State) (isl core place first last : Nat) : State :=
  (s.modIsl isl fun x => x.modWg core place fun w =>
    (List.range (last + 1 - first)).foldl (fun w i => w.setFull (first + i) true) w).releaseHeld isl core place

/-- The scratchpad line that a lane of a `CPY` writes. -/
def State.dstLine (s : State) (isl : Nat) (o : Op) (a : Acc) : Option (Nat × Nat × Nat) :=
  (s.copyLoc isl o .write a.dst).bind Loc.scrLine

/-- Sets full every scratchpad line that a lane of a `CPY` has written: with its completion (R256, R288). -/
def State.fillCpy (s : State) (isl : Nat) (o : Op) : State :=
  match o.instr with
  | .cpy _ _ true .. =>
    let lines := ((o.subs.flatMap (·.accs)).filter (·.done)).filterMap (s.dstLine isl o)
    lines.eraseDups.foldl (fun (s : State) l => s.fillLines isl l.1 l.2.1 l.2.2 l.2.2) s
  | _ => s

/-- Has an operation of the engine complete when it is over. -/
def State.copyOver (s : State) (isl id : Nat) : State :=
  match s.op? isl id with
  | none => s
  | some o =>
    match o.instr with
    | .cpyb .. =>
      if o.performed || !o.subs.isEmpty || o.bulk.moved < bdLen o.bulk.desc then s
      else
        let s := s.modOp isl id fun o => { o with performed := true }
        (bdDests o.bulk.desc).foldl (fun s r => s.after isl 0 .cpybDestinationDone [isl, o.core, id, r]) s
    | _ =>
      if !o.performed && o.subs.all fun u => u.stage = .done then
        ((s.fillCpy isl o).modOp isl id fun o => { o with performed := true }).afterOnce isl 0 .cpyCompletion [isl, o.core, id]
      else s

/-- The engine's turn: one line transfer, round-robin over the core's queues, with at most 64 in flight (R284). What has faulted
of a killed launch's copies is left out first (R122). -/
def State.engineTurn (s : State) (isl core : Nat) : State :=
  let dead := ((s.isl isl).ops.filter fun p => p.2.core = core && copyInstr p.2.instr && p.2.faulted && s.opKilled p.2).map (·.1)
  let s := dead.foldl (fun (s : State) id => (s.modOp isl id fun o => o.skipFaults fun _ => true).copyOver isl id) s
  if 64 ≤ ((s.isl isl).core core).engFlight.length then s
  else match s.copyTurns isl core with
    | [] => s
    | (place, id, o, n) :: _ =>
      let s := s.modIsl isl fun x => x.modCore core fun k => { k with engLast := place }
      let s := match n with
        | .lanes u => s.startLanes isl id o u
        | .bytes p k => s.startBytes isl id o p k
      (s.copyOver isl id).afterOnce isl 1 .copyLineTransfer [isl, core]

/-- Whether the places a transfer writes may be written now. -/
def State.writeQuiet (s : State) (isl : Nat) (o : Op) (dsts : List VA) : Bool :=
  dsts.all fun va => match s.copyLoc isl o .write va with
    | some l => (s.isl isl).locQuiet l
    | none => true

/-- Writes a lane of a `CPY`, but not over a byte that a higher lane has written (R288). -/
def State.writeLane (s : State) (isl id : Nat) (a : Acc) (bs : List Byte) : State :=
  match s.op? isl id with
  | none => s
  | some o =>
    let at' (b : Acc) : Option Loc := s.copyLoc isl o .write b.dst
    let hidden := o.subs.any fun u => u.accs.any fun b => b.done && a.lane < b.lane && at' b = at' a
    let s := if hidden then s else s.copyWrite isl id a.lane o a.dst bs
    s.modOp isl id fun o => { o with subs := o.subs.map fun u =>
      { u with accs := u.accs.map fun b => if b.lane = a.lane then { b with done := true } else b } }

/-- A transfer's write arrives at its place (R284). -/
def State.transferWrite (s : State) (isl id key : Nat) : State :=
  match s.op? isl id with
  | none => s
  | some o =>
    match o.subs.find? fun u => u.key = key with
    | none => s
    | some u =>
      let dsts := o.dstsOf u
      if !s.writeQuiet isl o dsts || s.writesBefore isl id o u then s.after isl 1 .copyLineTransfer [isl, o.core, id, key, 1]
      else
      match o.instr with
      | .cpyb .. =>
          let lane := (lowLane o.lanes).getD 0
          let s := dsts.foldl (fun s va => s.copyWrite isl id lane o va u.data) s
          let s := s.modOp isl id fun o => { o with subs := o.subs.filter fun v => v.key ≠ key || v.stage = .waiting }
          (s.landTransfer isl o.core id key).copyOver isl id
      | .cpy _ n _ _ _ _ _ _ =>
        let k := cpyBytes n
        match s.readAhead isl id k o u with
        | (false, s) => s.after isl 1 .copyLineTransfer [isl, o.core, id, key, 1]
        | (true, s) =>
          let s := (List.range u.accs.length).foldl (fun (s : State) i =>
            match u.accs[i]? with
            | some a => s.writeLane isl id a ((u.data.drop (k * i)).take k)
            | none => s) s
          ((s.modSub isl id key fun u => { u with stage := .done }).landTransfer isl o.core id key).copyOver isl id
      | _ => s

/-- The engine's turn (R284), or a step of a line transfer in flight. -/
def execCopyLineTransfer (s : State) : Host.Outcome State Fault Refusal :=
  event s fun as s =>
    match as with
    | [isl, _, id, key] => s.transferRead isl id key
    | [isl, _, id, key, _] => s.transferWrite isl id key
    | _ => s.engineTurn (ar as 0) (ar as 1)

/-! ## Completion (R287, R293) -/

/-- An operation of the copy queue completes: its flag falls, fences and the workgroup's end look again. -/
def execCpyCompletion (s : State) : Host.Outcome State Fault Refusal :=
  event s fun as s =>
    let isl := ar as 0
    let id := ar as 2
    match s.op? isl id with
    | none => s
    | some o =>
      let s := s.modIsl isl fun x => x.modWg o.core o.place fun w => { w with copyq := w.copyq.filter fun i => i ≠ id }
      let s := (s.endOp isl id).checkFences isl
      (s.afterOnce isl 1 .copyLineTransfer [isl, o.core]).checkWgEnd isl o.core o.place

/-- A destination of a `CPYB` has finished its last step. -/
def State.destFinished (s : State) (isl core id dest : Nat) : State :=
  match s.op? isl id with
  | none => s
  | some o =>
    let left := o.bulk.dests.filter fun r => r ≠ dest
    let s := s.modOp isl id fun o => { o with bulk := { o.bulk with dests := left } }
    if left.isEmpty then s.afterOnce isl 0 .cpyCompletion [isl, core, id] else s

/-- Every byte of a destination is performed: full bits, signal word, barrier arrival, in this order (R293). -/
def execCpybDestinationDone (s : State) : Host.Outcome State Fault Refusal :=
  event s fun as s =>
    let isl := ar as 0
    let core := ar as 1
    let id := ar as 2
    let r := ar as 3
    match s.op? isl id with
    | none => s
    | some o =>
      let d := o.bulk.desc
      let va := bdDestVa d r
      let sig := signalPlace (s.isl isl) o.core o.place va
      let s := match windowLoc (s.isl isl) o.core o.place va with
        | some (.scr c p off) => if bdFill d then s.fillLines isl c p (off / 128) ((off + bdLen d - 1) / 128) else s
        | _ => s
      let s := if bdSen d then
          (s.targetWrite isl (.scr sig.1 sig.2 (4 * bdSoff d)) 4 (bdSval d)).fireMonitors isl sig.1 (.scr sig.1 sig.2 (4 * bdSoff d))
        else s
      if bdBen d then s.after isl (barTime (bdBar d)) .barrierArrival [isl, sig.1, sig.2, bdBar d, 1, id, core, r]
      else s.destFinished isl core id r

/-- The arrival of a `CPYB` completion (R293, R299), with which its destination has finished. -/
def execBarrierArrival (s : State) : Host.Outcome State Fault Refusal :=
  event s fun as s =>
    let s := s.arriveAt (ar as 0) (ar as 1) (ar as 2) (ar as 3) (ar as 4)
    match as with
    | [isl, _, _, _, _, id, core, r] => s.destFinished isl core id r
    | _ => s

/-! ## RESUME of a copy queue's record (R289, R379) -/

/-- Replays the faulting lanes or page of a copy, or drops them. -/
def State.resumeCopy (s : State) (isl id : Nat) (skip : Bool) (code : Nat) (lanes : LaneMask) : State :=
  match s.op? isl id with
  | none => s
  | some o =>
    let s := s.modOp isl id fun o =>
      match o.instr with
      | .cpyb .. =>
        if skip then o.skipFaults fun _ => true
        else match (o.subs.find? fun u => u.accs.any fun a => a.fault.isSome).map (·.key) with
          | none => o
          | some p => { o with subs := o.subs.filter fun u => !(u.key = p && u.accs.any fun a => a.fault.isSome),
                               bulk := { o.bulk with moved := p } }
      | _ =>
        let mine (a : Acc) : Bool := a.fault = some (BitVec.ofNat 8 code) && lanes.getLsbD a.lane
        if skip then o.skipFaults mine
        else { o with subs := o.subs.map fun u => { u with accs := u.accs.map fun a => if mine a then { a with fault := none } else a } }
    (s.copyOver isl id).afterOnce isl 1 .copyLineTransfer [isl, o.core]

end Sys2Proof.Machine
end

