-- ==== Sys2Proof/Machine/Report.lean ====
section
/-! DEFINITION. The fault queue and the event queue of an island (R375, R422): the island is their producer. -/

namespace Sys2Proof.Machine

/-- TAIL and HEAD of a queue's descriptor at a physical address, and its slots (R98). -/
def State.qTail (s : State) (isl pa : Nat) : Nat := s.readHomeN isl (pa + 24) 8
def State.qHead (s : State) (isl pa : Nat) : Nat := s.readHomeN isl (pa + 16) 8
def State.qState (s : State) (isl pa : Nat) : Nat := bitsN (s.readHomeN isl (pa + 11) 1) 0 2
def State.qLogn (s : State) (isl pa : Nat) : Nat := bitsN (s.readHomeN isl (pa + 10) 1) 4 4
def State.qBase (s : State) (isl pa : Nat) : Nat := s.readHomeN isl pa 9

/-- Whether 64 bytes are a queue's descriptor: reserved fields zero (R8), LOGN and BASE as R98 has them. R98 states no outcome for
one that is not; the model's command processor dispatches nothing from it, and writes no record through it (log 61). -/
def State.qValid (s : State) (isl pa : Nat) : Bool :=
  let d := s.readHomeN isl pa 16
  bitsN d 72 12 = 0 && bitsN d 90 38 = 0 && s.readHomeN isl (pa + 32) 32 = 0 && s.qLogn isl pa ≠ 0 && s.qBase isl pa % 128 = 0

/-- The next slot of a queue that the island produces: TAIL and the slot's address; none while it has no room, and none
where the descriptor is not one. -/
def State.qRoom (s : State) (isl pa : Nat) : Option (Nat × Nat) :=
  let tail := s.qTail isl pa
  let logn := s.qLogn isl pa
  let slot := s.qBase isl pa + 128 * (tail % 2 ^ logn)
  if !s.qValid isl pa || 2 ^ logn ≤ (tail + 2 ^ 64 - s.qHead isl pa) % 2 ^ 64 || Config.hbmBytes < slot + 128 then none
  else some (tail, slot)

/-- Whether the lines of a record's slot and of its descriptor are quiet. -/
def State.qQuiet (s : State) (isl pa slot : Nat) : Bool := (s.isl isl).quietRange pa 64 && (s.isl isl).quietRange slot 128

/-- Writes a record and then advances TAIL (R375). -/
def State.qWrite (s : State) (isl pa tail slot : Nat) (r : BitVec 1024) : State :=
  (s.writeHome isl slot 0 (leBytes 128 r.toNat)).writeHomeN isl (pa + 24) 8 (tail + 1)

/-- Whether the island serves its fault and event queues (R421). -/
def Island.serves (x : Island) : Bool := x.fstat.qrdy

/-- Writes fault records in order while the queue has room; each advance raises the interrupt, and a record that has been acted
on or withdrawn meanwhile leaves (R375). -/
def State.flushFaults (s : State) (isl : Nat) : Nat → State
  | 0 => s
  | n + 1 =>
    let x := s.isl isl
    let pa := fld x.sys.fq 0 48
    match x.serves, x.faults.findIdx? (fun r => !r.posted && !r.gathering), s.qRoom isl pa with
    | true, some i, some (tail, slot) =>
      if !s.qQuiet isl pa slot then s.afterOnce isl 1 .faultRecordPost [isl]
      else
        let r := x.faults.getD i {}
        let s := s.qWrite isl pa tail slot r.bits
        (s.modIsl isl fun x =>
          { x with faults := if r.settled then x.faults.eraseIdx i else x.faults.modify i fun f => { f with posted := true, num := tail },
                   irqFault := x.irqFault + 1 }).flushFaults isl n
    | _, _, _ => s

/-- The island writes its pending records to the fault queue. -/
def execFaultRecordPost (s : State) : Host.Outcome State Fault Refusal :=
  event s fun as s => s.flushFaults (ar as 0) ((s.isl (ar as 0)).faults.length)

/-- Writes held event records in order while the event queue has room (R422). -/
def State.flushEvents (s : State) (isl : Nat) : Nat → State
  | 0 => s
  | n + 1 =>
    let x := s.isl isl
    let pa := fld x.host.eq 0 48
    match x.serves, x.events, s.qRoom isl pa with
    | true, r :: rest, some (tail, slot) =>
      if !s.qQuiet isl pa slot then s.afterOnce isl 1 .faultQueueRoom [isl]
      else
        let s := s.qWrite isl pa tail slot r
        (s.modIsl isl fun x => { x with events := rest, irqEvent := x.irqEvent + 1 }).flushEvents isl n
    | _, _, _ => s

/-- An event record (R422). -/
def eventRecord (code arg tag site ns data : Nat) : BitVec 1024 :=
  BitVec.ofNat 1024 (code % 256 + arg % 256 * 2 ^ 8 + tag % 65536 * 2 ^ 16 + site % 16 * 2 ^ 32 + ns % 2 ^ 64 * 2 ^ 64 +
    data % 2 ^ 128 * 2 ^ 128)

/-- Posts an event of an island to a queue. -/
def State.postEvent (s : State) (isl code arg tag site data : Nat) : State :=
  let s := s.modIsl isl fun x => { x with events := x.events ++ [eventRecord code arg tag site (s.now / 1000) data] }
  s.flushEvents isl (s.isl isl).events.length

/-- The driver has advanced HEAD: records of the island itself that it has passed are consumed, held ones are posted
(R375, R379, R422). -/
def execFaultQueueRoom (s : State) : Host.Outcome State Fault Refusal :=
  event s fun as s =>
    let isl := ar as 0
    let head := s.qHead isl (fld (s.isl isl).sys.fq 0 48)
    let s := s.modIsl isl fun x => { x with faults := x.faults.filter fun r => !(recSource r.bits = 5 && r.posted && r.num < head) }
    let s := s.flushFaults isl (s.isl isl).faults.length
    s.flushEvents isl (s.isl isl).events.length

/-! ## The topology table (R345) -/

/-- The island that holds the Bellwether. -/
def State.bellIsland (s : State) : Option Nat := s.bell.map fun b => b / 2

/-- The state of a site as the Bellwether's island has it; without a Bellwether no site is present. -/
def State.siteState (s : State) (i : Nat) : Nat :=
  match s.bellIsland with
  | some b => (tgetD (s.isl b).topo.sites i {}).st
  | none => 0

/-- The present islands. -/
def State.presentIsles (s : State) : List Nat := (List.range 16).filter fun i => s.siteState i = 1

/-- The table as it lies in memory. -/
def topoBytes (t : Topo) : List Byte :=
  leBytes 8 (t.outcome.toNat + t.bell.toNat * 2 ^ 8 + t.gen.toNat * 2 ^ 32) ++
    (List.range 16).flatMap fun i =>
      let e := tgetD t.sites i {}
      leBytes 8 (e.st % 4 + e.links.toNat * 2 ^ 8 + e.fibre.toNat * 2 ^ 32)

/-- Whether the table may be written in every present island now. -/
def State.topoQuiet (s : State) : Bool := s.presentIsles.all fun i => (s.isl i).quietRange Config.topoPa 136

/-- Changes the topology: every copy of a present island takes the change, then GEN rises in memory by 1; the event TOPO
is posted (R345, R422). -/
def State.publish (s : State) (f : Tbl Site → Tbl Site) : State :=
  match s.bellIsland with
  | none => s
  | some b =>
    let old := s.presentIsles
    let s := old.foldl (fun (s : State) i =>
      s.modIsl i fun x => { x with topo := { x.topo with sites := f x.topo.sites, gen := x.topo.gen + 1 } }) s
    let s := s.presentIsles.foldl (fun (s : State) i => s.writeHome i Config.topoPa 0 (topoBytes (s.isl i).topo)) s
    s.postEvent b 2 0 0 b (s.isl b).topo.gen.toNat

end Sys2Proof.Machine
end

