-- ==== Sys2Proof/Machine/Fabric.lean ====
section
/-! DEFINITION. The fabric: ports and routes (R342-R345), the fabric queue and its packets (R346-R348), the inter-island
instructions (R349-R357), faults after issue and removed islands (R358, R359). -/

namespace Sys2Proof.Machine

/-! ## Ports and routes (R12, R342-R344) -/

/-- The island and the port at the far end of a port. -/
def State.farEnd (s : State) (isl port : Nat) : Option (Nat × Nat) :=
  let r := isl / 4
  let c := isl % 4
  match port with
  | 1 => if 1 ≤ r then some (isl - 4, 2) else none
  | 2 => if r ≤ 2 then some (isl + 4, 1) else none
  | 3 => if 1 ≤ c then some (isl - 1, 4) else none
  | 4 => if c ≤ 2 then some (isl + 1, 3) else none
  | 5 => some (4 * r + (c + 2) % 4, 5)
  | 6 => some ((r + 2) % 4 * 4 + c, 6)
  | p => if 7 ≤ p ∧ p ≤ 14 then (tget? s.fibreTo (16 * isl + p)).map fun q => (q / 16, q % 16) else none

/-- Whether a port of an island is trained in its own topology copy (R345). -/
def Island.portTrained (x : Island) (isl port : Nat) : Bool :=
  let t := tgetD x.topo.sites isl {}
  if 1 ≤ port ∧ port ≤ 6 then t.links.getLsbD (port - 1) else t.fibre.getLsbD (port - 7)

/-- Whether packets leave by a port. -/
def Island.portOpen (x : Island) (isl port : Nat) : Bool := x.portTrained isl port && !x.closedPorts.contains port

/-- The active route table. -/
def Island.activeTable (x : Island) : Nat := b2n x.sys.rtact

/-- The hops of a route entry. -/
def routeHops (e : DWord) : List Nat := (List.range (min (fld e 0 4) 8)).map fun k => fld e (4 * k + 4) 4

/-- The route to a site that is present and whose entry is usable (R344, R350). -/
def Island.routeTo (x : Island) (t : Nat) : Option (List Nat) :=
  let e := x.routeEntry x.activeTable t
  if x.present t && e.getLsbD 63 then some (routeHops e) else none

/-- The islands of a route from an island. -/
def State.routeIsles (s : State) : Nat → List Nat → List Nat
  | _, [] => []
  | i, p :: r => match s.farEnd i p with
    | some (j, _) => j :: s.routeIsles j r
    | none => []

/-- The one-way time over a number of hops in picoseconds (R368); a 0-hop operation arrives half-way. -/
def oneWay (h : Nat) : Nat := if h = 0 then 150000 else 600000 + 125000 * (h - 1)

/-- The time of bytes at 400 GB/s. -/
def beatPs (n : Nat) : Nat := n * 5 / 2

/-! ## Packets -/

/-- Has a packet leave the OED it is in by its next port, or wait in the virtual queue of a closed port. -/
def State.forwardPkt (s : State) (id : Nat) : State :=
  match tget? s.pkts id with
  | none => s
  | some p =>
    match p.route with
    | [] => s
    | q :: r =>
      match if (s.isl p.here).portOpen p.here q then s.farEnd p.here q else none with
      | none => { s with pkts := tput s.pkts id { p with held := true } }
      | some (j, _) =>
        let p' : Pkt := { p with held := false, here := j, route := r, links := p.links ++ [16 * p.here + q] }
        let s : State := { s with pkts := tput s.pkts id p' }
        s.afterPs (if p.links.isEmpty then 600000 else 125000) .fabricPacketArrival [j, id]

/-- Sends a packet. Through its own OED the bytes of the operation up to its own, `lead`, take their time (R368). -/
def State.sendPkt (s : State) (lead : Nat) (p : Pkt) : State :=
  let id := s.nextId
  let s := { s with nextId := id + 1, pkts := tput s.pkts id { p with here := p.src } }
  if p.route.isEmpty then s.afterPs (oneWay 0 + beatPs lead) .fabricPacketArrival [p.dst, id] else s.forwardPkt id

/-- A packet of an operation. -/
def Op.pkt (o : Op) (isl id t : Nat) (route : List Nat) : Pkt :=
  { src := isl, dst := t, core := o.core, place := o.place, op := id, attempt := o.attempt, instr := o.instr, route := route,
    asid := o.asid, priv := o.priv, launch := o.launch }

/-! ## Descriptors of `PUT` and `GET` (R351, R352) -/

def pgLva (d : BitVec 256) : VA := BitVec.ofNat 72 (fld d 0 72)
def pgLwin (d : BitVec 256) : Nat := fld d 64 8
def pgRva (d : BitVec 256) : VA := BitVec.ofNat 72 (fld d 72 8 * 2 ^ 64 + fld d 96 64)
def pgRwin (d : BitVec 256) : Nat := fld d 72 8
def pgIsland (d : BitVec 256) : Nat := fld d 80 4
def pgScope (d : BitVec 256) : Nat := fld d 84 3
def pgFill (d : BitVec 256) : Bool := d.getLsbD 87
def pgNen (d : BitVec 256) : Bool := d.getLsbD 88
def pgLen (d : BitVec 256) : Nat := fld d 160 25
def pgNctr (d : BitVec 256) : Nat := fld d 192 10

/-- The status of a descriptor. -/
def checkPg (x : Island) (core place : Nat) (get : Bool) (d : BitVec 256) : Nat :=
  let scr : Bool := match windowLoc x core place (pgLva d) with
    | some (.scr _ _ _) => true
    | _ => false
  if fld d 89 7 ≠ 0 ∨ fld d 185 7 ≠ 0 ∨ fld d 202 54 ≠ 0 ∨ pgLen d = 0 ∨ 16777216 < pgLen d ∨
      (get ∧ (pgScope d = 0 ∨ 5 < pgScope d)) ∨ (!get ∧ (pgScope d ≠ 0 ∨ pgFill d)) then 1
  else if 0xF0 ≤ pgRwin d ∨ reservedWin (pgLwin d) then 2
  else if inWindow (pgLva d) && !(scr && windowFits x core place (pgLva d) (pgLen d)) then 3
  else 0

/-! ## Issue -/

/-- A user trap of REMOTE_ABSENT in the lanes of a run (R350). -/
def State.absent (s : State) (e : Env) (c : Ctl) (opc : Nat) (bad : List (Nat × LaneMask)) : State :=
  bad.foldl (fun s p => s.trapAt e p.2 0x20 (BitVec.ofNat 64 (p.1 + 256 * opc)) e.cp) (s.flagNow e c)

/-- `PUT` and `GET` (R350-R353). -/
def putGet (i : Instr) (get : Bool) (c : Ctl) (x y : Opnd) (s : State) : Host.Outcome State Fault Refusal :=
  let opc := if get then 0xC9 else 0xC8
  issue i c [(x, false), descReg y 8] (hypRemote opc) (fun e s =>
    let d := e.desc8 y
    if !e.any then s.flagNow e c
    else if ((s.isl e.isl).routeTo (pgIsland d)).isNone then s.absent e c opc [(pgIsland d, e.run)]
    else
      let wr (n : Nat) (g : Group) : Group := e.result 4 x false false e.guard (fun _ => (BitVec.ofNat 64 n, 0)) g
      match checkPg (s.isl e.isl) e.core e.g.place get d with
      | 0 => (s.onGroup e (wr 0)).launchOp e { e.op i c with bulk := { desc := d } }
      | n => s.onGroup e fun g => e.done c 4 (wr n g)) s

def execPut (c : Ctl) (x y : Opnd) (s : State) : Host.Outcome State Fault Refusal := putGet (.put c x y) false c x y s

def execGet (c : Ctl) (x y : Opnd) (s : State) : Host.Outcome State Fault Refusal := putGet (.get c x y) true c x y s

/-- The lanes of a mask by the island each names, as (island, lanes). -/
def byIsland (f : Nat → Nat) (m : List Nat) : List (Nat × LaneMask) :=
  ((List.range 16).map fun t => (t, maskOf (m.filter fun l => f l = t))).filter fun p => p.2 ≠ 0

/-- The key of the requests that are not sent: their lanes took a local fault. -/
def notSent : Nat := 16

/-- The combine of a `RATOM` (R354). -/
def ratomCombine (op : RatomOp) (a : Acc) (m : Nat) : Option Nat :=
  let v := a.x.toNat % 256 ^ a.n
  match op with
  | .add => some (atomCombine .add (8 * a.n) m v)
  | .fadd => some (atomCombine .fadd (8 * a.n) m v)
  | .swap => some v
  | .cas => if m = v then some (a.y.toNat % 256 ^ a.n) else none
  | .minI => some (atomCombine .minI (8 * a.n) m v)
  | .minN => some (atomCombine .minN (8 * a.n) m v)
  | .maxI => some (atomCombine .maxI (8 * a.n) m v)
  | .maxN => some (atomCombine .maxN (8 * a.n) m v)

/-- `RATOM` (R354, R355). -/
def execRatom (c : Ctl) (op : RatomOp) (wide : Bool) (win : BitVec 2) (ord : MOrd) (x a z : Opnd) (s : State) :
    Host.Outcome State Fault Refusal :=
  let i : Instr := .ratom c op wide win ord x a z
  let cas := op = .cas
  let quad : List (Opnd × Bool) := match x with | .vp k => if cas && wide then [(.vp (k + 2), true)] else [] | _ => []
  issue i c ([(x, wide || cas), (a, true), (z, false)] ++ quad) (hypRemote 0xCA) (fun e s =>
    let isle (l : Nat) : Nat := fld (e.rd32 z l) 0 4
    let gone (l : Nat) : Bool := ((s.isl e.isl).routeTo (isle l)).isNone
    let bad := (lanesOf e.guard).filter gone
    let good := (lanesOf e.guard).filter fun l => !gone l
    let n := if wide then 8 else 4
    let acc (l : Nat) : Acc :=
      let va := e.addr win a 0 l
      let v := if cas then casOperands e wide x l else (e.rdW wide x l, 0)
      { lane := l, va := va, n := n, x := v.1, y := v.2,
        fault := if inWindow va then some (BitVec.ofNat 8 cXlate)
                 else if va.toNat % n ≠ 0 then some (BitVec.ofNat 8 cAlign) else none }
    let accs := good.map acc
    let sent := accs.filter fun a => a.fault.isNone
    let lost := accs.filter fun a => a.fault.isSome
    let subs : List Sub := ((byIsland isle (sent.map (·.lane))).map fun p =>
        { key := p.1, accs := sent.filter fun a => p.2.getLsbD a.lane }) ++
      if lost.isEmpty then [] else [{ key := notSent, accs := lost }]
    let id := s.nextId
    let s := if subs.isEmpty then s.flagNow e c
      else
        let s := (s.launchOp e { e.op i c with subs := subs }).postFormed e.isl id { e.op i c with subs := subs } [cXlate, cAlign]
        { s with launches := tmod s.launches e.wg.launch fun l => { l with nonReplayable := true } }
    (byIsland isle bad).foldl (fun s p => s.trapAt e p.2 0x20 (BitVec.ofNat 64 (p.1 + 256 * 0xCA)) e.cp) s) s

/-- `RNTFY` (R356). -/
def execRntfy (c : Ctl) (x y : Opnd) (z : ZOp) (s : State) : Host.Outcome State Fault Refusal :=
  let i : Instr := .rntfy c x y z
  issue i c [(x, false), (y, false), zreg z false] (hypRemote 0xCB) (fun e s =>
    let t := fld (zeroImm e x) 0 4
    if !e.any then s.flagNow e c
    else if ((s.isl e.isl).routeTo t).isNone then s.absent e c 0xCB [(t, e.run)]
    else s.launchOp e { e.op i c with
      a := BitVec.ofNat 64 (t + 16 * fld (zeroImm e y) 0 10), b := (e.rdZ32 z e.lane0).setWidth 64 }) s

/-- `RFENCE` (R357): it acts whatever the guard. -/
def execRfence (c : Ctl) (s : State) : Host.Outcome State Fault Refusal :=
  let i : Instr := .rfence c
  issue i c [] (hypRemote 0xCC) (fun e s =>
    let after := ((s.isl e.isl).queueOps e.core e.g.place fabricInstr).map (·.1)
    let id := s.nextId
    let s := (s.newOp e.isl { e.op i c with after := after }).2
    (s.onGroup e fun g => { g with rfencing := g.rfencing ++ [id], qfencing := g.qfencing ++ [id] }).checkFences e.isl) s

/-! ## The queue's order (R346) -/

/-- The islands an operation's packets go to. -/
def Op.targets (o : Op) : List Nat :=
  match o.instr with
  | .put .. | .get .. => [pgIsland o.bulk.desc]
  | .ratom .. => (o.subs.filter fun u => u.key < notSent && u.accs.any fun a => !a.done).map (·.key)
  | .rntfy .. => [fld o.a 0 4]
  | .coll .. => islandsOf (fld o.bulk.desc 160 16)
  | _ => []

/-- Target and route of an operation with one target; empty where it matches none. -/
def State.pathOf (s : State) (isl : Nat) (o : Op) : List Nat :=
  match o.instr, o.targets with
  | .coll .., _ => []
  | _, [t] => match (s.isl isl).routeTo t with
    | some r => t :: r
    | none => []
  | _, _ => []

/-- Whether every packet of an operation has been injected: of a `PUT`, the last of its bytes. -/
def Op.sent (o : Op) : Bool :=
  o.injected && match o.instr with
    | .put .. => o.bulk.moved = pgLen o.bulk.desc
    | _ => true

/-- Whether an operation may be injected: it is first, or the packets of everything before it have left and it goes the way of
the one before. -/
def State.mayInject (s : State) (isl id : Nat) (o : Op) : Bool :=
  match (s.isl isl).wg? o.core o.place with
  | none => true
  | some w =>
    let before := w.fabq.takeWhile fun i => i ≠ id
    let ops := before.filterMap fun i => s.op? isl i
    match ops.getLast? with
    | none => true
    | some p => (ops.all fun q => q.sent) && !p.path.isEmpty && p.path = s.pathOf isl o

/-- The end of an operation: it leaves its queue; its flag falls, fences, releases and the workgroup's end look again. -/
def State.fabEnd (s : State) (isl id : Nat) : State :=
  match s.op? isl id with
  | none => s
  | some o =>
    let s := s.modIsl isl fun x => x.modWg o.core o.place fun w => { w with fabq := w.fabq.filter fun i => i ≠ id }
    let s := (s.acquireThenEnd isl id).checkFences isl
    (s.kickFab isl o.core o.place).checkWgEnd isl o.core o.place

/-- Looks whether a `RATOM` has every value: its lanes that were sent leave the queue, and it ends with the last lane. -/
def State.ratomCheck (s : State) (isl id : Nat) : State :=
  match s.op? isl id with
  | none => s
  | some o =>
    if !o.injected || o.subs.any (fun u => u.key < notSent && u.accs.any fun a => !a.done) then s
    else if o.subs.all fun u => u.accs.all (·.done) then s.fabEnd isl id
    else
      ((s.modIsl isl fun x => x.modWg o.core o.place fun w => { w with fabq := w.fabq.filter fun i => i ≠ id }).kickFab isl
        o.core o.place)

/-! ## Timers (R358, R408) -/

/-- Starts a timer of the island: it stands still while the island is halted. -/
def State.startTimer (s : State) (isl ps : Nat) (i : Instr) (args : List Nat) : State :=
  if (s.isl isl).running then s.afterPs ps i args
  else s.modIsl isl fun x => { x with frozen := x.frozen ++ [(ps, i, args)] }

/-! ## Faults after issue (R358) -/

/-- Posts a fault of a fabric queue: the issuing group parks. -/
def State.fabFault (s : State) (isl id code target : Nat) (lanes : LaneMask) (va : VA) (write : Bool) : State :=
  match s.op? isl id with
  | none => s
  | some o =>
    let s := s.onOpGroup isl o fun g => { g with parked := true, records := g.records + 1 }
    s.postAgent isl
      { code := code, island := target, addr := va, lanes := lanes, cp := o.cp, launch := o.launch, asid := o.asid,
        agent := agentWord 3 o.core o.place, write := write, source := 3 } (some id) lanes

/-- The packets of an operation's attempt that wait for a closed port go no further. -/
def State.dropHeld (s : State) (isl id : Nat) : State :=
  { s with pkts := s.pkts.filter fun p => !(p.2.src = isl && p.2.op = id && p.2.held) }

/-- A whole operation stops with a fault: what is under way of its attempt no longer counts. -/
def State.fabStop (s : State) (isl id code target : Nat) (va : VA) (write : Bool) : State :=
  let s := (s.dropHeld isl id).modOp isl id fun o =>
    { o with attempt := o.attempt + 1, subs := [{ key := 0, accs := [{ va := va, fault := some (BitVec.ofNat 8 code) }] }] }
  s.fabFault isl id code target (BitVec.allOnes 64) va write

/-- Posts the faults of a `RATOM` once no lane is under way: one record for each island and code. -/
def State.ratomFaults (s : State) (isl id : Nat) : State :=
  match s.op? isl id with
  | none => s
  | some o =>
    let live := o.subs.filter fun u => u.key < notSent
    if live.any fun u => u.accs.any fun a => !a.done && a.fault.isNone then s
    else
      let s := (s.dropHeld isl id).modOp isl id fun o => { o with attempt := o.attempt + 1 }
      live.foldl (fun (s : State) u =>
        [0x21, 0x22].foldl (fun (s : State) code =>
          let bad := u.accs.filter fun a => !a.done && a.fault = some (BitVec.ofNat 8 code)
          match bad with
          | [] => s
          | a :: _ => s.fabFault isl id code u.key (maskOf (bad.map (·.lane))) a.va true) s) s

/-- Sets a fault in the lanes of a `RATOM` that a predicate picks. -/
def Op.faultLanes (o : Op) (code : Nat) (f : Acc → Bool) : Op :=
  { o with subs := o.subs.map fun u =>
      if u.key < notSent then
        { u with accs := u.accs.map fun a => if !a.done && a.fault.isNone && f a then { a with fault := some (BitVec.ofNat 8 code) } else a }
      else u }

/-- The target refuses an operation (R358). -/
def execRemotePerm (s : State) : Host.Outcome State Fault Refusal :=
  event s fun as s =>
    let isl := ar as 0
    let id := ar as 1
    let s : State := { s with pkts := s.pkts.filter fun p =>
      !(p.2.src = isl && p.2.op = id && p.2.attempt = ar as 2 && p.2.key = ar as 3 && p.2.code ≠ 0) }
    match s.op? isl id with
    | none => s
    | some o =>
      if o.attempt ≠ ar as 2 then s
      else match o.instr with
        | .ratom .. => (s.modOp isl id fun o => o.faultLanes 0x21 fun a => a.lane = ar as 3).ratomFaults isl id
        | .get .. => s.fabStop isl id 0x21 (o.targets.headD 0) (BitVec.ofNat 72 (ar as 4)) false
        | _ => s.fabStop isl id 0x21 (o.targets.headD 0) (BitVec.ofNat 72 (ar as 4)) true

/-! ## Operations to an absent island (R344, R359) -/

/-- Discards an operation whose target is gone: the lanes that issued it take REMOTE_ABSENT at their next issue, or, where
their threads are gone, the record is posted (R359). -/
def State.fabDiscard (s : State) (isl id t : Nat) : State :=
  match s.op? isl id with
  | none => s
  | some o =>
    let s := s.withdraw isl (fun r => r.op = some id && recSource r.bits = 3) fun _ => false
    let opc := opcOf o.instr
    let info : DWord := BitVec.ofNat 64 (t + 256 * opc)
    let lanes := match o.instr with
      | .ratom .. => maskOf ((o.subs.filter fun u => u.key = t).flatMap fun u => (u.accs.filter fun a => !a.done).map (·.lane))
      | _ => o.lanes
    let live := match (s.isl isl).opGroup? o with
      | some g => (lanesOf lanes).filter fun l => (tget? g.threads l).isSome
      | none => []
    let s := s.onOpGroup isl o fun g =>
      { g with due := g.due ++ live.map fun l => { lane := l, op := id, code := 0x20, info := info } }
    let lost := (lanesOf lanes).filter fun l => !live.contains l
    let s := if lost.isEmpty then s
      else s.post isl { bits := recordBits { code := 0x20, info := info, lanes := maskOf lost, cp := o.cp, launch := o.launch,
                                             asid := o.asid, agent := agentWord 0 o.core o.slot } }
    let s := { s with pkts := s.pkts.filter fun p => !(p.2.src = isl && p.2.op = id && (p.2.dst = t || o.targets.length ≤ 1)) }
    match o.instr with
    | .ratom .. =>
      let s := (s.modOp isl id fun o => { o with subs := o.subs.filter fun u => u.key ≠ t }).ratomCheck isl id
      if o.injected then s else s.kickFab isl o.core o.place
    | _ => s.fabEnd isl id

/-! ## Injection (R342, R346, R348) -/

/-- The bytes that a `PUT` sends next, or a `GET` reads next: of one line at both ends. -/
def pieceLen (d : BitVec 256) (off : Nat) : Nat :=
  let room (va : VA) : Nat := 128 - (va.toNat + off) % 128
  min (pgLen d - off) (min (room (pgLva d)) (room (pgRva d)))

/-- Sends a packet of an operation over the route of the table that is active now (R342, R365); none where no entry is usable:
the operation is one to an absent island (R344). -/
def State.injectPkt (s : State) (isl id t lead : Nat) (p : Pkt) : Option State :=
  ((s.isl isl).routeTo t).map fun r => s.sendPkt lead { p with src := isl, dst := t, op := id, route := r }

/-- Sends the bytes of a `PUT` whose beats have left, and has the following leave; behind the last comes the next operation. An
operation whose packets have gone by more than one route matches no other (R346). -/
def State.putStep (s : State) (isl id : Nat) (o : Op) : State :=
  let d := o.bulk.desc
  let t := pgIsland d
  let off := o.bulk.moved
  let k := pieceLen d off
  let va := vaPlus (pgLva d) off
  match s.copyPlace isl o .read va 1 with
  | (.error code, s) => s.fabStop isl id code t va false
  | (.ok l, s) =>
    if s.isEmptyLoc isl l || !(s.isl isl).locQuiet l then s.after isl 1 .fabricInject [isl, id, o.attempt]
    else
      let next := off + k
      let r := s.tainted isl l k
      let s := r.2.useLoc isl l
      let p : Pkt := { o.pkt isl id t [] with
        key := off, va := vaPlus (pgRva d) off, data := s.readLoc isl 0 l k, poison := r.1,
        nctr := if next = pgLen d && pgNen d then some (pgNctr d) else none }
      match s.injectPkt isl id t 0 p with
      | none => s.fabDiscard isl id t
      | some s =>
        let way := s.pathOf isl o
        let s := s.modOp isl id fun o =>
          { o with bulk := { o.bulk with moved := next }, path := if off = 0 || o.path = way then way else [] }
        if next = pgLen d then s.kickFab isl o.core o.place
        else s.afterPs (beatPs (pieceLen d next)) .fabricInject [isl, id, o.attempt]

/-- Bytes of the value of an `RNTFY`. -/
def notifyBytes : Nat := 4

/-- Injects an operation that is not bulk, or the first beats of one; one whose target is absent is discarded (R344, R359). -/
def State.injectNow (s : State) (isl id : Nat) (o : Op) : State :=
  let timed (s : State) : State := s.startTimer isl (1000000 * (s.isl isl).sys.rtime.toNat) .remoteTimeout [isl, id, o.attempt]
  let whole (s : State) (t lead : Nat) (p : Pkt) : State :=
    match s.injectPkt isl id t lead p with
    | some s => (timed s).kickFab isl o.core o.place
    | none => s.fabDiscard isl id t
  match o.instr with
  | .put .. => (timed s).afterPs (beatPs (pieceLen o.bulk.desc 0)) .fabricInject [isl, id, o.attempt]
  | .get .. =>
    let t := pgIsland o.bulk.desc
    whole s t (pieceLen o.bulk.desc 0) { o.pkt isl id t [] with kind := .read, va := pgRva o.bulk.desc, n := pgLen o.bulk.desc }
  | .rntfy .. =>
    let t := fld o.a 0 4
    whole s t notifyBytes { o.pkt isl id t [] with kind := .notify, x := o.a >>> 4, y := o.b }
  | .ratom .. =>
    let lanes := (List.range 64).filterMap fun l => o.subs.findSome? fun u =>
      if u.key < notSent then (u.accs.find? fun a => a.lane = l && !a.done && a.fault.isNone).map fun a => (u.key, a) else none
    let r := lanes.foldl (fun (p : Nat × List Nat × State) q =>
      let lead := p.1 + q.2.n
      match p.2.2.injectPkt isl id q.1 lead { o.pkt isl id q.1 [] with
        kind := .atom, key := q.2.lane, va := q.2.va, n := q.2.n, x := q.2.x, y := q.2.y } with
      | some s => (lead, p.2.1, s)
      | none => (p.1, if p.2.1.contains q.1 then p.2.1 else p.2.1 ++ [q.1], p.2.2)) (0, [], if lanes.isEmpty then s else timed s)
    let s := r.2.1.foldl (fun (s : State) t => s.fabDiscard isl id t) r.2.2
    (s.kickFab isl o.core o.place).ratomCheck isl id
  | _ => s

/-! ## At the target (R347, R355, R356) -/

/-- Translates for an arriving operation, through the OED's TLB (R384). -/
def State.xlateOed (s : State) (isl : Nat) (asid : BitVec 16) (priv : Bool) (w : Want) (va : VA) : Except Nat Loc × State :=
  match tlbFind (s.isl isl).oedTlb asid va with
  | some t =>
    match leafGrant t.pte.toNat t.level priv w va with
    | .error c => (.error c, s)
    | .ok l => if w = .write && (s.needsSnap isl asid va t.pte.toNat t.level).isSome then s.xlateNow isl asid priv w va else (.ok l, s)
  | none =>
    match s.walk isl asid va with
    | (.bad, s) => (.error cXlate, s)
    | (.leaf pte level _, s) =>
      (s.modIsl isl fun x => { x with oedTlb := tlbAdd x.oedTlb 256 { asid := asid, va := va, level := level, pte := BitVec.ofNat 64 pte } }).xlateNow
        isl asid priv w va

/-- The operations before one that stands in a fabric queue. -/
def State.queueBefore (s : State) (isl core place id : Nat) : List Nat :=
  let q := (((s.isl isl).wg? core place).map (·.fabq)).getD []
  if q.contains id then q.takeWhile fun i => i ≠ id else []

/-- The writes of an earlier operation of a packet's queue are not all performed: one of its packets has been refused, or it
stands with a fault and waits for its replay, or its replay has bytes to send (R346, R358). -/
def State.queueBroken (s : State) (p : Pkt) : Bool :=
  (s.queueBefore p.src p.core p.place p.op).any fun i =>
    (s.op? p.src i).any (fun o => o.faulted || !o.sent) || s.pkts.any fun q => q.2.src = p.src && q.2.op = i && q.2.code ≠ 0

/-- Whether a packet is behind another of its queue at its target (R346). -/
def State.pktBehind (s : State) (id : Nat) (p : Pkt) : Bool :=
  s.queueBroken p ||
    s.pkts.any fun q => q.2.src = p.src && q.2.core = p.core && q.2.place = p.place && q.2.dst = p.dst && !q.2.done &&
      (q.1 < id || (s.queueBefore p.src p.core p.place p.op).contains q.2.op)

/-- A packet has been performed: its acknowledgement goes back. -/
def State.pktDone (s : State) (id : Nat) (p : Pkt) : State :=
  { s with pkts := tput s.pkts id { p with done := true } }.afterPs (oneWay p.links.length) .fabricAcknowledgement [p.src, id]

/-- A packet is refused. -/
def State.pktRefuse (s : State) (id : Nat) (p : Pkt) : State := s.pktDone id { p with code := 0x21 }

/-- Keeps the old value of a performed atomic: the last 256 of each source island (R358). -/
def Island.keepSeq (x : Island) (q : RSeq) : Island :=
  let l := x.rseq ++ [q]
  let mine := l.filter fun r => r.src = q.src
  { x with rseq := if mine.length ≤ 256 then l else match mine.head? with | some h => l.erase h | none => l }

/-- Marks poisoned what `n` bytes from a poisoned source were written to: a line, or the words of a core's store (R203, R353). -/
def State.poisonLoc (s : State) (isl : Nat) (l : Loc) (n : Nat) (poison : Bool) : State :=
  if !poison then s
  else match l with
    | .line ln _ => s.modIsl isl fun x => x.modH ln fun h => { h with poison := true }
    | .scr c _ _ | .reg c _ _ | .pin c _ =>
      let words : List SoftErr := (List.range ((n + 3) / 4)).map fun i => { loc := l.plus (4 * i), double := true }
      s.modIsl isl fun x => x.modCore c fun k => { k with soft := k.soft ++ words }
    | .unc _ | .buf _ _ _ _ => s

/-- The time by which the beats of the first `n` bytes of a `GET` over `h` hops follow its first line (R368). -/
def getPs (h n : Nat) : Nat := if h = 0 then beatPs n else beatPs (n - 128)

/-- Raises the counter of a `PUT` once every write of it has been performed, and once only (R353, R358). -/
def State.putNotify (s : State) (p : Pkt) : State :=
  match p.nctr with
  | none => s
  | some k =>
    let refused := s.pkts.any fun q => q.2.src = p.src && q.2.op = p.op && q.2.attempt = p.attempt && q.2.code ≠ 0
    if refused || !((s.op? p.src p.op).any fun o => o.attempt = p.attempt) ||
        (s.isl p.dst).rseq.any fun q => q.src = p.src && q.op = p.op then s
    else (s.notify p.dst k 1).modIsl p.dst fun x => x.keepSeq { src := p.src, op := p.op }

/-- A packet is performed at its target, with home reach. -/
def State.performPkt (s : State) (id : Nat) (p : Pkt) : State :=
  let t := p.dst
  let again (s : State) : State := s.after t 1 .fabricPacketArrival [t, id]
  let c := s.ctxEntry t p.asid
  let s := c.2
  if s.pktBehind id p then again s
  else if !cxV c.1 then s.pktRefuse id p
  else match p.kind with
    | .notify =>
      if (s.isl t).rseq.any fun q => q.src = p.src && q.op = p.op then s.pktDone id p
      else ((s.notify t (fld p.x 0 10) (fld p.y 0 32)).modIsl t fun x => x.keepSeq { src := p.src, op := p.op }).pktDone id p
    | .write =>
      match s.xlateOed t p.asid p.priv .write p.va with
      | (.error _, s) => s.pktRefuse id p
      | (.ok l, s) =>
        if !(s.isl t).locQuiet l then again s
        else
          (((s.writeLoc t 0 0 p.launch l p.data).2.poisonLoc t l p.data.length p.poison).putNotify p).pktDone id p
    | .read =>
      let off := p.key
      let d := ((s.op? p.src p.op).getD {}).bulk.desc
      let k := max 1 (min (p.n - off) (if pgLen d = p.n then pieceLen d off else 128 - (p.va.toNat + off) % 128))
      match s.xlateOed t p.asid p.priv .read (vaPlus p.va off) with
      | (.error _, s) => s.pktRefuse id { p with va := vaPlus p.va off }
      | (.ok l, s) =>
        if !(s.isl t).locQuiet l then again s
        else
          let b := s.tainted t l k
          let s := b.2.useLoc t l
          let r : Pkt := { p with data := s.readLoc t 0 l k, poison := b.1, va := vaPlus p.va off }
          let id' := s.nextId
          let s := { s with nextId := id' + 1 }.pktDone id' r
          if p.n ≤ off + k then { s with pkts := tdel s.pkts id }
          else
            let k' := if pgLen d = p.n then pieceLen d (off + k) else 128
            { s with pkts := tput s.pkts id { p with key := off + k } }.afterPs
              (getPs p.links.length (off + k + k') - getPs p.links.length (off + k))
              .fabricPacketArrival [t, id]
    | .atom =>
      match (s.isl t).rseq.find? fun q => q.src = p.src && q.op = p.op && q.lane = p.key with
      | some q => s.pktDone id { p with x := q.old }
      | none =>
        match s.xlateOed t p.asid p.priv .write p.va with
        | (.error _, s) => s.pktRefuse id p
        | (.ok l, s) =>
          if !(s.isl t).locQuiet l then again s
          else
            let old := leNat (s.readLoc t 0 l p.n)
            let a : Acc := { n := p.n, x := p.x, y := p.y }
            let new := match p.instr with
              | .ratom _ op _ _ _ _ _ _ => ratomCombine op a old
              | _ => none
            let b := s.tainted t l p.n
            let s := b.2.useLoc t l
            let s := if !b.1 then s
              else s.consumed p.src
                { core := p.core, source := 3, slot := p.place, launch := p.launch, cp := ((s.op? p.src p.op).getD {}).cp,
                  lanes := maskOf [p.key], va := p.va }
            let s := match new with
              | some v => (s.writeLoc t 0 0 p.launch l (leBytes p.n v)).2
              | none => s
            (s.modIsl t fun x => x.keepSeq { src := p.src, op := p.op, lane := p.key, old := BitVec.ofNat 64 old }).pktDone id
              { p with x := BitVec.ofNat 64 old }

/-- A packet arrives at an OED: it goes on, or is performed. -/
def execFabricPacketArrival (s : State) : Host.Outcome State Fault Refusal :=
  event s fun as s =>
    match tget? s.pkts (ar as 1) with
    | none => s
    | some p => if p.done then s else if p.route.isEmpty then s.performPkt (ar as 1) p else s.forwardPkt (ar as 1)

/-! ## Back at the issuing island (R353, R355) -/

/-- Writes a lane's old value (R355). -/
def ratomResult (i : Instr) (lane : Nat) (m : DWord) (g : Group) : Group :=
  match i with
  | .ratom _ op wide _ _ x _ _ =>
    if wide then putReg64 g x lane m
    else putReg g (match x with | .vp k => if op = .cas then .v k else x | _ => x) lane m
  | _ => g

/-- Whether a `GET` before another in its queue has bytes to write yet: the writes of a queue are performed in its order (R256). -/
def State.getBehind (s : State) (isl id : Nat) (o : Op) : Bool :=
  (s.queueBefore isl o.core o.place id).any fun i => (s.op? isl i).any fun q => match q.instr with
      | .get .. => true
      | _ => false

/-- The bytes of a `GET` are written where they go, at its scope; the last sets the touched lines full (R353). -/
def State.getWrite (s : State) (isl id pid : Nat) (o : Op) (p : Pkt) : State :=
  let d := o.bulk.desc
  let va := vaPlus (pgLva d) p.key
  match s.copyPlace isl o .write va 1 with
  | (.error code, s) => ({ s with pkts := tdel s.pkts pid }).fabStop isl id code p.dst va true
  | (.ok l, s) =>
    if !(s.isl isl).locQuiet l || s.getBehind isl id o then s.after isl 1 .fabricAcknowledgement [isl, pid]
    else
      let s := ({ s with pkts := tdel s.pkts pid }.writeLoc isl o.core 0 o.launch l p.data).2.poisonLoc isl l p.data.length p.poison
      let got := o.bulk.got + p.data.length
      let s := s.modOp isl id fun o => { o with bulk := { o.bulk with got := got } }
      if got < pgLen d then s
      else
        let s := match windowLoc (s.isl isl) o.core o.place (pgLva d) with
          | some (.scr c pl a) => if pgFill d then s.fillLines isl c pl (a / 128) ((a + pgLen d - 1) / 128) else s
          | _ => s
        (if pgNen d then s.notify isl (pgNctr d) 1 else s).fabEnd isl id

/-- An acknowledgement, old value or line returns. -/
def execFabricAcknowledgement (s : State) : Host.Outcome State Fault Refusal :=
  event s fun as s =>
    let isl := ar as 0
    let pid := ar as 1
    match tget? s.pkts pid with
    | none => s
    | some p =>
      let id := p.op
      let gone : State := { s with pkts := tdel s.pkts pid }
      match s.op? isl id with
      | none => gone
      | some o =>
        if o.attempt ≠ p.attempt then gone
        else if p.code ≠ 0 then s.after isl 0 .remotePerm [isl, id, p.attempt, p.key, p.va.toNat]
        else match p.kind with
          | .read => s.getWrite isl id pid o p
          | .notify => gone.fabEnd isl id
          | .write =>
            if o.bulk.moved < pgLen o.bulk.desc || gone.pkts.any (fun q => q.2.src = isl && q.2.op = id && q.2.attempt = p.attempt) then gone
            else gone.fabEnd isl id
          | .atom =>
            let s := (gone.onOpGroup isl o fun g => g.take (ratomResult o.instr p.key p.x)).modOp isl id fun o =>
              { o with subs := o.subs.map fun u => if u.key = p.dst then
                  { u with accs := u.accs.map fun a => if a.lane = p.key then { a with done := true, fault := none, res := some p.x } else a } else u }
            if ((s.op? isl id).getD {}).subs.any fun u => u.key < notSent && u.accs.any fun a => a.fault.isSome then s.ratomFaults isl id
            else s.ratomCheck isl id

/-! ## Resuming a fabric queue's record (R358, R379) -/

/-- Replays an operation, or its faulting lanes, or ends it without its remote effect. -/
def State.resumeFabric (s : State) (isl id : Nat) (skip : Bool) (code : Nat) (lanes : LaneMask) : State :=
  match s.op? isl id with
  | none => s
  | some o =>
    match o.instr with
    | .ratom .. =>
      let mine (a : Acc) : Bool := !a.done && lanes.getLsbD a.lane && a.fault = some (BitVec.ofNat 8 code)
      let f (a : Acc) : Acc := if mine a then (if skip then { a with done := true } else { a with fault := none }) else a
      let o' : Op := { o with subs := o.subs.map fun u => if u.key < notSent then { u with accs := u.accs.map f } else u }
      let s := s.modOp isl id fun _ => o'
      if skip then s.ratomCheck isl id else s.injectNow isl id o'
    | .coll .. => s
    | _ =>
      if skip then s.fabEnd isl id
      else
        let o' : Op := { o with subs := [], bulk := { o.bulk with moved := 0, got := 0 } }
        let o' : Op := { o' with path := s.pathOf isl o' }
        (s.modOp isl id fun _ => o').injectNow isl id o'

end Sys2Proof.Machine
end

