-- ==== Sys2Proof/Machine/Collective.lean ====
section
/-! DEFINITION. Collectives (R360-R364), the injection of a fabric queue's operations (R346) and their timeouts (R358). -/

namespace Sys2Proof.Machine

/-! ## The descriptor of `COLL` (R360) -/

def clSrc (d : BitVec 256) : VA := BitVec.ofNat 72 (fld d 136 8 * 2 ^ 64 + fld d 0 64)
def clDst (d : BitVec 256) : VA := BitVec.ofNat 72 (fld d 144 8 * 2 ^ 64 + fld d 64 64)
def clId (d : BitVec 256) : Nat := fld d 152 8
def clMask (d : BitVec 256) : Nat := fld d 160 16
def clRoot (d : BitVec 256) : Nat := fld d 176 4
def clOp (d : BitVec 256) : Nat := fld d 180 3
def clStat (d : BitVec 256) : Bool := d.getLsbD 183
def clType (d : BitVec 256) : Nat := fld d 184 2
def clCount (d : BitVec 256) : Nat := fld d 192 23
def clNen (d : BitVec 256) : Bool := d.getLsbD 216
def clNctr (d : BitVec 256) : Nat := fld d 224 10

/-- What the members of one collective give alike: ID, MASK, ROOT, OP, TYPE, STAT and COUNT. -/
def clCommon (d : BitVec 256) : Nat × Nat × Nat × Nat × Nat × Bool × Nat :=
  (clId d, clMask d, clRoot d, clOp d, clType d, clStat d, clCount d)

/-- Whether a descriptor is valid on an island (R364). -/
def clValid (isl : Nat) (d : BitVec 256) : Bool :=
  fld d 234 22 = 0 && fld d 217 7 = 0 && fld d 215 1 = 0 && fld d 186 6 = 0 && fld d 128 8 = 0 && clType d < 2 && clOp d < 4 &&
    !(clStat d && (clType d = 1 || 2 ≤ clOp d)) && 1 ≤ clCount d && clCount d ≤ 4194304 &&
    2 ≤ (islandsOf (clMask d)).length && (islandsOf (clMask d)).contains isl && (islandsOf (clMask d)).contains (clRoot d) &&
    fld d 0 64 % 4 = 0 && fld d 64 64 % 4 = 0

/-- The members in the order of their ordinals. -/
def clMembers (d : BitVec 256) : List Nat := islandsOf (clMask d)

/-- `COLL` (R350, R360, R364). -/
def execColl (c : Ctl) (x y : Opnd) (s : State) : Host.Outcome State Fault Refusal :=
  let i : Instr := .coll c x y
  issue i c [(x, false), descReg y 8] (hypRemote 0xCD) (fun e s =>
    let d := e.desc8 y
    if !e.any then s.flagNow e c
    else match (clMembers d).find? fun t => ((s.isl e.isl).routeTo t).isNone with
      | some t => s.absent e c 0xCD [(t, e.run)]
      | none =>
        if clValid e.isl d then s.launchOp e { e.op i c with bulk := { desc := d } }
        else s.onGroup e fun g => e.done c 4 (e.result 4 x false false e.guard (fun _ => (1, 0)) g)) s

/-! ## Values -/

/-- The sum of two elements (R361). -/
def collAdd (ty : Nat) (a b : Word) : Word :=
  if ty = 1 then a + b
  else BitVec.ofNat 32 (roundFp fmt32 0 (sumFv 0 [decodeF fmt32 a.toNat, decodeF fmt32 b.toNat]).1).1

/-- The element-wise sum of two vectors. -/
def collSum (ty : Nat) (a b : List Word) : List Word := (a.zip b).map fun p => collAdd ty p.1 p.2

/-- The combination of an OED's inputs, in the order given. -/
def combineInputs (ty : Nat) : List (List Word) → List Word
  | [] => []
  | a :: r => r.foldl (collSum ty) a

/-- The squared norm of a vector, one rounding for each element (R363). -/
def sqNorm (l : List Word) : Word :=
  l.foldl (fun n e =>
    let v := decodeF fmt32 e.toNat
    BitVec.ofNat 32 (roundFp fmt32 0 (sumFv 0 [decodeF fmt32 n.toNat, (v.mul v).1]).1).1) 0

/-- The 32-bit words of bytes, and the bytes of words. -/
def wordsOf (n : Nat) (bs : List Byte) : List Word := (List.range n).map fun i => BitVec.ofNat 32 (leNat ((bs.drop (4 * i)).take 4))
def bytesOf (l : List Word) : List Byte := l.flatMap fun w => leBytes 4 w.toNat

/-! ## The tree (R361) -/

/-- The descriptor a collective runs by: the root's once it has accepted, before that a member's. -/
def Coll.desc (c : Coll) : BitVec 256 :=
  match c.members.find? fun p => c.accepted && p.1 = clRoot p.2.desc with
  | some p => p.2.desc
  | none => match c.members with
    | p :: _ => p.2.desc
    | [] => 0

/-- Islands on the way of the members to the root, by the parent of each, to a bounded depth. -/
def State.collNodes (s : State) (root : Nat) : Nat → List Nat → List Nat
  | 0, l => l
  | k + 1, l =>
    let up := l.filterMap fun i =>
      if i = root then none
      else match (s.isl i).routeTo root with
        | some (p :: _) => (s.farEnd i p).map (·.1)
        | some [] | none => none
    s.collNodes root k ((l ++ up).eraseDups)

/-- The port towards the root of every island of the tree but the root. -/
def State.collParents (s : State) (d : BitVec 256) : Tbl Nat :=
  (s.collNodes (clRoot d) 16 (clMembers d)).foldl (fun (t : Tbl Nat) i =>
    if i = clRoot d then t
    else match (s.isl i).routeTo (clRoot d) with
      | some (p :: _) => tput t i p
      | some [] | none => t) []

/-- The island and its port to which an island's value goes. -/
def State.collParent (s : State) (c : Coll) (isl : Nat) : Option (Nat × Nat) := (tget? c.parents isl).bind fun p => s.farEnd isl p

/-- The children of an island in ascending port code (R361). -/
def State.collChildren (s : State) (c : Coll) (isl : Nat) : List Nat :=
  let l := c.parents.filterMap fun p => match s.collParent c p.1 with
    | some (q, port) => if q = isl then some (port, p.1) else none
    | none => none
  (List.range 16).flatMap fun port => (l.filter fun p => p.1 = port).map (·.2)

/-- Hops between an island and the root over the tree. -/
def State.collDepth (s : State) (c : Coll) : Nat → Nat → Nat
  | 0, _ => 0
  | k + 1, isl => match s.collParent c isl with
    | some (p, _) => s.collDepth c k p + 1
    | none => 0

/-- Whether an OED's inputs are all there. -/
def State.collReady (s : State) (c : Coll) (isl : Nat) : Bool :=
  let d := c.desc
  c.accepted && c.status.isNone && (tget? c.values isl).isNone &&
    (!(clMembers d).contains isl || match tget? c.members isl with | some m => m.ready | none => false) &&
    (s.collChildren c isl).all fun j => c.up.contains j

/-- The bytes an island sends up: a broadcast sends none, a gather those of its members below. -/
def State.collBytes (s : State) (c : Coll) (isl : Nat) : Nat :=
  let d := c.desc
  match clOp d with
  | 2 => 0
  | 3 => 4 * clCount d * (((clMembers d).filter fun m => below c 16 m).length)
  | _ => 4 * clCount d
where
  /-- Whether an island's value passes this one. -/
  below (c : Coll) : Nat → Nat → Bool
    | 0, _ => false
    | k + 1, m => m = isl || match s.collParent c m with | some (p, _) => below c k p | none => false

/-- Changes a collective. -/
def State.modColl (s : State) (k : Nat) (f : Coll → Coll) : State := { s with colls := tmod s.colls k f }

/-- Has the OEDs whose inputs are all there combine (R368). -/
def State.collKick (s : State) (k : Nat) : State :=
  match tget? s.colls k with
  | none => s
  | some c =>
    (List.range 16).foldl (fun (s : State) i =>
      if (c.parents.any fun p => p.1 = i) || i = clRoot c.desc then
        if s.collReady c i && !(s.agenda.any fun q => q.2 == .row .oedCombine [i, k]) then
          s.afterPs (100000 + beatPs (s.collBytes c i)) .oedCombine [i, k]
        else s
      else s) s

/-- The status of a collective is known: each member that has not ended completes (R362, R364). -/
def State.collFinish (s : State) (k st : Nat) : State :=
  match tget? s.colls k with
  | none => s
  | some c =>
    if c.status.isSome then s
    else
      let s := s.modColl k fun c => { c with status := some st, stuck := [] }
      c.members.foldl (fun (s : State) m =>
        let d := s.collDepth c 16 m.1
        s.afterPs (if d = 0 then 0 else oneWay d) .collectiveCompletion [m.1, k, 0]) s

/-- The words a member that receives the result writes (R362, R363). -/
def Coll.result (c : Coll) : List Word :=
  let d := c.desc
  let words (m : Nat) : List Word := ((tget? c.members m).getD {}).words
  let body := match clOp d with
    | 2 => words (clRoot d)
    | 3 => (clMembers d).flatMap words
    | _ => tgetD c.values (clRoot d) []
  let norms := (List.range 16).map fun k => match (clMembers d)[k]? with
    | some m => ((tget? c.members m).getD {}).norm
    | none => 0
  if clStat d then body ++ norms ++ [c.norm] else body

/-- Whether a member writes the result. -/
def Coll.receives (c : Coll) (isl : Nat) : Bool := isl = clRoot c.desc || clOp c.desc = 1 || clOp c.desc = 2

/-! ## Joining -/

/-- The collective that an operation of an island joins: one of its ID whose members name the island or are named by it. -/
def State.collFor (s : State) (isl : Nat) (d : BitVec 256) : Option Nat :=
  (s.colls.find? fun p => p.2.id = clId d && p.2.status.isNone && (tget? p.2.members isl).isNone &&
    p.2.members.any fun m => (clMembers m.2.desc).contains isl || (clMembers d).contains m.1).map (·.1)

/-- The member reads its source, all of it (R348, R362); false where a line is in use, an error with the fault. -/
def State.collRead (s : State) (isl : Nat) (o : Op) (d : BitVec 256) : Except (Nat × VA) (Option (List Byte)) × State :=
  (linePieces ((clSrc d).toNat % 128) (4 * clCount d)).foldl
    (fun (acc : Except (Nat × VA) (Option (List Byte)) × State) p =>
      match acc.1 with
      | .ok (some bs) =>
        let va := vaPlus (clSrc d) p.1
        match acc.2.copyPlace isl o .read va 1 with
        | (.error code, s) => (.error (code, va), s)
        | (.ok l, s) =>
          if s.isEmptyLoc isl l || !(s.isl isl).locQuiet l then (.ok none, s)
          else
            let t := s.tainted isl l p.2
            let s := t.2.useLoc isl l
            let s := if !t.1 then s
              else s.consumed isl { core := o.core, source := 3, slot := o.place, launch := o.launch, cp := o.cp, lanes := o.lanes, va := va }
            (.ok (some (bs ++ s.readLoc isl 0 l p.2)), s)
      | _ => acc) (.ok (some []), s)

/-- Marks a fault of the operation's own reads or writes: it waits for `RESUME`. -/
def Op.localFault (o : Op) (va : VA) (code : Nat) : Op :=
  { o with subs := [{ key := 0, accs := [{ va := va, fault := some (BitVec.ofNat 8 code) }] }] }

/-- A member's contribution is at its OED. -/
def State.collGive (s : State) (isl k : Nat) (bs : List Byte) : State :=
  (s.modColl k fun c => { c with members := tmod c.members isl fun m =>
    let ws := wordsOf (clCount m.desc) bs
    { m with words := ws, norm := if clStat m.desc then sqNorm ws else 0, ready := true } }).collKick k

/-- A member's operation is injected: it joins, reads its source, and where it is the root's, the root accepts (R361). -/
def State.collJoin (s : State) (isl id : Nat) (o : Op) : State :=
  let d := o.bulk.desc
  let joined := (s.colls.find? fun p => match tget? p.2.members isl with | some m => m.op = id | none => false).map (·.1)
  let (k, s) : Nat × State := match joined with
    | some k => (k, s)
    | none =>
      let m : Member := { op := id, desc := d }
      match s.collFor isl d with
      | some k => (k, s.modColl k fun c => { c with members := tput c.members isl m })
      | none => (s.nextId, { s with nextId := s.nextId + 1, colls := tput s.colls s.nextId { id := clId d, members := [(isl, m)] } })
  let s := s.modColl k fun c =>
    if isl = clRoot d && !c.accepted then { c with accepted := true, parents := s.collParents d } else c
  let s := if joined.isSome then s else s.kickFab isl o.core o.place
  let c := (tget? s.colls k).getD {}
  let named := c.members.flatMap fun m => clMembers m.2.desc
  if (named.all fun i => (tget? c.members i).isSome) && c.members.any fun m => clCommon m.2.desc ≠ clCommon d then s.collFinish k 5
  else if clOp d = 2 && isl ≠ clRoot d then (s.modColl k fun c => { c with members := tmod c.members isl fun m => { m with ready := true } }).collKick k
  else match s.collRead isl o d with
    | (.error (code, va), s) =>
      (s.modOp isl id fun o => o.localFault va code).fabFault isl id code 0 (BitVec.allOnes 64) va false
    | (.ok none, s) => s.after isl 1 .fabricInject [isl, id, o.attempt]
    | (.ok (some bs), s) => s.collGive isl k bs

/-! ## Combining (R361) -/

/-- An OED's value goes to its parent, or waits for a closed port. -/
def State.collUp (s : State) (isl k : Nat) (c : Coll) : State :=
  match tget? c.parents isl with
  | none => s.collFinish k 6
  | some p =>
    match s.farEnd isl p with
    | none => s.collFinish k 6
    | some (q, _) =>
      if (s.isl isl).closedPorts.contains p then
        (s.modColl k fun c => { c with stuck := c.stuck ++ [isl] }).startTimer isl (1000000 * (s.isl isl).sys.rtime.toNat)
          .remoteTimeout [isl, k, p, 0]
      else if !(s.isl isl).portTrained isl p then s.collFinish k 6
      else s.afterPs 600000 .oedCombine [q, k, isl]

/-- An OED combines its inputs, or a child's value arrives at it. -/
def execOedCombine (s : State) : Host.Outcome State Fault Refusal :=
  event s fun as s =>
    let isl := ar as 0
    let k := ar as 1
    match tget? s.colls k with
    | none => s
    | some c =>
      match as with
      | [_, _, child] => (s.modColl k fun c => { c with up := c.up ++ [child] }).collKick k
      | _ =>
        if !s.collReady c isl then s
        else
          let d := c.desc
          let own := match tget? c.members isl with | some m => [m.words] | none => []
          let ins := own ++ (s.collChildren c isl).map fun j => tgetD c.values j []
          let v := if clOp d ≤ 1 then combineInputs (clType d) ins else []
          let c' : Coll := { c with values := tput c.values isl v, norm := if isl = clRoot d && clStat d then sqNorm v else c.norm }
          let s := s.modColl k fun _ => c'
          if isl = clRoot d then s.collFinish k 0 else s.collUp isl k c'

/-! ## Completion (R362) -/

/-- A member's operation ends with its status; the collective is gone with its last member. -/
def State.collEnd (s : State) (isl k st : Nat) (m : Member) : State :=
  let s := if clNen m.desc then s.notify isl (clNctr m.desc) 1 else s
  let s := (s.modOp isl m.op fun o => { o with res := BitVec.ofNat 64 st }).fabEnd isl m.op
  let s := s.modColl k fun c => { c with members := tmod c.members isl fun m => { m with ended := true } }
  match tget? s.colls k with
  | some c => if c.members.all fun p => p.2.ended then { s with colls := tdel s.colls k } else s
  | none => s

/-- The port on the way from the root to a member that a change has closed. -/
def State.collDownClosed (s : State) (c : Coll) : Nat → Nat → Option (Nat × Nat)
  | 0, _ => none
  | n + 1, isl => match s.collParent c isl with
    | some (p, port) => if (s.isl p).closedPorts.contains port then some (p, port) else s.collDownClosed c n p
    | none => none

/-- The next bytes owed to a member are written, or it completes. -/
def execCollectiveCompletion (s : State) : Host.Outcome State Fault Refusal :=
  event s fun as s =>
    let isl := ar as 0
    let k := ar as 1
    let off := ar as 2
    match tget? s.colls k with
    | none => s
    | some c =>
      match tget? c.members isl, c.status with
      | some m, some st =>
        match s.op? isl m.op with
        | none => if m.ended then s else s.collEnd isl k st m
        | some o =>
          if m.ended then s
          else if st ≠ 0 || !c.receives isl then s.collEnd isl k st m
          else match if off = 0 then s.collDownClosed c 16 isl else none with
            | some (q, p) =>
              (s.modColl k fun c => { c with stuck := c.stuck ++ [isl] }).startTimer q (1000000 * (s.isl q).sys.rtime.toNat)
                .remoteTimeout [isl, k, p, 0]
            | none =>
              let bs := bytesOf c.result
              let va := vaPlus (clDst m.desc) off
              let n := min (bs.length - off) (128 - va.toNat % 128)
              match s.copyPlace isl o .write va 1 with
              | (.error code, s) =>
                let o' : Op := { o.localFault va code with bulk := { o.bulk with moved := off } }
                (s.modOp isl m.op fun _ => o').fabFault isl m.op code 0 (BitVec.allOnes 64) va true
              | (.ok l, s) =>
                if !(s.isl isl).locQuiet l then s.after isl 1 .collectiveCompletion [isl, k, off]
                else
                  let s := (s.writeLoc isl o.core 0 o.launch l ((bs.drop off).take n)).2
                  if bs.length ≤ off + n then s.collEnd isl k 0 m
                  else s.afterPs (beatPs n) .collectiveCompletion [isl, k, off + n]
      | _, _ => s

/-- Replays or skips the local fault of a collective (R379): its source is read again, or its writes go on. -/
def State.resumeColl (s : State) (isl id : Nat) (skip : Bool) : State :=
  match s.op? isl id, s.colls.find? fun p => match tget? p.2.members isl with | some m => m.op = id | none => false with
  | some o, some (k, c) =>
    let s := s.modOp isl id fun o => { o with subs := [] }
    let m := (tget? c.members isl).getD {}
    if skip then
      if c.status.isSome then s.collEnd isl k 0 m
      else
        let f := s.freeBytes (4 * clCount m.desc)
        ((f.2.collGive isl k f.1).modColl k fun c =>
          { c with members := tmod c.members isl fun m => { m with ended := true } }).fabEnd isl id
    else if c.status.isSome then s.after isl 0 .collectiveCompletion [isl, k, o.bulk.moved]
    else s.after isl 0 .fabricInject [isl, id, o.attempt]
  | _, _ => s

/-! ## Injection (R342, R346) -/

/-- The targets of an operation to which the island has no usable route any more. -/
def State.lostTargets (s : State) (isl : Nat) (o : Op) : List Nat := o.targets.filter fun t => ((s.isl isl).routeTo t).isNone

/-- The faulting lanes, or the whole, of a killed launch's operation complete without effect (R122, R379). -/
def State.skipFabric (s : State) (isl id : Nat) (o : Op) : State :=
  match o.instr with
  | .coll .. => s.resumeColl isl id true
  | .ratom .. =>
    (s.modOp isl id fun o => { o with subs := o.subs.map fun u =>
      { u with accs := u.accs.map fun a => if a.fault.isSome then { a with done := true } else a } }).ratomCheck isl id
  | _ => s.fabEnd isl id

/-- The OED looks at an operation: it is injected once the order of its queue allows, or its next beats leave. -/
def execFabricInject (s : State) : Host.Outcome State Fault Refusal :=
  event s fun as s =>
    let isl := ar as 0
    let id := ar as 1
    match s.op? isl id with
    | none => s
    | some o =>
      match as with
      | [_, _, n] =>
        if o.attempt ≠ n then s
        else match o.instr with
          | .coll .. => s.collJoin isl id o
          | .put .. => if o.bulk.moved < pgLen o.bulk.desc then s.putStep isl id o else s
          | _ => s
      | _ =>
        let queued := match (s.isl isl).wg? o.core o.place with
          | some w => w.fabq.contains id
          | none => false
        if o.faulted && s.opKilled o then s.skipFabric isl id o
        else if o.injected || !queued || !s.mayInject isl id o then s
        else
          let lost := s.lostTargets isl o
          if !lost.isEmpty then lost.foldl (fun (s : State) t => s.fabDiscard isl id t) s
          else
            let o' : Op := { o with injected := true, path := s.pathOf isl o }
            let s := s.modOp isl id fun _ => o'
            match o.instr with
            | .coll .. => s.collJoin isl id o'
            | _ => s.injectNow isl id o'

/-! ## Timeouts (R358, R364) -/

/-- An operation is not acknowledged in time, or a port of a collective's tree stayed closed. -/
def execRemoteTimeout (s : State) : Host.Outcome State Fault Refusal :=
  event s fun as s =>
    let isl := ar as 0
    match as with
    | [_, k, _, _] =>
      match tget? s.colls k with
      | some c => if c.stuck.contains isl then (s.modColl k fun c => { c with status := none }).collFinish k 6 else s
      | none => s
    | _ =>
      let id := ar as 1
      match s.op? isl id with
      | none => s
      | some o =>
        if o.attempt ≠ ar as 2 then s
        else match o.instr with
          | .ratom .. => (s.modOp isl id fun o => o.faultLanes 0x22 fun _ => true).ratomFaults isl id
          | .put .. => s.fabStop isl id 0x22 (o.targets.headD 0) (pgRva o.bulk.desc) true
          | .get .. => s.fabStop isl id 0x22 (o.targets.headD 0) (pgRva o.bulk.desc) false
          | _ => s.fabStop isl id 0x22 (o.targets.headD 0) 0 true

/-- Has what waited for a port of an island go on (R367). -/
def State.portReopened (s : State) (isl port : Nat) : State :=
  let waiting := s.pkts.filter fun p => p.2.held && p.2.here = isl && p.2.route.head? = some port
  let s := waiting.foldl (fun (s : State) p => s.forwardPkt p.1) s
  s.colls.foldl (fun (s : State) q =>
    let k := q.1
    let c := q.2
    let go (i : Nat) : Bool :=
      if c.status.isSome then (s.collDownClosed c 16 i).isNone else i = isl && tget? c.parents i = some port
    let s := s.modColl k fun c => { c with stuck := c.stuck.filter fun i => !go i }
    (c.stuck.filter go).foldl (fun (s : State) i =>
      if c.status.isSome then s.after i 0 .collectiveCompletion [i, k, 0] else s.collUp i k c) s) s

end Sys2Proof.Machine
end

