-- ==== Sys2Proof/Machine/Flags.lean ====
section
/-! DEFINITION. The FP control word's sticky flags (R62, R63, R175), rounding-mode selection (R60, R176), floating
operands and results (R177, R178), carries (R156) and condition bits (R163, R184). -/

namespace Sys2Proof.Machine

/-- The rounding mode of an instruction: RMF, or the group's `FCTL.rm` read at issue (R175, R176). -/
def Env.rm (e : Env) (r : Rmf) : Nat :=
  match r with
  | .cur => fld e.g.fctl 0 2
  | .rne => 0
  | .rtz => 1
  | .rup => 2
  | .rdn => 3

/-- `FCTL.bfz` read at issue (R64, R175). -/
def Env.bfz (e : Env) : Bool := e.g.fctl.getLsbD 2

/-- Raises sticky flags in the cycle in which the result is written (R175). -/
def Env.raise (e : Env) (lat : Nat) (flags : Nat) (g : Group) : Group :=
  if flags = 0 then g else addWrite g (e.cyc + lat) .fctlRaise (BitVec.ofNat 64 flags)

/-- The pattern of an element: 16 bits for the 16-bit types, from the high half for element 1. -/
def elemOf (f : FType) (hi : Bool) (w : Word) : Nat :=
  match f with
  | .f32 => w.toNat
  | .f16 | .bf16 | .f16x2 | .bf16x2 => if hi then w.toNat / 65536 else w.toNat % 65536
  | .q4 | .q6 | .q8 => w.toNat

/-- A floating immediate of `n` bits (R178), as a 32-bit register value. -/
def fImm (f : FType) (n v : Nat) : Word :=
  match f with
  | .f32 => BitVec.ofNat 32 (v * 2 ^ (32 - n))
  | .f16 | .bf16 => BitVec.ofNat 32 (if n = 10 then v * 64 else v % 65536)
  | .f16x2 | .bf16x2 =>
    let p := if n = 10 then v * 64 else v % 65536
    BitVec.ofNat 32 (p * 65536 + p)
  | .q4 | .q6 | .q8 => BitVec.ofNat 32 v

/-- A floating source's register value in a lane (R178). -/
def Env.rdF (e : Env) (f : FType) (o : Opnd) (lane : Nat) : Word :=
  match o with
  | .imm i => fImm f 10 i.toNat
  | .v _ | .vp _ | .s _ | .sr _ | .o _ | .lt => e.rd32 o lane

/-- A floating Z source's register value in a lane (R178). -/
def Env.rdFZ (e : Env) (f : FType) (z : ZOp) (lane : Nat) : Word :=
  match z with
  | .imm i => fImm f 20 i.toNat
  | .op o => e.rdF f o lane

/-- `fp_in(p, F)` (R177): the exact value of an element, a narrow one by its format register. -/
def Env.fpIn (e : Env) (f : FType) (fm : Nat) (hi : Bool) (w : Word) : Fv :=
  match f with
  | .q4 | .q6 | .q8 => decodeNarrow (tgetD e.wg.fm fm 0) w.toNat
  | .bf16 | .bf16x2 =>
    let v := decodeF fmtB16 (elemOf f hi w)
    if e.bfz then flushSub fmtB16 v else v
  | .f32 | .f16 | .f16x2 => decodeF (fmtOf f) (elemOf f hi w)

/-- Replaces one bit of a word: the outcome of `ICMPP` and `FCMPP` (R163, R184). -/
def putBit (w : Word) (b : BitVec 5) (v : Bool) : Word :=
  if v then w ||| (1#32 <<< b.toNat) else w &&& ~~~(1#32 <<< b.toNat)

/-- The result of `ISET` and `FSET` (R163, R184). -/
def setWord (one v : Bool) : DWord := if v then (if one then 1 else 0xFFFFFFFF) else 0

/-- The fixed-latency results of a floating instruction with the flags its executing lanes raise; a uniform destination
evaluates once (R30, R63, R192). `f` gives a lane's result and flags. -/
def fpOp (i : Instr) (c : Ctl) (lat : Nat) (x : Opnd) (wide : Bool) (regs : List (Opnd × Bool))
    (pre : Env → State → Option (Nat × DWord)) (f : Env → Nat → DWord × Nat) (s : State) :
    Host.Outcome State Fault Refusal :=
  issue i c ((x, wide) :: regs) pre
    (fun e s => s.onGroup e fun g =>
      let lanes := match x with
        | .s _ => (lowLane e.guard).toList
        | .v _ | .vp _ | .sr _ | .o _ | .lt | .imm _ => lanesOf e.guard
      let flags := lanes.foldl (fun a l => a ||| (f e l).2) 0
      e.done c lat (e.raise lat flags (e.result lat x wide true e.guard (fun l => ((f e l).1, (f e l).1)) g))) s

end Sys2Proof.Machine
end

