-- ==== Sys2Proof/Machine/Control.lean ====
section
/-! DEFINITION. The control instructions (R32-R35, R113-R123), the urgency predictor (R89-R91) and the end of a sleep
(R118). -/

namespace Sys2Proof.Machine

/-- `NOP` (R114). -/
def execNop (c : Ctl) (s : State) : Host.Outcome State Fault Refusal :=
  issue (.nop c) c [] noPre (fun e s => s.flagNow e c) s

/-! ## Branches and transfers (R115, R116, R121, R131-R133) -/

/-- The offset a branch reaches from a code pointer. -/
def braOffset (cp : Word) (off : BitVec 20) : Int := (cpOff cp : Int) + off.toInt

/-- A code pointer with another offset. -/
def cpWith (cp : Word) (off : Nat) : Word := BitVec.ofNat 32 (cp.toNat / 8192 * 8192 + off)

/-- `BRA` (R115): a target offset that no code pointer holds is ILLEGAL. -/
def execBra (c : Ctl) (off : BitVec 20) (s : State) : Host.Outcome State Fault Refusal :=
  issue (.bra c off) c []
    (fun e _ => if 0 ≤ braOffset e.cp off ∧ braOffset e.cp off ≤ 8191 then none else some (1, 0))
    (fun e s => (s.flagNow e c).onGroup e fun g =>
      modThreads g e.guard fun _ t => { t with cp := cpWith e.cp (braOffset e.cp off).toNat }) s

/-- The lanes of a mask that miss, as (information word, lanes) for each distinct word, in lane order (R133). -/
def missGroups (f : Nat → Option DWord) : List Nat → List (DWord × LaneMask)
  | [] => []
  | l :: r =>
    let q := missGroups f r
    match f l with
    | none => q
    | some d =>
      match q.find? fun p => p.1 == d with
      | some p => (d, p.2 ||| maskOf [l]) :: q.filter fun p => p.1 != d
      | none => (d, maskOf [l]) :: q

/-- A transfer to a target of each lane (R116): lanes whose target is resident go there, lanes that park stay at the
transfer, lanes that miss take OVL_MISS with their depth unchanged (R131). `depth` is the change of depth; a record of a
barrier wait that belongs to another code pointer is discarded where `forget` (R315). -/
def State.transfer (s : State) (e : Env) (park forget : Bool) (depth : BitVec 8 → BitVec 8) (t : Nat → Word) : State :=
  let k := (s.isl e.isl).core e.core
  let r (l : Nat) : Resolved := resolveCp k e.wg.asid (t l) park
  let keep (l : Nat) (th : Thread) : Option WaitRec :=
    if forget then th.wait.filter fun w => w.cp == t l else th.wait
  let s := s.onGroup e fun g => modThreads g e.guard fun l th =>
    match r l with
    | .go => { moveThread (r l) (t l) (depth th.depth) th with wait := keep l th }
    | .wait _ | .miss _ => moveThread (r l) (t l) (depth th.depth) { th with cp := e.cp }
  (missGroups (fun l => match r l with | .miss n => some (ovlInfo 0 n (t l)) | .go | .wait _ => none) (lanesOf e.guard)).foldl
    (fun s p => s.trapAt e p.2 5 p.1 e.cp) s

/-- The write of the return code pointer (R116), made in every lane where the guard holds. -/
def writeReturn (e : Env) (x : Opnd) (g : Group) : Group :=
  e.result 4 x false false e.guard (fun _ => (e.next.setWidth 64, 0)) g

def execBrx (c : Ctl) (park : Bool) (y : Opnd) (s : State) : Host.Outcome State Fault Refusal :=
  issue (.brx c park y) c [(y, false)] noPre
    (fun e s => (s.flagNow e c).transfer e park false id fun l => e.rd32 y l) s

def execCall (c : Ctl) (park : Bool) (x : Opnd) (cp : Word) (s : State) : Host.Outcome State Fault Refusal :=
  issue (.call c park x cp) c [(x, false)] noPre
    (fun e s => (s.onGroup e fun g => e.done c 4 (writeReturn e x g)).transfer e park false depthUp fun _ => cp) s

def execCallx (c : Ctl) (park : Bool) (x y : Opnd) (s : State) : Host.Outcome State Fault Refusal :=
  issue (.callx c park x y) c [(x, false), (y, false)] noPre
    (fun e s => (s.onGroup e fun g => e.done c 4 (writeReturn e x g)).transfer e park false depthUp fun l => e.rd32 y l) s

def execRet (c : Ctl) (park : Bool) (y : Opnd) (s : State) : Host.Outcome State Fault Refusal :=
  issue (.ret c park y) c [(y, false)] noPre
    (fun e s => (s.flagNow e c).transfer e park false depthDown fun l => e.rd32 y l) s

/-- `RTT` (R121): the return from a trap. -/
def execRtt (c : Ctl) (s : State) : Host.Outcome State Fault Refusal :=
  issue (.rtt c) c [] noPre
    (fun e s => (s.flagNow e c).transfer e false true depthDown fun l => e.rd32 (.o 7) l) s

/-! ## Ends, sleeps and parks -/

/-- `EXIT` (R117). -/
def execExit (c : Ctl) (s : State) : Host.Outcome State Fault Refusal :=
  issue (.exit c) c [] noPre (fun e s => (s.flagNow e c).endLanes e.isl e.core e.gid e.guard) s

/-- `SLEEP` (R118): the whole run sleeps if the guard holds in any of its lanes. One issued after a pre-emption request sleeps
its cycles as well (log 65). -/
def execSleep (c : Ctl) (n : BitVec 20) (s : State) : Host.Outcome State Fault Refusal :=
  issue (.sleep c n) c [] noPre
    (fun e s =>
      let s := s.flagNow e c
      if e.any then
        (s.onGroup e fun g => modThreads g e.run fun _ t => { t with stat := .asleep (e.cyc + n.toNat) }).after e.isl n.toNat
          .sleepExpiry [e.isl, e.core, e.gid]
      else s) s

/-- The end of a sleep (R118). -/
def execSleepExpiry (s : State) : Host.Outcome State Fault Refusal :=
  event s fun as s => s.modIsl (ar as 0) fun x => x.modGroup (ar as 1) (ar as 2) fun g =>
    let cyc := s.cyc (ar as 0)
    { g with threads := g.threads.map fun p => match p.2.stat with
        | .asleep till => (p.1, if till ≤ cyc then { p.2 with stat := .ready } else p.2)
        | .ready | .blocked _ | .ckpt _ | .ovl _ _ _ | .restore => p }

/-- Whether the cluster launch of a workgroup is being pre-empted (R108). -/
def Island.preempting (x : Island) (w : Wg) : Bool :=
  match tget? x.cls w.cl with
  | some c => c.saving.isSome
  | none => false

/-- `CKPT` (R109, R119): under pre-emption the run parks after it. -/
def execCkpt (c : Ctl) (i : BitVec 20) (s : State) : Host.Outcome State Fault Refusal :=
  issue (.ckpt c i) c [] noPre
    (fun e s =>
      let s := s.flagNow e c
      if (s.isl e.isl).preempting e.wg then
        (s.onGroup e fun g => modThreads g e.run fun _ t => { t with stat := .ckpt i.toNat }).checkParked e.isl e.wg.cl
      else s) s

/-! ## Traps (R112, R120) -/

/-- `TRAP` (R120): the TRAP fault, whose return code pointer is the next instruction's. -/
def execTrap (c : Ctl) (code : BitVec 20) (s : State) : Host.Outcome State Fault Refusal :=
  issue (.trap c code) c [] noPre
    (fun e s => (s.flagNow e c).trapAt e e.guard 0x41 (code.setWidth 64) e.next) s

/-- `TRAP.SETV` (R120): made 4 cycles after issue, so that the next instruction's trap sees it. -/
def execTrapSetv (c : Ctl) (y : Opnd) (s : State) : Host.Outcome State Fault Refusal :=
  issue (.trapSetv c y) c [(y, false)] noPre
    (fun e s => s.onGroup e fun g =>
      let g := if e.any then addWrite g (e.cyc + 4) .tvec ((e.rd32 y e.lane0).setWidth 64) else g
      e.done c 4 g) s

def execTrapGetv (c : Ctl) (x : Opnd) (s : State) : Host.Outcome State Fault Refusal :=
  issue (.trapGetv c x) c [(x, false)] noPre
    (fun e s => s.onGroup e fun g =>
      e.done c 4 (e.result 4 x false false e.guard (fun _ => (e.g4.tvec.setWidth 64, 0)) g)) s

/-! ## Kills (R122) -/

def execKillWg (c : Ctl) (s : State) : Host.Outcome State Fault Refusal :=
  issue (.killWg c) c [] noPre
    (fun e s =>
      let s := s.flagNow e c
      if e.any then s.killWg e.isl e.core e.g.place else s) s

def execKillLaunch (c : Ctl) (s : State) : Host.Outcome State Fault Refusal :=
  issue (.killLaunch c) c [] noPre
    (fun e s =>
      let s := s.flagNow e c
      if e.any then s.killLaunch e.wg.launch else s) s

/-! ## REP (R32-R35, R123) -/

/-- The step a code names (R32). -/
def repStep (b : BitVec 2) : Nat := if b = 3 then 4 else b.toNat

/-- Whether the word after a `REP` is a repeatable instruction of the same overlay (R33). -/
def repNext (k : CoreS) (e : Env) : Bool :=
  cpOff e.cp < 8191 && match fetchWord k e.next e.wg.asid false with
  | some w => repeatable (fld w 88 8)
  | none => false

/-- `REP` (R32-R35): it takes no issue turn; its run's code pointer stays at it while the repeats run. The group is locked to
this run from the moment the hints of the `REP` are met, before repeat 0 issues (log 11). -/
def execRep (c : Ctl) (sx sy sz : BitVec 2) (n : BitVec 10) (s : State) : Host.Outcome State Fault Refusal :=
  match s.focus with
  | .group isl core gid =>
    match s.env? isl core gid c with
    | some e =>
      let k := (s.isl isl).core core
      match decodeFault k (.rep c sx sy sz n) c [] (if repNext k e then none else some (1, 0)) e with
      | some p => .next (s.takeDecode e p.1 p.2)
      | none => .next (s.onGroup e fun g =>
          { g with rpi := 0, rep := some { sx := repStep sx, sy := repStep sy, sz := repStep sz, n := n.toNat, cp := e.cp, lanes := e.run } })
    | none => .fault .noAgent
  | .none | .seq _ _ _ | .event _ => .fault .noAgent

/-! ## The urgency predictor (R89-R91) -/

/-- The urgent group of a team: of two or more unended groups the one that has retired least, the lower slot on ties. -/
def teamUrgent (team : List (Nat × Group)) : Option Nat :=
  if team.length < 2 then none
  else (team.foldl (fun (m : Option (Nat × Group)) p => match m with
    | some q => if p.2.retired.toNat < q.2.retired.toNat then some p else m
    | none => some p) none).map (·.1)

/-- The groups of a role in a workgroup that have not ended. -/
def CoreS.team (k : CoreS) (place : Nat) (r : Role) : List (Nat × Group) :=
  k.groups.filter fun p => p.2.place = place && p.2.role = r && !p.2.ended

/-- The slots marked urgent at an evaluation. -/
def CoreS.urgentNow (k : CoreS) : List Nat :=
  k.places.flatMap fun w => if hdrUoff w.2.hdr then [] else
    (teamUrgent (k.team w.1 .vector)).toList ++ (teamUrgent (k.team w.1 .copy)).toList

/-- An evaluation, every 256 cycles: marks, and the protection bits of the L1 cleared (R89, R90). -/
def execUrgencyEvaluation (s : State) : Host.Outcome State Fault Refusal :=
  event s fun as s =>
    let isl := ar as 0
    let core := ar as 1
    let k := (s.isl isl).core core
    let u := k.urgentNow
    let s := s.modIsl isl fun x => x.modCore core fun k =>
      { k with groups := tmap k.groups fun gid g => { g with urgent := u.contains gid },
               l1 := tmap k.l1 fun _ (l : L1Line) => { l with prot := false } }
    if k.places.isEmpty then s else s.afterOnce isl 256 .urgencyEvaluation [isl, core]

end Sys2Proof.Machine
end

