-- ==== Sys2Proof/Machine/Float.lean ====
section
/-! DEFINITION. Floating-point and special-function instructions (R173-R192). -/

namespace Sys2Proof.Machine

/-- An element result with its flags, as a register value. -/
def elemRes (r : Nat × Nat) : DWord × Nat := (BitVec.ofNat 64 r.1, r.2)

/-- A scalar operation on two sources (R180). -/
def fp2 (i : Instr) (c : Ctl) (f : FType) (lat : Nat) (x y : Opnd) (z : ZOp) (h : Env → Fv → Fv → Nat × Nat)
    (s : State) : Host.Outcome State Fault Refusal :=
  fpOp i c lat x false [(y, false), zreg z false] noPre (fun e l =>
    elemRes (h e (e.fpIn f 0 false (e.rdF f y l)) (e.fpIn f 0 false (e.rdFZ f z l)))) s

/-- The sum of values rounded, with the flags of both. -/
def roundSum (d : Fmt) (rm : Nat) (nv : Nat) (xs : List Fv) : Nat × Nat :=
  let t := sumFv rm xs
  let r := roundFp d rm t.1
  (r.1, r.2 ||| t.2 ||| nv)

/-- The product rounded. -/
def roundMul (d : Fmt) (rm : Nat) (a b : Fv) : Nat × Nat :=
  let t := a.mul b
  let r := roundFp d rm t.1
  (r.1, r.2 ||| t.2)

/-- c + a × b with one rounding; 0 × ∞ raises nv even beside a NaN (R180). -/
def roundFma (d : Fmt) (rm : Nat) (c a b : Fv) : Nat × Nat :=
  let t := a.mul b
  roundSum d rm t.2 [c, t.1]

def execFadd (c : Ctl) (f : FType) (rm : Rmf) (x y : Opnd) (z : ZOp) (s : State) : Host.Outcome State Fault Refusal :=
  fp2 (.fadd c f rm x y z) c f 6 x y z (fun e a b => roundSum (fmtOf f) (e.rm rm) 0 [a, b]) s

def execFsub (c : Ctl) (f : FType) (rm : Rmf) (x y : Opnd) (z : ZOp) (s : State) : Host.Outcome State Fault Refusal :=
  fp2 (.fsub c f rm x y z) c f 6 x y z (fun e a b => roundSum (fmtOf f) (e.rm rm) 0 [a, b.neg]) s

def execFmul (c : Ctl) (f : FType) (rm : Rmf) (x y : Opnd) (z : ZOp) (s : State) : Host.Outcome State Fault Refusal :=
  fp2 (.fmul c f rm x y z) c f 6 x y z (fun e a b => roundMul (fmtOf f) (e.rm rm) a b) s

/-- `FFMA` (R180): the old destination is the addend. -/
def execFfma (c : Ctl) (f : FType) (rm : Rmf) (x y : Opnd) (z : ZOp) (s : State) : Host.Outcome State Fault Refusal :=
  fpOp (.ffma c f rm x y z) c 6 x false [(y, false), zreg z false] noPre (fun e l =>
    elemRes (roundFma (fmtOf f) (e.rm rm) (e.fpIn f 0 false (e.rd32 x l)) (e.fpIn f 0 false (e.rdF f y l))
      (e.fpIn f 0 false (e.rdFZ f z l)))) s

def execFmin (c : Ctl) (f : FType) (x y : Opnd) (z : ZOp) (s : State) : Host.Outcome State Fault Refusal :=
  fp2 (.fmin c f x y z) c f 4 x y z (fun _ a b => ((roundFp (fmtOf f) 0 (minFv a b)).1, 0)) s

def execFmax (c : Ctl) (f : FType) (x y : Opnd) (z : ZOp) (s : State) : Host.Outcome State Fault Refusal :=
  fp2 (.fmax c f x y z) c f 4 x y z (fun _ a b => ((roundFp (fmtOf f) 0 (maxFv a b)).1, 0)) s

def execFset (c : Ctl) (f : FType) (one : Bool) (cc : FCond) (x y z : Opnd) (s : State) :
    Host.Outcome State Fault Refusal :=
  fpOp (.fset c f one cc x y z) c 4 x false [(y, false), (z, false)] noPre (fun e l =>
    (setWord one (condF cc (e.fpIn f 0 false (e.rdF f y l)) (e.fpIn f 0 false (e.rdF f z l))), 0)) s

/-- `FCMPP` (R184): one bit of the destination. -/
def execFcmpp (c : Ctl) (f : FType) (b : BitVec 5) (cc : FCond) (x y z : Opnd) (s : State) :
    Host.Outcome State Fault Refusal :=
  fpOp (.fcmpp c f b cc x y z) c 4 x false [(y, false), (z, false)] noPre (fun e l =>
    ((putBit (e.rd32 x l) b
      (condF cc (e.fpIn f 0 false (e.rdF f y l)) (e.fpIn f 0 false (e.rdF f z l)))).setWidth 64, 0)) s

/-- `FRND` of a value (R183): no flag; a zero result keeps the operand's sign. -/
def frndFv (rm : Nat) (v : Fv) : Fv :=
  match v with
  | .fin s n e => if e ≥ 0 then v else .fin s (shiftRound rm s n (-e)).1 0
  | .nan | .inf _ => v

def execFrnd (c : Ctl) (f : FType) (rm : Rmf) (x y : Opnd) (s : State) : Host.Outcome State Fault Refusal :=
  fpOp (.frnd c f rm x y) c 8 x false [(y, false)] noPre (fun e l =>
    (BitVec.ofNat 64 (roundFp (fmtOf f) 0 (frndFv (e.rm rm) (e.fpIn f 0 false (e.rdF f y l)))).1, 0)) s

/-- A format register that fails R67 for the suffix it accompanies makes the instruction ILLEGAL. -/
def fmPre (f : FType) (k : BitVec 3) (e : Env) : Bool :=
  match f with
  | .q4 | .q6 | .q8 => !fmValid (tgetD e.wg.fm k.toNat 0) (fWidth f)
  | .f32 | .f16 | .bf16 | .f16x2 | .bf16x2 => false

/-- `FCVT` of a value into a type (R65, R186). -/
def fcvtTo (e : Env) (fd : FType) (fmd : Nat) (rm : Rmf) (v : Fv) : Nat × Nat :=
  match fd with
  | .q4 | .q6 | .q8 => roundNarrow (tgetD e.wg.fm fmd 0) v
  | .f32 | .f16 | .bf16 | .f16x2 | .bf16x2 => roundFp (fmtOf fd) (e.rm rm) v

/-- `FCVT` (R186): one element, a packed pair, or a narrow code. -/
def execFcvt (c : Ctl) (fd fs : FType) (rm : Rmf) (hi : Bool) (fmd fms : BitVec 3) (x y : Opnd) (z : Option Opnd)
    (s : State) : Host.Outcome State Fault Refusal :=
  fpOp (.fcvt c fd fs rm hi fmd fms x y z) c 8 x false ((y, false) :: (z.toList.map fun o => (o, false)))
    (fun e _ => if fmPre fd fmd e || fmPre fs fms e then some (1, 0) else none)
    (fun e l =>
      let a := fcvtTo e fd fmd.toNat rm (e.fpIn fs fms.toNat hi (e.rdF fs y l))
      match z with
      | some o =>
        let b := fcvtTo e fd fmd.toNat rm (e.fpIn .f32 0 false (e.rdF .f32 o l))
        (BitVec.ofNat 64 (b.1 * 65536 + a.1), a.2 ||| b.2)
      | none => elemRes a) s

def execFcvti (c : Ctl) (t : IType) (fs : FType) (rm : Rmf) (hi : Bool) (x y : Opnd) (s : State) :
    Host.Outcome State Fault Refusal :=
  fpOp (.fcvti c t fs rm hi x y) c 8 x (wideT t) [(y, false)] noPre (fun e l =>
    let r := fpToInt (e.rm rm) t (e.fpIn fs 0 hi (e.rdF fs y l))
    (putT r.1 t false, r.2)) s

def execIcvtf (c : Ctl) (fd : FType) (t : IType) (rm : Rmf) (x y : Opnd) (s : State) :
    Host.Outcome State Fault Refusal :=
  fpOp (.icvtf c fd t rm x y) c 8 x false [(y, wideT t)] noPre (fun e l =>
    elemRes (roundFp (fmtOf fd) (e.rm rm) (ofIntFv (rdT (e.rdW (wideT t) y l) t)))) s

/-- A packed operation: element 0 and element 1 apart, each with its own rounding (R181). `h` gets the elements of the
old destination and of the two sources. -/
def packed (i : Instr) (c : Ctl) (f : FType) (lat : Nat) (x y : Opnd) (z : ZOp)
    (h : Env → Fv → Fv → Fv → Nat × Nat) (s : State) : Host.Outcome State Fault Refusal :=
  fpOp i c lat x false [(y, false), zreg z false] noPre (fun e l =>
    let el (hi : Bool) : Nat × Nat :=
      h e (e.fpIn f 0 hi (e.rd32 x l)) (e.fpIn f 0 hi (e.rdF f y l)) (e.fpIn f 0 hi (e.rdFZ f z l))
    (BitVec.ofNat 64 ((el true).1 * 65536 + (el false).1), (el true).2 ||| (el false).2)) s

def execHadd2 (c : Ctl) (f : FType) (rm : Rmf) (x y : Opnd) (z : ZOp) (s : State) : Host.Outcome State Fault Refusal :=
  packed (.hadd2 c f rm x y z) c f 6 x y z (fun e _ a b => roundSum (fmtOf f) (e.rm rm) 0 [a, b]) s

def execHmul2 (c : Ctl) (f : FType) (rm : Rmf) (x y : Opnd) (z : ZOp) (s : State) : Host.Outcome State Fault Refusal :=
  packed (.hmul2 c f rm x y z) c f 6 x y z (fun e _ a b => roundMul (fmtOf f) (e.rm rm) a b) s

def execHfma2 (c : Ctl) (f : FType) (rm : Rmf) (x y : Opnd) (z : ZOp) (s : State) : Host.Outcome State Fault Refusal :=
  packed (.hfma2 c f rm x y z) c f 6 x y z (fun e d a b => roundFma (fmtOf f) (e.rm rm) d a b) s

def execHmin2 (c : Ctl) (f : FType) (x y : Opnd) (z : ZOp) (s : State) : Host.Outcome State Fault Refusal :=
  packed (.hmin2 c f x y z) c f 4 x y z (fun _ _ a b => ((roundFp (fmtOf f) 0 (minFv a b)).1, 0)) s

def execHmax2 (c : Ctl) (f : FType) (x y : Opnd) (z : ZOp) (s : State) : Host.Outcome State Fault Refusal :=
  packed (.hmax2 c f x y z) c f 4 x y z (fun _ _ a b => ((roundFp (fmtOf f) 0 (maxFv a b)).1, 0)) s

/-- `FDOT2` (R182): two exact products and the old FP32 destination, rounded once. -/
def execFdot2 (c : Ctl) (f : FType) (rm : Rmf) (x y : Opnd) (z : ZOp) (s : State) : Host.Outcome State Fault Refusal :=
  fpOp (.fdot2 c f rm x y z) c 6 x false [(y, false), zreg z false] noPre (fun e l =>
    let p (hi : Bool) : Fv × Nat := (e.fpIn f 0 hi (e.rdF f y l)).mul (e.fpIn f 0 hi (e.rdFZ f z l))
    elemRes (roundSum fmt32 (e.rm rm) ((p false).2 ||| (p true).2)
      [e.fpIn .f32 0 false (e.rd32 x l), (p false).1, (p true).1])) s

/-- `FSCALE` (R180): the exponent of the exact value moves by the integer. -/
def execFscale (c : Ctl) (f : FType) (rm : Rmf) (x y : Opnd) (z : ZOp) (s : State) : Host.Outcome State Fault Refusal :=
  fpOp (.fscale c f rm x y z) c 6 x false [(y, false), zreg z false] noPre (fun e l =>
    let v := match e.fpIn f 0 false (e.rdF f y l) with
      | .fin sg n ex => .fin sg n (ex + (e.rdZ32 z l).toInt)
      | .nan => .nan
      | .inf sg => .inf sg
    elemRes (roundFp (fmtOf f) (e.rm rm) v)) s

/-- The class bit of a value (R185). -/
def classBit (d : Fmt) (v : Fv) : Nat :=
  match v with
  | .nan => 8
  | .inf s => if s then 0 else 7
  | .fin s n _ =>
    if n = 0 then (if s then 3 else 4)
    else if n < 2 ^ d.mb then (if s then 2 else 5)
    else (if s then 1 else 6)

def execFclass (c : Ctl) (f : FType) (x y : Opnd) (s : State) : Host.Outcome State Fault Refusal :=
  fpOp (.fclass c f x y) c 4 x false [(y, false)] noPre (fun e l =>
    (BitVec.ofNat 64 (2 ^ classBit (fmtOf f) (e.fpIn f 0 false (e.rdF f y l))), 0)) s

/-- A special function (R188): its pipe is taken for 8 cycles (R173). -/
def specialOp (i : Instr) (c : Ctl) (fn : Sfn) (f : FType) (x y : Opnd) (s : State) :
    Host.Outcome State Fault Refusal :=
  issue i c [(x, false), (y, false)] noPre (fun e s =>
    let r (l : Nat) : DWord × Nat :=
      elemRes (specialFn fn (fmtOf f) (e.rm .cur) (e.fpIn f 0 false (e.rdF f y l)))
    let lanes := match x with
      | .s _ => (lowLane e.guard).toList
      | .v _ | .vp _ | .sr _ | .o _ | .lt | .imm _ => lanesOf e.guard
    let flags := lanes.foldl (fun a l => a ||| (r l).2) 0
    let s := s.modIsl e.isl fun k => k.modCore e.core fun k =>
      { k with sfBusy := tput k.sfBusy (e.gid % 4) (e.cyc + 8) }
    s.onGroup e fun g =>
      e.done c 18 (e.raise 18 flags (e.result 18 x false true e.guard (fun l => ((r l).1, (r l).1)) g))) s

def execFrcp (c : Ctl) (f : FType) (x y : Opnd) (s : State) : Host.Outcome State Fault Refusal :=
  specialOp (.frcp c f x y) c .rcp f x y s

def execFrsq (c : Ctl) (f : FType) (x y : Opnd) (s : State) : Host.Outcome State Fault Refusal :=
  specialOp (.frsq c f x y) c .rsq f x y s

def execFsqrt (c : Ctl) (f : FType) (x y : Opnd) (s : State) : Host.Outcome State Fault Refusal :=
  specialOp (.fsqrt c f x y) c .sqrt f x y s

def execFexp2 (c : Ctl) (f : FType) (x y : Opnd) (s : State) : Host.Outcome State Fault Refusal :=
  specialOp (.fexp2 c f x y) c .exp2 f x y s

def execFlog2 (c : Ctl) (f : FType) (x y : Opnd) (s : State) : Host.Outcome State Fault Refusal :=
  specialOp (.flog2 c f x y) c .log2 f x y s

def execFsin (c : Ctl) (f : FType) (x y : Opnd) (s : State) : Host.Outcome State Fault Refusal :=
  specialOp (.fsin c f x y) c .sin f x y s

def execFcos (c : Ctl) (f : FType) (x y : Opnd) (s : State) : Host.Outcome State Fault Refusal :=
  specialOp (.fcos c f x y) c .cos f x y s

def execFtanh (c : Ctl) (f : FType) (x y : Opnd) (s : State) : Host.Outcome State Fault Refusal :=
  specialOp (.ftanh c f x y) c .tanh f x y s

/-- `FMTW` (R190): the workgroup's format register, 4 cycles after issue. -/
def execFmtw (c : Ctl) (k : BitVec 3) (z : ZOp) (s : State) : Host.Outcome State Fault Refusal :=
  issue (.fmtw c k z) c [zreg z false] noPre (fun e s =>
    let s := s.onGroup e fun g => e.done c 4 g
    if e.any then
      s.modIsl e.isl fun x => x.modWg e.core e.g.place fun w =>
        (w.settle e.cyc).addFm (e.cyc + 4) e.gid k.toNat (e.rdZ32 z e.lane0)
    else s) s

/-- `FMTW.RD` (R190). -/
def execFmtwRd (c : Ctl) (k : BitVec 3) (x : Opnd) (s : State) : Host.Outcome State Fault Refusal :=
  laneOp (.fmtwRd c k x) c 4 x false [] (fun e _ => (tgetD e.wg.fm k.toNat 0).setWidth 64) s

/-- `FCTL.RD` (R175, R191): the word is sampled 4 cycles after issue. -/
def execFctlRd (c : Ctl) (x : Opnd) (s : State) : Host.Outcome State Fault Refusal :=
  laneOp (.fctlRd c x) c 4 x false [] (fun e _ => e.g4.fctl.setWidth 64) s

/-- The write forms of `FCTL` (R175, R191): performed 4 cycles after issue, before flags raised in that cycle. -/
def fctlWrite (i : Instr) (c : Ctl) (z : ZOp) (d : WDest) (s : State) : Host.Outcome State Fault Refusal :=
  issue i c [zreg z false] noPre (fun e s => s.onGroup e fun g => e.done c 4
    (if e.any then addWrite g (e.cyc + 4) d ((e.rdZ32 z e.lane0).setWidth 64) else g)) s

def execFctlWr (c : Ctl) (z : ZOp) (s : State) : Host.Outcome State Fault Refusal :=
  fctlWrite (.fctlWr c z) c z .fctlPut s

def execFctlSet (c : Ctl) (z : ZOp) (s : State) : Host.Outcome State Fault Refusal :=
  fctlWrite (.fctlSet c z) c z .fctlSet s

def execFctlClr (c : Ctl) (z : ZOp) (s : State) : Host.Outcome State Fault Refusal :=
  fctlWrite (.fctlClr c z) c z .fctlClr s

end Sys2Proof.Machine
end

