-- ==== Sys2Proof/Machine/Digest.lean ====
section
/-! DEFINITION. The signature scheme of firmware images, certificates and attestation reports (R410, R424): SHA-384, and ECDSA
over the 384-bit random Brainpool curve of RFC 5639. The algorithms are those of the standards that the rules name; how
numbers and fields lie in the signed bytes is log 64's choice. -/

namespace Sys2Proof.Machine

/-! ## SHA-384 -/

/-- The low `n` bytes of a number, the most significant first. -/
def beBytes (n v : Nat) : List Byte := (List.range n).map fun i => BitVec.ofNat 8 (v / 256 ^ (n - 1 - i))

/-- The number that bytes give, the most significant first. -/
def beNat (bs : List Byte) : Nat := bs.foldl (fun v b => 256 * v + b.toNat) 0

/-- The round constants. -/
def shaK : List DWord :=
  [0x428A2F98D728AE22, 0x7137449123EF65CD, 0xB5C0FBCFEC4D3B2F, 0xE9B5DBA58189DBBC, 0x3956C25BF348B538] ++
  [0x59F111F1B605D019, 0x923F82A4AF194F9B, 0xAB1C5ED5DA6D8118, 0xD807AA98A3030242, 0x12835B0145706FBE] ++
  [0x243185BE4EE4B28C, 0x550C7DC3D5FFB4E2, 0x72BE5D74F27B896F, 0x80DEB1FE3B1696B1, 0x9BDC06A725C71235] ++
  [0xC19BF174CF692694, 0xE49B69C19EF14AD2, 0xEFBE4786384F25E3, 0xFC19DC68B8CD5B5, 0x240CA1CC77AC9C65] ++
  [0x2DE92C6F592B0275, 0x4A7484AA6EA6E483, 0x5CB0A9DCBD41FBD4, 0x76F988DA831153B5, 0x983E5152EE66DFAB] ++
  [0xA831C66D2DB43210, 0xB00327C898FB213F, 0xBF597FC7BEEF0EE4, 0xC6E00BF33DA88FC2, 0xD5A79147930AA725] ++
  [0x6CA6351E003826F, 0x142929670A0E6E70, 0x27B70A8546D22FFC, 0x2E1B21385C26C926, 0x4D2C6DFC5AC42AED] ++
  [0x53380D139D95B3DF, 0x650A73548BAF63DE, 0x766A0ABB3C77B2A8, 0x81C2C92E47EDAEE6, 0x92722C851482353B] ++
  [0xA2BFE8A14CF10364, 0xA81A664BBC423001, 0xC24B8B70D0F89791, 0xC76C51A30654BE30, 0xD192E819D6EF5218] ++
  [0xD69906245565A910, 0xF40E35855771202A, 0x106AA07032BBD1B8, 0x19A4C116B8D2D0C8, 0x1E376C085141AB53] ++
  [0x2748774CDF8EEB99, 0x34B0BCB5E19B48A8, 0x391C0CB3C5C95A63, 0x4ED8AA4AE3418ACB, 0x5B9CCA4F7763E373] ++
  [0x682E6FF3D6B2B8A3, 0x748F82EE5DEFB2FC, 0x78A5636F43172F60, 0x84C87814A1F0AB72, 0x8CC702081A6439EC] ++
  [0x90BEFFFA23631E28, 0xA4506CEBDE82BDE9, 0xBEF9A3F7B2C67915, 0xC67178F2E372532B, 0xCA273ECEEA26619C] ++
  [0xD186B8C721C0C207, 0xEADA7DD6CDE0EB1E, 0xF57D4F7FEE6ED178, 0x6F067AA72176FBA, 0xA637DC5A2C898A6] ++
  [0x113F9804BEF90DAE, 0x1B710B35131C471B, 0x28DB77F523047D84, 0x32CAAB7B40C72493, 0x3C9EBE0A15C9BEBC] ++
  [0x431D67C49C100D4C, 0x4CC5D4BECB3E42B6, 0x597F299CFC657E2A, 0x5FCB6FAB3AD6FAEC, 0x6C44198C4A475817]

/-- The words of the digest before the first block. -/
def shaInit : List DWord :=
  [0xCBBB9D5DC1059ED8, 0x629A292A367CD507, 0x9159015A3070DD17, 0x152FECD8F70E5939,
   0x67332667FFC00B31, 0x8EB44A8768581511, 0xDB0C2E0D64F98FA7, 0x47B5481DBEFA4FA4]

/-- A message with its padding and its length, a multiple of 128 bytes. -/
def shaPad (m : List Byte) : List Byte :=
  m ++ [0x80] ++ List.replicate ((239 - m.length % 128) % 128) 0 ++ beBytes 16 (8 * m.length)

/-- The message schedule, the last word first, from the block's words in that order. -/
def shaSchedule : Nat → List DWord → List DWord
  | 0, w => w
  | n + 1, w =>
    let a := w.getD 1 0
    let b := w.getD 14 0
    let s1 := a.rotateRight 19 ^^^ a.rotateRight 61 ^^^ (a >>> 6)
    let s0 := b.rotateRight 1 ^^^ b.rotateRight 8 ^^^ (b >>> 7)
    shaSchedule n ((s1 + w.getD 6 0 + s0 + w.getD 15 0) :: w)

/-- One round over the eight working words. -/
def shaRound (v : List DWord) (kw : DWord × DWord) : List DWord :=
  match v with
  | [a, b, c, d, e, f, g, h] =>
    let t := h + (e.rotateRight 14 ^^^ e.rotateRight 18 ^^^ e.rotateRight 41) + ((e &&& f) ^^^ (~~~e &&& g)) + kw.1 + kw.2
    let u := (a.rotateRight 28 ^^^ a.rotateRight 34 ^^^ a.rotateRight 39) + ((a &&& b) ^^^ (a &&& c) ^^^ (b &&& c))
    [t + u, a, b, c, d + t, e, f, g]
  | _ => v

/-- One block of 128 bytes. -/
def shaBlock (st : List DWord) (block : List Byte) : List DWord :=
  let words := (List.range 16).map fun i => BitVec.ofNat 64 (beNat ((block.drop (8 * i)).take 8))
  List.zipWith (· + ·) st ((shaK.zip (shaSchedule 64 words.reverse).reverse).foldl shaRound st)

/-- The SHA-384 digest. -/
def sha384 (m : List Byte) : BitVec 384 :=
  let p := shaPad m
  let v := (List.range (p.length / 128)).foldl (fun st i => shaBlock st ((p.drop (128 * i)).take 128)) shaInit
  BitVec.ofNat 384 ((v.take 6).foldl (fun n (x : DWord) => 2 ^ 64 * n + x.toNat) 0)

/-! ## ECDSA (RFC 5639) -/

/-- The field's prime, the curve's coefficients, its base point and the base point's order. -/
def curveP : Nat := 0x8CB91E82A3386D280F5D6F7E50E641DF152F7109ED5456B412B1DA197FB71123ACD3A729901D1A71874700133107EC53
def curveA : Nat := 0x7BC382C63D8C150C3C72080ACE05AFA0C2BEA28E4FB22787139165EFBA91F90F8AA5814A503AD4EB04A8C7DD22CE2826
def curveB : Nat := 0x4A8C7DD22CE28268B39B55416F0447C2FB77DE107DCD2A62E880EA53EEB62D57CB4390295DBC9943AB78696FA504C11
def curveG : CurvePoint :=
  (0x1D1C64F068CF45FFA2A63A81B7C13F6B8847A3E77EF14FE3DB7FCAFE0CBD10E8E826E03436D646AAEF87B2E247D4AF1E,
   0x8ABE1D7520F9C2A45CB1EB8E95CFD55262B70B29FEEC5864E19C054FF99129280E4646217791811142820341263C5315)
def curveQ : Nat := 0x8CB91E82A3386D280F5D6F7E50E641DF152F7109ED5456B31F166E6CAC0425A7CF3AB6AF6B7FC3103B883202E9046565

/-- A power modulo `m`, where the exponent has at most `n` bits. -/
def powMod (m : Nat) : Nat → Nat → Nat → Nat
  | 0, _, _ => 1 % m
  | n + 1, b, e =>
    let r := powMod m n (b * b % m) (e / 2)
    if e % 2 = 1 then r * b % m else r

/-- The inverse modulo a prime of 384 bits. -/
def invMod (m a : Nat) : Nat := powMod m 384 (a % m) (m - 2)

/-- Whether a pair is a point of the curve. -/
def onCurve (c : CurvePoint) : Bool :=
  decide (c.1 < curveP) && decide (c.2 < curveP) && c.2 * c.2 % curveP = (c.1 * c.1 * c.1 + curveA * c.1 + curveB) % curveP

/-- The sum of two points; `none` is the point at infinity. -/
def addPoints : Option CurvePoint → Option CurvePoint → Option CurvePoint
  | none, b => b
  | a, none => a
  | some a, some b =>
    if a.1 = b.1 && (a.2 + b.2) % curveP = 0 then none
    else
      let l := if a.1 = b.1 then (3 * a.1 * a.1 + curveA) * invMod curveP (2 * a.2)
        else (b.2 + (curveP - a.2)) * invMod curveP (b.1 + (curveP - a.1))
      let x := (l * l + 2 * curveP - a.1 - b.1) % curveP
      some (x, (l * (a.1 + (curveP - x)) + (curveP - a.2)) % curveP)

/-- A multiple of a point, where the factor has at most `n` bits. -/
def mulPoint : Nat → Nat → Option CurvePoint → Option CurvePoint
  | 0, _, _ => none
  | n + 1, k, c =>
    let r := mulPoint n (k / 2) (addPoints c c)
    if k % 2 = 1 then addPoints r c else r

/-- Whether a signature over a message verifies under a public key. -/
def verifies (key : CurvePoint) (m : List Byte) (sig : Signature) : Bool :=
  let inside (v : Nat) : Bool := decide (0 < v) && decide (v < curveQ)
  let w := invMod curveQ sig.2
  onCurve key && inside sig.1 && inside sig.2 &&
    match addPoints (mulPoint 384 ((sha384 m).toNat * w % curveQ) (some curveG)) (mulPoint 384 (sig.1 * w % curveQ) (some key)) with
    | some c => c.1 % curveQ = sig.1
    | none => false

/-- The signature of a message under a private key, with the first number from `k` on that gives one; `n` tries. -/
def signWith (d : Nat) (m : List Byte) : Nat → Nat → Signature
  | 0, _ => (0, 0)
  | n + 1, k =>
    let r := ((mulPoint 384 (k % curveQ) (some curveG)).getD (0, 0)).1 % curveQ
    let s := invMod curveQ k * ((sha384 m).toNat + r * d) % curveQ
    if r = 0 || s = 0 then signWith d m n (k + 1) else (r, s)

/-! ## What is signed -/

/-- A point's bytes. -/
def pointBytes (c : CurvePoint) : List Byte := beBytes 48 c.1 ++ beBytes 48 c.2

/-- The bytes of an image except its signature (R410). -/
def FwImage.body (i : FwImage) : List Byte := pointBytes i.key ++ beBytes 4 i.security ++ beBytes 4 i.version ++ i.code

/-- The digest of an image (R424). -/
def FwImage.digest (i : FwImage) : BitVec 384 := sha384 (i.body ++ pointBytes i.sig)

/-- Whether the ROM of a half passes an image: its key is the ROM's, its signature verifies, and its security version is at
least the fused minimum (R410). -/
def FwImage.accepted (i : FwImage) (rom : BitVec 384) (least : Nat) : Bool :=
  decide (least ≤ i.security) && sha384 (pointBytes i.key) = rom && verifies i.key i.body i.sig

/-- The bytes of a report that its half signs (R424). -/
def Report.body (r : Report) : List Byte :=
  beBytes 48 r.nonce.toNat ++ beBytes 48 r.digest.toNat ++ beBytes 4 r.version ++
    [BitVec.ofNat 8 r.site, BitVec.ofNat 8 r.half, r.outcome.setWidth 8, 0] ++ beBytes 4 r.gen.toNat ++
    pointBytes r.key ++ pointBytes r.cert

/-- The report as it stands in the mailbox: what fits of its bytes, the signature before the certificate (log 64). -/
def Report.mailbox (r : Report) : List Byte :=
  ((r.body.take 108) ++ pointBytes r.sig ++ r.body.drop 108).take 256

end Sys2Proof.Machine
end

