-- ==== Sys2Proof/Machine/Matrix.lean ====
section
/-! DEFINITION. The matrix sequencer contexts (R317-R322, R331-R333, R336, R338-R340), the array (R323-R328, R334, R335) and
the readout unit (R329, R330). -/

namespace Sys2Proof.Machine

/-! ## The stream's environment -/

/-- What a stream instruction sees at its dispatch (R320). -/
structure SEnv where
  isl : Nat := 0
  core : Nat := 0
  place : Nat := 0
  cyc : Nat := 0
  w : Wg := {}
  c : Ctx := {}
  deriving Repr, Inhabited

def State.senv? (s : State) (isl core place : Nat) : Option SEnv :=
  match (s.isl isl).wg? core place with
  | some w => match w.ctx with
    | some c => some { isl := isl, core := core, place := place, cyc := s.cyc isl, w := w.settle (s.cyc isl), c := c }
    | none => none
  | none => none

/-- A setting register. -/
def Ctx.mset (c : Ctx) (k : Nat) : DWord := tgetD c.ms k 0

/-- Changes the dispatching context. -/
def State.onCtx (s : State) (e : SEnv) (f : Ctx → Ctx) : State := s.modIsl e.isl fun x => x.modCtx e.core e.place f

/-- Dispatch moves on to the next instruction, one cycle later. -/
def Ctx.moveOn (c : Ctx) (cyc : Nat) : Ctx := { c with sp := c.sp + 1, nextDispatch := cyc + 1 }

/-- Bits 95:64 of an instruction's word. -/
def wordHighOf (i : Instr) : Nat := fld ((encode i).getD 0) 64 32

/-- A fault found at dispatch: SP keeps naming the instruction (R336). -/
def State.dispatchFault (s : State) (e : SEnv) (code info addr : Nat) (write : Bool) : State :=
  s.ctxFault e.isl e.core e.place code info addr e.c.sp.toNat write none

/-- Dispatches an instruction for the context in focus. -/
def stream (i : Instr) (f : SEnv → State → State) (s : State) : Host.Outcome State Fault Refusal :=
  match s.focus with
  | .seq isl core place =>
    match s.senv? isl core place with
    | some e => .next (if legal i then f e (s.noteClass isl core 1) else s.dispatchFault e 1 (wordHighOf i) 0 false)
    | none => .fault .noAgent
  | .none | .group _ _ _ | .event _ => .fault .noAgent

/-- A REG_RANGE of the stream (R336). -/
def State.streamRange (s : State) (e : SEnv) (i : Instr) : State := s.dispatchFault e 3 (wordHighOf i) 0 false

/-! ## Setting and format registers, scales (R321, R322, R325) -/

/-- A constant written into a setting register. -/
def msetConst (i : Instr) (x : BitVec 10) (f : DWord → DWord) (s : State) : Host.Outcome State Fault Refusal :=
  stream i (fun e s => s.onCtx e fun c => { c.moveOn e.cyc with ms := tput c.ms x.toNat (f (c.mset x.toNat)) }) s

def execMsetLo (x : BitVec 10) (k : Word) (s : State) : Host.Outcome State Fault Refusal :=
  msetConst (.msetLo x k) x (fun v => pair k ((v >>> 32).setWidth 32)) s

def execMsetHi (x : BitVec 10) (k : Word) (s : State) : Host.Outcome State Fault Refusal :=
  msetConst (.msetHi x k) x (fun v => pair (v.setWidth 32) k) s

def execMsetAdd (x : BitVec 10) (k : Word) (s : State) : Host.Outcome State Fault Refusal :=
  msetConst (.msetAdd x k) x (fun v => v + k.signExtend 64) s

/-- The group of a workgroup with an index, if its slot has not been freed. -/
def CoreS.groupOf? (k : CoreS) (place gidx : Nat) : Option Group := (k.slotOf place gidx).bind fun gid => tget? k.groups gid

/-- A uniform register of a workgroup's group as it stands at a cycle. -/
def CoreS.uniform (k : CoreS) (w : Wg) (place gidx cyc n : Nat) : Word :=
  match k.groupOf? place gidx with
  | some g => (settle g cyc).sreg n
  | none => tgetD (tgetD w.goneS gidx []) n 0

def execMsetU (x g : BitVec 10) (z : Opnd) (s : State) : Host.Outcome State Fault Refusal :=
  let i : Instr := .msetU x g z
  stream i (fun e s =>
    let n := match z with
      | .s k => k.toNat
      | .v _ | .vp _ | .sr _ | .o _ | .lt | .imm _ => 0
    if hdrGroups e.w.hdr ≤ g.toNat || hdrUniforms e.w.hdr ≤ n + 1 then s.streamRange e i
    else
      let u := ((s.isl e.isl).core e.core).uniform e.w e.place g.toNat e.cyc
      s.onCtx e fun c => { c.moveOn e.cyc with ms := tput c.ms x.toNat (pair (u n) (u (n + 1))) }) s

def execMsetIx (x : BitVec 10) (y : BitVec 4) (n : BitVec 5) (z : BitVec 10) (s : State) : Host.Outcome State Fault Refusal :=
  stream (.msetIx x y n z) (fun e s => s.onCtx e fun c =>
    { c.moveOn e.cyc with
      ms := tput c.ms x.toNat (c.mset y.toNat + (((c.mset z.toNat).setWidth 4).setWidth 64 <<< n.toNat)) }) s

/-- `MFMT` (R322): made at dispatch; of two writes of one cycle the stream's stands. -/
def execMfmt (k : BitVec 10) (c : Word) (s : State) : Host.Outcome State Fault Refusal :=
  stream (.mfmt k c) (fun e s =>
    (s.modIsl e.isl fun x => x.modWg e.core e.place fun w => w.addFm e.cyc 64 k.toNat c).onCtx e fun c => c.moveOn e.cyc) s

/-- Sets a scale naming. -/
def mscl (i : Instr) (g : BitVec 10) (y : Opnd) (sel : BitVec 10) (f : ScaleName → Ctx → Ctx) (s : State) :
    Host.Outcome State Fault Refusal :=
  stream i (fun e s =>
    let k := match y with
      | .v k => k.toNat
      | .vp _ | .s _ | .sr _ | .o _ | .lt | .imm _ => 0
    if hdrGroups e.w.hdr ≤ g.toNat then s.streamRange e i
    else s.onCtx e fun c => f { on := true, group := g.toNat, reg := k, sel := sel.toNat } (c.moveOn e.cyc)) s

def execMsclA (g : BitVec 10) (y : Opnd) (sel : BitVec 10) (s : State) : Host.Outcome State Fault Refusal :=
  mscl (.msclA g y sel) g y sel (fun n c => { c with sca := n }) s

def execMsclB (g : BitVec 10) (y : Opnd) (sel : BitVec 10) (s : State) : Host.Outcome State Fault Refusal :=
  mscl (.msclB g y sel) g y sel (fun n c => { c with scb := n }) s

def execMsclAOff (s : State) : Host.Outcome State Fault Refusal :=
  stream .msclAOff (fun e s => s.onCtx e fun c => { c.moveOn e.cyc with sca := {} }) s

def execMsclBOff (s : State) : Host.Outcome State Fault Refusal :=
  stream .msclBOff (fun e s => s.onCtx e fun c => { c.moveOn e.cyc with scb := {} }) s

/-! ## Operations: what they took at dispatch -/

/-- The class, modes and blocks of an `MMA` or `MMAS`. -/
structure MmaArgs where
  sparse : Bool := false
  cls : MmaClass := .bf16
  i40 : Bool := false
  sc : Bool := false
  zf : Bool := false
  slot : Nat := 0
  fa : Nat := 0
  fb : Nat := 0
  nb : Nat := 1
  deriving DecidableEq, Repr, Inhabited

def mmaArgs (i : Instr) : Option MmaArgs :=
  match i with
  | .mma cls i40 sc zf s fa fb nb =>
    some { cls := cls, i40 := i40, sc := sc, zf := zf, slot := s.toNat, fa := fa.toNat, fb := fb.toNat, nb := nb.toNat }
  | .mmas cls i40 sc zf s fa fb nb =>
    some { sparse := true, cls := cls, i40 := i40, sc := sc, zf := zf, slot := s.toNat, fa := fa.toNat, fb := fb.toNat, nb := nb.toNat }
  | _ => none

/-- The element width of a class (R323) and its rate (R334). -/
def mmaWidth : MmaClass → Nat
  | .bf16 | .f16 => 16
  | .q8 => 8
  | .q6 => 6
  | .q4 => 4
def mmaRate : MmaClass → Nat
  | .bf16 | .f16 => 1
  | .q8 | .q6 => 2
  | .q4 => 4

/-- The slot an operation names. -/
def MxOp.slot (m : MxOp) : Nat :=
  (slotNamed m.instr).getD 0

/-- A setting register as an operation took it. -/
def MxOp.mset (m : MxOp) (k : Nat) : DWord := m.ms.getD k 0
/-- An address in a window that byte `b` of `ms4` names (R321). -/
def MxOp.addr (m : MxOp) (b : Nat) (base : DWord) (off : Nat) : VA :=
  vaPlus (((m.mset 4).extractLsb' (8 * b) 8 : BitVec 8) ++ base) off
/-- A stride: the low half of a setting register (R321). -/
def MxOp.stride (m : MxOp) (k : Nat) : Nat := fld (m.mset k) 0 32

/-- An operation as the context hands it over. -/
def SEnv.mxOp (e : SEnv) (i : Instr) (id : Nat) (fa fb : Nat) : MxOp :=
  { id := id, instr := i, cp := e.c.sp, ms := (List.range 16).map e.c.mset, fa := tgetD e.w.fm fa 0, fb := tgetD e.w.fm fb 0,
    sca := e.c.sca, scb := e.c.scb, hy := e.c.hy, left := 128 }

/-- An operand or tile of an operation: the byte of WINS, the register of its base and that of its stride (R321). -/
abbrev Tile := Nat × Nat × Option Nat
def tileA : Tile := (0, 0, some 2)
def tileB : Tile := (1, 1, some 3)
def tileD : Tile := (2, 5, some 6)
def tileM : Tile := (3, 7, none)

/-- The first address of an operation's tiles that is not a multiple of 16, or would not be for its stride (R321, R336). -/
def MxOp.misaligned (m : MxOp) (l : List Tile) : Option VA :=
  l.findSome? fun t =>
    let base := m.mset t.2.1
    if base.toNat % 16 ≠ 0 then some (m.addr t.1 base 0)
    else t.2.2.bind fun k => if m.stride k % 16 ≠ 0 then some (m.addr t.1 base (m.stride k)) else none

/-- A scale naming that leaves the named group's registers over the blocks of an operation (R336). -/
def scaleBad (w : Wg) (n : ScaleName) (nb : Nat) : Bool :=
  n.on && hdrRegs w.hdr ≤ n.reg + 2 * ((n.sel + nb - 1) / 4) + 1

/-- Whether the modes of an `MMA` may combine (R327). -/
def mmaModes (a : MmaArgs) (m : MxOp) : Bool :=
  match a.cls with
  | .bf16 | .f16 => !a.i40
  | c =>
    let ints := (fmE m.fa = 0 && fmE m.fb = 0)
    fmValid m.fa (mmaWidth c) && fmValid m.fb (mmaWidth c) && (fmE m.fa = 0) = (fmE m.fb = 0) && a.i40 = ints && !(ints && a.sc)

/-- The tiles whose addresses and strides an `MMA` or `MMAS` names (R321). -/
def MmaArgs.tiles (a : MmaArgs) : List Tile := if a.sparse then [tileA, tileB, tileM] else [tileA, tileB]

/-- Has the array look for an operation to begin. -/
def State.kickArray (s : State) (isl core : Nat) : State := s.afterOnce isl 0 .matrixOperationBegin [isl, core]

/-- Dispatches an `MMA` or `MMAS`: its checks, then it is handed to the array (R320, R336). -/
def mmaOp (i : Instr) (a : MmaArgs) (s : State) : Host.Outcome State Fault Refusal :=
  stream i (fun e s =>
    let m := e.mxOp i s.nextId a.fa a.fb
    if !mmaModes a m then s.dispatchFault e 1 (wordHighOf i) 0 false
    else if hdrAccSlots e.w.hdr ≤ a.slot || (a.sc && (scaleBad e.w m.sca a.nb || scaleBad e.w m.scb a.nb)) then s.streamRange e i
    else match m.misaligned (a.tiles) with
      | some va => s.dispatchFault e cAlign 0 va.toNat false
      | none =>
        let s := { s with nextId := s.nextId + 1 }
        (s.onCtx e fun c => { c.moveOn e.cyc with handed := c.handed ++ [m] }).kickArray e.isl e.core) s

def execMma (cls : MmaClass) (i40 sc zf : Bool) (sl : BitVec 10) (fa fb : BitVec 3) (nb : BitVec 10) (s : State) :
    Host.Outcome State Fault Refusal :=
  let i : Instr := .mma cls i40 sc zf sl fa fb nb
  mmaOp i ((mmaArgs i).getD {}) s

def execMmas (cls : MmaClass) (i40 sc zf : Bool) (sl : BitVec 10) (fa fb : BitVec 3) (nb : BitVec 10) (s : State) :
    Host.Outcome State Fault Refusal :=
  let i : Instr := .mmas cls i40 sc zf sl fa fb nb
  mmaOp i ((mmaArgs i).getD {}) s

/-! ## Accesses of the engine (R324, R330) -/

/-- What the pipes bring: bytes; a fault with its address; or a wait, for a line that is empty or in progress. -/
structure Brought where
  bytes : List Byte := []
  fault : Option (Nat × VA) := none
  wait : Bool := false
  /-- The addresses of tainted bytes (R227). -/
  poison : List VA := []
  deriving DecidableEq, Repr, Inhabited

/-- The place of an access of the engine, or its fault: a register area is HOME, a tagged write of CORE or UNCACHED memory
HYP_HOME. -/
def State.mxPlace (s : State) (isl core place : Nat) (w : Wg) (hy : BitVec 8) (want : Want) (va : VA) : Except Nat Loc × State :=
  match s.placeOf isl core place w.asid w.priv want va with
  | (.error c, s) => (.error c, s)
  | (.ok l, s) =>
    match l with
    | .reg _ _ _ => (.error cHome, s)
    | .buf _ _ _ _ => (.ok l, s)
    | .pin _ _ | .unc _ => (if want = .write && hy ≠ 0 then .error cHypHome else .ok l, s)
    | .scr _ _ _ | .line _ _ => (.ok l, s)

/-- Reads bytes for the engine. -/
def State.mxRead (s : State) (isl core place : Nat) (w : Wg) (hy : BitVec 8) (va : VA) (n : Nat) : Brought × State :=
  (linePieces (va.toNat % 128) n).foldl (fun (p : Brought × State) c =>
    if p.1.fault.isSome || p.1.wait then p
    else
      let a := vaPlus va c.1
      match p.2.mxPlace isl core place w hy .read a with
      | (.error code, s) => ({ p.1 with fault := some (code, a) }, s)
      | (.ok l, s) =>
        if s.isEmptyLoc isl l || !(s.isl isl).locQuiet l then ({ p.1 with wait := true }, s)
        else
          let t := s.tainted isl l c.2
          ({ p.1 with bytes := p.1.bytes ++ t.2.readLoc isl hy l c.2, poison := if t.1 then p.1.poison ++ [a] else p.1.poison },
            t.2.useLoc isl l)) ({}, s)

/-- Poison that an operation has read is consumed in its context's name (R227, R336). -/
def State.mxConsume (s : State) (isl core place : Nat) (w : Wg) (m : MxOp) (l : List VA) : State :=
  match l with
  | [] => s
  | va :: _ => s.consumed isl
      { core := core, source := 1, slot := place, launch := w.launch, cp := m.cp, lanes := BitVec.allOnes 64, va := va }

/-- Reads several stretches of bytes, in order. -/
def State.mxReads (s : State) (isl core place : Nat) (w : Wg) (hy : BitVec 8) (l : List (VA × Nat)) : (List (List Byte) × Brought) × State :=
  l.foldl (fun (p : (List (List Byte) × Brought) × State) q =>
    if p.1.2.fault.isSome || p.1.2.wait then p
    else
      let r := p.2.mxRead isl core place w hy q.1 q.2
      ((p.1.1 ++ [r.1.bytes], { r.1 with bytes := [], poison := p.1.2.poison ++ r.1.poison }), r.2)) (([], {}), s)

/-- The longest latency of the paths of a list of addresses (R334). -/
def State.mxLatency (s : State) (isl core place : Nat) (w : Wg) (want : Want) (vas : List VA) : Nat :=
  vas.foldl (fun m va => match (s.placeOf isl core place w.asid w.priv want va).1 with
    | .ok l => max m ((s.isl isl).locCycles core l)
    | .error _ => m) Config.latOwn

/-! ## Accumulator slots (R318) -/

/-- The rows of an accumulator slot. -/
def CoreS.slotRows (k : CoreS) (p : Nat) : List (List A40) :=
  (List.range 128).map fun i => (List.range 128).map fun j => tgetD k.acc (16384 * p + 128 * i + j) 0

/-- Replaces the rows of a slot; zero elements are not listed. -/
def CoreS.setRows (k : CoreS) (p : Nat) (rows : List (List A40)) : CoreS :=
  let vals : Tbl A40 := (rows.flatten.zipIdx.filter fun q => q.1 ≠ 0).map fun q => (16384 * p + q.2, q.1)
  { k with acc := (k.acc.filter fun q => q.1 < 16384 * p) ++ vals ++ k.acc.filter fun q => 16384 * (p + 1) ≤ q.1 }

/-- Replaces one row of a slot. -/
def CoreS.setRow (k : CoreS) (p i : Nat) (row : List A40) : CoreS :=
  { k with acc := row.zipIdx.foldl (fun m q => if q.1 = 0 then tdel m (16384 * p + 128 * i + q.2) else tput m (16384 * p + 128 * i + q.2) q.1) k.acc }

def CoreS.slotMeta (k : CoreS) (p : Nat) : AccMeta := tgetD k.accMeta p {}
def CoreS.setMeta (k : CoreS) (p : Nat) (f : AccMeta → AccMeta) : CoreS := { k with accMeta := tput k.accMeta p (f (k.slotMeta p)) }

/-- The physical slot of a workgroup's slot. -/
def Wg.phys (w : Wg) (n : Nat) : Nat := w.accMap.getD n 0

/-- Every element zero, and the metadata (R329). -/
def CoreS.zeroSlot (k : CoreS) (p : Nat) : CoreS := (k.setRows p []).setMeta p fun _ => {}

/-! ## Products and sums (R72-R75, R326, R328) -/

/-- Element `q` of a bit stream of `w`-bit elements (R68). -/
def streamCode (bs : List Byte) (w q : Nat) : Nat := bitsN (leNat bs) (w * q) w

/-- The value of an operand element (R323); its integer where both formats are scaled integers (R69, R74). -/
def operand (cls : MmaClass) (i40 : Bool) (fm : Word) (code : Nat) : Fv :=
  match cls with
  | .bf16 => decodeF fmtB16 code
  | .f16 => decodeF fmt16 code
  | .q8 | .q6 | .q4 => if i40 then ofIntFv (if fmS fm then sextN code (mmaWidth cls) else code) else decodeNarrow fm code

/-- The scale of a row or column for a block (R72, R73); a cleared naming supplies 127. -/
def scaleCode (k : CoreS) (place cyc : Nat) (n : ScaleName) (r b : Nat) : Nat :=
  if n.on then
    let t := n.sel + b
    fld (k.regWord place cyc n.group (n.reg + 2 * (t / 4) + r / 64) (r % 64)) (8 * (t % 4)) 8
  else 127
def scaleFv (code : Nat) : Fv := if code = 255 then .nan else .fin false 1 ((code : Int) - 127)

/-- INT40's clamp (R74), and whether it clamped. -/
def satA40 (x : Int) : Int × Bool :=
  let m : Int := (2 : Int) ^ 39 - 1
  let y := max (-m) (min x m)
  (y, y ≠ x)

/-- One element's new value from one block (R75): the products of a row's elements with those of a column, each at its
position. -/
def accumulate (i40 : Bool) (c : A40) (row : List Fv) (col : List (Nat × Fv)) : A40 × Bool :=
  let ps := col.map fun q => ((row.getD q.1 .nan).mul q.2).1
  if i40 then
    let n : Int := (ps.map fun v => match v with
      | .fin s n e => (if s then -((n : Int) * 2 ^ e.toNat) else (n : Int) * 2 ^ e.toNat)
      | .nan | .inf _ => 0).sum
    let r := satA40 (sextN c.toNat 40 + n)
    (BitVec.ofInt 40 r.1, r.2)
  else
    let t := (roundFp fmt40 0 (sumFv 0 ps).1).1
    (BitVec.ofNat 40 (roundFp fmt40 0 (sumFv 0 [decodeF fmt40 c.toNat, decodeF fmt40 t]).1).1, false)

/-- A block applied to every element of a slot; whether any clamped. -/
def applyBlock (i40 : Bool) (rows : List (List A40)) (a : List (List Fv)) (b : List (List (Nat × Fv))) : List (List A40) × Bool :=
  let r := List.zipWith (fun row av => List.zipWith (fun c bv => accumulate i40 c av bv) row b) rows a
  (r.map fun row => row.map (·.1), r.any fun row => row.any (·.2))

/-! ## The array (R334, R335) -/

/-- Whether a block of an operation is live, and the number of live blocks below it (R328). -/
def liveBlock (a : MmaArgs) (bitmap : List Byte) (b : Nat) : Bool := !a.sparse || bitsN (leNat bitmap) b 1 = 1
def liveBelow (a : MmaArgs) (bitmap : List Byte) (b : Nat) : Nat := ((List.range b).filter fun i => liveBlock a bitmap i).length

/-- The bytes of block `b` of an operation: rows of A, columns of B, and index words. -/
def blockReads (m : MxOp) (a : MmaArgs) (bitmap : List Byte) (b : Nat) : List (VA × Nat) :=
  let w := mmaWidth a.cls
  let n := liveBelow a bitmap b
  ((List.range 128).map fun i => (m.addr 0 (m.mset 0) (i * m.stride 2 + 4 * w * b), 4 * w)) ++
  ((List.range 128).map fun j => if a.sparse then (m.addr 1 (m.mset 1) (j * m.stride 3 + 2 * w * n), 2 * w)
      else (m.addr 1 (m.mset 1) (j * m.stride 3 + 4 * w * b), 4 * w)) ++
  if a.sparse then [(m.addr 3 (m.mset 7) (32 + 512 * n), 512)] else []

/-- The elements of a column for a block, with their positions (R328). -/
def columnOf (m : MxOp) (a : MmaArgs) (bs : List Byte) (ix : Nat) (sb : Fv) : List (Nat × Fv) :=
  let el (q : Nat) : Fv := ((operand a.cls a.i40 m.fb (streamCode bs (mmaWidth a.cls) q)).mul sb).1
  if a.sparse then (List.range 16).map fun q => (4 * (q / 2) + bitsN ix (2 * q) 2, el q)
  else (List.range 32).map fun q => (q, el q)

/-- Applies block `b` with the bytes that were brought (R326). -/
def State.mmaBlock (s : State) (isl core place : Nat) (w : Wg) (m : MxOp) (a : MmaArgs) (b : Nat) (bytes : List (List Byte)) : State :=
  let cyc := s.cyc isl
  let k := (s.isl isl).core core
  let sc (n : ScaleName) (r : Nat) : Fv := if a.sc then scaleFv (scaleCode k place cyc n r b) else .fin false 1 0
  let av := (List.range 128).map fun i =>
    let bs := bytes.getD i []
    (List.range 32).map fun q => ((operand a.cls a.i40 m.fa (streamCode bs (mmaWidth a.cls) q)).mul (sc m.sca i)).1
  let ixs := bytes.getD 256 []
  let bv := (List.range 128).map fun j =>
    columnOf m a (bytes.getD (128 + j) []) (leNat ((ixs.drop (4 * j)).take 4)) (sc m.scb j)
  let p := w.phys a.slot
  let r := applyBlock a.i40 (k.slotRows p) av bv
  s.modIsl isl fun x => x.modCore core fun k => (k.setRows p r.1).setMeta p fun t => { t with sat := t.sat || r.2 }

/-- The operation a context would begin or continue on the array: one that stopped at a block boundary, else the oldest
handed one once the readouts before it have finished with its slot (R320). One that has faulted and those after it are held,
and a context that is being saved by force begins none (R336, R337). -/
def Island.arrayNext (x : Island) (w : Wg) : Option MxOp :=
  match w.ctx with
  | none => none
  | some c =>
    let free (m : MxOp) : Bool := !(c.faults.any fun f => decide (f ≤ m.id))
    if (tget? x.cls w.cl).any fun l => l.forced then none
    else match c.current with
      | some m => if free m then some m else none
      | none => match c.handed with
        | m :: _ => if c.readout.any fun r => r.id < m.id && r.slot = m.slot then none else if free m then some m else none
        | [] => none

/-- Frees the array. -/
def State.freeArray (s : State) (isl core : Nat) : State :=
  (((s.modIsl isl fun x => x.modCore core fun k => { k with mx := { k.mx with busy := none } }).noteClass isl core 3).after isl 64
    .clockGate [isl, core, 4]).kickArray isl core

/-- The release of an `MBAR` ends when the operations before it have read their operands and are written (R332). -/
def State.mbarRelease (s : State) (isl id : Nat) (c : Ctx) : State :=
  match s.op? isl id with
  | some o =>
    if o.released || !c.handed.isEmpty || c.current.isSome || !c.readout.isEmpty then s
    else s.startOp isl id
  | none => s

/-- Has everything look again that waits for a context's operations: held readouts, `MBAR` releases, its stop, a save, the
workgroup's end. -/
def State.ctxKick (s : State) (isl core place : Nat) : State :=
  let s := s.afterOnce isl 0 .readoutHandoff [isl, core, place]
  let s := match ((s.isl isl).wg? core place).bind (·.ctx) with
    | some c => match c.waitOp with
      | some id => s.mbarRelease isl id c
      | none => s
    | none => s
  let s := s.ctxStopped isl core place
  (s.checkParked isl (((s.isl isl).wg? core place).getD {}).cl).checkWgEnd isl core place

/-- The block boundary of an array operation: dead blocks are passed; the end of the array's work, or the next block. -/
def State.arrayStep (s : State) (isl core place extra : Nat) (m : MxOp) (a : MmaArgs) (bitmap : List Byte) (from' : Nat) : State :=
  let b := ((List.range a.nb).find? fun i => from' ≤ i && liveBlock a bitmap i).getD a.nb
  if b < a.nb then
    (s.modIsl isl fun x => x.modCtx core place fun c =>
      { c with mrow := BitVec.ofNat 9 b, current := c.current.map fun m => { m with block := BitVec.ofNat 9 b } }).after isl
      ((if a.sparse then 16 else 32) / mmaRate a.cls + extra) .matrixOperationBegin [isl, core, place, m.id]
  else
    let s := s.modIsl isl fun x => x.modCtx core place fun c =>
      { c with mrow := BitVec.ofNat 9 (a.nb - 1), current := none, draining := c.draining ++ [m] }
    ((s.after isl 40 .matrixOperationComplete [isl, core, place, m.id]).freeArray isl core).ctxKick isl core place

/-- A fault of an operation that dispatch has passed (R336); a refusal's information word names the line (R269). -/
def State.passedFault (s : State) (isl core place : Nat) (m : MxOp) (code : Nat) (va : VA) (write : Bool) : State :=
  (s.modIsl isl fun x => x.modCtx core place fun c => { c with faults := c.faults ++ [m.id] }).ctxFault isl core place code
    (if code = 8 then va.toNat % 2 ^ 64 / 128 * 128 else 0) va.toNat m.cp.toNat write (some m.id)

/-- Begins the next operation on a free array: the context that follows the one served last, in place order (R334). -/
def State.arrayBegin (s : State) (isl core : Nat) : State :=
  let x := s.isl isl
  let k := x.core core
  let order := (List.range 4).map fun i => (k.mx.lastServed + 1 + i) % 4
  let cand := order.findSome? fun p => match tget? k.places p with
    | some w => (x.arrayNext w).map fun m => (p, w, m)
    | none => none
  match k.mx.busy, cand with
  | none, some (p, w, m) =>
    if k.cls < 3 then s.modIsl isl fun x => x.modCore core fun k => { k with clsWant := 3 }
    else match mmaArgs m.instr with
      | none => s
      | some a =>
        let ph := w.phys a.slot
        let s := s.modIsl isl fun x => x.modCore core fun k =>
          let k := { k with mx := { k.mx with busy := some (p, m.id), lastServed := p }, gated := k.gated.filter fun u => u ≠ 4 }
          if m.begun then k
          else
            let k := if a.zf then (k.setRows ph []).setMeta ph fun t => { t with sat := false } else k
            k.setMeta ph fun t => { t with kind := a.i40, shift := if a.i40 then BitVec.ofInt 9 (fmBias m.fa + fmBias m.fb) else t.shift }
        let m' := { m with begun := true }
        let s := s.modIsl isl fun x => x.modCtx core p fun c =>
          if m.begun then { c with current := some m', mrow := m.block } else { c with current := some m', handed := c.handed.drop 1, mrow := 0 }
        let s := (s.noteClass isl core 3).after isl 0 .matrixOperationBegin [isl, core, p, m.id, 1]
        s
  | _, _ => s

/-- A step of the operation on the array: at its beginning the bitmap is read; then each block is read and applied, in
ascending order. A read that cannot be made holds the array, or stops the operation at the block boundary where the
context is being stopped or saved by force (R335). -/
def State.arrayBlock (s : State) (isl core place id : Nat) (first : Bool) : State :=
  let x := s.isl isl
  match x.wg? core place, (x.core core).mx.busy with
  | some w, some (p, i) =>
    match w.ctx, (w.ctx.bind (·.current)) with
    | some c, some m =>
      if p ≠ place || i ≠ id || m.id ≠ id then s
      else match mmaArgs m.instr with
        | none => s
        | some a =>
          let forced := (tget? x.cls w.cl).any (·.forced)
          let hold (s : State) : State :=
            if c.killed then
              ((s.modIsl isl fun x => x.modCtx core place fun c => { c with current := none, mrow := 0 }).freeArray isl core).ctxKick isl core place
            else if forced then (s.freeArray isl core).checkParked isl w.cl
            else s.after isl 1 .matrixOperationBegin ([isl, core, place, id] ++ if first then [1] else [])
          let b := m.block.toNat
          let bm := if a.sparse then s.mxRead isl core place w m.hy (m.addr 3 (m.mset 7) 0) 32 else ({}, s)
          let bad (s : State) (f : Nat × VA) : State := (s.passedFault isl core place m f.1 f.2 false).freeArray isl core
          match bm.1.fault with
          | some f => bad bm.2 f
          | none =>
            if bm.1.wait then hold bm.2
            else if first then
              let reads := (blockReads m a bm.1.bytes b).map (·.1)
              let extra := bm.2.mxLatency isl core place w .read reads - Config.latOwn
              bm.2.arrayStep isl core place extra m a bm.1.bytes b
            else
              let r := bm.2.mxReads isl core place w m.hy (blockReads m a bm.1.bytes b)
              match r.1.2.fault with
              | some f => bad r.2 f
              | none =>
                if r.1.2.wait then hold r.2
                else
                  let s := r.2.mxConsume isl core place w m (bm.1.poison ++ r.1.2.poison)
                  (s.mmaBlock isl core place w m a b r.1.1).arrayStep isl core place 0 m a bm.1.bytes (b + 1)
    | _, _ => (s.modIsl isl fun x => x.modCore core fun k => { k with mx := { k.mx with busy := none } }).kickArray isl core
  | _, _ => s

/-- The free array takes an operation (R334), or the operation on it goes on. -/
def execMatrixOperationBegin (s : State) : Host.Outcome State Fault Refusal :=
  event s fun as s =>
    match as with
    | [isl, core, place, id] => s.arrayBlock isl core place id false
    | [isl, core, place, id, _] => s.arrayBlock isl core place id true
    | _ => s.arrayBegin (ar as 0) (ar as 1)

/-- An operation's slot is ready (R334, R335). -/
def execMatrixOperationComplete (s : State) : Host.Outcome State Fault Refusal :=
  event s fun as s =>
    let isl := ar as 0
    let core := ar as 1
    let place := ar as 2
    let s := s.modIsl isl fun x => x.modCtx core place fun c =>
      { c with draining := c.draining.filter fun m => m.id ≠ ar as 3, mrow := if c.current.isNone then 0 else c.mrow }
    s.ctxKick isl core place

/-! ## Readout and load (R329, R330) -/

/-- Bits of an element of a tile (R329). -/
def tileBits : TileFmt → Nat
  | .f32 | .i32 => 32
  | .bf16 | .f16 => 16
  | .q8 => 8
  | .q6 => 6
  | .q4 => 4
  | .raw => 40

/-- An element as `MRD` converts it. -/
def tileOut (f : TileFmt) (fm : Word) (t : AccMeta) (c : A40) : Nat :=
  let k := sextN c.toNat 40
  let v : Fv := if t.kind then .fin (k < 0) k.natAbs (-t.shift.toInt) else decodeF fmt40 c.toNat
  match f with
  | .f32 => (roundFp fmt32 0 v).1
  | .bf16 => (roundFp fmtB16 0 v).1
  | .f16 => (roundFp fmt16 0 v).1
  | .q8 | .q6 | .q4 => (roundNarrow fm v).1
  | .i32 => truncI (if t.kind then satI k 32 else if v = .nan then 0 else (fpToInt 0 .i32 v).1) 32
  | .raw => c.toNat

/-- An element as `MWR` loads it, and the KIND it gives the slot. -/
def tileIn (f : TileFmt) (fm : Word) (code : Nat) : A40 :=
  let fp (v : Fv) : A40 := BitVec.ofNat 40 (roundFp fmt40 0 v).1
  match f with
  | .f32 => fp (decodeF fmt32 code)
  | .bf16 => fp (decodeF fmtB16 code)
  | .f16 => fp (decodeF fmt16 code)
  | .q8 | .q6 | .q4 => fp (decodeNarrow fm code)
  | .i32 => BitVec.ofInt 40 (sextN code 32)
  | .raw => BitVec.ofNat 40 code

/-- The bytes of a row of a tile. -/
def rowBytes (f : TileFmt) (fm : Word) (t : AccMeta) (row : List A40) : List Byte :=
  leBytes (16 * tileBits f) (row.zipIdx.foldl (fun n q => n + tileOut f fm t q.1 * 2 ^ (tileBits f * q.2)) 0)

/-- The address of a row of a tile (R329). -/
def MxOp.rowVa (m : MxOp) (i : Nat) : VA := m.addr 2 (m.mset 5) (i * m.stride 6)

/-- The format of a readout or load, whether it writes memory, and the KIND a load gives. -/
def MxOp.tile (m : MxOp) : Option (TileFmt × Bool × Bool) :=
  match m.instr with
  | .mrd f _ _ _ => some (f, true, false)
  | .mwr f kind _ _ => some (f, false, match f with | .i32 => true | .raw => kind | _ => false)
  | _ => none

/-- The faults of a tile's rows, found at dispatch (R320, R336): the first, with its address. -/
def State.tileFault (s : State) (e : SEnv) (m : MxOp) (f : TileFmt) (write : Bool) : Option (Nat × VA) × State :=
  (List.range 128).foldl (fun (p : Option (Nat × VA) × State) i =>
    (linePieces ((m.rowVa i).toNat % 128) (16 * tileBits f)).foldl (fun (p : Option (Nat × VA) × State) c =>
      if p.1.isSome then p
      else
        let a := vaPlus (m.rowVa i) c.1
        match p.2.mxPlace e.isl e.core e.place e.w m.hy (if write then .write else .read) a with
        | (.error code, s) => (some (code, a), s)
        | (.ok _, s) => (none, s)) p) (none, s)

/-- Hands a readout operation on, or holds it for its slot. -/
def State.handReadout (s : State) (e : SEnv) (m : MxOp) : State :=
  ({ s with nextId := s.nextId + 1 }.onCtx e fun c => { c.moveOn e.cyc with readout := c.readout ++ [m] }).afterOnce e.isl 0
    .readoutHandoff [e.isl, e.core, e.place]

/-- Dispatches an `MRD` or `MWR`. -/
def tileOp (i : Instr) (f : TileFmt) (sl fm : BitVec 10) (write : Bool) (s : State) : Host.Outcome State Fault Refusal :=
  stream i (fun e s =>
    let m := e.mxOp i s.nextId fm.toNat 0
    let narrow := match f with | .q8 | .q6 | .q4 => true | .f32 | .bf16 | .f16 | .i32 | .raw => false
    if narrow && !fmValid m.fa (tileBits f) then s.dispatchFault e 1 (wordHighOf i) 0 false
    else if hdrAccSlots e.w.hdr ≤ sl.toNat then s.streamRange e i
    else match m.misaligned [tileD] with
      | some va => s.dispatchFault e cAlign 0 va.toNat write
      | none => match s.tileFault e m f write with
        | (some q, s) => s.dispatchFault e q.1 0 q.2.toNat write
        | (none, s) => s.handReadout e m) s

def execMrd (fmt : TileFmt) (scope : Scope) (sl fm : BitVec 10) (s : State) : Host.Outcome State Fault Refusal :=
  tileOp (.mrd fmt scope sl fm) fmt sl fm true s

def execMwr (fmt : TileFmt) (kind : Bool) (sl fm : BitVec 10) (s : State) : Host.Outcome State Fault Refusal :=
  tileOp (.mwr fmt kind sl fm) fmt sl fm false s

def execMzero (sl : BitVec 10) (s : State) : Host.Outcome State Fault Refusal :=
  let i : Instr := .mzero sl
  stream i (fun e s =>
    if hdrAccSlots e.w.hdr ≤ sl.toNat then s.streamRange e i else s.handReadout e (e.mxOp i s.nextId 0 0)) s

/-- Changes a readout operation of a context. -/
def State.modReadout (s : State) (isl core place id : Nat) (f : MxOp → MxOp) : State :=
  s.modIsl isl fun x => x.modCtx core place fun c => { c with readout := c.readout.map fun m => if m.id = id then f m else m }

/-- Whether a readout operation waits behind one of its context that has faulted: the writes of `MRD` keep their order (R256,
R330). -/
def Ctx.behindFault (c : Ctx) (m : MxOp) : Bool := c.faults.any fun f => f ≤ m.id && c.readout.any fun r => r.id = f

/-- The readout unit, when free, takes the operation that was handed to it first (R334). -/
def State.readoutStart (s : State) (isl core : Nat) : State :=
  let k := (s.isl isl).core core
  let ready : List (Nat × MxOp) := k.places.flatMap fun p => match p.2.ctx with
    | some c => (c.readout.filter fun m => m.turn ≠ 0 && !c.behindFault m).map fun m => (p.1, m)
    | none => []
  let first := ready.foldl (fun (a : Option (Nat × MxOp)) q => match a with
    | some r => if q.2.turn < r.2.turn then some q else a
    | none => some q) none
  match k.mx.readout, first with
  | none, some (p, m) =>
    let s := s.modIsl isl fun x => x.modCore core fun k => { k with mx := { k.mx with readout := some (p, m.id) } }
    match m.instr with
    | .mzero _ => s.after isl 64 .readoutHandoff [isl, core, p, m.id, 0]
    | .mwr _ _ _ _ =>
      let w := (tget? k.places p).getD {}
      let s := s.modIsl isl fun x => x.modCore core fun k =>
        k.setMeta (w.phys m.slot) fun _ => { kind := (m.tile.map (·.2.2)).getD false }
      s.after isl (s.mxLatency isl core p w .read [m.rowVa 0]) .readoutHandoff [isl, core, p, m.id, 0]
    | _ => s.after isl 0 .readoutHandoff [isl, core, p, m.id, 0]
  | _, _ => s

/-- The readout unit has finished with an operation. -/
def State.readoutEnd (s : State) (isl core place id : Nat) : State :=
  let s := s.modIsl isl fun x => (x.modCore core fun k => { k with mx := { k.mx with readout := none } }).modCtx core place fun c =>
    { c with readout := c.readout.filter fun m => m.id ≠ id }
  (((s.readoutStart isl core).checkFences isl).kickArray isl core).ctxKick isl core place

/-- A row of the operation in the readout unit: an `MRD` reads it from its slot, an `MWR`'s row arrives, an `MZERO` ends. -/
def State.readoutRow (s : State) (isl core place id : Nat) : State :=
  let x := s.isl isl
  match x.wg? core place with
  | none => s
  | some w =>
    match w.ctx.bind fun c => c.readout.find? fun m => m.id = id && !c.behindFault m with
    | none =>
      if (x.core core).mx.readout ≠ some (place, id) then s
      else (s.modIsl isl fun x => x.modCore core fun k => { k with mx := { k.mx with readout := none } }).readoutStart isl core
    | some m =>
      let p := w.phys m.slot
      match m.tile with
      | none => (s.modIsl isl fun x => x.modCore core fun k => k.zeroSlot p).readoutEnd isl core place id
      | some (f, true, _) =>
        let k := x.core core
        let row := (List.range 128).map fun j => tgetD k.acc (16384 * p + 128 * m.row + j) 0
        let bs := rowBytes f m.fa (k.slotMeta p) row
        let lat := s.mxLatency isl core place w .write [m.rowVa m.row]
        let s := s.modReadout isl core place id fun m => { m with rows := tput m.rows m.row bs, row := m.row + 1, begun := true }
        let s := s.after isl lat .readoutHandoff [isl, core, place, id, m.row, 1]
        if m.row + 1 < 128 then s.after isl 1 .readoutHandoff [isl, core, place, id, m.row + 1] else s
      | some (f, false, _) =>
        let r := s.mxRead isl core place w m.hy (m.rowVa m.row) (16 * tileBits f)
        let s := r.2.mxConsume isl core place w m r.1.poison
        match r.1.fault with
        | some q =>
          ((s.passedFault isl core place m q.1 q.2 false).modIsl isl fun x => x.modCore core fun k =>
            { k with mx := { k.mx with readout := none } }).readoutStart isl core
        | none =>
          if r.1.wait then s.after isl 1 .readoutHandoff [isl, core, place, id, m.row]
          else
            let vals := (List.range 128).map fun j => tileIn f m.fa (streamCode r.1.bytes (tileBits f) j)
            let s := s.modIsl isl fun x => x.modCore core fun k => k.setRow p m.row vals
            if m.row + 1 < 128 then
              (s.modReadout isl core place id fun m => { m with row := m.row + 1, begun := true, left := m.left - 1 }).after isl 1
                .readoutHandoff [isl, core, place, id, m.row + 1]
            else s.readoutEnd isl core place id

/-- A row of an `MRD` arrives at its place (R330). -/
def State.readoutWrite (s : State) (isl core place id row : Nat) : State :=
  match (s.isl isl).wg? core place with
  | none => s
  | some w =>
    match w.ctx.bind fun c => c.readout.find? fun m => m.id = id with
    | none => s
    | some m =>
      match tget? m.rows row with
      | none => s
      | some bs =>
        let va := m.rowVa row
        -- its places, or the first fault
        let r := (linePieces (va.toNat % 128) bs.length).foldl (fun (p : (List (VA × Loc × List Byte) × Option (Nat × VA)) × State) c =>
          let a := vaPlus va c.1
          match p.2.mxPlace isl core place w m.hy .write a with
          | (.error code, s) => ((p.1.1, p.1.2 <|> some (code, a)), s)
          | (.ok l, s) => ((p.1.1 ++ [(a, l, (bs.drop c.1).take c.2)], p.1.2), s)) (([], none), s)
        let stop (s : State) (f : Nat × VA) : State :=
          ((s.passedFault isl core place m f.1 f.2 true).modIsl isl fun x => x.modCore core fun k =>
            { k with mx := { k.mx with readout := none } }).readoutStart isl core
        if w.ctx.any fun c => c.behindFault m then s
        else match r.1.2 with
          | some f => stop r.2 f
          | none =>
            if r.1.1.any fun q => !(r.2.isl isl).locQuiet q.2.1 then r.2.after isl 1 .readoutHandoff [isl, core, place, id, row, 1]
            else
              let t := r.1.1.foldl (fun (p : Option VA × State) q =>
                match p.2.writeLoc isl core m.hy w.launch q.2.1 q.2.2 with
                | (true, s) => (p.1, if inWindow q.1 then s else s.addSig isl core place w.launch (sigBytes q.1 q.2.2))
                | (false, s) => (p.1 <|> some q.1, s)) (none, r.2)
              match t.1 with
              | some a => stop t.2 (8, a)
              | none =>
                let s := t.2.modReadout isl core place id fun m => { m with rows := tdel m.rows row, left := m.left - 1 }
                if m.left ≤ 1 then s.after isl 0 .mrdComplete [isl, core, place, id] else s

/-- A held readout is handed on once the operations before it into its slot are complete (R320), or a row of the operation
in the unit. -/
def execReadoutHandoff (s : State) : Host.Outcome State Fault Refusal :=
  event s fun as s =>
    match as with
    | [isl, core, place, id, _] => s.readoutRow isl core place id
    | [isl, core, place, id, row, _] => s.readoutWrite isl core place id row
    | _ =>
      let isl := ar as 0
      let core := ar as 1
      let place := ar as 2
      match ((s.isl isl).wg? core place).bind (·.ctx) with
      | none => s
      | some c =>
        match c.readout.find? fun m => m.turn = 0 with
        | none => s
        | some m =>
          if (c.handed ++ c.current.toList ++ c.draining).any fun a => a.slot = m.slot && a.id < m.id then s
          else
            let cyc := s.cyc isl
            let t := s.nextId
            let s := ({ s with nextId := t + 1 }.modReadout isl core place m.id fun m => { m with turn := t }).modIsl isl fun x =>
              x.modCtx core place fun c => { c with nextDispatch := max c.nextDispatch (cyc + 1) }
            s.readoutStart isl core

/-- Every write of an `MRD` is performed at its scope (R330). -/
def execMrdComplete (s : State) : Host.Outcome State Fault Refusal :=
  event s fun as s => s.readoutEnd (ar as 0) (ar as 1) (ar as 2) (ar as 3)

/-! ## MBAR (R331, R332) -/

/-- Whether an `MBAR` begins with a release. -/
def mbarReleases (i : Instr) : Bool :=
  match i with
  | .mbarArv .. | .mbarArw .. | .mbarCmt .. | .mbarFree .. => true
  | _ => false

/-- Dispatches an `MBAR`: it holds dispatch, blocked where it waits, and SP names it until its result (R317, R331, DEDUCED);
its release comes first. -/
def mbarOp (i : Instr) (block : Bool) (f : SEnv → Op → Op) (s : State) : Host.Outcome State Fault Refusal :=
  stream i (fun e s =>
    let o : Op := f e { agent := .seq e.core e.place, instr := i, cp := e.c.sp, issued := e.cyc, hy := e.c.hy, asid := e.w.asid,
                        priv := e.w.priv, launch := e.w.launch, place := e.place, released := false }
    let id := s.nextId
    let s := (s.newOp e.isl o).2.onCtx e fun c =>
      { c with nextDispatch := e.cyc + 1, waitOp := some id, st := if block then .blocked else c.st, arw := none }
    if mbarReleases i && !o.performed then s.ctxKick e.isl e.core e.place else s.startOp e.isl id) s

def execMbarArv (k : BitVec 10) (n : BitVec 20) (s : State) : Host.Outcome State Fault Refusal :=
  mbarOp (.mbarArv k n) false (fun _ o => { o with a := n.setWidth 64 }) s

def execMbarWait (k y : BitVec 10) (s : State) : Host.Outcome State Fault Refusal :=
  mbarOp (.mbarWait k y) true (fun e o => { o with b := e.c.mset y.toNat }) s

/-- `MBAR.arw`: one that was cancelled after its arrival waits for its phase only (R337). -/
def execMbarArw (k : BitVec 10) (n : BitVec 20) (s : State) : Host.Outcome State Fault Refusal :=
  mbarOp (.mbarArw k n) true (fun e o => match e.c.arw with
    | some p => { o with performed := true, b := BitVec.ofNat 64 (b2n p) }
    | none => { o with a := n.setWidth 64 }) s

def execMbarRsv (k y : BitVec 10) (s : State) : Host.Outcome State Fault Refusal := mbarOp (.mbarRsv k y) true (fun _ o => o) s

def execMbarCmt (k y : BitVec 10) (s : State) : Host.Outcome State Fault Refusal :=
  mbarOp (.mbarCmt k y) false (fun e o => { o with a := e.c.mset y.toNat }) s

def execMbarTake (k y : BitVec 10) (s : State) : Host.Outcome State Fault Refusal := mbarOp (.mbarTake k y) true (fun _ o => o) s

def execMbarFree (k y : BitVec 10) (s : State) : Host.Outcome State Fault Refusal :=
  mbarOp (.mbarFree k y) false (fun e o => { o with a := e.c.mset y.toNat }) s

/-! ## Control of the stream (R333, R337) -/

/-- `MCKPT` (R337): under pre-emption the context parks after it. -/
def execMckpt (i : BitVec 20) (s : State) : Host.Outcome State Fault Refusal :=
  stream (.mckpt i) (fun e s =>
    let s := s.onCtx e fun c => c.moveOn e.cyc
    if (s.isl e.isl).preempting e.w then
      (s.onCtx e fun c => { c with st := .parked, ckpt := some i.toNat }).checkParked e.isl e.w.cl
    else s) s

/-- The stream pointer of a branch; none where no code pointer holds the offset. -/
def streamTarget (sp : Word) (off : BitVec 20) : Option Word :=
  let t := braOffset sp off
  if 0 ≤ t ∧ t ≤ 8191 then some (cpWith sp t.toNat) else none

def execMjmp (x : BitVec 10) (off : BitVec 20) (s : State) : Host.Outcome State Fault Refusal :=
  let i : Instr := .mjmp x off
  stream i (fun e s =>
    match streamTarget e.c.sp off with
    | none => s.dispatchFault e 1 (wordHighOf i) 0 false
    | some t => s.onCtx e fun c =>
        if c.mset x.toNat = 0 then c.moveOn e.cyc
        else { c.moveOn e.cyc with ms := tput c.ms x.toNat (c.mset x.toNat - 1), sp := t }) s

def execMjmpAl (off : BitVec 20) (s : State) : Host.Outcome State Fault Refusal :=
  let i : Instr := .mjmpAl off
  stream i (fun e s =>
    match streamTarget e.c.sp off with
    | none => s.dispatchFault e 1 (wordHighOf i) 0 false
    | some t => s.onCtx e fun c => { c.moveOn e.cyc with sp := t }) s

def execMend (s : State) : Host.Outcome State Fault Refusal :=
  stream .mend (fun e s => (s.onCtx e fun c => { c with st := .idle, sp := 0 }).ctxKick e.isl e.core e.place) s

/-! ## Context faults (R336, R379) -/

/-- The record of a context fault is posted: all lanes, `mrow`, the code pointer and the address. -/
def execContextFault (s : State) : Host.Outcome State Fault Refusal :=
  event s fun as s =>
    let isl := ar as 0
    let core := ar as 1
    let place := ar as 2
    match (s.isl isl).wg? core place with
    | none => s
    | some w =>
      match w.ctx with
      | none => s
      | some c =>
        let s := s.modIsl isl fun x => x.modCtx core place fun c => { c with st := .faulted, records := c.records + 1 }
        let code := ar as 3
        s.postAgent isl
          { code := code, info := BitVec.ofNat 64 (if code = 3 then ar as 4 % 2 ^ 32 else ar as 4), mrow := min c.mrow.toNat 255,
            addr := BitVec.ofNat 72 (ar as 5), lanes := BitVec.allOnes 64, cp := BitVec.ofNat 32 (ar as 6), launch := w.launch,
            asid := w.asid, agent := agentWord 1 core place, write := ar as 7 = 1, source := 1 }
          (if ar as 8 = 1 then some (ar as 9) else none) 0

/-- `RESUME` of a context (R379), whose record has been taken: the instruction is dispatched again or passed; an operation that
dispatch has passed (`op`) goes on or is abandoned. Dispatch goes on once no record is left. -/
def State.resumeCtx (s : State) (isl core place : Nat) (op : Option Nat) (skip : Bool) : State :=
  match ((s.isl isl).wg? core place).bind (·.ctx) with
  | none => s
  | some c =>
    if c.st ≠ .faulted then s
    else
      let back : CtxSt := if c.sp = 0 then .idle else
        if (c.waitOp.bind fun id => s.op? isl id).any fun o => o.agent = .seq core place && (match o.instr with
          | .mbarWait .. | .mbarArw .. | .mbarRsv .. | .mbarTake .. => true
          | _ => false) then .blocked else .running
      let cyc := s.cyc isl
      let s := s.modIsl isl fun x => x.modCtx core place fun c =>
        let c := if c.records = 0 then { c with st := back, nextDispatch := max c.nextDispatch (cyc + 1) } else c
        match op with
        | none => { c with sp := if skip then c.sp + 1 else c.sp }
        | some id =>
          let c := { c with faults := c.faults.filter fun f => f ≠ id }
          if skip then
            { c with current := c.current.filter fun m => m.id ≠ id, readout := c.readout.filter fun m => m.id ≠ id,
                     mrow := if c.current.any fun m => m.id = id then 0 else c.mrow }
          else { c with readout := c.readout.map fun m => if m.id = id then { m with row := 0, left := 128, rows := [] } else m }
      (((s.readoutStart isl core).kickArray isl core).checkFences isl).ctxKick isl core place

/-! ## Group-issued instructions (R338-R340) -/

/-- A request to the context of the workgroup: it acts once for the group. -/
def mctlOp (i : Instr) (c : Ctl) (regs : List (Opnd × Bool)) (t : Env → Word) (s : State) : Host.Outcome State Fault Refusal :=
  issue i c regs noPre (fun e s =>
    if !e.any then s.flagNow e c else s.launchOp e { e.op i c with a := (t e).setWidth 64, b := e.g.hy.setWidth 64 }) s

def execMstart (c : Ctl) (x : Opnd) (cp : Word) (s : State) : Host.Outcome State Fault Refusal :=
  mctlOp (.mstart c x cp) c [(x, false)] (fun _ => cp) s

def execMstartV (c : Ctl) (x y : Opnd) (s : State) : Host.Outcome State Fault Refusal :=
  mctlOp (.mstartV c x y) c [(x, false), (y, false)] (fun e => e.rd32 y e.lane0) s

def execMstop (c : Ctl) (x : Opnd) (s : State) : Host.Outcome State Fault Refusal :=
  mctlOp (.mstop c x) c [(x, false)] (fun _ => 0) s

def execMqry (c : Ctl) (x : Opnd) (s : State) : Host.Outcome State Fault Refusal :=
  mctlOp (.mqry c x) c [(x, true)] (fun _ => 0) s

def execMqryClr (c : Ctl) (x : Opnd) (s : State) : Host.Outcome State Fault Refusal :=
  mctlOp (.mqryClr c x) c [(x, true)] (fun _ => 0) s

/-- What the check of `MSTART` comes to (R338). -/
inductive StartCheck where
  | wait | status (n : Nat)
  deriving DecidableEq, Repr, Inhabited

def startCheck (k : CoreS) (asid : BitVec 16) (ctx : Option Ctx) (t : Word) : StartCheck :=
  match ctx with
  | none => .status 1
  | some c =>
    if c.st ≠ .idle then .status 2
    else if cpHandle t = 0 then .status 3
    else match findEntry k (cpHandle t) (tenantKey (cpHandle t) asid) with
      | none => .status 3
      | some (_, r) => if r.loading then .wait else if !r.mst then .status 4 else if r.count ≤ cpOff t then .status 5 else .status 0

/-- STATE's code (R317). -/
def ctxCode : CtxSt → Nat
  | .idle => 0
  | .running => 1
  | .blocked => 2
  | .parked => 3
  | .faulted => 4

/-- The pair of `MQRY` (R340). -/
def mqryWord (k : CoreS) (w : Wg) (c : Ctx) : DWord :=
  let sats := (List.range w.accMap.length).foldl (fun n i => n + b2n (k.slotMeta (w.phys i)).sat * 2 ^ (56 + i)) 0
  let mrow := if c.current.isSome || !c.draining.isEmpty then min c.mrow.toNat 255 else 0
  BitVec.ofNat 64 (sats + mrow * 2 ^ 48 + ctxCode c.st * 2 ^ 32 + c.sp.toNat)

/-- A request reaches the context (R338-R340): an `MSTART` whose overlay is loading waits. -/
def execMstartCheck (s : State) : Host.Outcome State Fault Refusal :=
  event s fun as s =>
    let isl := ar as 0
    let core := ar as 1
    let place := ar as 2
    let id := ar as 3
    match s.op? isl id with
    | none => s
    | some o =>
      let x := s.isl isl
      let k := x.core core
      let w := (x.wg? core place).getD {}
      match o.instr with
      | .mstart .. | .mstartV .. =>
        let t : Word := o.a.setWidth 32
        match startCheck k o.asid w.ctx t with
        | .wait => s.after isl 1 .mstartCheck as
        | .status n =>
          let s := if n ≠ 0 then s else s.modIsl isl fun x => x.modCtx core place fun c =>
            { c with sp := t, st := .running, ms := [], mrow := 0, sca := {}, scb := {}, hy := o.hy, arw := none, ckpt := none,
                     quiesced := (s.isl isl).holdsHy o.hy, nextDispatch := s.cyc isl + 1 }
          (s.modOp isl id fun o => { o with res := BitVec.ofNat 64 n }).endOp isl id
      | .mstop .. =>
        match w.ctx with
        | none => (s.modOp isl id fun o => { o with res := 1 }).endOp isl id
        | some c =>
          if c.st = .idle then (s.modOp isl id fun o => { o with res := 1 }).endOp isl id
          else (s.modIsl isl fun x => x.modCtx core place fun c => { c with stopping := c.stopping ++ [id] }).stopCtx isl core place
      | _ =>
        let v := match w.ctx with
          | some c => mqryWord k w c
          | none => 0
        let s := match o.instr with
          | .mqryClr .. => s.modIsl isl fun x => x.modCore core fun k =>
              w.accMap.foldl (fun k p => k.setMeta p fun t => { t with sat := false }) k
          | _ => s
        (s.modOp isl id fun o => { o with res := v }).endOp isl id

/-- A word at a stream pointer that no context may dispatch: none there, or no stream instruction (R37, R38, R319). -/
def State.dispatchBad (s : State) (isl core place hi : Nat) : State :=
  match s.senv? isl core place with
  | some e => s.dispatchFault e 1 hi 0 false
  | none => s

end Sys2Proof.Machine
end

