-- ==== Sys2Proof/Machine/Overlay.lean ====
section
/-! DEFINITION. The overlay instructions and the loads of the instruction store (R46-R48, R124-R148). -/

namespace Sys2Proof.Machine

/-! ## Directory entries (R47, R48) -/

def ovAddr (d : Nat) : VA := BitVec.ofNat 72 (bitsN d 0 72)
def ovCount (d : Nat) : Nat := bitsN d 96 14
def ovMst (d : Nat) : Bool := bitsN d 89 1 = 1

/-- Whether a directory entry is readable under R48. -/
def ovReadable (h : BitVec 19) (d : Nat) : Bool :=
  ovCount d ≠ 0 && (ovAddr d).toNat % 256 = 0 && decide ((bitsN d 88 1 = 1) = (0x70000 ≤ h.toNat)) && bitsN d 72 16 = 0 &&
    bitsN d 90 6 = 0 && bitsN d 110 18 = 0

/-- The context through whose tables a handle's directory and image are read (R47). -/
def ovContext (x : Island) (asid : BitVec 16) (h : BitVec 19) : BitVec 16 :=
  if 0x70000 ≤ h.toNat then BitVec.ofNat 16 (fld x.sys.ovgdir 91 16) else asid

/-- The address of a handle's directory entry; none beyond its directory, or without a valid context (R47, R48). -/
def State.dirVa (s : State) (isl : Nat) (asid : BitVec 16) (h : BitVec 19) : Option VA × State :=
  let p := s.ctxEntry isl (ovContext (s.isl isl) asid h)
  let x := s.isl isl
  let glob := 0x70000 ≤ h.toNat
  let base : VA := if glob then BitVec.ofNat 72 (fld x.sys.ovgdir 0 72) else cxOvdir p.1
  let count := if glob then fld x.sys.ovgdir 72 19 else cxOvcount p.1
  (if h.toNat = 0 || count ≤ h.toNat || (glob && !s.ctxOk isl (ovContext x asid h)) then none else some (vaPlus base (16 * h.toNat)), p.2)

/-- Poison that a load of an overlay has read (R227). -/
def State.eatPoison (s : State) (isl : Nat) (e : Eater) (p : List VA) : State :=
  match p with
  | va :: _ => s.consumed isl { e with va := va }
  | [] => s

/-- The consumer of an overlay instruction's reads. -/
def Op.eater (o : Op) : Eater := { core := o.core, slot := o.slot, launch := o.launch, cp := o.cp, lanes := o.lanes }

/-- Reads a handle's directory entry, privileged; none where it is unreadable (R47, R48). -/
def State.readDir (s : State) (isl core : Nat) (e : Eater) (asid : BitVec 16) (h : BitVec 19) : Option Nat × State :=
  match s.dirVa isl asid h with
  | (none, s) => (none, s)
  | (some va, s) =>
    if inWindow va then (none, s)
    else
      let p := s.readVa isl core noPlace (ovContext (s.isl isl) asid h) true .read 0 va 16
      let s := p.2.eatPoison isl e p.1.poison
      let d := leNat p.1.bytes
      (if p.1.fault.isNone && ovReadable h d then some d else none, s)

/-- Cycles for a read of one line at the home, or at its target (R244). -/
def State.readCycles (s : State) (isl core : Nat) (asid : BitVec 16) (va : VA) : Nat :=
  match (s.walk isl asid va).1 with
  | .leaf pte level _ => match leafLoc pte level va with
    | some (.line ln _) => if ((s.isl isl).hline ln).inSlice then 2 * hop core (sliceOf ln) else Config.latHbm
    | some l => targetLatency core l
    | none => Config.unitNear
  | .bad => Config.unitNear

/-! ## Slots (R128-R130) -/

/-- The slots a context may load a handle into. -/
def State.slotMask (s : State) (isl : Nat) (asid : BitVec 16) (priv : Bool) (h : BitVec 19) : BitVec 32 × State :=
  let share := (s.isl isl).sys.slotshare
  if 0x70000 ≤ h.toNat then (if priv then share else 0, s)
  else
    let p := s.ctxEntry isl asid
    (BitVec.ofNat 32 (cxSlotmask p.1) &&& ~~~share, p.2)

/-- Whether a slot belongs to a valid entry other than one. -/
def slotTaken (k : CoreS) (but : Option Nat) (slot : Nat) : Bool :=
  k.rtab.any fun p => some p.1 ≠ but && p.2.first ≤ slot && slot < p.2.first + p.2.length

/-- Slots an overlay of a count of instructions takes (R124). -/
def slotsFor (count : Nat) : Nat := (count + 1023) / 1024

/-! ## The end of a load (R132, R139) -/

/-- The lanes of a group parked on an entry, as (code pointer, target, depth, lanes) for each distinct triple. -/
def parkedOn (g : Group) (entry : Nat) : List (Word × Word × BitVec 8 × LaneMask) :=
  g.threads.foldl (fun acc p => match p.2.stat with
    | .ovl t d i =>
      if i ≠ entry then acc
      else if acc.any fun q => q.1 == p.2.cp && q.2.1 == t && q.2.2.1 == d then
        acc.map fun q => if q.1 == p.2.cp && q.2.1 == t && q.2.2.1 == d then (q.1, q.2.1, q.2.2.1, q.2.2.2 ||| maskOf [p.1]) else q
      else acc ++ [(p.2.cp, t, d, maskOf [p.1])]
    | .ready | .asleep _ | .blocked _ | .ckpt _ | .restore => acc) []

/-- The lanes parked on an entry go on: into the overlay, or into OVL_MISS (R132). `status` is the load's. -/
def State.wakeParked (s : State) (isl core entry status : Nat) (mst : Bool) : State :=
  let cyc := s.cyc isl
  ((s.isl isl).core core).groups.foldl (fun (s : State) (gp : Nat × Group) =>
    (parkedOn gp.2 entry).foldl (fun (s : State) (q : Word × Word × BitVec 8 × LaneMask) =>
      let s := s.modIsl isl fun x => x.modGroup core gp.1 fun g => modThreads g q.2.2.2 fun _ t => { t with stat := .ready }
      if status = 0 && !mst then
        s.modIsl isl fun x => x.modGroup core gp.1 fun g =>
          modThreads g q.2.2.2 fun _ t => { t with cp := q.2.1, depth := q.2.2.1 }
      else
        s.trap isl core gp.1 q.2.2.2 5 (if status = 0 then ovlInfo 0 3 q.2.1 else ovlInfo status 2 q.2.1) q.1 q.1
          (settle gp.2 cyc).tvec) s) s

/-- A load ends with a status: the entry becomes resident or is removed, the lanes that wait for it go on, its status and
those of the loads that found it loading are written (R132, R138, R139). -/
def State.endLoad (s : State) (isl id status : Nat) (words : List IWord) : State :=
  match s.op? isl id with
  | none => s
  | some o =>
    let core := o.core
    let entry := fld o.b 0 32
    let k := (s.isl isl).core core
    match tget? k.rtab entry with
    | none => s
    | some e =>
      let s := s.modIsl isl fun x => x.modCore core fun k =>
        if status = 0 then
          { k with rtab := tput k.rtab entry { e with loading := false },
                   istore := (List.range words.length).foldl (fun m i => tput m (1024 * e.first + i) (words.getD i 0)) k.istore }
        else { k with rtab := tdel k.rtab entry }
      let s := s.wakeParked isl core entry status e.mst
      let s := (s.modOp isl id fun o => { o with res := BitVec.ofNat 64 status }).endOp isl id
      (s.isl isl).ops.foldl (fun (s : State) (p : Nat × Op) =>
        match p.2.instr with
        | .ovlLd .. => if p.2.after.contains id then (s.modOp isl p.1 fun o => { o with res := 1 }).endOp isl p.1 else s
        | _ => s) s

/-! ## OVL.LD (R138-R140) -/

/-- Step 1 of a load, at issue: a status at once, a wait for the load of the same handle, or a new entry. -/
inductive Step1 where
  | status (st : Nat)
  | behind (entry : Nat)
  | create (h : BitVec 19) (first : Nat) (mask : BitVec 32)
  deriving DecidableEq, Repr, Inhabited

def loadStep1 (k : CoreS) (asid : BitVec 16) (handle first : Word) (mask : BitVec 32) : Step1 :=
  let h : BitVec 19 := handle.setWidth 19
  if handle = 0 ∨ 0x7FFFF < handle.toNat then .status 4
  else match findEntry k h (tenantKey h asid) with
    | some (i, e) => if e.loading then .behind i else .status 1
    | none =>
      if 31 < first.toNat ∨ !mask.getLsbD first.toNat then .status 3
      else if slotTaken k none first.toNat then .status 2
      else .create h first.toNat mask

/-- The load in progress on an entry. -/
def Island.loadOf (x : Island) (core entry : Nat) : Option Nat :=
  (x.ops.find? fun p => p.2.core = core && fld p.2.b 0 32 = entry && p.2.after.isEmpty && match p.2.instr with
    | .ovlLd .. => true
    | _ => false).map (·.1)

def execOvlLd (c : Ctl) (x y : Opnd) (z : ZOp) (s : State) : Host.Outcome State Fault Refusal :=
  let i : Instr := .ovlLd c x y z
  issue i c [(x, false), (y, false), zreg z false] noPre (fun e s =>
    if !e.any then s.flagNow e c
    else
      let handle := e.rdZ32 z e.lane0
      let first := zeroImm e y
      let pm := s.slotMask e.isl e.wg.asid e.wg.priv (handle.setWidth 19)
      let s := pm.2
      match loadStep1 ((s.isl e.isl).core e.core) e.wg.asid handle first pm.1 with
      | .status st => s.onGroup e fun g => e.done c 4 (e.result 4 x false false e.guard (fun _ => (BitVec.ofNat 64 st, 0)) g)
      | .behind i' =>
        let o : Op := { e.op i c with a := handle.setWidth 64, b := BitVec.ofNat 64 i', after := ((s.isl e.isl).loadOf e.core i').toList }
        (s.newOp e.isl o).2
      | .create h first mask =>
        match tfree ((s.isl e.isl).core e.core).rtab 32 with
        | none => s
        | some j =>
          let s := s.modIsl e.isl fun x => x.modCore e.core fun k =>
            { k with rtab := tput k.rtab j { loading := true, handle := h, tenant := tenantKey h e.wg.asid, first := first } }
          let p := s.newOp e.isl { e.op i c with a := handle.setWidth 64, b := BitVec.ofNat 64 (j + mask.toNat * 2 ^ 32) }
          let d := p.2.dirVa e.isl e.wg.asid h
          let lat := match d.1 with
            | some va => d.2.readCycles e.isl e.core (ovContext (d.2.isl e.isl) e.wg.asid h) va
            | none => 4
          d.2.after e.isl lat .overlayDirectoryArrival [e.isl, e.core, p.1]) s

/-- `OVL.ADDR` (R145). -/
def execOvlAddr (c : Ctl) (x y : Opnd) (s : State) : Host.Outcome State Fault Refusal :=
  let i : Instr := .ovlAddr c x y
  issue i c [(x, true), (y, false)] noPre (fun e s =>
    if !e.any then s.flagNow e c
    else
      let t := e.rd32 y e.lane0
      let p := s.newOp e.isl { e.op i c with a := t.setWidth 64 }
      let d := p.2.dirVa e.isl e.wg.asid (cpHandle t)
      let lat := match d.1 with
        | some va => d.2.readCycles e.isl e.core (ovContext (d.2.isl e.isl) e.wg.asid (cpHandle t)) va
        | none => 4
      d.2.after e.isl lat .overlayDirectoryArrival [e.isl, e.core, p.1]) s

/-- Step 2 of a load (R138): the length and the further slots. -/
def State.loadStep2 (s : State) (isl id : Nat) (o : Op) (d : Nat) : State :=
  let entry := fld o.b 0 32
  let mask := fld o.b 32 32
  let k := (s.isl isl).core o.core
  match tget? k.rtab entry with
  | none => s
  | some e =>
    let n := slotsFor (ovCount d)
    let more := (List.range (n - 1)).map fun j => e.first + 1 + j
    if 8192 < ovCount d then s.endLoad isl id 5 []
    else if 32 < e.first + n ∨ more.any (fun j => bitsN mask j 1 = 0) then s.endLoad isl id 3 []
    else if more.any (slotTaken k (some entry)) then s.endLoad isl id 2 []
    else
      let s := s.modIsl isl fun x => x.modCore o.core fun k =>
        { k with rtab := tput k.rtab entry { e with length := n, count := ovCount d, mst := ovMst d } }
      let s := s.modOp isl id fun o => { o with performed := true, bulk := { o.bulk with desc := BitVec.ofNat 256 d } }
      let lat := s.readCycles isl o.core (ovContext (s.isl isl) o.asid (o.a.setWidth 19)) (ovAddr d)
      s.after isl (lat + (12 * ovCount d + 127) / 128) .overlayLoadComplete [isl, o.core, id]

/-- A directory entry arrives: for a load, in the issue order of the loads (R138), or for `OVL.ADDR` (R145). -/
def execOverlayDirectoryArrival (s : State) : Host.Outcome State Fault Refusal :=
  event s fun as s =>
    let isl := ar as 0
    let id := ar as 2
    match s.op? isl id with
    | none => s
    | some o =>
      match o.instr with
      | .ovlLd .. =>
        let earlier := (s.isl isl).ops.any fun p => p.1 < id && p.2.core = o.core && !p.2.performed && p.2.after.isEmpty &&
          match p.2.instr with
          | .ovlLd .. => true
          | _ => false
        if o.performed then s
        else if earlier then s.afterOnce isl 1 .overlayDirectoryArrival as
        else
          match s.readDir isl o.core o.eater o.asid (o.a.setWidth 19) with
          | (none, s) => s.endLoad isl id 4 []
          | (some d, s) => s.loadStep2 isl id o d
      | _ =>
        let t : Word := o.a.setWidth 32
        let p := s.readDir isl o.core o.eater o.asid (cpHandle t)
        let v : DWord := match p.1 with
          | some d => if cpOff t < ovCount d then (ovAddr d).setWidth 64 + BitVec.ofNat 64 (12 * cpOff t) else 0
          | none => 0
        (p.2.modOp isl id fun o => { o with res := v }).endOp isl id

/-- The instruction words of an image (R21, R46). -/
def imageWords (bs : List Byte) : Nat → List IWord
  | 0 => []
  | n + 1 => BitVec.ofNat 96 (leNat (bs.take 12)) :: imageWords (bs.drop 12) n

/-- The last instruction of a load is written, or its image faults (R138, R139). -/
def execOverlayLoadComplete (s : State) : Host.Outcome State Fault Refusal :=
  event s fun as s =>
    let isl := ar as 0
    let id := ar as 2
    match s.op? isl id with
    | none => s
    | some o =>
      let d := o.bulk.desc.toNat
      let va := ovAddr d
      if inWindow va then s.endLoad isl id 4 []
      else
        let p := s.readVa isl o.core noPlace (ovContext (s.isl isl) o.asid (o.a.setWidth 19)) true .image 0 va (12 * ovCount d)
        let s := p.2.eatPoison isl o.eater p.1.poison
        if p.1.fault.isSome then s.endLoad isl id 4 [] else s.endLoad isl id 0 (imageWords p.1.bytes (ovCount d))

/-! ## The fixed-latency forms (R141-R144) -/

/-- The fixed-latency overlay instructions: performed at issue, the result written 4 cycles later, the latch unchanged
(R137). `f` gives the result and the core afterwards. -/
def overlayOp (i : Instr) (c : Ctl) (x : Opnd) (regs : List (Opnd × Bool)) (f : Env → CoreS → Word × CoreS) (s : State) :
    Host.Outcome State Fault Refusal :=
  issue i c ((x, false) :: regs) noPre (fun e s =>
    if !e.any then s.flagNow e c
    else
      let r := f e ((s.isl e.isl).core e.core)
      (s.modIsl e.isl fun x => x.modCore e.core fun _ => r.2).onGroup e fun g =>
        e.done c 4 (e.result 4 x false false e.guard (fun _ => (r.1.setWidth 64, 0)) g)) s

/-- The entry a handle names under the issuing tenant key. -/
def entryOf (e : Env) (k : CoreS) (handle : Word) : Option (Nat × REntry) :=
  if handle = 0 ∨ 0x7FFFF < handle.toNat then none
  else findEntry k (handle.setWidth 19) (tenantKey (handle.setWidth 19) e.wg.asid)

/-- An entry's pin count (R127). -/
def REntry.pinned (r : REntry) : Nat := (r.pins.map (·.2)).sum

def execOvlPin (c : Ctl) (x : Opnd) (z : ZOp) (s : State) : Host.Outcome State Fault Refusal :=
  overlayOp (.ovlPin c x z) c x [zreg z false] (fun e k =>
    let h := e.rdZ32 z e.lane0
    match entryOf e k h with
    | some (i, r) =>
      let n := tgetD r.pins e.g.place 0
      if 255 ≤ n then (0, k)
      else (h <<< 13, { k with rtab := tput k.rtab i { r with pins := tput r.pins e.g.place (n + 1) } })
    | none => (0, k)) s

/-- `OVL.UNPIN` (R142): it lowers any nonzero count of the workgroup, the start pin's among them (log 62). -/
def execOvlUnpin (c : Ctl) (x y : Opnd) (s : State) : Host.Outcome State Fault Refusal :=
  overlayOp (.ovlUnpin c x y) c x [(y, false)] (fun e k =>
    let t := e.rd32 y e.lane0
    match entryOf e k ((cpHandle t).setWidth 32) with
    | some (i, r) =>
      let n := tgetD r.pins e.g.place 0
      if cpOff t = 0 ∧ n ≠ 0 then (0, { k with rtab := tput k.rtab i { r with pins := tput r.pins e.g.place (n - 1) } })
      else (1, k)
    | none => (1, k)) s

def execOvlEvict (c : Ctl) (x : Opnd) (z : ZOp) (s : State) : Host.Outcome State Fault Refusal :=
  overlayOp (.ovlEvict c x z) c x [zreg z false] (fun e k =>
    let h := e.rdZ32 z e.lane0
    if 0x70000 ≤ h.toNat ∧ h.toNat ≤ 0x7FFFF ∧ !e.wg.priv then (3, k)
    else match entryOf e k h with
      | none => (1, k)
      | some (i, r) =>
        if r.loading ∨ r.pinned ≠ 0 ∨ occupancy k r ≠ 0 then (2, k) else (0, { k with rtab := tdel k.rtab i })) s

/-- The state word of an entry (R144). -/
def qryWord (k : CoreS) (place : Nat) (r : REntry) : Word :=
  BitVec.ofNat 32 (b2n (!r.loading) * 2 ^ 31 + b2n r.loading * 2 ^ 30 + b2n r.mst * 2 ^ 29 + r.first % 32 * 2 ^ 24 +
    (r.length - 1) % 8 * 2 ^ 21 + b2n (tgetD r.pins place 0 ≠ 0) * 2 ^ 20 + occupancy k r % 4096 * 2 ^ 8 + min r.pinned 255)

def execOvlQry (c : Ctl) (x : Opnd) (z : ZOp) (s : State) : Host.Outcome State Fault Refusal :=
  overlayOp (.ovlQry c x z) c x [zreg z false] (fun e k =>
    match entryOf e k (e.rdZ32 z e.lane0) with
    | some (_, r) => (qryWord k e.g.place r, k)
    | none => (0, k)) s

/-! ## Residency made by the core (R135, R148) -/

/-- What making an overlay resident comes to. -/
inductive Made where
  | done | wait
  /-- The status that a load would return, or 3 where none could ever be made. -/
  | never (status : Nat)
  deriving DecidableEq, Repr, Inhabited

/-- The lowest run of `n` permitted slots that `free` accepts. -/
def slotRun (mask : BitVec 32) (n : Nat) (free : Nat → Bool) : Option Nat :=
  (List.range (33 - n)).find? fun f => (List.range n).all fun j => mask.getLsbD (f + j) && free (f + j)

/-- Makes a handle resident under a context's tenant key, in one step, for a launch (R135). `stream` refuses a matrix
stream. -/
def State.makeResident (s : State) (isl core launch : Nat) (asid : BitVec 16) (priv : Bool) (h : BitVec 19) (stream : Bool) :
    Made × State :=
  let e : Eater := { core := core, launch := launch }
  let k := (s.isl isl).core core
  match findEntry k h (tenantKey h asid) with
  | some (_, e) => if e.loading then (.wait, s) else if e.mst && stream then (.never 3, s) else (.done, s)
  | none =>
    match s.readDir isl core e asid h with
    | (none, s) => (.never 4, s)
    | (some d, s) =>
      let pm := s.slotMask isl asid priv h
      let s := pm.2
      let n := slotsFor (ovCount d)
      if 8192 < ovCount d then (.never 5, s)
      else if ovMst d && stream then (.never 3, s)
      else if (slotRun pm.1 n fun _ => true).isNone then (.never 3, s)
      else
        let p := s.readVa isl core noPlace (ovContext (s.isl isl) asid h) true .image 0 (ovAddr d) (12 * ovCount d)
        let s := p.2.eatPoison isl e p.1.poison
        if p.1.fault.isSome || inWindow (ovAddr d) then (.never 4, s)
        else
          match slotRun pm.1 n (fun j => !slotTaken k none j), tfree k.rtab 32 with
          | some f, some i =>
            let ws := imageWords p.1.bytes (ovCount d)
            (.done, s.modIsl isl fun x => x.modCore core fun k =>
              { k with rtab := tput k.rtab i { handle := h, tenant := tenantKey h asid, first := f, length := n, count := ovCount d, mst := ovMst d },
                       istore := (List.range ws.length).foldl (fun m j => tput m (1024 * f + j) (ws.getD j 0)) k.istore })
          | _, _ => (.wait, s)

/-- Pins a handle once for a workgroup place. -/
def CoreS.pin (k : CoreS) (place : Nat) (asid : BitVec 16) (h : BitVec 19) (n : Nat) : CoreS :=
  match findEntry k h (tenantKey h asid) with
  | some (i, r) => { k with rtab := tput k.rtab i { r with pins := tput r.pins place (tgetD r.pins place 0 + n) } }
  | none => k

/-- Takes a place's pins out of every entry (R127). -/
def CoreS.unpinPlace (k : CoreS) (place : Nat) : CoreS :=
  { k with rtab := tmap k.rtab fun _ r => { r with pins := tdel r.pins place } }

end Sys2Proof.Machine
end

