-- ==== Sys2Proof/Machine/Topology.lean ====
section
/-! DEFINITION. Requests to the fabric manager (R366, R423), the sequence of a port's change (R367), and what the removal
of an island does to the fabric (R314, R359, R364). -/

namespace Sys2Proof.Machine

/-! ## Requests (R366) -/

def tqIsland (d : BitVec 128) : Nat := fld d 36 4
def tqPort (d : BitVec 128) : Nat := fld d 40 4
def tqAction (d : BitVec 128) : Nat := fld d 44 4
def tqTag (d : BitVec 128) : Nat := fld d 48 16

/-- Whether a request is a valid one. -/
def tqValid (d : BitVec 128) : Bool :=
  fld d 0 36 = 0 && tqAction d < 3 && 1 ≤ tqPort d && tqPort d ≤ 14 && (tqAction d ≠ 0 || 7 ≤ tqPort d)

/-- `TOPQ` (R366). -/
def execTopq (c : Ctl) (x y : Opnd) (s : State) : Host.Outcome State Fault Refusal :=
  let i : Instr := .topq c x y
  issue i c [(x, false), descReg y 4] (hypRemote 0xCF) (fun e s =>
    if !e.any then s.flagNow e c
    else s.launchOp e { e.op i c with bulk := { desc := (e.desc4 y).setWidth 256 } }) s

/-- A time of a fabric manager or of a port's optics, which no rule gives: a choice, in nanoseconds. -/
def State.someTime (s : State) : Nat × State :=
  let p := s.choose 1000000
  (1000 * (p.1 + 1), p.2)

/-- A request reaches the queue of the panel; the fabric manager may command the change (R366, R423). -/
def State.topqRequest (s : State) (d : BitVec 128) : Nat × State :=
  if !tqValid d then (1, s)
  else if 16 ≤ s.topq.length then (2, s)
  else if s.siteState (tqIsland d) ≠ 1 then (3, s)
  else
    let s : State := { s with topq := s.topq ++ [d] }
    let p := s.choose 2
    if p.1 = 0 then (0, p.2)
    else
      let t := p.2.someTime
      (0, t.2.afterPs t.1 .portChangeCommand [tqIsland d, tqPort d, tqAction d, tqTag d])

/-! ## The change of a port (R367) -/

/-- The links by which a collective's result comes down to an island, each named by the OED that sends and its port. -/
def State.collDownLinks (s : State) (c : Coll) : Nat → Nat → List (Nat × Nat)
  | 0, _ => []
  | n + 1, isl => match s.collParent c isl with
    | some p => p :: s.collDownLinks c n p.1
    | none => []

/-- Whether an event brings a collective's values over the link of a port: a child's value, or the result. -/
def State.collOnLink (s : State) (isl port : Nat) (a : Act) : Bool :=
  match a with
  | .row .oedCombine [_, k, child] => child = isl && (tget? s.colls k).any fun c => tget? c.parents child = some port
  | .row .collectiveCompletion [m, k, 0] => (tget? s.colls k).any fun c => (s.collDownLinks c 16 m).contains (isl, port)
  | _ => false

/-- Whether every packet that left by a port has been acknowledged, and every value of a collective has come over its link. -/
def State.portDrained (s : State) (isl port : Nat) : Bool :=
  !(s.pkts.any fun p => p.2.links.contains (16 * isl + port)) && !(s.agenda.any fun q => s.collOnLink isl port q.2)

/-- Has the step of a port's change end after some time. -/
def State.portNext (s : State) (isl port : Nat) (ok : Bool) : State :=
  let t := s.someTime
  t.2.afterPs t.1 .portStepComplete [isl, port, b2n ok]

/-- A command reaches an OED: the port drains. A second command for the port waits for the first. -/
def execPortChangeCommand (s : State) : Host.Outcome State Fault Refusal :=
  event s fun as s =>
    let isl := ar as 0
    let port := ar as 1
    let asked (d : BitVec 128) : Bool := tqIsland d = isl && tqPort d = port && tqAction d = ar as 2 && tqTag d = ar as 3
    let s : State := { s with topq := (s.topq.find? asked).elim s.topq fun d => s.topq.erase d }
    if s.siteState isl ≠ 1 || port = 0 || 14 < port then s
    else if (s.isl isl).portChgs.any fun c => c.port = port then s.afterPs 1000000 .portChangeCommand as
    else
      let c : PortChg := { port := port, action := ar as 2, tag := ar as 3 }
      (s.modIsl isl fun x => { x with closedPorts := if x.closedPorts.contains port then x.closedPorts else x.closedPorts ++ [port],
                                      portChgs := x.portChgs ++ [c] }).afterPs 0 .portStepComplete [isl, port, 1]

/-- Whether the training of a port succeeds when it comes (R12, R411): a waveguide link between populated sites unless it is
among the bad ones at either end, a fibre port where it is among the good ones. -/
def State.trains (s : State) (isl port : Nat) : Bool :=
  if port ≤ 6 then
    !s.badLinks.contains (16 * isl + port) && s.populated.getLsbD isl && match s.farEnd isl port with
      | some (j, q) => !s.badLinks.contains (16 * j + q) && s.populated.getLsbD j
      | none => false
  else s.fibreGood.contains (16 * isl + port)

/-- Sets a port's bit of a site (R345). -/
def setLink (t : Tbl Site) (isl port : Nat) (on : Bool) : Tbl Site :=
  let e := tgetD t isl {}
  let put (n k : Nat) (v : BitVec n) : BitVec n := if on then v ||| BitVec.ofNat n (2 ^ k) else v &&& ~~~(BitVec.ofNat n (2 ^ k))
  tput t isl (if port ≤ 6 then { e with links := put 6 (port - 1) e.links } else { e with fibre := put 8 (port - 7) e.fibre })

/-- Sets the bits of a link at both of its ends. -/
def State.setLinkBoth (s : State) (isl port : Nat) (on : Bool) (t : Tbl Site) : Tbl Site :=
  let t := setLink t isl port on
  match s.farEnd isl port with
  | some (j, q) => setLink t j q on
  | none => t

/-- Whether an island has no trained link to another any more. -/
def State.cutOff (s : State) (isl : Nat) : Bool :=
  match s.bellIsland with
  | some b => let e := tgetD (s.isl b).topo.sites isl {}; e.links = 0
  | none => false

/-- A step of a port's change ends and is reported: drain, quiesce, retune, retrain, announce. -/
def execPortStepComplete (s : State) : Host.Outcome State Fault Refusal :=
  event s fun as s =>
    let isl := ar as 0
    let port := ar as 1
    match (s.isl isl).portChgs.find? fun c => c.port = port with
    | none => s
    | some c =>
      let report (s : State) (bad : Bool) : State := s.postEvent isl 3 c.stage c.tag isl (b2n bad + 16 * port)
      let next (s : State) : State := s.modIsl isl fun x =>
        { x with portChgs := x.portChgs.map fun q => if q.port = port then { q with stage := c.stage + 1 } else q }
      match c.stage with
      | 0 => if s.portDrained isl port then (next (report s false)).portNext isl port true else s.afterPs 125000 .portStepComplete as
      | 1 => (next (report s false)).portNext isl port true
      | 2 => (next (report s false)).portNext isl port (c.action ≠ 1 && s.trains isl port)
      | 3 => (next (report s (c.action ≠ 1 && ar as 2 = 0))).portNext isl port (ar as 2 = 1)
      | _ =>
        if !s.topoQuiet then s.after isl 1 .portStepComplete as
        else
          let ok := ar as 2 = 1
          let s := s.publish (s.setLinkBoth isl port ok)
          let s := report s false
          let s := s.modIsl isl fun x =>
            { x with portChgs := x.portChgs.filter fun q => q.port ≠ port,
                     closedPorts := if ok then x.closedPorts.filter fun q => q ≠ port else x.closedPorts }
          if ok then s.portReopened isl port
          else if c.action = 1 || 7 ≤ port then s
          else
            let ends := isl :: ((s.farEnd isl port).map (·.1)).toList
            (ends.filter fun i => s.cutOff i).foldl (fun s i => s.after i 0 .islandRemoval [i, 2]) s

/-! ## The fabric without an island (R314, R359, R364) -/

/-- Whether an operation's packets to a target pass an island. -/
def State.passes (s : State) (isl gone : Nat) (o : Op) (t : Nat) : Bool :=
  let route := match o.path with
    | p :: r => if p = t then r else routeHops ((s.isl isl).routeEntry (s.isl isl).activeTable t)
    | [] => routeHops ((s.isl isl).routeEntry (s.isl isl).activeTable t)
  t = gone || (s.routeIsles isl route).contains gone

/-- Discards every operation to an island or through it (R359). -/
def State.discardVia (s : State) (gone : Nat) : State :=
  (s.islands.map (·.1)).foldl (fun (s : State) isl =>
    if isl = gone then s
    else (s.isl isl).ops.foldl (fun (s : State) p =>
      match p.2.instr with
      | .put .. | .get .. | .ratom .. | .rntfy .. =>
        (p.2.targets.filter fun t => s.passes isl gone p.2 t).foldl (fun (s : State) t => s.fabDiscard isl p.1 t) s
      | _ => s) s) s

/-- An arrival at a panel barrier on its way to the root. -/
def flyingArrival (k : Nat) (a : Act) : Option RootArr :=
  match a with
  | .row .panelBarrierRootArrival [isl, j, mask, left] =>
    if j = k then some { isl := isl, mask := BitVec.ofNat 16 mask, leftAt := left } else none
  | _ => none

/-- Breaks the panel barriers that name an island and have an arrival or a waiter pending (R314): at the root, on its way
there, or at an island's agent. -/
def State.breakNaming (s : State) (gone : Nat) : State :=
  (List.range 64).foldl (fun (s : State) k =>
    let root := tgetD s.pbRoot k [] ++ s.agenda.filterMap fun p => flyingArrival k p.2
    let waiting := (s.islands.map (·.1)).filter fun i =>
      let b := (s.isl i).pbar k
      (!b.waiters.isEmpty || b.arr ≠ 0) && b.mask.getLsbD gone
    if (root.any fun a => a.mask.getLsbD gone) || !waiting.isEmpty then
      { s with pbRoot := tput s.pbRoot k root, agenda := s.agenda.filter fun p => (flyingArrival k p.2).isNone }.breakBar k waiting
    else s) s

/-- Ends the collectives of which an island is a member or a part of the tree (R364). -/
def State.collsWithout (s : State) (gone : Nat) : State :=
  s.colls.foldl (fun (s : State) q =>
    let c := q.2
    if c.status.isNone && ((c.members.any fun m => (clMembers m.2.desc).contains gone) || c.parents.any fun p => p.1 = gone) then
      s.collFinish q.1 6
    else s) s

end Sys2Proof.Machine
end

