-- ==== Sys2Proof/Machine/System.lean ====
section
/-! DEFINITION. The system registers (R401-R404), the partition register (R204), shootdown (R387), `RESUME` (R379),
snapshots (R407, R426) and halts (R408). -/

namespace Sys2Proof.Machine

/-! ## Issue (R406): each instruction acts once for the group, if the guard holds anywhere -/

/-- A system instruction that goes to the system unit. -/
def sysOp (i : Instr) (c : Ctl) (regs : List (Opnd × Bool)) (f : Env → Op → Op) (s : State) : Host.Outcome State Fault Refusal :=
  issue i c regs noPre (fun e s => if !e.any then s.flagNow e c else s.launchOp e (f e (e.op i c))) s

/-- The registers that a selector, or the issuing context, chooses an instance of by ASID (R402). -/
def perContext (n : Nat) : Bool := 1 ≤ n && n ≤ 5

/-- The instance that an access without `.sel` means (R401). -/
def ownSel (e : Env) (n : Nat) : DWord := if perContext n then e.wg.asid.setWidth 64 else 0

/-- `SYSRD` and `SYSWR` (R401). -/
def execSysrd (c : Ctl) (x : Opnd) (n : BitVec 20) (s : State) : Host.Outcome State Fault Refusal :=
  sysOp (.sysrd c x n) c [(x, true)] (fun e o => { o with a := ownSel e n.toNat }) s

def execSysrdSel (c : Ctl) (x y : Opnd) (n : BitVec 20) (s : State) : Host.Outcome State Fault Refusal :=
  sysOp (.sysrdSel c x y n) c [(x, true), (y, false)] (fun e o => { o with a := (e.rd32 y e.lane0).setWidth 64 }) s

def execSyswr (c : Ctl) (y : Opnd) (n : BitVec 20) (s : State) : Host.Outcome State Fault Refusal :=
  sysOp (.syswr c y n) c [(y, true)] (fun e o => { o with a := ownSel e n.toNat, b := e.rd64 y e.lane0 }) s

def execSyswrSel (c : Ctl) (x y : Opnd) (n : BitVec 20) (s : State) : Host.Outcome State Fault Refusal :=
  sysOp (.syswrSel c x y n) c [(x, false), (y, true)]
    (fun e o => { o with a := (e.rd32 x e.lane0).setWidth 64, b := e.rd64 y e.lane0 }) s

def execTlbiAll (c : Ctl) (s : State) : Host.Outcome State Fault Refusal := sysOp (.tlbiAll c) c [] (fun _ o => o) s

def execTlbiCtx (c : Ctl) (y : Opnd) (s : State) : Host.Outcome State Fault Refusal :=
  sysOp (.tlbiCtx c y) c [(y, false)] (fun e o => { o with a := (e.rd32 y e.lane0).setWidth 64 }) s

/-- The window register is read at issue (R168). -/
def execTlbiPage (c : Ctl) (win : BitVec 2) (y z : Opnd) (s : State) : Host.Outcome State Fault Refusal :=
  sysOp (.tlbiPage c win y z) c [(y, false), (z, true)] (fun e o =>
    { o with a := (e.rd32 y e.lane0).setWidth 64, bulk := { desc := (e.addr win z 0 e.lane0).setWidth 256 } }) s

def execCtxsv (c : Ctl) (x y : Opnd) (s : State) : Host.Outcome State Fault Refusal :=
  sysOp (.ctxsv c x y) c [(x, false), descReg y 4] (fun e o => { o with bulk := { desc := (e.desc4 y).setWidth 256 } }) s

def execCtxld (c : Ctl) (x y : Opnd) (s : State) : Host.Outcome State Fault Refusal :=
  sysOp (.ctxld c x y) c [(x, false), descReg y 4] (fun e o => { o with bulk := { desc := (e.desc4 y).setWidth 256 } }) s

def execResumeReplay (c : Ctl) (x y : Opnd) (s : State) : Host.Outcome State Fault Refusal :=
  sysOp (.resumeReplay c x y) c [(x, false), (y, false)] (fun e o => { o with a := (e.rd32 y e.lane0).setWidth 64 }) s

def execResumeSkip (c : Ctl) (x y : Opnd) (s : State) : Host.Outcome State Fault Refusal :=
  sysOp (.resumeSkip c x y) c [(x, false), (y, false)] (fun e o => { o with a := (e.rd32 y e.lane0).setWidth 64 }) s

def execResumeTrap (c : Ctl) (x y : Opnd) (s : State) : Host.Outcome State Fault Refusal :=
  sysOp (.resumeTrap c x y) c [(x, false), (y, false)] (fun e o => { o with a := (e.rd32 y e.lane0).setWidth 64 }) s

def execSnap (c : Ctl) (x : Opnd) (t : BitVec 20) (s : State) : Host.Outcome State Fault Refusal :=
  sysOp (.snap c x t) c [(x, false)] (fun _ o => o) s

/-! ## Halts (R408) -/

/-- Whether a pending step is a timer that stands still while its island is halted. -/
def isTimer (isl : Nat) : Act → Bool
  | .row .remoteTimeout (i :: _) => i = isl
  | .row .forcedSave [i, _] => i = isl
  | .row _ _ | .perform _ _ _ _ | .reply _ _ => false

/-- Stops issue and dispatch on an island, and its timers. -/
def State.haltIsland (s : State) (isl : Nat) : State :=
  if !(s.isl isl).running then s
  else
    let timers := (s.agenda.filter fun p => isTimer isl p.2).filterMap fun p => match p.2 with
      | .row i as => some (s.dueTime p.1 - s.now, i, as)
      | .perform _ _ _ _ | .reply _ _ => none
    let s : State := { s with agenda := s.agenda.filter fun p => !isTimer isl p.2 }
    s.modIsl isl fun x => { x with running := false, frozen := x.frozen ++ timers }

/-- An island runs again: its timers go on. -/
def State.runIsland (s : State) (isl : Nat) : State :=
  let timers := (s.isl isl).frozen
  let s := s.modIsl isl fun x => { x with running := true, frozen := [] }
  timers.foldl (fun (s : State) (t : Nat × Instr × List Nat) => s.afterPs t.1 t.2.1 t.2.2) s

def execHaltIsl (c : Ctl) (s : State) : Host.Outcome State Fault Refusal :=
  issue (.haltIsl c) c [] noPre (fun e s => let s := s.flagNow e c; if e.any then s.haltIsland e.isl else s) s

def execHaltPnl (c : Ctl) (s : State) : Host.Outcome State Fault Refusal :=
  issue (.haltPnl c) c [] noPre (fun e s =>
    let s := s.flagNow e c
    if e.any then ((List.range 16).filter fun i => i = e.isl || (s.isl e.isl).present i).foldl (fun s i => s.haltIsland i) s else s) s

/-! ## The partition (R203, R204) -/

def partReg (p : Word) : Nat := fld p 0 6
def partScr (p : Word) : Nat := fld p 8 6
def partCache (p : Word) : Nat := fld p 16 6
def partPin (p : Word) : Nat := fld p 24 4

/-- Bytes of a unit of the store. -/
def unitBytes : Nat := 65536

/-- Bytes of a workgroup's register area and scratchpad (R95). -/
def hdrRegBytes (h : BitVec 512) : Nat := hdrGroups h * fld h 32 5 * 2048
def hdrScrBytes (h : BitVec 512) : Nat := hdrScratchKib h * 1024

/-- Whether a workgroup's areas lie inside a partition's regions; one that has ended has no register area any more (R93). -/
def wgFits (p : Word) (w : Wg) : Bool :=
  (w.ended || decide (w.regBase + hdrRegBytes w.hdr ≤ partReg p * unitBytes)) && decide (partReg p * unitBytes ≤ w.scrBase || hdrScrBytes w.hdr = 0) &&
    decide (w.scrBase + hdrScrBytes w.hdr ≤ (partReg p + partScr p - partPin p) * unitBytes || hdrScrBytes w.hdr = 0) &&
    decide (hdrCacheMin w.hdr ≤ partCache p)

/-- Whether a write of `sys.part` is performed (R204). -/
def partOk (k : CoreS) (p : Word) : Bool :=
  partReg p + partScr p + partCache p = 32 && 6 ≤ partCache p && partCache p ≤ 16 && partPin p ≤ partScr p &&
    (partPin p = partPin k.part || k.places.isEmpty) && k.places.all fun w => wgFits p w.2

/-- Writes the partition register: lines that the cache region no longer finds leave it first (R204, R213). -/
def State.writePart (s : State) (isl core : Nat) (v : Word) : State :=
  let k := (s.isl isl).core core
  let p : Word := v &&& 0x0F3F3F3F
  if !partOk k p then s
  else
    let old := (s.isl isl).l1Sets core
    let new := partCache p * 32
    let s := ((k.l1.filter fun q => q.1 % old ≠ q.1 % new).map (·.1)).foldl (fun (s : State) ln => s.evict isl core ln) s
    (s.modIsl isl fun x => x.modCore core fun k => { k with part := p }).kickPlaces isl

def execPartWrite (s : State) : Host.Outcome State Fault Refusal :=
  event s fun as s => s.writePart (ar as 0) (ar as 1) (BitVec.ofNat 32 (ar as 2))

/-! ## Registers (R401-R404) -/

/-- Whether a selector is in a register's range. -/
def selOk (x : Island) (n sel : Nat) : Bool :=
  match n with
  | 1 | 2 | 3 | 4 | 5 => sel < fld x.sys.ctxtab 48 16
  | 0x018 => sel < 64
  | 0x019 => sel < 16
  | 0x01A => sel < 32
  | 0x020 | 0x021 => sel < 128
  | 0x022 => sel < 2
  | _ => true

/-- Whether unprivileged code may read a register (R402). -/
def openReg (n : Nat) : Bool := n = 0x000 || n = 0x016 || n = 0x01B

/-- The halves of a directory register (R403). -/
def dirReg (base : VA) (count gasid : Nat) : BitVec 128 :=
  BitVec.ofNat 128 (base.toNat + count % 2 ^ 19 * 2 ^ 72 + gasid % 2 ^ 16 * 2 ^ 91)

/-- Reads a register; `asid` is the issuing context. -/
def State.sysRead (s : State) (isl n sel : Nat) (asid : BitVec 16) : DWord × State :=
  let x := s.isl isl
  if !selOk x n sel then (0, s)
  else
    let ctx (f : BitVec 512 → Nat) (a : BitVec 16) : DWord × State :=
      let p := s.ctxEntry isl a
      (BitVec.ofNat 64 (f p.1), p.2)
    let a : BitVec 16 := BitVec.ofNat 16 sel
    let ovdir (c : BitVec 512) : BitVec 128 := dirReg (cxOvdir c) (cxOvcount c) 0
    match n with
    | 0x000 => ctx (fun c => asid.toNat + 65536 * b2n (cxPriv c)) asid
    | 0x001 => ctx cxPtroot a
    | 0x002 => ctx (fun c => fld (ovdir c) 0 64) a
    | 0x003 => ctx (fun c => fld (ovdir c) 64 64) a
    | 0x004 => ctx cxSlotmask a
    | 0x005 => ctx cxPrivhwm a
    | 0x010 => (x.sys.ctxtab, s)
    | 0x011 => (BitVec.ofNat 64 (fld x.sys.ovgdir 0 64), s)
    | 0x012 => (BitVec.ofNat 64 (fld x.sys.ovgdir 64 64), s)
    | 0x013 => (x.sys.slotshare.setWidth 64, s)
    | 0x014 => (x.sys.fq, s)
    | 0x015 => (x.sys.snpool, s)
    | 0x016 => (x.sys.topo, s)
    | 0x018 => (tgetD x.sys.hq sel 0, s)
    | 0x019 => (tgetD x.sys.dq sel 0, s)
    | 0x01A => (tgetD x.sys.rtab sel 0, s)
    | 0x01B => (BitVec.ofNat 64 (b2n x.sys.rtact), s)
    | 0x020 => ((x.core sel).part.setWidth 64, s)
    | 0x021 => ((x.core sel).errcnt, s)
    | 0x022 => (BitVec.ofNat 64 (fld x.sys.coresus (64 * sel) 64), s)
    | 0x028 => (x.sys.pretime.setWidth 64, s)
    | 0x029 => (x.sys.rtime.setWidth 64, s)
    | 0x02A => (x.sys.auditfrac.setWidth 64, s)
    | 0x02B => (BitVec.ofNat 64 (x.sys.snapTag.toNat + 256 * b2n x.sys.snapArm), s)
    | 0x030 => (x.sys.cstep.setWidth 64, s)
    | 0x031 => (BitVec.ofNat 64 (x.sys.thresh.toNat + 65536 * x.sys.droopCount.toNat + 2 ^ 31 * b2n x.sys.droopAlarm), s)
    | _ => (0, s)

/-- A value brought to the nearer of two limits (R404, R430, R431). -/
def clamp (lo hi v : Nat) : Nat := max lo (min v hi)

/-- Whether the table entry of a context may be written now. -/
def State.ctxQuiet (s : State) (isl sel : Nat) : Bool := (s.isl isl).quietRange (fld (s.isl isl).sys.ctxtab 0 48 + 64 * sel) 64

/-- Writes a register. -/
def State.sysWrite (s : State) (isl n sel : Nat) (v : DWord) : State :=
  let x := s.isl isl
  let sys (f : SysRegs → SysRegs) : State := s.modIsl isl fun x => { x with sys := f x.sys }
  let half (s : State) : State := s.modIsl isl fun x => { x with sys := { x.sys with halves := tput x.sys.halves (65536 * n + sel) v } }
  let low (n : Nat) : Nat := (tgetD x.sys.halves (65536 * n + sel) 0).toNat
  let view (lo n v : Nat) : State := s.putCtxField isl (BitVec.ofNat 16 sel) lo n v
  let addr (align : Nat) : DWord := BitVec.ofNat 64 (fld v 0 48 / align * align + fld v 48 16 * 2 ^ 48)
  let queue (host : Bool) (e : DWord) : State :=
    let s := s.modIsl isl fun x => { x with sys := if host then { x.sys with hq := tput x.sys.hq sel e } else { x.sys with dq := tput x.sys.dq sel e } }
    let tail := s.qTail isl (fld e 0 42 * 64)
    let s : State := if host then { s with hqs := tmod s.hqs sel fun q => { q with parents := [], seen := tail } }
      else s.modIsl isl fun x => { x with dqs := tmod x.dqs sel fun q => { q with parents := [], seen := tail } }
    s.after isl 1 .queueTailAdvance [isl, b2n host, sel, 0, tail]
  if !selOk x n sel then s
  else match n with
  | 0x001 => view 7 41 (fld v 7 41)
  | 0x002 | 0x011 => half s
  | 0x003 => view 64 91 (low 0x002 + fld v 0 27 * 2 ^ 64)
  | 0x004 => view 160 32 (fld v 0 32)
  | 0x005 => view 272 32 (fld v 0 32)
  | 0x010 => sys fun r => { r with ctxtab := addr 64 }
  | 0x012 => sys fun r => { r with ovgdir := dirReg (BitVec.ofNat 72 (low 0x011 + fld v 0 8 * 2 ^ 64)) (fld v 8 19) (fld v 27 16) }
  | 0x013 => sys fun r => { r with slotshare := v.setWidth 32 }
  | 0x014 => (sys fun r => { r with fq := BitVec.ofNat 64 (fld v 0 48 / 64 * 64) }).after isl 0 .faultQueueRoom [isl]
  | 0x015 => sys fun r => { r with snpool := addr 65536 }
  | 0x018 => queue true (v &&& 0x83FFFFFFFFFFFFFF)
  | 0x019 => queue false (v &&& 0x83FFFFFFFFFFFFFF)
  | 0x01A => if sel / 16 = b2n x.sys.rtact then s else sys fun r => { r with rtab := tput r.rtab sel (v &&& 0x8000000FFFFFFFFF) }
  | 0x020 => s.after isl 0 .partWrite [isl, sel, fld v 0 32]
  | 0x021 => s.modIsl isl fun x => x.modCore sel fun k => { k with errcnt := v }
  | 0x022 => (sys fun r => { r with coresus := putFld r.coresus (64 * sel) 64 v.toNat }).kickPlaces isl
  | 0x028 => sys fun r => { r with pretime := v.setWidth 20 }
  | 0x029 => sys fun r => { r with rtime := v.setWidth 20 }
  | 0x02A => sys fun r => { r with auditfrac := BitVec.ofNat 7 (min (fld v 0 7) 64) }
  | 0x02B => sys fun r => { r with snapArm := v.getLsbD 8 }
  | 0x030 => sys fun r => { r with cstep := BitVec.ofNat 13 (clamp 25 6000 (fld v 0 13)) }
  | 0x031 => (sys fun r => { r with thresh := BitVec.ofNat 10 (clamp 500 640 (fld v 0 10)) }).after isl 0 .droopAlarmRaise [isl]
  | _ => s

/-! ## Shootdown (R387) -/

/-- What a `TLBI` removes: everything, or the entries of a context, or those that cover an address of it. -/
def tlbiHits (o : Op) (asid : BitVec 16) (level : Nat) (va : VA) : Bool :=
  match o.instr with
  | .tlbiAll _ => true
  | .tlbiCtx _ _ => asid.toNat = fld o.a 0 32
  | _ =>
    let w : VA := o.bulk.desc.setWidth 72
    asid.toNat = fld o.a 0 32 && va.toNat / pageBytes level == w.toNat / pageBytes level

/-- Removes the entries from every TLB; walks in progress install nothing. -/
def Island.shootdown (x : Island) (o : Op) : Island :=
  let keep (l : List Tlbe) : List Tlbe := l.filter fun t => !tlbiHits o t.asid t.level t.va
  { x with microTlb := tmap x.microTlb fun _ l => keep l, clusterTlb := tmap x.clusterTlb fun _ l => keep l,
           oedTlb := keep x.oedTlb, walks := tmap x.walks fun _ w => { w with stale := true },
           ctxs := match o.instr with
             | .tlbiCtx _ _ => tdel x.ctxs (fld o.a 0 32)
             | _ => x.ctxs }

/-- A shootdown's removals; `TLBI.ctx` has the context's entry read anew (R385, R387). -/
def State.shootdown (s : State) (isl : Nat) (o : Op) : State :=
  let s := s.modIsl isl fun x => x.shootdown o
  match o.instr with
  | .tlbiCtx _ _ => if fld o.a 0 32 < 65536 then s.reloadCtx isl (BitVec.ofNat 16 (fld o.a 0 32)) else s
  | _ => s

/-- The operations whose accesses were translated through a removed entry and have not completed. -/
def Island.translating (x : Island) (o : Op) : List Nat :=
  let gone := ((x.microTlb.flatMap (·.2)) ++ x.clusterTlb.flatMap (·.2)).filter fun t => tlbiHits o t.asid t.level t.va
  (x.ops.filter fun p => p.2.subs.any fun u => (u.stage = .going || u.stage = .performed) && u.accs.any fun a =>
    !inWindow a.va && (tlbiHits o p.2.asid 0 a.va || gone.any fun t => t.covers p.2.asid a.va)).map (·.1)

/-! ## RESUME (R379) -/

/-- Posts the record of threads of a group whose overlay a restore could not make resident (R148). -/
def State.postRestore (s : State) (isl core gid : Nat) (lanes : LaneMask) (cp : Word) : State :=
  match (s.isl isl).group? core gid with
  | none => s
  | some g =>
    let w := ((s.isl isl).wg? core g.place).getD {}
    s.post isl
      { bits := recordBits { code := 5, info := ovlInfo 0 0 cp, lanes := lanes, cp := cp, launch := w.launch, asid := w.asid,
                             agent := agentWord 4 core gid, source := 4 },
        age := g.age, lanes := lanes }

/-- The lanes of an operation that wait with a fault code; of a page, where one is given. -/
def Op.faultyLanes (o : Op) (code : Nat) (page : Option Nat) : LaneMask :=
  maskOf ((o.subs.flatMap (·.accs)).filterMap fun a =>
    if a.fault = some (BitVec.ofNat 8 code) && !a.done && (page.all fun p => a.va.toNat / 65536 = p) then some a.lane else none)

/-- The faulting lanes' part of an instruction is performed again, or left out (R379): `RATOM` lanes that were never sent
fault again. -/
def State.resumeAccess (s : State) (isl id code : Nat) (lanes : LaneMask) (again : Bool) : State :=
  match s.op? isl id with
  | none => s
  | some o =>
    let hit (a : Acc) : Bool := a.fault = some (BitVec.ofNat 8 code) && lanes.getLsbD a.lane && !a.done
    match o.instr with
    | .ratom .. =>
      if again then
        let accs := o.subs.flatMap fun u => if u.key = notSent then u.accs.filter hit else []
        if accs.isEmpty then s else s.opFault isl id o code accs false
      else
        let skip (u : Sub) : Sub :=
          if u.key = notSent then { u with accs := u.accs.map fun a => if hit a then { a with done := true } else a } else u
        (s.modOp isl id fun o => { o with subs := o.subs.map skip }).ratomCheck isl id
    | _ =>
      let keys := (o.subs.filter fun u => u.accs.any hit).map (·.key)
      if again then
        let x := s.isl isl
        let place (a : Acc) : Acc := placeAcc x o.core o.place o.instr { a with fault := none, loc := none }
        let back (u : Sub) : Sub :=
          if keys.contains u.key then { u with stage := .waiting, accs := u.accs.map place } else u
        let s := s.modOp isl id fun o => { o with subs := o.subs.map back }
        keys.foldl (fun (s : State) key =>
          match ((s.op? isl id).getD {}).subs.find? fun u => u.key = key with
          | none => s
          | some u => match u.accs.findSome? (·.fault) with
            | some f => s.opFault isl id o f.toNat u.accs false
            | none => if o.released then s.startSub isl id key else s) s
      else
        keys.foldl (fun (s : State) key => s.skipSub isl id key) s

/-- The run moves past the instruction at a code pointer; under `REP`, past the repeated one (R35, R379). -/
def skipPast (g : Group) (lanes : LaneMask) (cp : Word) : Group :=
  match g.rep with
  | some r =>
    if cp = r.cp + 1 then
      let g' : Group := modThreads g lanes fun _ t => if t.cp = r.cp then { t with cp := r.cp + 2 } else t
      { g' with rep := none, rpi := 0 }
    else modThreads g lanes fun _ t => if t.cp = cp then { t with cp := cp + 1 } else t
  | none => modThreads g lanes fun _ t => if t.cp = cp then { t with cp := cp + 1 } else t

/-- Acts on one group of a record: its agent has been unparked. -/
def State.resumeGroup (s : State) (isl core gid mode code : Nat) (info : DWord) (cp : Word) (lanes : LaneMask) (op : Option Nat) :
    State :=
  let tvec := match (s.isl isl).group? core gid with
    | some g => (settle g (s.cyc isl)).tvec
    | none => 0
  let deliver (s : State) (m : LaneMask) : State := s.trap isl core gid m code info cp (if code = 0x41 then cp + 1 else cp) tvec
  match op with
  | some id =>
    match mode with
    | 0 => s.resumeAccess isl id code lanes true
    | 1 => s.resumeAccess isl id code lanes false
    | _ => deliver (s.resumeAccess isl id code lanes false) lanes
  | none =>
    match mode with
    | 0 => s
    | 1 =>
      -- HYP_ORPHAN and HYP_FULL precede the instruction at which they are taken
      if code = 7 || code = 8 then s else s.modIsl isl fun x => x.modGroup core gid fun g => skipPast g lanes cp
    | _ => deliver s lanes

/-- Acts on the threads a restore parked (R148): none where the overlay finds no room yet. -/
def State.resumeRestore (s : State) (isl core gid mode : Nat) (cp : Word) (lanes : LaneMask) : Option State :=
  match (s.isl isl).group? core gid with
  | none => some s
  | some g =>
    let mine := lanes &&& maskOf ((g.threads.filter fun p => p.2.stat = .restore).map (·.1))
    let wake (s : State) : State := s.modIsl isl fun x => x.modGroup core gid fun g => modThreads g mine fun _ t => { t with stat := .ready }
    let w := ((s.isl isl).wg? core g.place).getD {}
    match mode with
    | 0 =>
      match s.makeResident isl core w.launch w.asid w.priv (cpHandle cp) true with
      | (.done, s) => some (wake s)
      | (.wait, _) => none
      | (.never _, s) => some (s.postRestore isl core gid mine cp)
    | 1 => some (s.endLanes isl core gid mine)
    | _ => some ((wake s).trap isl core gid mine 5 (ovlInfo 0 0 cp) cp cp (settle g (s.cyc isl)).tvec)

/-- The group that a record or an attached agent speaks of, where it has not ended: that of an age, or of an operation. -/
def State.agentGroup (s : State) (isl : Nat) (a : Word) (age : Option Nat) (op : Option Nat) : Option Group :=
  ((s.isl isl).group? (fld a 0 7) (fld a 11 5)).filter fun g =>
    match op.bind fun id => s.op? isl id with
    | some o => g.age == o.age
    | none => op.isNone && age == some g.age

/-- Whether an agent's fault can be delivered as a trap: a group's with a handler (R379). -/
def State.canTrap (s : State) (isl : Nat) (a : Word) (age : Option Nat) (op : Option Nat) : Bool :=
  (fld a 8 3 = 0 || fld a 8 3 = 4) && (s.agentGroup isl a age op).any fun g => (settle g (s.cyc isl)).tvec ≠ 0

/-- Acts on one agent of a record (R379): on an instruction that has been issued, though its group may have ended. -/
def State.resumeAgent (s : State) (isl mode : Nat) (a : Word) (age : Option Nat) (op : Option Nat) (code : Nat) (info : DWord)
    (cp : Word) (lanes : LaneMask) : State :=
  let core := fld a 0 7
  let slot := fld a 11 5
  let s := s.unpark isl a age op
  match fld a 8 3, op with
  | 0, op =>
    if op.isSome || (s.agentGroup isl a age op).isSome then s.resumeGroup isl core slot mode code info cp lanes op else s
  | 1, op => s.resumeCtx isl core slot op (mode = 1)
  | 2, some id => s.resumeCopy isl id (mode = 1) code lanes
  | 3, some id => match ((s.op? isl id).getD {}).instr with
    | .coll .. => s.resumeColl isl id (mode = 1)
    | _ => s.resumeFabric isl id (mode = 1) code lanes
  | _, _ => s

/-- The records without the one that has been acted on; one that is not yet written stays until it is (R375). -/
def takeRec (l : List FaultRec) (n : Nat) : List FaultRec :=
  if (l.getD n {}).posted then l.eraseIdx n else l.modify n fun r => { r with settled := true, gathering := false }

/-- `RESUME` on an island's records: its status, or none while the overlay of a restored run waits for room. -/
def State.resume (s : State) (isl mode : Nat) (a : Word) : Option (Nat × State) :=
  match (s.isl isl).findRec fun r => recAgent r.bits == a with
  | none => some (1, s)
  | some n =>
    let r := (s.isl isl).faults.getD n {}
    let src := recSource r.bits
    let take (s : State) : State := s.modIsl isl fun x => { x with faults := takeRec x.faults n }
    if src = 5 || (mode = 2 && !(s.canTrap isl a (some r.age) r.op && r.attached.all fun q => s.canTrap isl q.1 none q.2)) then some (2, s)
    else if src = 4 then
      match (s.isl isl).group? (fld a 0 7) (fld a 11 5) with
      | some g =>
        if g.age ≠ r.age then some (0, take s)
        else (take s).resumeRestore isl (fld a 0 7) (fld a 11 5) mode (recCp r.bits) (recLanes r.bits) |>.map fun s => (0, s)
      | none => some (0, take s)
    else
      let lanes := if r.op.isNone then r.lanes else recLanes r.bits
      let s := (take s).resumeAgent isl mode a (some r.age) r.op (recCode r.bits) (recInfo r.bits) (recCp r.bits) lanes
      some (0, r.attached.foldl (fun (s : State) (q : Word × Option Nat) =>
        let o := ((q.2.bind fun id => s.op? isl id).getD {})
        s.resumeAgent isl mode q.1 none q.2 (recCode r.bits) (recInfo r.bits) o.cp
          (o.faultyLanes (recCode r.bits) (some ((recAddr r.bits).toNat / 65536))) ) s)

/-! ## Snapshots (R407, R426) -/

/-- `SNAP` at the system unit: the trigger leaves; ARM falls on every island. -/
def State.snapTrigger (s : State) (isl tag : Nat) : Nat × State :=
  if !(s.isl isl).sys.snapArm then (1, s)
  else
    let s := (s.islands.map (·.1)).foldl (fun (s : State) i =>
      s.modIsl i fun x => { x with sys := { x.sys with snapArm := false, snapTag := BitVec.ofNat 8 tag } }) s
    (0, s.afterPs 320000 .snapshotLatch [tag])

/-- Every block of every present island latches. -/
def execSnapshotLatch (s : State) : Host.Outcome State Fault Refusal :=
  event s fun _ s => s.presentIsles.foldl (fun (s : State) i =>
    let cyc := s.cyc i
    let latch (h : Half) : Half := { h with snapCount := BitVec.ofNat 64 (cyc - h.resetAt) }
    s.modIsl i fun x => { x with half0 := latch x.half0, half1 := latch x.half1 }) s

end Sys2Proof.Machine
end

