-- ==== Sys2Proof/Machine/Launch.lean ====
section
/-! DEFINITION. Launch queues and launches (R98-R107, R385, R392), the placing of cluster launches (R94-R97), the start of
workgroups (R92, R135, R386) and their end (R93, R94, R104). -/

namespace Sys2Proof.Machine

/-! ## Queues (R98) -/

def qeAsid (e : DWord) : BitVec 16 := BitVec.ofNat 16 (fld e 42 16)
def qePa (e : DWord) : Nat := fld e 0 42 * 64

/-- A queue's entry in `sys.hq` or `sys.dq`. -/
def Island.qEntry (x : Island) (host : Bool) (q : Nat) : DWord := tgetD (if host then x.sys.hq else x.sys.dq) q 0

/-- A queue's progress. -/
def State.queue (s : State) (isl : Nat) (host : Bool) (q : Nat) : Queue := tgetD (if host then s.hqs else (s.isl isl).dqs) q {}
def State.setQueue (s : State) (isl : Nat) (host : Bool) (q : Nat) (c : Queue) : State :=
  if host then { s with hqs := tput s.hqs q c } else s.modIsl isl fun x => { x with dqs := tput x.dqs q c }

/-- Whether the command processor of an island serves a queue (R402, R421). -/
def State.servesQueue (s : State) (isl : Nat) (host : Bool) (q : Nat) : Bool :=
  let x := s.isl isl
  (x.qEntry host q).getLsbD 63 && x.serves && (!host || s.bellIsland = some isl)

/-- A store to TAIL has been observed (R98, R106): the packets it makes visible belong to the launch that made it. -/
def execQueueTailAdvance (s : State) : Host.Outcome State Fault Refusal :=
  event s fun as s =>
    let isl := ar as 0
    let host : Bool := ar as 1 = 1
    let q := ar as 2
    let tail := ar as 4
    let c := s.queue isl host q
    let parent := if host || (tget? s.launches (ar as 3)).isNone then 0 else ar as 3
    let parents := if tail = c.seen then c.parents
      else if tail < c.seen then c.parents.filter fun p => p.1 < tail
      else c.parents ++ [(c.seen, parent)]
    (s.setQueue isl host q { c with seen := tail, parents := parents }).afterOnce isl 0 .launchDispatch [isl, b2n host, q]

/-- The launch that made a packet visible, if it has not completed (R106). -/
def parentOf (ps : List (Nat × Nat)) (n : Nat) : Nat := ((ps.filter fun p => p.1 ≤ n).getLast?.map (·.2)).getD 0

/-- Halts a queue (R98, R105): the command processor writes STATE and the event is posted. -/
def State.haltQueue (s : State) (isl : Nat) (host : Bool) (q status : Nat) : State :=
  let pa := qePa ((s.isl isl).qEntry host q)
  (s.writeHomeN isl (pa + 11) 1 2).postEvent isl 1 status 0 isl (q + 256 * b2n host)

/-- The driver has set STATE of a queue (R105). -/
def execQueueRestart (s : State) : Host.Outcome State Fault Refusal :=
  event s fun as s => s.afterOnce (ar as 0) 0 .launchDispatch [ar as 0, ar as 1, ar as 2]

/-- Has every queue that may dispatch, and every launch that waits to start, looked at again. -/
def State.kickQueues (s : State) : State :=
  let s := s.launches.foldl (fun (s : State) (p : Nat × Launch) =>
    if !p.2.started && p.2.fail = 0 then s.afterOnce p.2.island 1 .launchStart [p.1] else s) s
  let s := match s.bellIsland with
    | some b => (s.isl b).sys.hq.foldl (fun (s : State) (p : Nat × DWord) => s.afterOnce b 1 .launchDispatch [b, 1, p.1]) s
    | none => s
  s.islands.foldl (fun (s : State) (i : Nat × Island) =>
    i.2.sys.dq.foldl (fun (s : State) (p : Nat × DWord) => s.afterOnce i.1 1 .launchDispatch [i.1, 0, p.1]) s) s

/-! ## The checks of a packet (R51, R96, R100) -/

/-- Whether a kernel header is valid (R51). -/
def hdrOk (h : BitVec 512) : Bool :=
  let w := (List.range 6).map (hdrW h)
  fld h 0 16 = 0x4B48 && fld h 16 8 = 1 && fld h 26 6 = 0 && fld h 37 3 = 0 && fld h 47 1 = 0 && fld h 52 4 = 0 &&
    fld h 62 2 = 0 && fld h 69 3 = 0 && fld h 77 3 = 0 && fld h 176 16 = 0 && fld h 376 136 = 0 &&
    1 ≤ fld h 32 5 && hdrUniforms h ≤ 64 && hdrAccSlots h ≤ 8 && 1 ≤ hdrGroups h && hdrGroups h ≤ 32 &&
    1 ≤ hdrCluster h && hdrCluster h ≤ 16 && 6 ≤ hdrCacheMin h && hdrCacheMin h ≤ 16 && hdrScratchKib h ≤ 1664 &&
    hdrRoleMask h < 2 ^ hdrGroups h && (hdrCopyEntry h = 0) == (hdrRoleMask h = 0) &&
    hdrPrivate h % 16 = 0 && hdrPrivate h ≤ 1048576 && w.sum ≤ 64 && hdrW h 0 ≤ Config.lsteps && (hdrCkptVa h).toNat % 16 = 0

/-- Whole units of the store that cover some bytes. -/
def unitsFor (bytes : Nat) : Nat := (bytes + unitBytes - 1) / unitBytes

/-- The most workgroups of a kernel that an empty core holds (R96, R97). -/
def coreHolds (h : BitVec 512) (pin : Nat) : Nat :=
  ([4, 3, 2, 1].find? fun n => n * hdrGroups h ≤ 32 && n * hdrAccSlots h ≤ 8 &&
    unitsFor (n * hdrRegBytes h) + unitsFor (n * hdrScrBytes h) + hdrCacheMin h + pin ≤ 32).getD 0

/-- Whether some cluster of an island could hold a cluster launch with every core empty (R96). -/
def Island.couldHold (x : Island) (h : BitVec 512) : Bool :=
  (List.range 32).any fun k => hdrCluster h ≤ ((List.range 4).map fun r =>
    let c := x.core (4 * k + r)
    if c.disabled then 0 else coreHolds h (partPin c.part)).sum

/-- Whether the fields of a packet and its kernel record are as R100 asks, the record's reserved field among them (R8, R49); `own`
is the island of a device queue. -/
def packetOk (p : BitVec 1024) (kr : BitVec 1024) (own : Option Nat) : Bool :=
  let h : BitVec 512 := kr.setWidth 512
  let isles := (islandsOf (pkIslMask p)).length
  pkMagic p = 0x4C50 && pkVersion p = 1 && pkReservedOk p && pkStatus p = 0 && pkLnum p = 0 && pkNdep p ≤ 4 &&
    (List.range (pkNdep p)).all (fun i => bitsN (pkDep p i) 78 50 = 0) && pkIslMask p ≠ 0 && (!pkReplay p || pkSnap p) &&
    1 ≤ pkNcl p && 1 ≤ pkE4 p && (pkKhdrVa p).toNat % 128 = 0 && hdrOk h && fld kr 576 448 = 0 && pkCodeptr p = BitVec.ofNat 32 (fld kr 512 32) &&
    (List.range 6).all (fun i => pkW p i = hdrW h i) &&
    hdrGroups h ≤ 2 ^ pkW p 1 && hdrCluster h ≤ 2 ^ pkW p 2 && pkNcl p ≤ 2 ^ pkW p 3 && pkE4 p ≤ 2 ^ pkW p 4 &&
    (isles + pkE4 p - 1) / pkE4 p ≤ 2 ^ pkW p 5 && own.all fun i => pkIslMask p = 2 ^ i


/-- Whether a packet names only present islands (R100). -/
def State.allPresent (s : State) (p : BitVec 1024) : Bool :=
  (islandsOf (pkIslMask p)).all (fun i => s.siteState i = 1) &&
    (List.range (pkNdep p)).all fun i => s.siteState (depIsland (pkDep p i)) = 1

/-- The status with which a packet is refused at dispatch, 0 where it is not, with its header. -/
def State.checkPacket (s : State) (isl : Nat) (host : Bool) (asid : BitVec 16) (priv : Bool) (p : BitVec 1024) :
    Nat × BitVec 512 × State :=
  let r := s.readVaN isl asid priv (pkKhdrVa p) 128
  let kr : BitVec 1024 := BitVec.ofNat 1024 (r.1.getD 0)
  let h : BitVec 512 := kr.setWidth 512
  let up := (islandsOf (pkIslMask p)).filter fun i => s.siteState i = 1
  let s := up.foldl (fun (s : State) i => (s.ctxEntry i asid).2) r.2
  let ok := r.1.isSome && packetOk p kr (if host then none else some isl) &&
    up.all fun i => s.ctxOk i asid && (s.isl i).couldHold h
  (if !ok then 2 else if !s.allPresent p then 3 else 0, h, s)

/-! ## Dispatch (R98, R101, R103) -/

/-- The lowest number from `n` up that is not among those held. -/
def freeNumber (held : List Nat) : Nat → Nat → Option Nat
  | 0, _ => none
  | fuel + 1, n => if held.contains n then freeNumber held fuel (n + 1) else some n

/-- The launch number of the next launch of a queue (R103). -/
def State.nextNumber (s : State) (isl : Nat) (host : Bool) : Option Nat :=
  if host then freeNumber (s.launches.map (·.2.num)) 0x7FFF 1
  else freeNumber ((s.launches.filter fun p => p.2.island = isl).map (·.2.num)) 0x8000 0x8000

/-- The packet at HEAD of a queue is read, checked and numbered (R98, R100, R103). -/
def execLaunchDispatch (s : State) : Host.Outcome State Fault Refusal :=
  event s fun as s =>
    let isl := ar as 0
    let host : Bool := ar as 1 = 1
    let q := ar as 2
    let e := (s.isl isl).qEntry host q
    let pa := qePa e
    let c := s.queue isl host q
    let head := s.qHead isl pa
    let tail := s.qTail isl pa
    let logn := s.qLogn isl pa
    let asid := qeAsid e
    if !s.servesQueue isl host q || s.qState isl pa ≠ 1 || head = tail || c.starting.isSome ||
        Config.hbmBytes < pa + 64 || !s.qValid isl pa then s
    else if !(s.isl isl).quietRange pa 64 then s.after isl 1 .launchDispatch as
    else if 2 ^ logn < (tail + 2 ^ 64 - head) % 2 ^ 64 then s.haltQueue isl host q 0
    else if parentOf c.parents head ≠ 0 then s
    else
      let cx := s.ctxEntry isl asid
      let priv := cxPriv cx.1
      let slot := vaPlus (BitVec.ofNat 72 (s.qBase isl pa)) (128 * (head % 2 ^ logn))
      let s := cx.2
      if !s.vaQuiet isl asid priv slot 128 then s.after isl 1 .launchDispatch as
      else
        let r := s.readVaN isl asid priv slot 128
        let p : BitVec 1024 := BitVec.ofNat 1024 (r.1.getD 0)
        let k := r.2.checkPacket isl host asid priv p
        let s := k.2.2
        let past (s : State) : State :=
          (s.writeHomeN isl (pa + 16) 8 (head + 1)).setQueue isl host q
            { c with parents := c.parents.filter fun q => head + 1 ≤ q.1 || (c.parents.filter fun r => r.1 ≤ head + 1).getLast? = some q }
        if k.1 ≠ 0 then
          ((past (s.writeVa isl 0 noPlace asid priv 0 (vaPlus slot 7) [BitVec.ofNat 8 k.1]).2).haltQueue isl host q k.1)
        else match s.nextNumber isl host with
          | none => s
          | some n =>
            let key := launchKey isl n
            let l : Launch :=
              { num := n, packet := p, hdr := k.2.1, asid := asid, priv := priv, island := isl, hostQ := host, queue := q, slotVa := slot }
            let s := past (s.writeVa isl 0 noPlace asid priv 0 (vaPlus slot 126) (leBytes 2 n)).2
            let s : State := { s with launches := tput s.launches key l }
            (s.setQueue isl host q { s.queue isl host q with starting := some key }).after isl 0 .launchStart [key]

/-! ## The start of a launch (R101, R102, R392) -/

/-- Clears EPOCH in every leaf below a table (R392). -/
def clearEpochs (isl : Nat) : Nat → Nat → Nat → State → State
  | 0, _, _, s => s
  | fuel + 1, level, tab, s =>
    (List.range (if level = 4 then 16 else 8192)).foldl (fun (s : State) i =>
      let ea := tab + 8 * i
      let p := s.readHomeN isl ea 8
      if !pteV p then s
      else if pteLeaf p then (if pteEpoch p = 0 then s else s.writeHomeN isl ea 8 (p % 2 ^ 48))
      else clearEpochs isl fuel (level - 1) (pteAddr p) s) s

/-- Raises the snapshot epoch of a context on an island, skipping 0 (R392). -/
def State.raiseEpoch (s : State) (isl : Nat) (asid : BitVec 16) : State :=
  let c := s.ctxEntry isl asid
  let e := cxSnepoch c.1 + 1
  if e < 65536 then c.2.putCtxField isl asid 48 16 e
  else
    let s := clearEpochs isl 5 4 (cxPtroot c.1) c.2
    let s := s.modIsl isl fun x => { x with
      microTlb := tmap x.microTlb fun _ l => l.filter fun t => t.asid ≠ asid,
      clusterTlb := tmap x.clusterTlb fun _ l => l.filter fun t => t.asid ≠ asid,
      oedTlb := x.oedTlb.filter fun t => t.asid ≠ asid }
    s.putCtxField isl asid 48 16 1

/-- The remote write window list of a packet (R99); an unreadable list declares no window, nor does an entry that is not one. -/
def State.readWindows (s : State) (isl : Nat) (asid : BitVec 16) (priv : Bool) (p : BitVec 1024) : List (BitVec 128) × State :=
  let r := s.readVaN isl asid priv (pkWinVa p) (16 * pkWinCnt p)
  match r.1 with
  | some v => (((List.range (pkWinCnt p)).map fun i => BitVec.ofNat 128 (bitsN v (128 * i) 128)).filter winOk, r.2)
  | none => ([], r.2)

/-- The islands on which a launch runs or has windows. -/
def Launch.reaches (l : Launch) (w : List (BitVec 128)) : List Nat :=
  (List.range 16).filter fun i => l.onIsland i || w.any fun v => winIsland v = i

/-- Whether a SNAP launch of the context runs on one of a launch's islands (R392). -/
def State.snapRunning (s : State) (key : Nat) (l : Launch) : Bool :=
  s.launches.any fun p => p.1 ≠ key && p.2.started && !p.2.done && pkSnap p.2.packet && p.2.asid == l.asid &&
    (List.range 16).any fun i => l.onIsland i && p.2.onIsland i

/-- Ends a launch that has not started with a status. -/
def State.failLaunch (s : State) (key st : Nat) : State :=
  match tget? s.launches key with
  | some l =>
    ({ s with launches := tput s.launches key { l with fail := if l.fail = 0 then st else l.fail, started := true } } : State).afterOnce
      l.island 0 .launchComplete [key]
  | none => s

/-- A dispatched launch starts when its conditions hold (R101): each island is handed its island launch (R102). -/
def execLaunchStart (s : State) : Host.Outcome State Fault Refusal :=
  event s fun as s =>
    let key := ar as 0
    match tget? s.launches key with
    | none => s
    | some l =>
      if l.started || l.rolling then s
      else if !s.allPresent l.packet then s.failLaunch key 3
      else
        let seen := (List.range (pkNdep l.packet)).filter fun i =>
          let d := pkDep l.packet i
          l.depsSeen.contains i || depValue d ≤ ((s.isl (depIsland d)).counter (depCounter d)).toNat
        let s : State := { s with launches := tput s.launches key { l with depsSeen := seen } }
        if seen.length < pkNdep l.packet || (pkSnap l.packet && s.snapRunning key l) then s
        else
          let w := s.readWindows l.island l.asid l.priv l.packet
          let isles := (List.range 16).filter fun i => l.onIsland i
          let s := if pkSnap l.packet then (l.reaches w.1).foldl (fun (s : State) i => s.raiseEpoch i l.asid) w.2 else w.2
          let s : State :=
            { s with launches := tput s.launches key { l with depsSeen := seen, started := true, windows := w.1 } }
          let s := isles.foldl (fun (s : State) i =>
            (s.modIsl i fun x => { x with handout := tput x.handout key 0 }).after i 0 .clusterLaunchHandout [i, key]) s
          let c := s.queue l.island l.hostQ l.queue
          if c.starting = some key then
            (s.setQueue l.island l.hostQ l.queue { c with starting := none }).afterOnce l.island 1 .launchDispatch [l.island, b2n l.hostQ, l.queue]
          else s

/-! ## Placing (R95-R97) -/

/-- What a core holds while workgroups are placed on it: the areas taken in its array, and what else it has given away. -/
structure Room where
  core : Nat := 0
  part : Word := 0
  regs : List (Nat × Nat) := []
  scrs : List (Nat × Nat) := []
  cmin : Nat := 6
  slots : Nat := 0
  accs : Nat := 0
  wgs : Nat := 0
  deriving DecidableEq, Repr, Inhabited

/-- A core's room; an ended workgroup holds its scratchpad and accumulator slots until its cluster launch retires (R94). -/
def CoreS.room (k : CoreS) (core : Nat) : Room :=
  let live := (k.places.map (·.2)).filter fun w => !w.ended
  { core := core, part := k.part, regs := live.map fun w => (w.regBase, hdrRegBytes w.hdr),
    scrs := k.places.map fun p => (p.2.scrBase, hdrScrBytes p.2.hdr),
    cmin := k.places.foldl (fun m p => max m (hdrCacheMin p.2.hdr)) 6,
    slots := (live.map fun w => hdrGroups w.hdr).sum, accs := (k.places.map fun p => hdrAccSlots p.2.hdr).sum, wgs := k.places.length }

/-- Whether `n` bytes from `a` meet no taken area. -/
def clearOf (taken : List (Nat × Nat)) (a n : Nat) : Bool := n = 0 || taken.all fun t => t.2 = 0 || t.1 + t.2 ≤ a || a + n ≤ t.1

/-- The lowest free addresses below `top` that hold `n` bytes. -/
def lowestArea (taken : List (Nat × Nat)) (top n : Nat) : Option Nat :=
  ((0 :: taken.map fun t => t.1 + t.2).filter fun a => decide (a + n ≤ top) && clearOf taken a n).min?

/-- The highest free addresses from `bot` up to `top` that hold `n` bytes. -/
def highestArea (taken : List (Nat × Nat)) (bot top n : Nat) : Option Nat :=
  ((top :: taken.map (·.1)).filterMap fun e => if bot + n ≤ e && decide (e ≤ top) && clearOf taken (e - n) n then some (e - n) else none).max?

/-- The areas a workgroup would take on a core under its partition. -/
def Room.takes (r : Room) (h : BitVec 512) : Option (Nat × Nat × Room) :=
  let reg := partReg r.part * unitBytes
  let top := (partReg r.part + partScr r.part - partPin r.part) * unitBytes
  match lowestArea r.regs reg (hdrRegBytes h), highestArea r.scrs reg top (hdrScrBytes h) with
  | some a, some b =>
    if hdrCacheMin h ≤ partCache r.part && r.slots + hdrGroups h ≤ 32 && r.accs + hdrAccSlots h ≤ 8 && r.wgs < 4 then
      some (a, b, { r with regs := r.regs ++ [(a, hdrRegBytes h)], scrs := r.scrs ++ [(b, hdrScrBytes h)],
                           cmin := max r.cmin (hdrCacheMin h), slots := r.slots + hdrGroups h,
                           accs := r.accs + hdrAccSlots h, wgs := r.wgs + 1 })
    else none
  | _, _ => none

/-- The partition that R97 gives a core for a launch. -/
def launchPart (h : BitVec 512) (pin : Nat) : Option Word :=
  let n := coreHolds h pin
  if n = 0 then none
  else
    let reg := unitsFor (n * hdrRegBytes h)
    let scr := unitsFor (n * hdrScrBytes h) + pin
    let cache := 32 - reg - scr
    let extra := cache - 16
    some (BitVec.ofNat 32 (reg + (scr + extra) * 2 ^ 8 + (cache - extra) * 2 ^ 16 + pin * 2 ^ 24))

/-- The room under the partition of R97, where everything on the core still fits it (R97, R204). -/
def Room.repart (r : Room) (h : BitVec 512) : Option Room :=
  match launchPart h (partPin r.part) with
  | none => none
  | some p =>
    let reg := partReg p * unitBytes
    let top := (partReg p + partScr p - partPin p) * unitBytes
    if r.cmin ≤ partCache p && r.regs.all (fun t => t.1 + t.2 ≤ reg) && r.scrs.all (fun t => t.2 = 0 || (reg ≤ t.1 && decide (t.1 + t.2 ≤ top)))
    then some { r with part := p } else none

/-- Where the next workgroup may go, with the rooms as they then stand: on each core whose partition admits it, else on
each that may be re-partitioned for it (R97). -/
def nextPlaces (h : BitVec 512) (rs : List Room) : List ((Nat × Nat × Nat) × List Room) :=
  let put (r : Room) (q : Nat × Nat × Room) : (Nat × Nat × Nat) × List Room :=
    ((r.core, q.1, q.2.1), rs.map fun t => if t.core = r.core then q.2.2 else t)
  let now := rs.filterMap fun r => (r.takes h).map (put r)
  if now.isEmpty then rs.filterMap fun r => (r.repart h).bind fun r' => (r'.takes h).map (put r) else now

/-- Whether some cores admit `n` more workgroups together. -/
def admitAll (h : BitVec 512) : Nat → List Room → Bool
  | 0, _ => true
  | n + 1, rs => match nextPlaces h rs with
    | [] => false
    | p :: _ => admitAll h n p.2

/-- Whether a core may receive a new workgroup (R398, R399). -/
def Island.mayPlace (x : Island) (core : Nat) : Bool := !(x.core core).disabled && !x.sys.coresus.getLsbD core

/-- The rooms of a cluster's cores. -/
def Island.rooms (x : Island) (cluster : Nat) : List Room :=
  ((List.range 4).map fun r => 4 * cluster + r).filter x.mayPlace |>.map fun c => (x.core c).room c

/-- Places for `n` more workgroups from a rank on: which of the cores that may take one does is open. The rank's own core
of the cluster stands first. -/
def State.placeRanks (s : State) (h : BitVec 512) (rank : Nat) : Nat → List Room → List (Nat × Nat × Nat) × List Room × State
  | 0, rs => ([], rs, s)
  | n + 1, rs =>
    let turn := rank % max rs.length 1
    let all := (nextPlaces h (rs.drop turn ++ rs.take turn)).filter fun p => admitAll h n p.2
    let c := s.choose all.length
    match all[c.1]? with
    | some p =>
      let q := State.placeRanks c.2 h (rank + 1) n (p.2.drop (rs.length - turn) ++ p.2.take (rs.length - turn))
      (p.1 :: q.1, q.2)
    | none => ([], rs, s)

/-- A place for each workgroup of a cluster launch: which of the clusters that admit it takes it is open. -/
def State.findPlaces (s : State) (isl : Nat) (h : BitVec 512) : Option (List (Nat × Nat × Nat) × List Room) × State :=
  let x := s.isl isl
  let all := (List.range 32).filter fun k => admitAll h (hdrCluster h) (x.rooms k)
  if all.isEmpty then (none, s)
  else
    let c := s.choose all.length
    let p := c.2.placeRanks h 0 (hdrCluster h) (x.rooms (all.getD c.1 0))
    (some (p.1, p.2.1), p.2.2)

/-- The lowest free accumulator slots of a core. -/
def CoreS.freeAccs (k : CoreS) (n : Nat) : List Nat :=
  ((List.range 8).filter fun i => !(k.places.any fun p => p.2.accMap.contains i)).take n

/-- Takes places for the workgroups of a cluster launch: partitions are written, and each workgroup stands on its place,
waiting. `w` gives a workgroup by rank. -/
def State.takePlaces (s : State) (isl : Nat) (at' : List (Nat × Nat × Nat)) (rs : List Room) (w : Nat → Wg) :
    List (Nat × Nat) × State :=
  let s := rs.foldl (fun (s : State) r =>
    if (((s.isl isl).core r.core).part) = r.part then s else s.writePart isl r.core r.part) s
  (List.range at'.length).foldl (fun (p : List (Nat × Nat) × State) rank =>
    let a := at'.getD rank (0, 0, 0)
    let k := (p.2.isl isl).core a.1
    let place := (tfree k.places 4).getD 0
    let v := w rank
    let v : Wg := { v with regBase := a.2.1, scrBase := a.2.2, accMap := k.freeAccs (hdrAccSlots v.hdr), waiting := true }
    (p.1 ++ [(a.1, place)], p.2.modIsl isl fun x => x.modCore a.1 fun k =>
      { k with places := tput k.places place v, acc := k.acc.filter fun q => !v.accMap.contains (q.1 / 16384),
               accMeta := k.accMeta.filter fun q => !v.accMap.contains q.1 })) ([], s)

/-! ## Cluster launches (R94, R102) -/

/-- The ordinal of an island among those of a mask. -/
def ordinalOf (mask isl : Nat) : Nat := ((islandsOf mask).filter fun i => i < isl).length

/-- A workgroup of a launch. -/
def Launch.wgOf (l : Launch) (key cl num isl rank : Nat) : Wg :=
  let ord := if l.hostQ then ordinalOf (pkIslMask l.packet) isl else 0
  { launch := key, cl := cl, rank := rank, wid3 := BitVec.ofNat 64 num, wid4 := BitVec.ofNat 64 (ord % pkE4 l.packet),
    wid5 := BitVec.ofNat 64 (ord / pkE4 l.packet), asid := l.asid, priv := l.priv, hdr := l.hdr }

/-- The next cluster launch of an island launch is handed to a cluster that admits it; else it waits for room (R97, R102). -/
def execClusterLaunchHandout (s : State) : Host.Outcome State Fault Refusal :=
  event s fun as s =>
    let isl := ar as 0
    let key := ar as 1
    match tget? (s.isl isl).handout key, tget? s.launches key with
    | some n, some l =>
      match s.findPlaces isl l.hdr with
      | (none, s) => s
      | (some (a, rs), s) =>
        let cl := s.nextId
        let s : State := { s with nextId := cl + 1 }
        let cx := s.ctxEntry isl l.asid
        let p := cx.2.takePlaces isl a rs fun r => { l.wgOf key cl n isl r with priv := cxPriv cx.1 }
        let all : BitVec 12 := BitVec.ofNat 12 (hdrCluster l.hdr * hdrGroups l.hdr)
        let c : Cl := { launch := key, num := n, cluster := clusterOf ((a.getD 0 (0, 0, 0)).1), ranks := p.1, b0 := { exp := all, rem := all } }
        let s := p.2.modIsl isl fun x =>
          { x with cls := tput x.cls cl c, handout := if n + 1 < pkNcl l.packet then tput x.handout key (n + 1) else tdel x.handout key }
        let s := s.after isl 0 .workgroupStart [isl, cl]
        if n + 1 < pkNcl l.packet then s.afterOnce isl 0 .clusterLaunchHandout [isl, key] else s
    | _, _ => s

/-! ## The start of workgroups (R92, R135, R386) -/

/-- What making overlays resident for a workgroup comes to. -/
inductive Ready where
  | yes | wait | never
  deriving DecidableEq, Repr, Inhabited

/-- Makes overlays resident for a workgroup and pins each once, however many of its pointers name it (R135); the flag of each
refuses a matrix stream. -/
def State.startOverlays (s : State) (isl core place : Nat) (pinned : List (BitVec 19)) : List (Word × Bool) → Ready × State
  | [] => (.yes, s)
  | (cp, stream) :: r =>
    let w := ((s.isl isl).wg? core place).getD {}
    let h := cpHandle cp
    match s.makeResident isl core w.launch w.asid w.priv h stream with
    | (.wait, s) => (.wait, s)
    | (.never _, s) => (.never, s)
    | (.done, s) =>
      if pinned.contains h then s.startOverlays isl core place pinned r
      else (s.modIsl isl fun x => x.modCore core fun k => k.pin place w.asid h 1).startOverlays isl core place (h :: pinned) r

/-- The overlays of every workgroup of a cluster launch. -/
def State.startAll (s : State) (isl : Nat) (cps : Wg → List (Word × Bool)) : List (Nat × Nat) → Ready × State
  | [] => (.yes, s)
  | (core, place) :: r =>
    let w := ((s.isl isl).wg? core place).getD {}
    let s := s.modIsl isl fun x => x.modCore core fun k => k.unpinPlace place
    match s.startOverlays isl core place [] (cps w) with
    | (.yes, s) => s.startAll isl cps r
    | p => p

/-- The frames that the groups of a cluster launch take, lowest first; none while there are too few (R386). -/
def Island.freeFrames (x : Island) (asid : BitVec 16) (n : Nat) : Option (List Nat) :=
  let used := (x.frames.filter fun p => p.1 = asid.toNat).map (·.2)
  let free := ((List.range 4096).filter fun i => !used.contains i).take n
  if free.length = n then some free else none

/-- The private base of a frame (R386). -/
def privBase (c : BitVec 512) (h : BitVec 512) (frame : Nat) : Nat := (cxPrivbase c + frame * Config.width * hdrPrivate h) % 2 ^ 64

/-- The uniform registers of a group at its start (R92, R386). -/
def startUniforms (h : BitVec 512) (arg : VA) (c : BitVec 512) (frame : Option Nat) : Tbl Word :=
  let w (n i : Nat) : Word := BitVec.ofNat 32 (bitsN n (32 * i) 32)
  (if 3 ≤ hdrUniforms h then [(0, w arg.toNat 0), (1, w arg.toNat 1), (2, w arg.toNat 2)] else []) ++
    match frame with
    | some f => if 6 ≤ hdrUniforms h then
        [(3, w (cxPrivbase c) 2), (4, w (privBase c h f) 0), (5, w (privBase c h f) 1)] else []
    | none => []

/-- A group at its start (R92). -/
def startGroup (h : BitVec 512) (code : Word) (place g age : Nat) (s : Tbl Word) (frame : Option Nat) : Group :=
  let copy : Bool := bitsN (hdrRoleMask h) g 1 = 1
  { place := place, gidx := g, role := if copy then .copy else .vector, tvec := hdrTrapEntry h, s := s, frame := frame, age := age,
    threads := (List.range (2 ^ hdrW h 0)).map fun l => (l, { cp := if copy then hdrCopyEntry h else code }) }

/-- Starts a workgroup on its place (R92, R300, R386); a rerun takes the frames of the original. -/
def State.startWg (s : State) (isl core place : Nat) (code : Word) (arg : VA) (frames : List Nat) : State :=
  let w := ((s.isl isl).wg? core place).getD {}
  let c := s.ctxEntry isl w.asid
  let n : BitVec 12 := BitVec.ofNat 12 (hdrGroups w.hdr)
  let priv : Bool := hdrPrivate w.hdr ≠ 0
  let take (g : Nat) : Option Nat := if priv then (if w.audit.isSome then tget? w.frames g else frames[g]?) else none
  let s := (List.range (hdrGroups w.hdr)).foldl (fun (s : State) g => s.modIsl isl fun x => x.modCore core fun k =>
    let gr := startGroup w.hdr code place g (k.ages + 1) (startUniforms w.hdr arg c.1 (take g)) (take g)
    { k with ages := k.ages + 1, groups := tput k.groups ((tfree k.groups 32).getD 0) gr }) c.2
  let bars : Tbl Bar := (List.range 15).map fun i => (i + 1, { exp := n, rem := n })
  let used : List (Nat × Nat) := if priv && w.audit.isNone then frames.map fun f => (w.asid.toNat, f) else []
  let s := s.modIsl isl fun x =>
    { (x.modWg core place fun w =>
        { w with waiting := false, bars := bars, ctx := if hdrAccSlots w.hdr = 0 then none else some {},
                 frames := if priv && w.audit.isNone then (List.range frames.length).zip frames else w.frames }) with
      frames := x.frames ++ used }
  s.afterOnce isl (256 - s.cyc isl % 256) .urgencyEvaluation [isl, core]

/-- Withdraws what has not started of a launch that cannot start: it completes with REJECTED (R135). -/
def State.rejectLaunch (s : State) (key : Nat) : State :=
  let s : State := { s with launches := tmod s.launches key fun l => { l with fail := if l.fail = 0 then 2 else l.fail } }
  (s.islands.map (·.1)).foldl (fun (s : State) i => s.modIsl i fun x => { x with handout := tdel x.handout key }) s

/-- Takes a cluster launch that has not started off its places. -/
def State.dropCl (s : State) (isl cl : Nat) : State :=
  match tget? (s.isl isl).cls cl with
  | none => s
  | some c =>
    let s := c.ranks.foldl (fun (s : State) r => s.modIsl isl fun x => x.modCore r.1 fun k =>
      { k.unpinPlace r.2 with places := tdel k.places r.2 }) s
    (s.modIsl isl fun x => { x with cls := tdel x.cls cl }).kickPlaces isl

/-- The overlays a workgroup needs at its start, in order (R135): COPYENTRY's and TRAPENTRY's where they are nonzero. -/
def startCps (code : Word) (w : Wg) : List (Word × Bool) :=
  (code, true) :: [(hdrCopyEntry w.hdr, true), (hdrTrapEntry w.hdr, false)].filter fun p => p.1 ≠ 0

/-- The workgroups of a cluster launch start in one cycle (R94), once their overlays are resident and their groups have
frames; else they wait (R135, R386). -/
def execWorkgroupStart (s : State) : Host.Outcome State Fault Refusal :=
  event s fun as s =>
    let isl := ar as 0
    let cl := ar as 1
    match tget? (s.isl isl).cls cl with
    | none => s
    | some c =>
      let l := tgetD s.launches c.launch {}
      let w0 := match c.ranks with
        | r :: _ => ((s.isl isl).wg? r.1 r.2).getD {}
        | [] => {}
      if !w0.waiting || w0.killed then s
      else
        let again (s : State) : State := s.afterOnce isl 64 .workgroupStart [isl, cl]
        match s.startAll isl (startCps (pkCodeptr l.packet)) c.ranks with
        | (.wait, s) => again s
        | (.never, s) =>
          match w0.audit with
          | some a => s.afterOnce isl 0 .auditTimeout [isl, a]
          | none => ((s.rejectLaunch c.launch).dropCl isl cl).checkLaunch c.launch
        | (.yes, s) =>
          let n := hdrGroups l.hdr
          let need := if hdrPrivate l.hdr = 0 || w0.audit.isSome then 0 else n * c.ranks.length
          match (s.isl isl).freeFrames l.asid need with
          | none => again s
          | some fs => (List.range c.ranks.length).foldl (fun (s : State) i =>
              let r := c.ranks.getD i (0, 0)
              s.startWg isl r.1 r.2 (pkCodeptr l.packet) (pkArgVa l.packet) ((fs.drop (n * i)).take (if need = 0 then 0 else n))) s

/-! ## Ends (R93, R94, R104, R395, R396) -/

/-- A core's releasing `NTFY`: the completion event of a workgroup (R93, R308). -/
def State.coreNotify (s : State) (isl core key ctr : Nat) : State :=
  let o : Op := { agent := .unit core, instr := .ntfy default false (.imm 0) (.imm 1), launch := key, released := false, pushed := true,
                  a := BitVec.ofNat 64 ctr, b := 1, place := 4 }
  let p := s.newOp isl o
  let m := p.2.pushLines isl core p.1
  (m.2.modOp isl p.1 fun o => { o with pushes := m.1 }).releaseStep isl p.1

/-- A workgroup ends (R93): its registers, slots, context and pins are free, its completion event is published or held
(R395), and it may be selected for an audit (R396). -/
def execWorkgroupEnd (s : State) : Host.Outcome State Fault Refusal :=
  event s fun as s =>
    let isl := ar as 0
    let core := ar as 1
    let place := ar as 2
    if !(s.isl isl).wgDone core place then s
    else
      let w := ((s.isl isl).wg? core place).getD {}
      let l := tgetD s.launches w.launch {}
      let s := s.modIsl isl fun x => (x.modWg core place fun w => { w with ended := true, ctx := none, gone := [], goneS := [] }).modCore
        core fun k => k.unpinPlace place
      match w.audit with
      | some a => s.afterOnce isl 0 .auditRerunEnd [isl, a]
      | none =>
        let s := if !pkWgn l.packet || w.killed then s
          else if pkReplay l.packet then
            { s with launches := tmod s.launches w.launch fun l =>
                { l with heldEvents := tput l.heldEvents (128 * isl + core) (tgetD l.heldEvents (128 * isl + core) 0 + 1) } }
          else s.coreNotify isl core w.launch (pkWgnc l.packet)
        let s := if hdrAud w.hdr && pkSnap l.packet && hdrCluster w.hdr = 1 && !w.killed then
            let c := s.choose 4096
            if c.1 < (s.isl isl).sys.auditfrac.toNat then
              let a := c.2.nextId
              let s : State := { c.2 with nextId := a + 1 }
              let u : Audit := { launch := w.launch, core := core, num := w.wid3.toNat, wg := { w with scr := [], gone := [], goneS := [] } }
              ((s.modIsl isl fun x => { x with audits := tput x.audits a u }).after isl 0 .auditRerunStart [isl, a]).afterPs 10000000000
                .auditTimeout [isl, a]
            else c.2
          else s
        let s := s.kickPlaces isl
        match tget? (s.isl isl).cls w.cl with
        | some c =>
          if c.ranks.all fun r => ((s.isl isl).wg? r.1 r.2).all (·.ended) then s.afterOnce isl 0 .clusterLaunchRetire [isl, w.cl]
          else s.checkParked isl w.cl
        | none => s

/-- A cluster launch retires (R94): its scratchpads and accumulator slots are free. -/
def execClusterLaunchRetire (s : State) : Host.Outcome State Fault Refusal :=
  event s fun as s =>
    let isl := ar as 0
    let cl := ar as 1
    match tget? (s.isl isl).cls cl with
    | none => s
    | some c =>
      if !(c.ranks.all fun r => ((s.isl isl).wg? r.1 r.2).all (·.ended)) then s
      else
        let s := s.dropCl isl cl
        -- a `CTXSV` of it ends: killed during the save, or no longer running (R390)
        let dead : Bool := match tget? s.launches c.launch with
          | some l => l.killed || l.fail ≠ 0
          | none => true
        let s := match c.saving with
          | some id => (s.modOp isl id fun o => { o with res := if dead then 4 else 1 }).replyIn isl (halfTrip (((s.op? isl id).getD {}).core)) id
          | none => s
        s.checkLaunch c.launch

/-- The status of a launch that has ended (R105). -/
def Launch.status (l : Launch) : Nat :=
  if l.fail ≠ 0 then l.fail else if l.killed then 4 else if l.replays ≠ 0 then 5 else 1

/-- Takes a parent out of the device queues of an island: the packets it made visible go on, or are discarded with TAIL
restored (R106). -/
def State.endParent (s : State) (isl key : Nat) (discard : Bool) : State :=
  (s.isl isl).sys.dq.foldl (fun (s : State) (p : Nat × DWord) =>
    let c := s.queue isl false p.1
    match c.parents.find? fun q => q.2 = key with
    | none => s
    | some (first, _) =>
      if discard then
        (s.setQueue isl false p.1 { c with parents := c.parents.filter fun q => q.1 < first, seen := first }).writeHomeN isl (qePa p.2 + 24) 8 first
      else
        (s.setQueue isl false p.1 { c with parents := c.parents.map fun q => if q.2 = key then (q.1, 0) else q }).afterOnce isl 1
          .launchDispatch [isl, 0, p.1]) s

/-- Whether the device queues' descriptors with packets of a parent may be written now. -/
def State.tailsQuiet (s : State) (isl key : Nat) : Bool :=
  (s.isl isl).sys.dq.all fun p => !((s.queue isl false p.1).parents.any fun q => q.2 = key) || (s.isl isl).quietRange (qePa p.2) 64

/-- Frees the pages a launch's snapshots took in the pools, and its launch number (R103, R393). -/
def State.forgetLaunch (s : State) (key : Nat) : State :=
  let s := (s.islands.map (·.1)).foldl (fun (s : State) i => s.modIsl i fun x => { x with pageLogs := x.pageLogs.filter fun g => g.launch ≠ key }) s
  { s with launches := tdel s.launches key }

/-- A launch completes (R104, R395): held completion events, STATUS, the launch completion; a queue halts on a status that
halts it (R105); packets that it made visible go on or are discarded (R106). -/
def execLaunchComplete (s : State) : Host.Outcome State Fault Refusal :=
  event s fun as s =>
    let key := ar as 0
    match tget? s.launches key with
    | none => s
    | some l =>
      let isles := s.islesOf l
      let again (s : State) (n : Nat) : State := s.afterOnce l.island n .launchComplete [key]
      if l.rolling then s.afterOnce l.island 0 .launchRollback [key]
      else if !(isles.all fun i => (s.isl i).launchGone key) then s
      else if !l.heldEvents.isEmpty then
        let s := l.heldEvents.foldl (fun (s : State) p =>
          (List.range p.2).foldl (fun (s : State) _ => s.coreNotify (p.1 / 128) (p.1 % 128) key (pkWgnc l.packet)) s) s
        again { s with launches := tput s.launches key { l with heldEvents := [] } } 16
      else if pkReplay l.packet && isles.any fun i => (s.isl i).ops.any fun p => p.2.launch = key && match p.2.agent with
          | .unit _ => true
          | .group _ _ | .seq _ _ | .island => false then again s 16
      else
        let e := (s.isl l.island).qEntry l.hostQ l.queue
        if !s.vaQuiet l.island l.asid l.priv (vaPlus l.slotVa 7) 1 || !(s.isl l.island).quietRange (qePa e) 64 ||
            !(isles.all fun i => s.tailsQuiet i key) then again s 1
        else
          let st := l.status
          let s := (s.writeVa l.island 0 noPlace l.asid l.priv 0 (vaPlus l.slotVa 7) [BitVec.ofNat 8 st]).2
          let published := st = 1 || st = 4 || st = 5
          let s := if pkLn l.packet && published then s.notify (pkLni l.packet) (pkLnc l.packet) 1 else s
          let s := isles.foldl (fun (s : State) i => s.endParent i key (st = 2 || st = 6)) s
          let s := if published then s else s.haltQueue l.island l.hostQ l.queue st
          let c := s.queue l.island l.hostQ l.queue
          let s := if c.starting = some key then s.setQueue l.island l.hostQ l.queue { c with starting := none } else s
          (s.forgetLaunch key).kickQueues

end Sys2Proof.Machine
end

