-- ==== Sys2Proof/Machine/Rollback.lean ====
section
/-! DEFINITION. Rollback and replay of launches (R394, R395), and the replay auditor (R396-R398). -/

namespace Sys2Proof.Machine

/-! ## Rollback (R394) -/

/-- Whether a launch may be replayed (R394). -/
def Launch.replayable (l : Launch) : Bool :=
  pkReplay l.packet && pkSnap l.packet && !l.nonReplayable && decide (l.replays < 3)

/-- The lowest OPEN hypothesis of a launch on an island (R277). -/
def Island.openHyp (x : Island) (num : Nat) : Option Nat :=
  (x.hyps.find? fun p => p.1 ≠ 0 && p.2.st = .opened && p.2.launch.toNat = num).map (·.1)

/-- Refutes the launch's hypotheses on an island one after another; true once none is OPEN and none is being resolved. -/
def State.refuteAll (s : State) (isl num : Nat) : Bool × State :=
  if (s.isl isl).resolve.isSome then (false, s)
  else match (s.isl isl).openHyp num with
    | some h => (false, s.acceptResolve isl { op := 0, id := BitVec.ofNat 8 h, confirm := false })
    | none => (true, s)

/-- Copies the pages that a launch's snapshots hold back, the first copy of a page last, and frees them (R393, R394). -/
def State.restorePages (s : State) (isl key : Nat) : State :=
  let mine := (s.isl isl).pageLogs.filter fun g => g.launch = key
  let pool := fld (s.isl isl).sys.snpool 0 48
  let s := mine.reverse.foldl (fun (s : State) (g : PageLog) =>
    let bytes := s.readHome isl 0 65536 (pool + 65536 * g.pool)
    match g.pin with
    | some (c, k) => (s.softWrite isl c (.pin c (65536 * k)) 65536).modIsl isl fun x => x.modCore c fun k' =>
        { k' with pinned := memWriteN k'.pinned (65536 * k) bytes }
    | none => s.writeHome isl g.pa 0 bytes) s
  s.modIsl isl fun x => { x with pageLogs := x.pageLogs.filter fun g => g.launch ≠ key }

/-- Whether the pages to be restored are quiet. -/
def Island.pagesQuiet (x : Island) (key : Nat) : Bool :=
  x.pageLogs.all fun g => g.launch ≠ key || g.pin.isSome || x.quietRange g.pa 65536

/-- A launch that is rolled back and has drained: its hypotheses are refuted, its packets discarded, its pages restored,
and the packet is dispatched again (R394); one that has in the meantime been given a status completes with it. -/
def State.replay (s : State) (key : Nat) (l : Launch) : State :=
  let isles := s.islesOf l
  let again (s : State) : State := s.afterOnce l.island 16 .launchRollback [key]
  let p := isles.foldl (fun (p : Bool × State) i => let q := p.2.refuteAll i l.num; (p.1 && q.1, q.2)) (true, s)
  let s := p.2
  if !p.1 then again s
  else if !(isles.all fun i => s.tailsQuiet i key && (s.isl i).pagesQuiet key) then again s
  else
    let s := isles.foldl (fun (s : State) i => s.endParent i key true) s
    let s := (s.islands.map (·.1)).foldl (fun (s : State) i => s.restorePages i key) s
    let back (l : Launch) : Launch :=
      if l.fail = 0 then
        { l with rolling := false, killed := false, started := false, retired := [], heldEvents := [], replays := l.replays + 1 }
      else { l with rolling := false }
    let s : State := { s with launches := tmod s.launches key back }
    if l.fail = 0 then s.after l.island 0 .launchStart [key] else s.afterOnce l.island 0 .launchComplete [key]

/-- A launch that has consumed poison, or whose audit has found a mismatch, is killed; where it is replayable it is rolled
back once it has drained, else it completes with ERROR (R394). -/
def State.rollBack (s : State) (key : Nat) : State :=
  match tget? s.launches key with
  | none => s
  | some l =>
    if l.rolling || l.killed || l.fail ≠ 0 then s
    else
      let mark (l : Launch) : Launch := if l.replayable then { l with rolling := true } else { l with fail := 6 }
      ({ s with launches := tput s.launches key (mark l) } : State).killLaunch key

def execLaunchRollback (s : State) : Host.Outcome State Fault Refusal :=
  event s fun as s =>
    let key := ar as 0
    match tget? s.launches key with
    | none => s
    | some l =>
      let isles := s.islesOf l
      if !l.rolling then s.rollBack key
      else if isles.all fun i => (s.isl i).launchGone key then s.replay key l
      else s

/-! ## Audits (R396-R398) -/

/-- The cores that may take a rerun: of the other half, not suspect, with room or with a partition that gives room. -/
def Island.auditRooms (x : Island) (u : Audit) : List ((Nat × Nat × Nat) × Room) :=
  let h := u.wg.hdr
  ((List.range 64).map fun i => i + 64 * (1 - halfOf u.core)).filterMap fun c =>
    if !x.mayPlace c then none
    else
      let r := (x.core c).room c
      match r.takes h with
      | some q => some ((c, q.1, q.2.1), q.2.2)
      | none => (r.repart h).bind fun r' => (r'.takes h).map fun q => ((c, q.1, q.2.1), q.2.2)

/-- A rerun's workgroup as it stands before its start: the original's identity and frames, and nothing written. -/
def Audit.start (u : Audit) (a cl : Nat) : Wg :=
  { launch := u.launch, cl := cl, wid3 := u.wg.wid3, wid4 := u.wg.wid4, wid5 := u.wg.wid5, asid := u.wg.asid, priv := u.wg.priv,
    hdr := u.wg.hdr, frames := u.wg.frames, audit := some a }

/-- A selected workgroup is re-run on a core of the other half once one can admit it (R396). -/
def execAuditRerunStart (s : State) : Host.Outcome State Fault Refusal :=
  event s fun as s =>
    let isl := ar as 0
    let a := ar as 1
    match tget? (s.isl isl).audits a with
    | none => s
    | some u =>
      let all := (s.isl isl).auditRooms u
      if u.rerun.isSome || all.isEmpty then s
      else
        let c := s.choose all.length
        let q := all.getD c.1 ((0, 0, 0), {})
        let cl := c.2.nextId
        let s : State := { c.2 with nextId := cl + 1 }
        let p := s.takePlaces isl [q.1] [q.2] (fun _ => u.start a cl)
        let n : BitVec 12 := BitVec.ofNat 12 (hdrGroups u.wg.hdr)
        let k : Cl := { launch := u.launch, num := u.num, cluster := clusterOf q.1.1, ranks := p.1, b0 := { exp := n, rem := n } }
        (p.2.modIsl isl fun x =>
          { x with cls := tput x.cls cl k, audits := tput x.audits a { u with rerun := p.1.head? } }).after isl 0 .workgroupStart [isl, cl]

/-- Takes an audit out; the launch may now complete (R396). -/
def State.endAudit (s : State) (isl a key : Nat) : State :=
  (s.modIsl isl fun x => { x with audits := tdel x.audits a }).checkLaunch key

/-- The place of a rerun that has ended. -/
def Island.rerunOf (x : Island) (a : Nat) : Option (Nat × Nat × Wg) :=
  x.cores.findSome? fun k => (k.2.places.find? fun p => p.2.audit = some a && p.2.ended).map fun p => (k.1, p.1, p.2)

/-- A rerun ends: the signatures are compared (R398). A rerun that was abandoned gives no verdict (R397). -/
def execAuditRerunEnd (s : State) : Host.Outcome State Fault Refusal :=
  event s fun as s =>
    let isl := ar as 0
    let a := ar as 1
    match (s.isl isl).rerunOf a with
    | none => s
    | some (_, _, w) =>
      let u := tget? (s.isl isl).audits a
      let s := s.dropCl isl w.cl
      match u with
      | none => s.checkLaunch w.launch
      | some u =>
        if w.killed || w.sig == u.wg.sig then s.endAudit isl a w.launch
        else
          let r : RecArgs :=
            { code := 0x31, info := u.wg.sig, origInfo := w.sig, launch := launchNum w.launch, asid := w.asid,
              agent := agentWord 5 u.core 0, source := 5 }
          let s := s.post isl { bits := recordBits r }
          let s := s.modIsl isl fun x => { x with sys := { x.sys with coresus := x.sys.coresus ||| (1#128 <<< u.core) } }
          (s.rollBack w.launch).endAudit isl a w.launch

/-- An audit is abandoned without a verdict (R397): its rerun is taken off its core. -/
def execAuditTimeout (s : State) : Host.Outcome State Fault Refusal :=
  event s fun as s =>
    let isl := ar as 0
    let a := ar as 1
    match tget? (s.isl isl).audits a with
    | none => s
    | some u =>
      match u.rerun with
      | none => s.endAudit isl a u.launch
      | some (core, place) =>
        if ((s.isl isl).wg? core place).all fun w => w.ended || w.audit ≠ some a then s
        else (s.modIsl isl fun x => x.modWg core place fun w => { w with killed := true }).killWg isl core place

/-- Whether a rerun is abandoned at an instruction (R397). -/
def auditStop (e : Env) (i : Instr) : Bool :=
  match i with
  | .cpyb _ _ y => e.any && bdMcast (e.desc8 y) ≠ 0
  | .ntfy .. | .ntfySet .. | .nwait .. | .pbarInit .. | .pbarArv .. | .pbarWait .. | .pbarArw .. => true
  | .hypOpen .. | .hypEnter .. | .hypLeave .. | .hypResolveConfirm .. | .hypResolveRefute .. | .hypQry .. | .hypQryCur .. => true
  | .put .. | .get .. | .ratom .. | .rntfy .. | .rfence .. | .coll .. | .route .. | .topq .. => true
  | i => 0xD8 ≤ opcOf i

/-- The audit of a group whose next instruction its rerun may not execute. -/
def State.auditHalts (s : State) (isl core gid : Nat) (i : Instr) : Option Nat :=
  match s.env? isl core gid (ctlOf i) with
  | some e => if auditStop e i then e.wg.audit else none
  | none => none

end Sys2Proof.Machine
end

