-- ==== Sys2Proof/Machine/Removal.lean ====
section
/-! DEFINITION. The removal of an island from the topology (R389, R359, R314, R364, R367) and its heartbeats (R417). -/

namespace Sys2Proof.Machine

/-- Sets the state of a site in a table. -/
def setSite (t : Tbl Site) (isl st : Nat) : Tbl Site := tput t isl { tgetD t isl {} with st := st }

/-- Ends the launches that name a removed island: ABSENT where they still wait, else ERROR (R100, R389). -/
def State.dropLaunchesOf (s : State) (isl : Nat) : State :=
  s.launches.foldl (fun (s : State) (p : Nat × Launch) =>
    if !p.2.onIsland isl || p.2.fail ≠ 0 then s
    else if !p.2.started && !p.2.rolling then s.failLaunch p.1 3
    else ({ s with launches := tmod s.launches p.1 fun l => { l with fail := 6 } } : State).killLaunch p.1) s

/-- The active route table forgets a site: its entry's V is 0 until the driver activates a table that includes it (R418). -/
def Island.dropRoute (x : Island) (t : Nat) : Island :=
  let i := 16 * b2n x.sys.rtact + t
  { x with sys := { x.sys with rtab := tmod x.sys.rtab i fun e => BitVec.ofNat 64 (e.toNat % 2 ^ 63) } }

/-- An island is removed: excluded, or quarantined. The Bellwether publishes its state, and what needs the island is
discarded or broken; the island stops issue, its launches end, and waiting launches look again (R389). -/
def execIslandRemoval (s : State) : Host.Outcome State Fault Refusal :=
  event s fun as s =>
    let isl := ar as 0
    let st := ar as 1
    match s.bellIsland with
    | none => s
    | some b =>
      if s.siteState isl ≠ 1 then s
      else if !s.topoQuiet then s.after b 1 .islandRemoval as
      else
        let s := s.publish fun t => setSite t isl st
        let s : State := { s with islands := tmap s.islands fun i x => if i = isl then x else x.dropRoute isl }
        let s := ((s.discardVia isl).breakNaming isl).collsWithout isl
        let s := (s.haltIsland isl).modIsl isl fun x =>
          { x with dark := true,
                   fstat := if st = 3 then x.fstat else { x.fstat with phase := if x.half0.failed || x.half1.failed then 6 else 5, ordy := false, mrdy := false, qrdy := false } }
        let s := if st = 3 then s.postEvent b 4 0 0 isl 0 else s
        (s.dropLaunchesOf isl).kickQueues

/-! ## Heartbeats (R417) -/

/-- The period of the heartbeats, and the time after which they are lost, in picoseconds. -/
def beatPeriod : Nat := 100000000
def beatLimit : Nat := 1000000000

/-- A heartbeat passes between the Bellwether and a present island, in each direction unless it is lost: which are lost is
open. -/
def execHeartbeat (s : State) : Host.Outcome State Fault Refusal :=
  event s fun as s =>
    let isl := ar as 0
    if s.bellIsland.isNone || s.siteState isl ≠ 1 then s
    else
      let c := s.choose 4
      let s := c.2.modIsl isl fun x =>
        { x with heardAt := if c.1 % 2 = 0 then s.now else x.heardAt, beatAt := if c.1 / 2 = 0 then s.now else x.beatAt }
      let x := s.isl isl
      let s := if x.heardAt + beatLimit ≤ s.now || x.beatAt + beatLimit ≤ s.now then s.afterPs 1 .heartbeatLoss [isl] else s
      s.afterPs beatPeriod .heartbeat [isl]

/-- Heartbeats have been missing for 1 ms. Where every other present island misses the Bellwether's, each of them halts
and posts BELLLOST; else the island is quarantined (R389, R417). -/
def execHeartbeatLoss (s : State) : Host.Outcome State Fault Refusal :=
  event s fun as s =>
    let isl := ar as 0
    match s.bellIsland with
    | none => s
    | some b =>
      let others := s.presentIsles.filter fun i => i ≠ b
      if s.siteState isl ≠ 1 || s.bellLost then s
      else if others.all fun i => (s.isl i).heardAt + beatLimit ≤ s.now then
        others.foldl (fun (s : State) i => (s.haltIsland i).postEvent i 7 0 0 b 0) { s with bellLost := true }
      else s.after b 0 .islandRemoval [isl, 3]

end Sys2Proof.Machine
end

