-- ==== Sys2Proof/Machine/Formation.lean ====
section
/-! DEFINITION. Formation of the panel: the boot of the halves (R409, R410), training (R411), exploration (R412), election
and publication (R413-R416), and the return of an island (R418). -/

namespace Sys2Proof.Machine

/-! ## The boot of a half (R409, R410) -/

def Island.half (x : Island) (h : Nat) : Half := if h = 0 then x.half0 else x.half1

/-- Changes a half. -/
def Island.modHalf (x : Island) (h : Nat) (f : Half → Half) : Island :=
  if h = 0 then { x with half0 := f x.half0 } else { x with half1 := f x.half1 }

/-- Whether an island passes: both of its halves have passed steps 1 to 3 and none has failed (R409). -/
def Island.passes (x : Island) : Bool :=
  decide (3 ≤ x.half0.step) && !x.half0.failed && decide (3 ≤ x.half1.step) && !x.half1.failed

/-- Whether an island has posted its self-failed mark. -/
def Island.selfFailed (x : Island) : Bool := x.half0.failed || x.half1.failed

/-- The image the ROM accepts: slot A, else slot B, else none; a slot with no image fails (R410). -/
def bootImage (f : Flash) (least : Nat) : Option (Nat × Nat) :=
  match f.slotA.filter fun i => i.accepted f.rom least, f.slotB.filter fun i => i.accepted f.rom least with
  | some i, _ => some (0, i.version)
  | none, some i => some (1, i.version)
  | none, none => none

/-- Whether the two halves run different firmware versions. -/
def Island.versionsDiffer (x : Island) : Bool :=
  match x.half0.image, x.half1.image with
  | some a, some b => a.2 ≠ b.2
  | _, _ => false

/-- The deadline of a step, in picoseconds since power-good (R409). -/
def stepDeadline (k : Nat) : Nat :=
  match k with
  | 1 => 200000000000
  | 2 => 600000000000
  | 3 => 900000000000
  | 4 => 1000000000000
  | _ => 1200000000000

/-- Every populated site. -/
def State.populatedSites (s : State) : List Nat := (List.range 16).filter fun i => s.populated.getLsbD i

/-- Power-good: every half boots (R409, R410). -/
def execPowerGood (s : State) : Host.Outcome State Fault Refusal :=
  event s fun _ s =>
    let pop := s.populatedSites
    let s := pop.foldl (fun (s : State) i =>
      let s := s.modIsl i fun x =>
        { x with half0 := { image := bootImage x.flash x.flash.min0 }, half1 := { image := bootImage x.flash x.flash.min1 } }
      let t := s.someTime
      t.2.afterPs t.1 .cxlLinkTraining [i]) s
    let s := [1, 2, 3, 4].foldl (fun (s : State) k => pop.foldl (fun (s : State) i =>
      [0, 1].foldl (fun (s : State) h => s.at (.ps (s.now + stepDeadline k)) (.row .formationDeadline [i, h, k])) s) s) s
    s.at (.ps (s.now + stepDeadline 4)) (.row .election [])

/-- An island's host port has trained: it serves CXL.io (R419). -/
def execCxlLinkTraining (s : State) : Host.Outcome State Fault Refusal :=
  event s fun as s => s.modIsl (ar as 0) fun x => { x with host := { x.host with cxlUp := true } }

/-! ## Training (R411) -/

/-- Whether a link can be trained from an island: its port works, and a partner with a running H0 stands at its end. -/
def State.partnered (s : State) (isl port : Nat) : Bool :=
  s.trains isl port && !(s.isl isl).half0.failed &&
    (7 ≤ port || match s.farEnd isl port with
      | some (j, _) => s.populated.getLsbD j && !(s.isl j).half0.failed
      | none => false)

/-- Has every port of an island train. -/
def State.trainAll (s : State) (isl : Nat) : State :=
  ((List.range 14).map (· + 1)).foldl (fun (s : State) p =>
    let t := s.someTime
    t.2.afterPs t.1 .linkTraining [isl, p, b2n (s.partnered isl p)]) s

/-- A port trains and passes its loopback test, or stays closed; the island notes it in its own site's entry. -/
def execLinkTraining (s : State) : Host.Outcome State Fault Refusal :=
  event s fun as s =>
    let isl := ar as 0
    let port := ar as 1
    let on : Bool := ar as 2 = 1 && s.partnered isl port
    s.modIsl isl fun x => { x with topo := { x.topo with sites := setLink x.topo.sites isl port on } }

/-- The passed waveguide links of an island, as it noted them: port and partner. -/
def State.passedLinks (s : State) (isl : Nat) : List (Nat × Nat) :=
  ((List.range 6).map (· + 1)).filterMap fun p =>
    match s.farEnd isl p with
    | some (j, q) =>
      if (tgetD (s.isl isl).topo.sites isl {}).links.getLsbD (p - 1) && (tgetD (s.isl j).topo.sites j {}).links.getLsbD (q - 1)
      then some (p, j) else none
    | none => none

/-! ## The deadlines of the steps (R409, R421) -/

/-- A half that fails posts the self-failed mark of its island, which is held dark: nothing there is usable, the half's OK
bit stands only if it had passed step 3, and HRDY only if both halves had passed step 2 (R409, R421). -/
def State.failHalf (s : State) (isl h : Nat) : State :=
  s.modIsl isl fun x =>
    let past := (x.half h).step
    { x.modHalf h (fun b => { b with failed := true }) with
      dark := true
      fstat := { x.fstat with phase := 6, ordy := false, mrdy := false, qrdy := false, hrdy := x.fstat.hrdy && decide (2 ≤ past),
                              h0ok := x.fstat.h0ok && (h ≠ 0 || decide (3 ≤ past)), h1ok := x.fstat.h1ok && (h = 0 || decide (3 ≤ past)) } }

/-- A half passes a step: the status register follows, and step 3 and exploration begin. -/
def State.passStep (s : State) (isl h k : Nat) : State :=
  let s := s.modIsl isl fun x => x.modHalf h fun b => { b with step := k }
  let x := s.isl isl
  let least := min x.half0.step x.half1.step
  let s := s.modIsl isl fun x =>
    { x with fstat := { x.fstat with h0ok := x.fstat.h0ok || (h = 0 && k = 3), h1ok := x.fstat.h1ok || (h = 1 && k = 3),
                                     phase := if x.selfFailed || 4 ≤ k then x.fstat.phase else BitVec.ofNat 3 least } }
  let s := if k = 2 && least = 2 && !x.selfFailed then s.after isl 0 .readyBitSet [isl, 11] else s
  let s := if k = 2 && h = 0 then s.trainAll isl else s
  if k = 3 then
    let t := s.someTime
    t.2.afterPs t.1 .floodRecord [isl, h, isl, h]
  else s

/-- Whether a half has done the work of a step at its deadline. -/
def State.stepWork (s : State) (isl h k : Nat) : Bool :=
  let x := s.isl isl
  match k with
  | 1 => (x.half h).image.isSome
  | 2 => !x.versionsDiffer
  | 5 => x.dark || (x.fstat.hrdy && x.fstat.ordy && x.fstat.mrdy && x.fstat.qrdy)
  | _ => true

/-- A step's deadline: the half has passed the step, or counts as failed. Whether its work was done in time is open where
no rule makes it fail. -/
def execFormationDeadline (s : State) : Host.Outcome State Fault Refusal :=
  event s fun as s =>
    let isl := ar as 0
    let h := ar as 1
    let k := ar as 2
    if ((s.isl isl).half h).failed then s
    else
      let c := s.choose 2
      let s := c.2
      let s := if k = 2 && (s.isl isl).versionsDiffer then s.modIsl isl fun x => { x with fstat := { x.fstat with fwmis := true } } else s
      if c.1 = 0 && s.stepWork isl h k then s.passStep isl h k
      else
        let out := k = 5 && s.siteState isl = 1
        let s := s.failHalf isl h
        if out then s.after isl 0 .islandRemoval [isl, 2] else s

/-! ## Exploration (R412) -/

/-- A half receives a record: it keeps it and relays it once, over the stitch and, from H0, over every passed link. Only
halves of passing islands take part. -/
def execFloodRecord (s : State) : Host.Outcome State Fault Refusal :=
  event s fun as s =>
    let isl := ar as 0
    let h := ar as 1
    let from' := ar as 2
    let key := 2 * from' + ar as 3
    let x := s.isl isl
    let b := x.half h
    if !x.passes || b.step ≠ 3 || (tget? b.records key).isSome then s
    else
      let links := (tgetD (s.isl from').topo.sites from' {}).links
      let s := s.modIsl isl fun x => x.modHalf h fun b => { b with records := tput b.records key links }
      let dests := [(isl, 1 - h)] ++ (if h = 0 then (s.passedLinks isl).map fun p => (p.2, 0) else [])
      dests.foldl (fun (s : State) p =>
        let t := s.someTime
        t.2.afterPs t.1 .floodRecord [p.1, p.2, from', ar as 3]) s

/-! ## Election (R413-R416) -/

/-- The component of a passing island: the passing islands whose records it holds. -/
def State.component (s : State) (isl : Nat) : List Nat :=
  (List.range 16).filter fun j => (s.isl j).passes && (j = isl || (tget? (s.isl isl).half0.records (2 * j)).isSome)

/-- The components of the panel. -/
def State.components (s : State) : List (List Nat) :=
  ((s.populatedSites.filter fun i => (s.isl i).passes).map s.component).eraseDups

/-- Whether a component forms the panel, where P sites count (R413). -/
def forms (p : Nat) (all : List (List Nat)) (c : List Nat) : Bool :=
  decide (2 ≤ c.length) && (decide (p < 2 * c.length) ||
    (2 * c.length = p && all.all fun d => d = c || d.length ≠ c.length || c.head?.getD 16 < d.head?.getD 16))

/-- Distances from a site over links, by layers. -/
def layers (nbr : Nat → List Nat) : Nat → Nat → List Nat → List (Nat × Nat) → List (Nat × Nat)
  | 0, _, _, acc => acc
  | fuel + 1, d, front, acc =>
    let acc := acc ++ front.map fun i => (i, d)
    let next := ((front.flatMap nbr).eraseDups).filter fun i => !(acc.any fun p => p.1 = i)
    if next.isEmpty then acc else layers nbr fuel (d + 1) next acc

/-- The ports of the route from a site along falling distances, the lowest port first (R415). -/
def fewest (ports : Nat → List (Nat × Nat)) (dist : Nat → Option Nat) : Nat → Nat → List Nat
  | 0, _ => []
  | d + 1, i =>
    match (ports i).find? fun p => dist p.2 = some d with
    | some (p, j) => p :: fewest ports dist d j
    | none => []

/-- The route entry of a list of hops (R344); a route of more than 8 hops has none. -/
def routeEntryOf (hops : List Nat) : DWord :=
  if 8 < hops.length then 0
  else BitVec.ofNat 64 (2 ^ 63 + hops.length + (List.range hops.length).foldl (fun v k => v + hops.getD k 0 * 16 ^ (k + 1)) 0)

/-- The table T0 of a site over the islands of C and their links (R415). -/
def routeTable (c : List Nat) (ports : Nat → List (Nat × Nat)) (isl : Nat) : Tbl DWord :=
  c.filterMap fun t =>
    let d := layers (fun i => (ports i).map (·.2)) 16 0 [t] []
    let dist (i : Nat) : Option Nat := (d.find? fun p => p.1 = i).map (·.2)
    (dist isl).map fun n => (t, routeEntryOf (fewest ports dist n isl))

/-- The links that are open among the islands of C. -/
def State.openLinks (s : State) (c : List Nat) (isl : Nat) : List (Nat × Nat) :=
  (s.passedLinks isl).filter fun p => c.contains p.2

/-- The site entries of the first table (R345, R414). -/
def State.firstSites (s : State) (c : List Nat) : Tbl Site :=
  s.populatedSites.map fun i =>
    if c.contains i then
      (i, { st := 1, links := (s.openLinks c i).foldl (fun v p => v ||| (1#6 <<< (p.1 - 1))) 0,
            fibre := (tgetD (s.isl i).topo.sites i {}).fibre })
    else (i, { st := 2 })

/-- What begins on an island when it becomes present: its heartbeats, its slices' idleness, and the Cobbler's lane tests,
whose findings are open (R399, R417, R428). -/
def State.enter (s : State) (isl : Nat) : State :=
  let s := s.modIsl isl fun x => { x with dark := false, heardAt := s.now, beatAt := s.now }
  let s := if s.bellIsland = some isl then s else s.afterPs beatPeriod .heartbeat [isl]
  let s := (List.range 64).foldl (fun (s : State) sl => s.sleepCheck isl sl) s
  let n := s.choose 8192
  (List.range n.1).foldl (fun (s : State) _ =>
    let c := s.choose 128
    let l := c.2.choose 128
    l.2.afterPs 0 .laneTest [isl, c.1, l.1 + 1]) n.2

/-- The ready bits of an island that has its tables rise, in any order (R416). -/
def State.getReady (s : State) (isl : Nat) : State :=
  [12, 13, 14].foldl (fun (s : State) b =>
    let t := s.someTime
    t.2.afterPs t.1 .readyBitSet [isl, b]) s

/-- Gives an island of C its table, its routes and its status (R416, R421). -/
def State.form (s : State) (t : Topo) (t0 : Tbl DWord) (isl : Nat) : State :=
  let s := s.modIsl isl fun x =>
    { x with topo := t, running := true, dark := false,
             sys := { x.sys with topo := BitVec.ofNat 64 Config.topoPa, rtab := t0, rtact := false },
             fstat := { x.fstat with bell := t.bell, bellHere := t.bell.toNat / 2 = isl, phase := 4, outcome := t.outcome } }
  ((s.writeHome isl Config.topoPa 0 (topoBytes t)).enter isl).getReady isl

/-- The close of exploration: a component forms, the Bellwether is chosen, tables are published; other islands stay dark
(R413-R416). -/
def execElection (s : State) : Host.Outcome State Fault Refusal :=
  event s fun _ s =>
    let all := s.components
    let p := (s.populatedSites.filter fun i => !(s.isl i).selfFailed).length
    let close (out : Nat) (bell : Option Nat) (s : State) (i : Nat) : State := s.modIsl i fun x =>
      { x with dark := true, fstat := { x.fstat with phase := if x.selfFailed then 6 else 5, outcome := BitVec.ofNat 2 out,
                                                     bell := BitVec.ofNat 8 (bell.getD 0) } }
    match all.find? (forms p all) with
    | none => s.populatedSites.foldl (close 3 none) { s with outcome := some 3#2 }
    | some c =>
      let out := if c.length = 16 then 0 else if all.any fun d => d ≠ c && decide (2 ≤ d.length) then 2 else 1
      let bell := 2 * c.head?.getD 0
      let sites := s.firstSites c
      let t : Topo := { gen := 1, bell := BitVec.ofNat 8 bell, outcome := BitVec.ofNat 2 out, sites := sites }
      let ports := fun i => s.openLinks c i
      let tables := c.map fun i => (i, routeTable c ports i)
      let s : State := { s with bell := some bell, outcome := some (BitVec.ofNat 2 out) }
      let s := tables.foldl (fun (s : State) (q : Nat × Tbl DWord) => s.form t q.2 q.1) s
      let s := (s.populatedSites.filter fun i => !c.contains i).foldl (close out (some bell)) s
      c.foldl (fun (s : State) i => [0, 1].foldl (fun (s : State) h =>
        s.afterPs 200000000000 .formationDeadline [i, h, 5]) s) s

/-- A function of an island becomes usable: its ready bit is set (R416, R421). The queues are then served. -/
def execReadyBitSet (s : State) : Host.Outcome State Fault Refusal :=
  event s fun as s =>
    let isl := ar as 0
    let x := s.isl isl
    let put (f : FStat → FStat) : State := s.modIsl isl fun x => { x with fstat := f x.fstat }
    match ar as 1 with
    | 11 => if x.selfFailed then s else put fun f => { f with hrdy := true }
    | 12 => if x.fstat.phase ≠ 4 then s else put fun f => { f with ordy := true }
    | 13 => if x.fstat.phase ≠ 4 then s
      else if !x.fstat.hrdy then s.afterPs 1000000 .readyBitSet as
      else put fun f => { f with mrdy := true }
    | 14 =>
      if x.fstat.phase ≠ 4 then s
      else
        let s := (put fun f => { f with qrdy := true }).flushFaults isl x.faults.length
        (s.flushEvents isl (s.isl isl).events.length).kickQueues
    | _ => s

/-! ## The return of an island (R418, R389) -/

/-- Discards every cluster launch of an island and what its groups, contexts and queues had in flight, and removes every
cached translation. -/
def State.clearIsland (s : State) (isl : Nat) : State :=
  let keys := ((s.isl isl).saved.map (·.cl.launch)).eraseDups
  let s := s.modIsl isl fun x => keys.foldl (fun (x : Island) k => x.discardSaved k) x
  let s := s.withdraw isl (fun r => recSource r.bits ≠ 5) fun _ => true
  s.modIsl isl fun x =>
    { x with cores := tmap x.cores fun _ k =>
               { k with groups := [], places := [], monitors := [], mx := {}, engFlight := [],
                        rtab := tmap k.rtab fun _ e => { e with pins := [] } },
             cls := [], saved := [], handout := [], restoring := [], audits := [], frames := [], nwaiters := [],
             ops := x.ops.filter fun p => match p.2.agent with
               | .island => true
               | .group _ _ | .seq _ _ | .unit _ => false,
             microTlb := [], clusterTlb := [], oedTlb := [], walks := tmap x.walks fun _ w => { w with stale := true } }

/-- The repeated steps end with a half that fails: each half passes them (0), fails step 2 (1) or fails step 3 (2). -/
def State.failAgain (s : State) (isl f0 f1 : Nat) : State :=
  let pass (f : Nat) (q : Half) : Half := { q with step := if f = 1 then 1 else if f = 2 then 2 else 3 }
  let s := s.modIsl isl fun x => (x.modHalf 0 (pass f0)).modHalf 1 (pass f1)
  let s := s.modIsl isl fun x =>
    { x with fstat := { x.fstat with hrdy := f0 ≠ 1 && f1 ≠ 1, h0ok := f0 = 0, h1ok := f1 = 0 } }
  let s := if f0 = 0 then s else s.failHalf isl 0
  if f1 = 0 then s else s.failHalf isl 1

/-- The host asks for an island's return: the island repeats steps 2 and 3, clears itself, and becomes present with links
to the panel, or stays as it is (R418). -/
def execRejoin (s : State) : Host.Outcome State Fault Refusal :=
  event s fun as s =>
    let b := ar as 0
    let isl := ar as 1
    if s.bellIsland ≠ some b || s.siteState isl < 2 then s
    else if ar as 2 = 0 then
      if s.agenda.any fun p => p.2 == .row .rejoin [b, isl, 1] then s
      else
        let ok := (s.isl isl).half0.image.isSome && (s.isl isl).half1.image.isSome && !(s.isl isl).versionsDiffer
        if !ok then s
        else
          let again (x : Island) (h : Nat) : Island := x.modHalf h fun q => { q with failed := false, step := 1 }
          let s := s.modIsl isl fun x =>
            { again (again x 0) 1 with fstat := { x.fstat with hrdy := false, h0ok := false, h1ok := false } }
          (s.trainAll isl).afterPs 700000000000 .rejoin [b, isl, 1]
    else
      let c := s.choose 9
      let s := c.2
      if c.1 ≠ 0 then s.failAgain isl (c.1 % 3) (c.1 / 3)
      else if !s.topoQuiet || !(s.isl isl).quietRange Config.topoPa 136 then s.after b 1 .rejoin as
      else
        let three (q : Half) : Half := { q with step := 3 }
        let s := s.modIsl isl fun x => (x.modHalf 0 three).modHalf 1 three
        let s := s.modIsl isl fun x => { x with fstat := { x.fstat with h0ok := true, h1ok := true, hrdy := true } }
        let c := s.presentIsles ++ [isl]
        let mine := ((List.range 6).map (· + 1)).filterMap fun p => match s.farEnd isl p with
          | some (j, _) => if (tgetD (s.isl isl).topo.sites isl {}).links.getLsbD (p - 1) && s.siteState j = 1 then some (p, j) else none
          | none => none
        if mine.isEmpty then s.modIsl isl fun x => { x with fstat := { x.fstat with phase := if x.fstat.phase = 4 then 4 else 5 } }
        else
          let quarantined := s.siteState isl = 3
          let fibre := (tgetD (s.isl isl).topo.sites isl {}).fibre
          let s := s.clearIsland isl
          let put (t : Tbl Site) : Tbl Site :=
            mine.foldl (fun (t : Tbl Site) p => s.setLinkBoth isl p.1 true t) (tput t isl { st := 1, links := 0, fibre := fibre })
          let t := (s.isl b).topo
          let t' : Topo := { t with sites := put t.sites, gen := t.gen + 1 }
          let ports (i : Nat) : List (Nat × Nat) :=
            ((List.range 6).map (· + 1)).filterMap fun p => match s.farEnd i p with
              | some (j, _) => if (tgetD t'.sites i {}).links.getLsbD (p - 1) && c.contains j then some (p, j) else none
              | none => none
          let s := s.modIsl isl fun x =>
            { x with topo := t', running := !quarantined,
                     sys := { x.sys with topo := BitVec.ofNat 64 Config.topoPa, rtab := routeTable c ports isl, rtact := false },
                     fstat := { x.fstat with phase := 4, bell := t.bell, outcome := t.outcome } }
          let s := ((s.publish put).enter isl).getReady isl
          s.kickQueues

end Sys2Proof.Machine
end

