-- ==== Sys2Proof/Machine/Integer.lean ====
section
/-! DEFINITION. Integer and address instructions (R149-R172). -/

namespace Sys2Proof.Machine

/-- A two-source instruction with a 32-bit result from 32-bit sources. -/
def alu (i : Instr) (c : Ctl) (lat : Nat) (x y : Opnd) (z : ZOp) (f : Word → Word → DWord) (s : State) :
    Host.Outcome State Fault Refusal :=
  laneOp i c lat x false [(y, false), zreg z false] (fun e l => f (e.rd32 y l) (e.rdZ32 z l)) s

/-- The same with the old destination as a third source (R149). -/
def aluX (i : Instr) (c : Ctl) (lat : Nat) (x y : Opnd) (z : ZOp) (f : Word → Word → Word → DWord) (s : State) :
    Host.Outcome State Fault Refusal :=
  laneOp i c lat x false [(y, false), zreg z false] (fun e l => f (e.rd32 x l) (e.rd32 y l) (e.rdZ32 z l)) s

/-- `rd` of a 32-bit register value. -/
def rdW (w : Word) (t : IType) : Int := rdT (w.setWidth 64) t

def minI (a b : Int) : Int := min a b
def maxI (a b : Int) : Int := max a b

def execIadd (c : Ctl) (t : IType) (sat : Bool) (x y : Opnd) (z : ZOp) (s : State) : Host.Outcome State Fault Refusal :=
  alu (.iadd c t sat x y z) c 4 x y z (fun a b => putT (rdW a t + rdW b t) t sat) s

def execIsub (c : Ctl) (t : IType) (sat : Bool) (x y : Opnd) (z : ZOp) (s : State) : Host.Outcome State Fault Refusal :=
  alu (.isub c t sat x y z) c 4 x y z (fun a b => putT (rdW a t - rdW b t) t sat) s

/-- The carry into `IADDC`: the latch's bit 32 is read at issue (R156). -/
def carryIn (e : Env) (ci : CarryIn) (l : Nat) : Nat :=
  match ci with
  | .c0 => 0
  | .ci => b2n ((e.g.latch l).getLsbD 32)
  | .c1 => 1

/-- `IADDC` (R156): the latch takes the 33-bit sum. -/
def execIaddc (c : Ctl) (ci : CarryIn) (x y : Opnd) (z : ZOp) (s : State) : Host.Outcome State Fault Refusal :=
  issue (.iaddc c ci x y z) c [(x, false), (y, false), zreg z false] noPre
    (fun e s => s.onGroup e fun g => e.done c 4 (e.result 4 x false true e.guard (fun l =>
      let t : DWord := BitVec.ofNat 64 ((e.rd32 y l).toNat + (e.rdZ32 z l).toNat + carryIn e ci l)
      (t, t)) g)) s

def execImul (c : Ctl) (t : IType) (sat : Bool) (x y : Opnd) (z : ZOp) (s : State) : Host.Outcome State Fault Refusal :=
  alu (.imul c t sat x y z) c 6 x y z (fun a b => putT (rdW a t * rdW b t) t sat) s

def execImulh (c : Ctl) (t : IType) (x y : Opnd) (z : ZOp) (s : State) : Host.Outcome State Fault Refusal :=
  alu (.imulh c t x y z) c 6 x y z (fun a b => BitVec.ofNat 64 (truncI (rdW a t * rdW b t) 64 / 2 ^ 32)) s

def execImad (c : Ctl) (t : IType) (sat : Bool) (x y : Opnd) (z : ZOp) (s : State) : Host.Outcome State Fault Refusal :=
  aluX (.imad c t sat x y z) c 6 x y z (fun d a b => putT (rdW d t + rdW a t * rdW b t) t sat) s

/-- `IMADW` (R155): a 64-bit accumulator, signed for T = 0. -/
def execImadw (c : Ctl) (t : IType) (sat : Bool) (x y : Opnd) (z : ZOp) (s : State) : Host.Outcome State Fault Refusal :=
  laneOp (.imadw c t sat x y z) c 6 x true [(y, false), zreg z false] (fun e l =>
    let w : IType := if tSigned t then .i64 else .n64
    putT (rdT (e.rd64 x l) w + rdW (e.rd32 y l) t * rdW (e.rdZ32 z l) t) w sat) s

def execImin (c : Ctl) (t : IType) (x y : Opnd) (z : ZOp) (s : State) : Host.Outcome State Fault Refusal :=
  alu (.imin c t x y z) c 4 x y z (fun a b => putT (minI (rdW a t) (rdW b t)) t false) s

def execImax (c : Ctl) (t : IType) (x y : Opnd) (z : ZOp) (s : State) : Host.Outcome State Fault Refusal :=
  alu (.imax c t x y z) c 4 x y z (fun a b => putT (maxI (rdW a t) (rdW b t)) t false) s

def execIabs (c : Ctl) (t : IType) (sat : Bool) (x y : Opnd) (s : State) : Host.Outcome State Fault Refusal :=
  laneOp (.iabs c t sat x y) c 4 x false [(y, false)] (fun e l => putT (rdW (e.rd32 y l) t).natAbs t sat) s

/-- The sum of `IADDMN` and `IADDMX`, delivered before the comparison (R155). -/
def sumFirst (a b : Word) (t : IType) (sat : Bool) : Int := rdT (putT (rdW a t + rdW b t) t sat) t

def execIaddmn (c : Ctl) (t : IType) (sat : Bool) (x y : Opnd) (z : ZOp) (s : State) : Host.Outcome State Fault Refusal :=
  aluX (.iaddmn c t sat x y z) c 4 x y z (fun d a b => putT (minI (rdW d t) (sumFirst a b t sat)) t false) s

def execIaddmx (c : Ctl) (t : IType) (sat : Bool) (x y : Opnd) (z : ZOp) (s : State) : Host.Outcome State Fault Refusal :=
  aluX (.iaddmx c t sat x y z) c 4 x y z (fun d a b => putT (maxI (rdW d t) (sumFirst a b t sat)) t false) s

def execIsad (c : Ctl) (t : IType) (sat : Bool) (x y : Opnd) (z : ZOp) (s : State) : Host.Outcome State Fault Refusal :=
  aluX (.isad c t sat x y z) c 4 x y z (fun d a b => putT (rdW d t + (rdW a t - rdW b t).natAbs) t sat) s

/-- The amount of a 32-bit shift (R157). -/
def shAmount (wrap : Bool) (a : Word) : Nat := if wrap then a.toNat % 32 else a.toNat

def execShl (c : Ctl) (wrap : Bool) (x y : Opnd) (z : ZOp) (s : State) : Host.Outcome State Fault Refusal :=
  alu (.shl c wrap x y z) c 4 x y z (fun a b => ((a <<< min 32 (shAmount wrap b)).setWidth 64)) s

def execShr (c : Ctl) (wrap : Bool) (x y : Opnd) (z : ZOp) (s : State) : Host.Outcome State Fault Refusal :=
  alu (.shr c wrap x y z) c 4 x y z (fun a b => ((a >>> min 32 (shAmount wrap b)).setWidth 64)) s

def execSar (c : Ctl) (wrap : Bool) (x y : Opnd) (z : ZOp) (s : State) : Host.Outcome State Fault Refusal :=
  alu (.sar c wrap x y z) c 4 x y z (fun a b => ((a.sshiftRight (min 32 (shAmount wrap b))).setWidth 64)) s

/-- The 32-bit window of `EXTR` (R158). -/
def extrVal (sw rot : Bool) (d a b : Word) : Word :=
  let t : DWord := if sw then pair d a else pair a d
  let k := b.toNat
  if rot then (t.rotateRight (k % 64)).setWidth 32 else (t >>> min k 32).setWidth 32

def execExtr (c : Ctl) (sw rot : Bool) (x y : Opnd) (z : ZOp) (s : State) : Host.Outcome State Fault Refusal :=
  aluX (.extr c sw rot x y z) c 4 x y z (fun d a b => (extrVal sw rot d a b).setWidth 64) s

/-- The bitwise function of a function code (R159). -/
def boolFn (f : BitVec 4) (a b : DWord) : DWord :=
  let bit (k : Nat) (m : DWord) : DWord := if f.getLsbD k then m else 0
  bit 0 (~~~a &&& ~~~b) ||| bit 1 (~~~a &&& b) ||| bit 2 (a &&& ~~~b) ||| bit 3 (a &&& b)

/-- `BOOL` (R159): the function of the two sources, folded into the old destination by the merge mode. -/
def execBool (c : Ctl) (t : IType) (m : Merge) (f : BitVec 4) (x y z : Opnd) (s : State) :
    Host.Outcome State Fault Refusal :=
  laneOp (.bool c t m f x y z) c 4 x (wideT t) [(y, wideT t), (z, wideT t)] (fun e l =>
    let lim : DWord := if wideT t then BitVec.allOnes 64 else 0xFFFFFFFF
    let r := boolFn f (e.rdW (wideT t) y l) (e.rdW (wideT t) z l) &&& lim
    match m with
    | .none => r
    | .and => e.rdW (wideT t) x l &&& r
    | .or => e.rdW (wideT t) x l ||| r
    | .xor => e.rdW (wideT t) x l ^^^ r) s

/-- The number of set bits. -/
def popcount (w : DWord) : Nat := ((List.range 64).filter fun i => w.getLsbD i).length

def execPopc (c : Ctl) (t : IType) (x y : Opnd) (s : State) : Host.Outcome State Fault Refusal :=
  issue (.popc c t x y) c [(x, false), (y, wideT t)] noPre
    (fun e s => s.onGroup e fun g => e.done c 4 (e.result 4 x false true e.guard (fun l =>
      let n : DWord := BitVec.ofNat 64 (popcount (e.rdW (wideT t) y l))
      (n, n)) g)) s

/-- Leading zeros of an `n`-bit value. -/
def leading (n : Nat) (w : DWord) : Nat := if w = 0 then n else n - 1 - Nat.log2 w.toNat

def execClz (c : Ctl) (t : IType) (x y : Opnd) (s : State) : Host.Outcome State Fault Refusal :=
  issue (.clz c t x y) c [(x, false), (y, wideT t)] noPre
    (fun e s => s.onGroup e fun g => e.done c 4 (e.result 4 x false true e.guard (fun l =>
      let n : DWord := BitVec.ofNat 64 (leading (tWidth t) (e.rdW (wideT t) y l))
      (n, n)) g)) s

def execBrev (c : Ctl) (t : IType) (x y : Opnd) (s : State) : Host.Outcome State Fault Refusal :=
  laneOp (.brev c t x y) c 4 x (wideT t) [(y, wideT t)] (fun e l =>
    if wideT t then (e.rd64 y l).reverse else (e.rd32 y l).reverse.setWidth 64) s

/-- `BFX` (R161): bits beyond bit 31 read as the sign for `.i32`. -/
def bfxVal (t : IType) (a b : Word) : Word :=
  let p := b.toNat % 256
  let n := min (b.toNat / 256 % 256) 32
  let v : Nat := if tSigned t then truncI (rdW a t / (2 : Int) ^ p) n else a.toNat / 2 ^ p % 2 ^ n
  if n = 0 then 0 else if tSigned t then BitVec.ofNat 32 (truncI (sextN v n) 32) else BitVec.ofNat 32 v

def execBfx (c : Ctl) (t : IType) (x y : Opnd) (z : ZOp) (s : State) : Host.Outcome State Fault Refusal :=
  alu (.bfx c t x y z) c 4 x y z (fun a b => (bfxVal t a b).setWidth 64) s

/-- `BFI` (R161). -/
def bfiVal (d a b : Word) : Word :=
  let p := b.toNat % 256
  let n := b.toNat / 256 % 256
  if 32 ≤ p ∨ n = 0 then d
  else
    let n := min n (32 - p)
    let m : Word := BitVec.ofNat 32 ((2 ^ n - 1) * 2 ^ p)
    (d &&& ~~~m) ||| ((a <<< p) &&& m)

def execBfi (c : Ctl) (x y : Opnd) (z : ZOp) (s : State) : Host.Outcome State Fault Refusal :=
  aluX (.bfi c x y z) c 4 x y z (fun d a b => (bfiVal d a b).setWidth 64) s

/-- `BSEL` (R162): the selector is the old destination. -/
def bselVal (d a b : Word) : Word :=
  let src : DWord := pair a b
  let byte (i : Nat) : BitVec 8 :=
    let v : BitVec 8 := src.extractLsb' (8 * fld d (3 * i) 3) 8
    if d.getLsbD (16 + i) then 0 else if d.getLsbD (12 + i) then (if v.getLsbD 7 then 0xFF else 0) else v
  byte 3 ++ byte 2 ++ byte 1 ++ byte 0

def execBsel (c : Ctl) (x y : Opnd) (z : ZOp) (s : State) : Host.Outcome State Fault Refusal :=
  aluX (.bsel c x y z) c 4 x y z (fun d a b => (bselVal d a b).setWidth 64) s

/-- `SEL` (R164): the guard selects, and every active lane is written. -/
def execSel (c : Ctl) (t : IType) (x y : Opnd) (z : ZOp) (s : State) : Host.Outcome State Fault Refusal :=
  issue (.sel c t x y z) c [(x, wideT t), (y, wideT t), zreg z (wideT t)] noPre
    (fun e s => s.onGroup e fun g => e.done c 4 (e.result 4 x (wideT t) true e.run (fun l =>
      let v := if e.guard.getLsbD l then e.rdW (wideT t) y l else e.rdZW (wideT t) z l
      (v, v)) g)) s

def execIset (c : Ctl) (t : IType) (one : Bool) (cc : ICond) (x y z : Opnd) (s : State) :
    Host.Outcome State Fault Refusal :=
  issue (.iset c t one cc x y z) c [(x, false), (y, wideT t), (z, wideT t)] noPre
    (fun e s => s.onGroup e fun g => e.done c 4 (e.result 4 x false true e.guard (fun l =>
      let v := setWord one (condI cc (rdT (e.rdW (wideT t) y l) t) (rdT (e.rdW (wideT t) z l) t))
      (v, v)) g)) s

/-- `ICMPP` (R163): one bit of the destination. -/
def execIcmpp (c : Ctl) (t : IType) (b : BitVec 5) (cc : ICond) (x y z : Opnd) (s : State) :
    Host.Outcome State Fault Refusal :=
  issue (.icmpp c t b cc x y z) c [(x, false), (y, wideT t), (z, wideT t)] noPre
    (fun e s => s.onGroup e fun g => e.done c 4 (e.result 4 x false true e.guard (fun l =>
      let v : DWord := (putBit (e.rd32 x l) b
        (condI cc (rdT (e.rdW (wideT t) y l) t) (rdT (e.rdW (wideT t) z l) t))).setWidth 64
      (v, v)) g)) s

def execMov (c : Ctl) (t : IType) (x y : Opnd) (s : State) : Host.Outcome State Fault Refusal :=
  laneOp (.mov c t x y) c 4 x (wideT t) [(y, wideT t)] (fun e l => e.rdW (wideT t) y l) s

def execMovi (c : Ctl) (t : IType) (x : Opnd) (i : BitVec 20) (s : State) : Host.Outcome State Fault Refusal :=
  laneOp (.movi c t x i) c 4 x (wideT t) [] (fun _ _ =>
    if wideT t then i.signExtend 64 else (i.signExtend 32).setWidth 64) s

def execMovw (c : Ctl) (x : Opnd) (k : Word) (s : State) : Host.Outcome State Fault Refusal :=
  laneOp (.movw c x k) c 4 x false [] (fun _ _ => k.setWidth 64) s

/-- `MOVS` (R166): the value of lane j, whatever its activity or guard, into a uniform. -/
def execMovs (c : Ctl) (t : IType) (x y : Opnd) (z : ZOp) (s : State) : Host.Outcome State Fault Refusal :=
  laneOp (.movs c t x y z) c 4 x (wideT t) [(y, wideT t), zreg z false] (fun e l =>
    e.rdW (wideT t) y ((e.rdZ32 z l).toNat % Config.width)) s

/-- `MOVSR.RD` (R167): a window register as it stands at issue, or the number of repeats issued. -/
def execMovsrRd (c : Ctl) (x : Opnd) (n : BitVec 20) (s : State) : Host.Outcome State Fault Refusal :=
  laneOp (.movsrRd c x n) c 4 x false [] (fun e _ =>
    if n = 4#20 then BitVec.ofNat 64 e.g.rpi else ((tgetD e.g.aw n.toNat 0).setWidth 64)) s

/-- `MOVSR.WR` (R167, R168): seen by instructions issued at least 4 cycles later. -/
def execMovsrWr (c : Ctl) (y : Opnd) (n : BitVec 20) (s : State) : Host.Outcome State Fault Refusal :=
  issue (.movsrWr c y n) c [(y, false)] noPre
    (fun e s => s.onGroup e fun g => e.done c 4
      (if e.any then addWrite g (e.cyc + 4) (.aw n.toNat) ((e.rd32 y e.lane0).setWidth 64) else g)) s

/-- `LEA` (R170). -/
def execLea (c : Ctl) (t : IType) (k : BitVec 3) (x y z : Opnd) (s : State) : Host.Outcome State Fault Refusal :=
  laneOp (.lea c t k x y z) c 6 x true [(y, true), (z, false)] (fun e l =>
    BitVec.ofNat 64 (truncI ((e.rd64 y l).toNat + rdW (e.rd32 z l) t * (2 : Int) ^ k.toNat) 64)) s

def execIadd64 (c : Ctl) (t : IType) (sat : Bool) (x y : Opnd) (z : ZOp) (s : State) :
    Host.Outcome State Fault Refusal :=
  laneOp (.iadd64 c t sat x y z) c 6 x true [(y, true), zreg z true] (fun e l =>
    putT (rdT (e.rd64 y l) t + rdT (e.rdZ64 z l) t) t sat) s

def execIsub64 (c : Ctl) (t : IType) (sat : Bool) (x y : Opnd) (z : ZOp) (s : State) :
    Host.Outcome State Fault Refusal :=
  laneOp (.isub64 c t sat x y z) c 6 x true [(y, true), zreg z true] (fun e l =>
    putT (rdT (e.rd64 y l) t - rdT (e.rdZ64 z l) t) t sat) s

def execShl64 (c : Ctl) (x y : Opnd) (z : ZOp) (s : State) : Host.Outcome State Fault Refusal :=
  laneOp (.shl64 c x y z) c 6 x true [(y, true), zreg z false] (fun e l =>
    e.rd64 y l <<< min 64 (e.rdZ32 z l).toNat) s

def execShr64 (c : Ctl) (arith : Bool) (x y : Opnd) (z : ZOp) (s : State) : Host.Outcome State Fault Refusal :=
  laneOp (.shr64 c arith x y z) c 6 x true [(y, true), zreg z false] (fun e l =>
    let k := min 64 (e.rdZ32 z l).toNat
    if arith then (e.rd64 y l).sshiftRight k else e.rd64 y l >>> k) s

/-- `CVTI` (R171). -/
def execCvti (c : Ctl) (td ts : IType) (sat : Bool) (x y : Opnd) (s : State) : Host.Outcome State Fault Refusal :=
  laneOp (.cvti c td ts sat x y) c 4 x (wideT td) [(y, wideT ts)] (fun e l =>
    putT (rdT (e.rdW (wideT ts) y l) ts) td sat) s

end Sys2Proof.Machine
end

