-- ==== Sys2Proof/Machine/Lane.lean ====
section
/-! DEFINITION. Lane-exchange instructions (R193-R202). -/

namespace Sys2Proof.Machine

/-- How a destination lane gets its value: from a lane, its own under a distance out of range or of zero, zero, or a
LANE_SOURCE trap (R194). -/
inductive Src where
  | lane (j : Nat)
  | own
  | zero
  | trap
  deriving DecidableEq, Repr, Inhabited

/-- The source of a lane for source lane `j` (R194). -/
def srcOf (e : Env) (zf : Bool) (j : Int) : Src :=
  if j < 0 ∨ (Config.width : Int) ≤ j then (if zf then .zero else .own)
  else if e.guard.getLsbD j.toNat then .lane j.toNat else if zf then .zero else .trap

/-- A lane exchange with the lanes that trap set apart: the others take the full effect; the trapping ones take
LANE_SOURCE (R194). `f` gives a lane's result and flags. -/
def exchange (i : Instr) (c : Ctl) (lat : Nat) (x : Opnd) (wide zf : Bool) (regs : List (Opnd × Bool))
    (src : Env → Nat → Src) (f : Env → Nat → DWord × Nat) (s : State) : Host.Outcome State Fault Refusal :=
  issue i c ((x, wide) :: regs) (fun e _ => if e.g.rep.isSome && !zf then some (1, 0) else none)
    (fun e s =>
      let bad := maskOf ((lanesOf e.guard).filter fun l => src e l == .trap)
      let good := e.guard &&& ~~~bad
      let flags := (lanesOf good).foldl (fun a l => a ||| (f e l).2) 0
      let s := s.onGroup e fun g =>
        e.done c lat (e.raise lat flags (e.result lat x wide true good (fun l => ((f e l).1, (f e l).1)) g))
      s.trapAt e bad 4 bad e.cp) s

/-- The distance of `LXCH` (R197). -/
def lxDist (e : Env) (w : Bool) (z : ZOp) (l : Nat) : Nat :=
  let n := (e.rdZ32 z l).toNat
  if w then Config.width / 2 ^ n else n

/-- The source lane of `LXCH` (R197). -/
def lxLane (m : LxMode) (n l : Nat) : Int :=
  match m with
  | .up => (l : Int) - n
  | .dn => (l : Int) + n
  | .xor => ((l ^^^ n : Nat) : Int)
  | .idx => n

/-- `LXCH` (R197). -/
def execLxch (c : Ctl) (m : LxMode) (w zf wide : Bool) (x y : Opnd) (z : ZOp) (s : State) :
    Host.Outcome State Fault Refusal :=
  let src (e : Env) (l : Nat) : Src := srcOf e zf (lxLane m (lxDist e w z l) l)
  exchange (.lxch c m w zf wide x y z) c 6 x wide zf [(y, wide), zreg z false] src (fun e l =>
    (match src e l with
      | .lane j => e.rdW wide y j
      | .own => e.rdW wide y l
      | .zero | .trap => 0, 0)) s

/-- a ⊕ b (R196), with the flags of an FP32 sum. -/
def combine (op : RedOp) (rm : Nat) (a b : Word) : Word × Nat :=
  let f (x : Word) : Fv := decodeF fmt32 x.toNat
  match op with
  | .addI32 => (a + b, 0)
  | .addF32 => let r := roundFp fmt32 rm (sumFv rm [f a, f b]).1; (BitVec.ofNat 32 r.1, r.2 ||| (sumFv rm [f a, f b]).2)
  | .minI32 => (if a.toInt < b.toInt then a else b, 0)
  | .minN32 => (if a.toNat < b.toNat then a else b, 0)
  | .maxI32 => (if a.toInt < b.toInt then b else a, 0)
  | .maxN32 => (if a.toNat < b.toNat then b else a, 0)
  | .minF32 => (BitVec.ofNat 32 (roundFp fmt32 0 (minFv (f a) (f b))).1, 0)
  | .maxF32 => (BitVec.ofNat 32 (roundFp fmt32 0 (maxFv (f a) (f b))).1, 0)
  | .and => (a &&& b, 0)
  | .or => (a ||| b, 0)
  | .xor => (a ^^^ b, 0)

/-- The identity of an operation (R196). -/
def redIdentity : RedOp → Word
  | .addI32 | .maxN32 | .or | .xor => 0
  | .addF32 | .maxI32 => 0x80000000
  | .minI32 => 0x7FFFFFFF
  | .minN32 | .and => 0xFFFFFFFF
  | .minF32 => 0x7F800000
  | .maxF32 => 0xFF800000

/-- The distance of a step (R198): 0 at or beyond the last step. -/
def stepDist (i : Nat) : Nat := if i < 32 then Config.width / 2 ^ (i + 1) else 0

/-- `LSTEP` (R198). -/
def execLstep (c : Ctl) (op : RedOp) (zf : Bool) (x y : Opnd) (z : ZOp) (s : State) :
    Host.Outcome State Fault Refusal :=
  let dist (e : Env) : Nat := stepDist (e.rdZ32 z 0).toNat
  let src (e : Env) (l : Nat) : Src := if dist e = 0 then .own else srcOf e zf ((l ^^^ dist e : Nat) : Int)
  exchange (.lstep c op zf x y z) c 8 x false zf [(y, false), zreg z false] src (fun e l =>
    match src e l with
    | .lane j => let r := combine op (e.rm .cur) (e.rd32 y l) (e.rd32 y j); (r.1.setWidth 64, r.2)
    | .own => ((e.rd32 y l).setWidth 64, 0)
    | .zero => let r := combine op (e.rm .cur) (e.rd32 y l) 0; (r.1.setWidth 64, r.2)
    | .trap => (0, 0)) s

/-- The voting lanes whose predicate holds (R199). -/
def votes (e : Env) (y : Opnd) (b : BitVec 5) : List Nat :=
  (lanesOf e.guard).filter fun l => (e.rd32 y l).getLsbD b.toNat

/-- Ballots have a pair destination (R195). -/
def voteWide : VoteMode → Bool
  | .ballot | .ballotHi => true
  | .any | .all | .count => false

/-- `LVOTE` (R199). -/
def execLvote (c : Ctl) (m : VoteMode) (b : BitVec 5) (x y : Opnd) (s : State) : Host.Outcome State Fault Refusal :=
  laneOp (.lvote c m b x y) c 4 x (voteWide m) [(y, false)] (fun e _ =>
    match m with
    | .any => if (votes e y b).isEmpty then 0 else 1
    | .all => if (votes e y b).length = (lanesOf e.guard).length then 1 else 0
    | .ballot => maskOf (votes e y b)
    | .ballotHi => 0
    | .count => BitVec.ofNat 64 (votes e y b).length) s

/-- `LMATCH` (R200); lanes 64-127 do not exist at W = 64. -/
def execLmatch (c : Ctl) (wide hi : Bool) (x y : Opnd) (s : State) : Host.Outcome State Fault Refusal :=
  laneOp (.lmatch c wide hi x y) c 8 x true [(y, wide)] (fun e l =>
    if hi then 0 else maskOf ((lanesOf e.guard).filter fun j => e.rdW wide y j = e.rdW wide y l)) s

/-- The scan of R201: each voting lane with its inclusive and exclusive value, and all flags. -/
def scan (op : RedOp) (rm : Nat) (acc : Word) : List (Nat × Word) → List (Nat × Word × Word) × Nat
  | [] => ([], 0)
  | (l, y) :: r =>
    let t := combine op rm acc y
    let q := scan op rm t.1 r
    ((l, t.1, acc) :: q.1, t.2 ||| q.2)

/-- The scan from the first voting lane, whose value enters as it is. -/
def scanAll (op : RedOp) (rm : Nat) (ys : List (Nat × Word)) : List (Nat × Word × Word) × Nat :=
  match ys with
  | [] => ([], 0)
  | (l, y) :: r => let q := scan op rm y r; ((l, y, redIdentity op) :: q.1, q.2)

/-- `LSCAN` (R201). -/
def execLscan (c : Ctl) (op : RedOp) (exc : Bool) (x y : Opnd) (s : State) : Host.Outcome State Fault Refusal :=
  let lat := if op = .addF32 then 24 else 12
  issue (.lscan c op exc x y) c [(x, false), (y, false)] noPre (fun e s =>
    let q := scanAll op (e.rm .cur) ((lanesOf e.guard).map fun l => (l, e.rd32 y l))
    let val (l : Nat) : DWord := match q.1.find? fun p => p.1 = l with
      | some p => (if exc then p.2.2 else p.2.1).setWidth 64
      | none => 0
    s.onGroup e fun g =>
      e.done c lat (e.raise lat q.2 (e.result lat x false true e.guard (fun l => (val l, val l)) g))) s

end Sys2Proof.Machine
end

