-- ==== Sys2Proof/Machine/Panel.lean ====
section
/-! DEFINITION. The host link (R258, R419-R422): BAR0, CXL.mem, attestation (R424), snapshot readout (R426), the safe tier
(R427), and the panel reset (R420). -/

namespace Sys2Proof.Machine

/-- Whether an island serves only FSTAT and RUNCTL: it is dark, and lies outside the panel (R414). -/
def Island.closed (x : Island) : Bool := x.dark && x.fstat.phase ≠ 4

/-! ## Registers read by the host (R420, R421, R425-R427) -/

/-- FSTAT as a word (R421). -/
def FStat.word (f : FStat) : DWord :=
  BitVec.ofNat 64 (f.outcome.toNat + f.phase.toNat * 2 ^ 5 + b2n f.fwmis * 2 ^ 8 + b2n f.h0ok * 2 ^ 9 + b2n f.h1ok * 2 ^ 10 +
    b2n f.hrdy * 2 ^ 11 + b2n f.ordy * 2 ^ 12 + b2n f.mrdy * 2 ^ 13 + b2n f.qrdy * 2 ^ 14 + b2n f.bellHere * 2 ^ 15 +
    f.bell.toNat * 2 ^ 32)

/-- The half that a snapshot block belongs to (R14, R426); none beyond the last block. -/
def snapHalf (block : Nat) : Option Nat :=
  if block < 128 then some (block / 64)
  else if block < 192 then some ((block - 128) / 32)
  else if block < 204 then some ((block - 192) / 6)
  else if block < 208 then some 0
  else if block = 208 then some 1
  else none

/-- SNAPDATA: the cycle count of the block's half at the latch, or TAG (R426). -/
def Island.snapData (x : Island) : DWord :=
  match snapHalf (fld x.host.snapsel 0 16), fld x.host.snapsel 16 16 with
  | some h, 0 => (x.half h).snapCount
  | some _, 1 => x.sys.snapTag.setWidth 64
  | _, _ => 0

/-- The status word of the DUMP registers (R427). -/
def HostRegs.dumpWord (h : HostRegs) : DWord :=
  BitVec.ofNat 64 (b2n h.dumpGo + 2 * b2n h.dumpDir + h.dumpStatus.toNat * 2 ^ 8)

/-- The vendor capabilities of configuration space: each identifier with its body. That of the snapshot readout lists the
register counts of cores, slices, HBM controllers, OED, hypothesis controller, notify unit and Cobblers (R425, R426). -/
def capabilities : List (Nat × List Nat) := [(0x0001, []), (0x0002, []), (0x0003, []), (0x0004, List.replicate 7 2)]

/-- Where capability `k` stands, and where the chain begins (log 64). -/
def capabilityAt (k : Nat) : Nat := 0x100 + 0x20 * k

/-- A 32-bit read of configuration space, which a trained port answers, a dark island's too (R414, R419, R425): the
identifier with the pointer to the next capability, 0 at the last, and then the body (log 64). -/
def State.cfgRead (s : State) (isl off : Nat) : Word :=
  let k := (off - 0x100) / 0x20
  let at' := (off - 0x100) % 0x20
  if !(s.isl isl).host.cxlUp || decide (off < 0x100) || at' % 4 ≠ 0 then 0
  else match capabilities[k]? with
    | none => 0
    | some (id, body) =>
      if at' = 0 then BitVec.ofNat 32 (id + if k + 1 < capabilities.length then 2 ^ 16 * capabilityAt (k + 1) else 0)
      else BitVec.ofNat 32 (body.getD (at' / 4 - 1) 0)

/-- A 64-bit read through BAR0. -/
def State.hostRead (s : State) (isl off : Nat) : DWord :=
  let x := s.isl isl
  if off = 0x3000 then x.fstat.word
  else if off = 0x3008 then BitVec.ofNat 64 (b2n x.running)
  else if x.closed then 0
  else if off < 0x2000 then (s.sysRead isl (off / 8) x.host.hsel.toNat 0).1
  else if off = 0x3010 then x.host.hsel
  else if off = 0x3018 then x.host.eq
  else if off = 0x3020 then x.host.snapsel.setWidth 64
  else if off = 0x3028 then x.snapData
  else if off = 0x3030 then x.host.dumpHost
  else if off = 0x3038 then x.host.dumpPa
  else if off = 0x3040 then x.host.dumpLen
  else if off = 0x3048 then x.host.dumpWord
  else if 0x4000 ≤ off && off < 0x4030 then BitVec.ofNat 64 (fld x.host.nonce (8 * (off - 0x4000)) 64)
  else if off = 0x4030 then x.host.mailHalf
  else if off = 0x4038 then BitVec.ofNat 64 (b2n x.host.mailPending + 2 * b2n x.host.mailDone)
  else if 0x4100 ≤ off && off < 0x4200 then BitVec.ofNat 64 (memNat x.host.reportBytes off 8)
  else 0

/-! ## Registers written by the host (R420) -/

/-- The host sets RUN: a halted island runs again (R408, R420). A dark or quarantined island stays as it is, and after the
loss of the Bellwether only a panel reset helps (R389, R417). -/
def execRun (s : State) : Host.Outcome State Fault Refusal :=
  event s fun as s =>
    let isl := ar as 0
    if (s.isl isl).dark || (s.isl isl).running || s.bellLost then s else s.runIsland isl

/-- A panel reset, at the control port, or at any port once formation has FAILED: every island is as after power-on, and
power is good again. The hardware, the flash, and what the outside world has yet to choose remain. -/
def execPanelReset (s : State) : Host.Outcome State Fault Refusal :=
  event s fun as s =>
    if s.bellIsland = some (ar as 0) || s.outcome = some 3#2 then
      { State.reset with
        choices := s.choices, freeCtr := s.freeCtr, populated := s.populated, badLinks := s.badLinks,
        fibreGood := s.fibreGood, fibreTo := s.fibreTo,
        islands := s.islands.map fun p => (p.1, { flash := p.2.flash, rail := p.2.rail }) }
    else s

/-- A 64-bit write through BAR0. The bits with a step of their own schedule it. -/
def execSysregHostWrite (s : State) : Host.Outcome State Fault Refusal :=
  event s fun as s =>
    let isl := ar as 0
    let off := ar as 1
    let v : DWord := BitVec.ofNat 64 (ar as 2)
    let x := s.isl isl
    let put (f : HostRegs → HostRegs) : State := s.modIsl isl fun x => { x with host := f x.host }
    if !x.host.cxlUp || off % 8 ≠ 0 then s
    else if off = 0x3008 then
      let s := if v.getLsbD 0 then s.after isl 0 .run [isl] else if x.dark then s else s.haltIsland isl
      let s := if v.getLsbD 1 then s.after isl 0 .panelReset [isl] else s
      if v.getLsbD 2 && s.bellIsland = some isl then s.after isl 0 .rejoin [isl, fld v 8 4] else s
    else if x.closed then s
    else if off < 0x2000 then s.sysWrite isl (off / 8) x.host.hsel.toNat v
    else if off = 0x3010 then put fun h => { h with hsel := v }
    else if off = 0x3018 then
      let s := put fun h => { h with eq := BitVec.ofNat 64 (fld v 0 48 / 64 * 64) }
      s.flushEvents isl x.events.length
    else if off = 0x3020 then put fun h => { h with snapsel := v.setWidth 32 }
    else if off = 0x3030 then put fun h => { h with dumpHost := v }
    else if off = 0x3038 then put fun h => { h with dumpPa := v }
    else if off = 0x3040 then put fun h => { h with dumpLen := v }
    else if off = 0x3048 then
      if x.host.dumpGo then s
      else
        let s := put fun h => { h with dumpGo := v.getLsbD 0, dumpDir := v.getLsbD 1, dumpStatus := 0 }
        if !v.getLsbD 0 then s else if v.getLsbD 1 then s.after isl 0 .load [isl] else s.after isl 0 .dump [isl]
    else if 0x4000 ≤ off && off < 0x4030 then put fun h => { h with nonce := putFld h.nonce (8 * (off - 0x4000)) 64 v.toNat }
    else if off = 0x4030 then put fun h => { h with mailHalf := v }
    else if off = 0x4038 then if v.getLsbD 0 then s.after isl 0 .attestationRequest [isl] else s
    else s

/-! ## CXL.mem (R258, R419) -/

/-- Whether CXL.mem of an island serves a range. -/
def Island.memServed (x : Island) (a n : Nat) : Bool :=
  x.host.cxlUp && !x.closed && x.fstat.mrdy && decide (a + n ≤ Config.hbmBytes)

/-- Takes the owner's bytes of a line home, as a `.far` load does (R219, R223). -/
def State.recallOwner (s : State) (isl ln : Nat) : State :=
  let x := s.isl isl
  match (x.hline ln).owner with
  | none => s
  | some (c, _) =>
    let s := match x.l1? c ln with
      | some a => (s.modIsl isl fun x => x.setL1 c ln none).homeWrite isl ln a.data a.dirty a.poison a.launch
      | none => s
    let s := s.modIsl isl fun x => (x.modH ln fun h => { h with owner := none }).dropBit ln c
    s.fireMonitors isl c (.line ln 0)

/-- A host read over CXL.mem: performed at the home as a `.far` load once nothing is in progress on its lines. -/
def execCxlMemRead (s : State) : Host.Outcome State Fault Refusal :=
  event s fun as s =>
    let isl := ar as 0
    let a := ar as 1
    let n := ar as 2
    if !(s.isl isl).memServed a n || n = 0 then s
    else if !(s.isl isl).quietRange a n then s.after isl 1 .cxlMemRead as
    else
      let lines := (List.range ((a + n + 127) / 128 - a / 128)).map fun i => a / 128 + i
      lines.foldl (fun (s : State) ln => (s.recallOwner isl ln).useLoc isl (.line ln 0)) s

/-- What a host read returns. -/
def State.cxlRead (s : State) (isl a n : Nat) : List Byte := s.readHome isl 0 n a

/-- A host write over CXL.mem: performed at the home as a `.far` store of home reach. -/
def execCxlMemWrite (s : State) : Host.Outcome State Fault Refusal :=
  event s fun as s =>
    let isl := ar as 0
    let a := ar as 1
    let bs : List Byte := (as.drop 2).map fun b => BitVec.ofNat 8 b
    if !(s.isl isl).memServed a bs.length then s
    else if !(s.isl isl).quietRange a bs.length then s.after isl 1 .cxlMemWrite as
    else s.writeHome isl a 0 bs

/-! ## Attestation (R424) -/

/-- The report of a half under a number for its signature. -/
def Island.attest (x : Island) (isl k : Nat) : Report :=
  let h := if x.host.mailHalf = 0 then 0 else 1
  let slot : Nat := ((x.half h).image.map fun i => i.1).getD 0
  let image := (if slot = 0 then x.flash.slotA else x.flash.slotB).getD {}
  let who := if h = 0 then x.flash.id0 else x.flash.id1
  let r : Report :=
    { nonce := x.host.nonce, digest := image.digest, version := image.security, site := isl, half := h, outcome := x.fstat.outcome,
      gen := x.topo.gen, key := who.key, cert := who.cert }
  { r with sig := signWith who.secret r.body 4 k }

/-- The host starts an attestation, and the half then writes its report into the mailbox. How long that takes, and the
number that the signature is made with, are open. -/
def execAttestationRequest (s : State) : Host.Outcome State Fault Refusal :=
  event s fun as s =>
    let isl := ar as 0
    let x := s.isl isl
    if ar as 1 = 0 then
      if x.closed || x.host.mailPending then s
      else
        let s := s.modIsl isl fun x => { x with host := { x.host with mailPending := true, mailDone := false } }
        let t := s.someTime
        t.2.afterPs t.1 .attestationRequest [isl, 1]
    else
      let p := s.freeBytes 48
      let r := x.attest isl (beNat p.1)
      p.2.modIsl isl fun x =>
        { x with host := { x.host with report := some r, reportBytes := memWriteN [] 0x4100 r.mailbox, mailPending := false, mailDone := true } }

/-! ## The safe tier (R427) -/

/-- The status with which a dump or load is refused; 0 where it runs. -/
def Island.dumpRefused (x : Island) : Nat :=
  if x.host.dumpHost.toNat % 4096 ≠ 0 || x.host.dumpPa.toNat % 65536 ≠ 0 || x.host.dumpLen.toNat % 65536 ≠ 0 ||
      decide (Config.hbmBytes < x.host.dumpPa.toNat + x.host.dumpLen.toNat) then 1
  else if x.hyps.any fun p => p.1 ≠ 0 && p.2.st ≠ .free then 2
  else 0

/-- Writes every dirty line back to HBM, merging L lines. -/
def State.cleanAll (s : State) (isl : Nat) : State :=
  let lines := ((s.isl isl).cores.flatMap fun k => (k.2.l1.filter fun q => q.2.dirty ≠ 0 || q.2.st = .l).map (·.1)).eraseDups
  (lines.foldl (fun (s : State) ln => s.recallLine isl ln) s).modIsl isl fun x =>
    { x with homes := tmap x.homes fun _ h => { h with dirty := false } }

/-- The steps of a dump or a load up to the move: the island halts, operations in flight end, dirty lines are written back,
and the range moves at 121 GB/s. Whether the host link fails, and after how much, is open. -/
def safeTier (row : Instr) (isl : Nat) (s : State) : State :=
  let x := s.isl isl
  if !x.host.dumpGo then s
  else
    let s := s.haltIsland isl
    let st := x.dumpRefused
    if st ≠ 0 then s.after isl 0 .dumpMoveComplete [isl, st, 0]
    else if !x.reqs.isEmpty || !x.invs.isEmpty then s.after isl 16 row [isl]
    else
      let s := s.cleanAll isl
      let n := x.host.dumpLen.toNat
      let c := s.choose 2
      if c.1 = 0 then c.2.afterPs (n * 1000 / 121) .dumpMoveComplete [isl, 0, n]
      else
        let m := c.2.choose (n + 1)
        m.2.afterPs (m.1 * 1000 / 121) .dumpMoveComplete [isl, 3, m.1]

/-- GO with direction 0 (R427). -/
def execDump (s : State) : Host.Outcome State Fault Refusal := event s fun as s => safeTier .dump (ar as 0) s

/-- GO with direction 1 (R427). -/
def execLoad (s : State) : Host.Outcome State Fault Refusal := event s fun as s => safeTier .load (ar as 0) s

/-- The bytes of a range as a dump writes them: a poisoned line as all ones (R427). -/
def State.dumpBytes (s : State) (isl a n : Nat) : List Byte :=
  (List.range n).map fun i =>
    if ((s.isl isl).hline ((a + i) / 128)).poison then 0xFF else memRead (s.isl isl).mem (a + i)

/-- The move ends: a load's bytes are in memory, a dump's in the host's, and its poisoned lines are posted; status, DUMP, GO
(R427). The bytes that the host held are free values. -/
def execDumpMoveComplete (s : State) : Host.Outcome State Fault Refusal :=
  event s fun as s =>
    let isl := ar as 0
    let st := ar as 1
    let n := ar as 2
    let h := (s.isl isl).host
    let a := h.dumpPa.toNat
    if h.dumpDir && n ≠ 0 && !(s.isl isl).quietRange a n then s.after isl 1 .dumpMoveComplete as
    else
      let s := if h.dumpDir then
          let p := s.freeBytes n
          p.2.writeHome isl a 0 p.1
        else
          let moved := memWriteN h.upstream h.dumpHost.toNat (s.dumpBytes isl a n)
          let s := s.modIsl isl fun x => { x with host := { x.host with upstream := moved } }
          let bad := (s.isl isl).homes.filter fun q => q.2.poison && decide (a ≤ 128 * q.1) && decide (128 * q.1 < a + n)
          bad.foldl (fun (s : State) (q : Nat × HLine) =>
            let r : RecArgs :=
              { code := 0x30, info := BitVec.ofNat 64 (128 * q.1), addr := BitVec.ofNat 72 (128 * q.1), agent := agentWord 5 0 0, source := 5 }
            s.post isl { bits := recordBits r }) s
      let s := s.modIsl isl fun x => { x with host := { x.host with dumpStatus := BitVec.ofNat 8 st, dumpGo := false } }
      s.postEvent isl 6 st 0 isl n

end Sys2Proof.Machine
end

