-- ==== Sys2Proof/Machine/Power.lean ====
section
/-! DEFINITION. Power (R428-R431) and spare lanes (R399). -/

namespace Sys2Proof.Machine

/-! ## Idle blocks (R428) -/

/-- A SIMD unit, or the array (unit 4), that has been idle for 64 cycles is gated; else it is looked at again. -/
def execClockGate (s : State) : Host.Outcome State Fault Refusal :=
  event s fun as s =>
    let isl := ar as 0
    let core := ar as 1
    let unit := ar as 2
    let k := (s.isl isl).core core
    let gate (s : State) : State := s.modIsl isl fun x => x.modCore core fun k =>
      { k with gated := if k.gated.contains unit then k.gated else k.gated ++ [unit] }
    if unit = 4 then
      if k.mx.busy.isSome || s.now < tgetD k.clsUsed 3 0 + 64 * (s.isl isl).period then s else gate s
    else
      let free := tgetD k.simdNext unit 0
      if free + 64 ≤ s.cyc isl then gate s else s.after isl (free + 64 - s.cyc isl) .clockGate as

/-- A slice without an access for 1 ms sleeps; with every slice asleep, no stack is accessed (R428). -/
def execSliceRetentionSleep (s : State) : Host.Outcome State Fault Refusal :=
  event s fun as s =>
    let isl := ar as 0
    let sl := ar as 1
    let x := s.isl isl
    let used := tgetD x.sliceUsed sl 0
    if x.asleep.contains sl then s
    else if s.now < used + 1000000000 then s.afterPs (used + 1000000000 - s.now) .sliceRetentionSleep as
    else
      let s := s.modIsl isl fun x => { x with asleep := x.asleep ++ [sl] }
      if (List.range 64).all fun i => (s.isl isl).asleep.contains i then
        (List.range 12).foldl (fun (s : State) st => s.after isl 0 .hbmSelfRefresh [isl, st]) s
      else s

/-- A slice has woken (R428); its idleness is counted anew. -/
def execSliceWake (s : State) : Host.Outcome State Fault Refusal :=
  event s fun as s =>
    let isl := ar as 0
    let sl := ar as 1
    (s.modIsl isl fun x =>
      { x with asleep := x.asleep.filter fun i => i ≠ sl, sliceUsed := tput x.sliceUsed sl s.now }).sleepCheck isl sl

/-- A stack without an access enters self-refresh (R428). -/
def execHbmSelfRefresh (s : State) : Host.Outcome State Fault Refusal :=
  event s fun as s =>
    let st := ar as 1
    s.modIsl (ar as 0) fun x => { x with refresh := if x.refresh.contains st then x.refresh else x.refresh ++ [st] }

/-! ## The current governor (R429) -/

/-- The current of a class in amperes. -/
def classAmps (c : Nat) : Nat :=
  match c with
  | 0 => 4
  | 1 => 10
  | 2 => 18
  | _ => 25

/-- The estimate of an island (R429). -/
def Island.estimate (x : Island) : Nat := 30 + ((List.range 128).map fun c => classAmps (x.core c).cls).sum

/-- The grants of a window: in ascending core order while the sum of the increases stays within STEP; the first request
that does not fit ends them. -/
def grants (step : Nat) : Nat → Tbl CoreS → List (Nat × Nat)
  | _, [] => []
  | sum, (c, k) :: r =>
    if k.clsWant ≤ k.cls then grants step sum r
    else
      let up := sum + (classAmps k.clsWant - classAmps k.cls)
      if up ≤ step then (c, k.clsWant) :: grants step up r else []

/-- A window starts (R429): requests are granted, and the next window comes while one is pending. -/
def execGovernorWindow (s : State) : Host.Outcome State Fault Refusal :=
  event s fun as s =>
    let isl := ar as 0
    let g := grants (s.isl isl).sys.cstep.toNat 0 (s.isl isl).cores
    let s := g.foldl (fun (s : State) (p : Nat × Nat) =>
      let s := (s.modIsl isl fun x => x.modCore p.1 fun k => { k with cls := p.2, clsWant := 0 }).noteClass isl p.1 p.2
      let s := s.afterPs 1000000 .classDrop [isl, p.1]
      if p.2 = 3 then s.kickArray isl p.1 else s) s
    let s := s.modIsl isl fun x => { x with govNext := s.now + 200000 }
    if (s.isl isl).cores.any fun p => p.2.cls < p.2.clsWant then s.afterPs 200000 .governorWindow [isl]
    else s.modIsl isl fun x => { x with governing := false, cores := tmap x.cores fun _ k => { k with clsWant := 0 } }

/-- Whether an instruction of a core has issued and blocks: it is work of class 1 until it ends (R298, R438). -/
def CoreS.blocking (k : CoreS) : Bool :=
  (k.groups.any fun g => g.2.threads.any fun t => match t.2.stat with | .blocked _ => true | _ => false) ||
    k.places.any fun w => w.2.ctx.any fun c => c.waitOp.isSome

/-- When a core last did work of a class or above it; the array's work lasts while it is busy, a blocked instruction's until
it ends. -/
def CoreS.lastWork (k : CoreS) (now c : Nat) : Nat :=
  if k.mx.busy.isSome && decide (c ≤ 3) || k.blocking && decide (c ≤ 1) then now
  else ((k.clsUsed.filter fun p => c ≤ p.1).map (·.2)).foldl max 0

/-- A core drops to the class of its work once it has done no work of its class for 1 µs (R429). -/
def execClassDrop (s : State) : Host.Outcome State Fault Refusal :=
  event s fun as s =>
    let isl := ar as 0
    let core := ar as 1
    let k := (s.isl isl).core core
    let live (c : Nat) : Bool := decide (s.now < k.lastWork s.now c + 1000000)
    let c := ([3, 2, 1].find? live).getD 0
    if k.cls = 0 then s
    else
      let c := min c k.cls
      let s := s.modIsl isl fun x => x.modCore core fun k => { k with cls := c }
      if c = 0 then s
      else
        let due := k.lastWork s.now c + 1000000
        if s.agenda.any fun p => p.2 == .row .classDrop as then s else s.afterPs (due - s.now) .classDrop as

/-! ## The droop alarm (R431) -/

/-- The cycle length changes at a clock edge: the cycle in progress has kept its own. -/
def State.setPeriod (s : State) (isl p : Nat) : State :=
  s.modIsl isl fun x => { x with cycBase := x.cycAt s.now, timeBase := s.now, period := p }

/-- The sensor is compared with THRESH: the alarm is raised below it, with cycles of 0.625 ns from the next edge on; since when it
reads above THRESH + 10 mV is kept, and the alarm falls 1 µs later. -/
def State.senseRail (s : State) (isl : Nat) : State :=
  let x := s.isl isl
  if x.rail < x.sys.thresh.toNat then
    let s := s.modIsl isl fun x => { x with railHigh := none }
    if x.sys.droopAlarm then s
    else
      let s := s.modIsl isl fun x =>
        { x with sys := { x.sys with droopAlarm := true, droopCount := if x.sys.droopCount = 0x7FFF then 0x7FFF else x.sys.droopCount + 1 } }
      (s.afterPs (nextEdge x s.now - s.now) .droopAlarmRaise [isl, 1]).postEvent isl 5 1 0 isl 0
  else if x.rail ≤ x.sys.thresh.toNat + 10 then s.modIsl isl fun x => { x with railHigh := none }
  else if x.railHigh.isSome then s
  else (s.modIsl isl fun x => { x with railHigh := some s.now }).afterPs 1000000 .droopAlarmClear [isl]

/-- The sensor's reading changes to what the third argument gives, or THRESH has been written; or the cycle length changes. -/
def execDroopAlarmRaise (s : State) : Host.Outcome State Fault Refusal :=
  event s fun as s =>
    let isl := ar as 0
    match as with
    | [_, _, mv] => (s.modIsl isl fun x => { x with rail := mv }).senseRail isl
    | [_, _] => s.setPeriod isl 625
    | _ => s.senseRail isl

/-- The sensor has read above THRESH + 10 mV for 1 µs: the alarm falls, and cycles take 0.5 ns from the next edge on. -/
def execDroopAlarmClear (s : State) : Host.Outcome State Fault Refusal :=
  event s fun as s =>
    let isl := ar as 0
    let x := s.isl isl
    if ar as 1 = 1 then s.setPeriod isl 500
    else if !x.sys.droopAlarm || !(x.railHigh.any fun t => decide (t + 1000000 ≤ s.now)) then s
    else
      let s := s.modIsl isl fun x => { x with sys := { x.sys with droopAlarm := false } }
      (s.afterPs (nextEdge x s.now - s.now) .droopAlarmClear [isl, 1]).postEvent isl 5 0 0 isl 0

/-! ## Spare lanes (R399) -/

/-- The Cobbler tests the lanes of a core that holds no workgroup. A bad lane, named one above its number, is replaced by
its unit's spare; a second one in a unit disables the core. -/
def execLaneTest (s : State) : Host.Outcome State Fault Refusal :=
  event s fun as s =>
    let isl := ar as 0
    let core := ar as 1
    let bad := ar as 2
    let k := (s.isl isl).core core
    if !k.places.isEmpty || bad = 0 || 128 < bad || k.badLanes.contains (bad - 1) then s
    else
      let two := k.badLanes.any fun l => l / 32 = (bad - 1) / 32
      s.modIsl isl fun x => x.modCore core fun k => { k with badLanes := k.badLanes ++ [bad - 1], disabled := k.disabled || two }

end Sys2Proof.Machine
end

