-- ==== Sys2Proof/Machine/Save.lean ====
section
/-! DEFINITION. Pre-emption: the checkpoint save and the forced save of a cluster launch (R52, R108-R110, R147, R243, R277,
R315, R337, R369, R390), its restore (R111, R148, R277, R391), and the requests of the system unit (R401). -/

namespace Sys2Proof.Machine

/-! ## What still keeps a save from being made (R109, R110) -/

/-- Whether a pending record names an operation: its lanes wait for `RESUME`. -/
def Island.recorded (x : Island) (id : Nat) : Bool :=
  x.faults.any fun r => !r.settled && (r.op = some id || r.attached.any fun q => q.2 = some id)

/-- Whether an operation has an access in progress; one held on an empty line is none. -/
def Island.busyOp (x : Island) (id : Nat) (o : Op) : Bool :=
  let held (key : Nat) : Bool := x.cores.any fun k => k.2.places.any fun w => w.2.held.contains (id, key)
  o.subs.any fun u => (u.stage = .walking || u.stage = .going || u.stage = .performed) && (u.accs.all fun a => a.fault.isNone) && !held u.key

/-- Whether an operation stands until something outside it comes: a `RESUME`; or, in a forced save, what it is held for: a line
that becomes full, or the load of an `MSTART`'s overlay, for both it issues again at resume (R110, R338). -/
def Island.stands (x : Island) (forced : Bool) (id : Nat) (o : Op) : Bool :=
  x.recorded id || forced && match o.instr with
    | .mstart .. | .mstartV .. => true
    | .cpy .. | .cpyb .. => false
    | _ => x.opHeld id

/-- Whether an operation has come to rest: it stands, or what it waits for in its workgroup has come to rest, by its queue, its
fences or its group. A push or an access in progress, and a load that it waits for, complete first. -/
def Island.atRest (x : Island) (forced : Bool) (w : Wg) : Nat → Nat → Op → Bool
  | 0, _, _ => false
  | fuel + 1, id, o =>
    let mine := x.ops.filter fun p => p.2.core = o.core && p.2.place = o.place && p.1 ≠ id
    !x.busyOp id o && o.pushes.isEmpty &&
      (x.stands forced id o || (w.copyq.contains id && w.copyq.any x.recorded) ||
        (w.fabq.contains id && !o.injected && w.fabq.any x.recorded) ||
        (o.after.any fun i => mine.any fun p => p.1 = i && x.atRest forced w fuel p.1 p.2) ||
        ((!o.released || o.subs.any fun u => u.stage = .waiting) && mine.any fun p => sameAgent p.2 o && x.stands forced p.1 p.2))

/-- The operations of a workgroup's groups and context. -/
def Island.wgOps (x : Island) (core place launch : Nat) : List (Nat × Op) :=
  x.ops.filter fun p => p.2.core = core && p.2.place = place && p.2.launch = launch && match p.2.agent with
    | .group _ _ | .seq _ _ => true
    | .unit _ | .island => false

/-- Whether a context may be saved: nothing of it is on the array or draining, no `MBAR` is in progress, and its readouts have
faulted, stand behind one that has, or are held for an operation that does not begin. -/
def ctxAtRest (k : CoreS) (place : Nat) (c : Ctx) : Bool :=
  c.draining.isEmpty && c.waitOp.isNone && !(k.mx.busy.any fun b => b.1 = place) &&
    c.readout.all fun m => c.behindFault m ||
      m.turn = 0 && (c.handed ++ c.current.toList).any fun a => a.slot = m.slot && a.id < m.id

/-- Whether a workgroup has drained (R109, R110, R147, R315, R369). -/
def Island.wgAtRest (x : Island) (forced : Bool) (cyc : Nat) (core place : Nat) : Bool :=
  match x.wg? core place with
  | none => true
  | some w =>
    let k := x.core core
    (x.wgOps core place w.launch).all (fun p => x.atRest forced w x.ops.length p.1 p.2) && w.ctx.all (ctxAtRest k place) &&
      k.groups.all fun q => q.2.place ≠ place || (settle q.2 cyc).pend.isEmpty

/-- Whether a cluster launch has drained; a resolve in progress completes first (R277). -/
def Island.clAtRest (x : Island) (cyc : Nat) (c : Cl) : Bool :=
  x.resolve.isNone && c.ranks.all fun r => x.wgAtRest c.forced cyc r.1 r.2

/-- Cancels what is blocked on a condition: the instruction issues again at resume (R110, R315, R337). -/
def State.cancelBlocked (s : State) (isl core place : Nat) : State :=
  match (s.isl isl).wg? core place with
  | none => s
  | some w =>
    let s := ((s.isl isl).wgOps core place w.launch).foldl (fun (s : State) p =>
      match p.2.agent with
      | .group _ _ => if opBlocked p.2 && !(s.isl isl).recorded p.1 then s.cancelOp isl p.1 else s
      | .seq _ _ | .unit _ | .island => s) s
    match w.ctx.bind fun c => c.waitOp.bind fun id => (s.op? isl id).map fun o => (id, o) with
    | some (id, o) =>
      if o.sure || (o.released && !blocks' o.instr) then s
      else
        let arw : Option Bool := match o.instr with
          | .mbarArw .. => if o.performed then some (o.b.getLsbD 0) else none
          | _ => none
        ((s.modIsl isl fun x => x.unwait id).delOp isl id).modIsl isl fun x => x.modCtx core place fun c =>
          { c with waitOp := none, sp := o.cp, st := .running, arw := arw }
    | none => s
where
  /-- The `MBAR`s that block. -/
  blocks' (i : Instr) : Bool :=
    match i with
    | .mbarWait .. | .mbarArw .. | .mbarRsv .. | .mbarTake .. => true
    | _ => false

/-- The release before a save (R243): the L lines of a cluster launch's cores are pushed, once; whether the homes have
acknowledged every merge, and with it the invalidations it waits for. -/
def State.releaseCores (s : State) (isl cl : Nat) (c : Cl) : Bool × State :=
  match c.pushes with
  | some l => (!(l.any fun i => (tget? (s.isl isl).reqs i).isSome), s)
  | none =>
    let r := (c.ranks.map (·.1)).eraseDups.foldl (fun (p : List Nat × State) k =>
      let q := p.2.pushLines isl k 0
      (p.1 ++ q.1, q.2)) ([], s)
    (r.1.isEmpty, r.2.modIsl isl fun x => { x with cls := tmod x.cls cl fun c => { c with pushes := some r.1 } })

/-- A cluster launch that has not come to rest pushes anew when it has. -/
def State.notAtRest (s : State) (isl cl : Nat) : State :=
  s.modIsl isl fun x => { x with cls := tmod x.cls cl fun c => { c with pushes := none } }

/-! ## Live ranges (R52) -/

/-- What a checkpoint names as live: ranges of `v` registers, of uniform registers and of the scratchpad, and slots. -/
structure Live where
  v : List (Nat × Nat) := []
  u : List (Nat × Nat) := []
  scr : List (Nat × Nat) := []
  acc : Nat := 0
  deriving DecidableEq, Repr, Inhabited

def Live.join (a b : Live) : Live := { v := a.v ++ b.v, u := a.u ++ b.u, scr := a.scr ++ b.scr, acc := a.acc ||| b.acc }

/-- The ranges of an entry's list; none where one reaches beyond what the kernel declares, or is not one. -/
def readRanges (h : BitVec 512) (acc nreg nscr v : Nat) : Option Live :=
  let regs := (List.range nreg).map fun i => bitsN v (32 * i) 32
  let scrs := (List.range nscr).map fun i => (bitsN v (32 * nreg + 64 * i) 32, bitsN v (32 * nreg + 64 * i + 32) 32)
  let range (r : Nat) : Nat × Nat := (r % 256, bitsN r 8 8)
  let uni (r : Nat) : Bool := bitsN r 16 1 = 1
  let regOk (r : Nat) : Bool :=
    bitsN r 17 15 = 0 && 1 ≤ bitsN r 8 8 && r % 256 + bitsN r 8 8 ≤ (if uni r then hdrUniforms h else hdrRegs h)
  let scrOk (p : Nat × Nat) : Bool := p.1 % 128 = 0 && p.2 % 128 = 0 && decide (p.1 + p.2 ≤ hdrScrBytes h)
  if regs.all regOk && scrs.all scrOk && acc < 2 ^ hdrAccSlots h then
    some { v := (regs.filter fun r => !uni r).map range, u := (regs.filter uni).map range, scr := scrs, acc := acc }
  else none

/-- The table of a checkpoint index; none where it is unreadable (R52). -/
def State.ckptTable (s : State) (isl : Nat) (w : Wg) (i : Nat) : Option Live × State :=
  if hdrCkptCnt w.hdr ≤ i then (none, s)
  else
    let r := s.readVaN isl w.asid w.priv (vaPlus (hdrCkptVa w.hdr) (16 * i)) 16
    match r.1 with
    | none => (none, r.2)
    | some e =>
      let nreg := bitsN e 32 16
      let nscr := bitsN e 48 16
      let q := r.2.readVaN isl w.asid w.priv (vaPlus (hdrCkptVa w.hdr) (bitsN e 0 32)) (4 * nreg + 8 * nscr)
      (if bitsN e 72 56 ≠ 0 then none else q.1.bind (readRanges w.hdr (bitsN e 64 8) nreg nscr), q.2)

/-- The union of the tables of some indices. -/
def State.ckptTables (s : State) (isl : Nat) (w : Wg) : List Nat → Option Live × State
  | [] => (some {}, s)
  | i :: r =>
    let a := s.ckptTable isl w i
    let b := a.2.ckptTables isl w r
    ((a.1.bind fun x => b.1.map x.join), b.2)

/-- The indices at which a group's runs parked. -/
def Group.ckpts (g : Group) : List Nat :=
  (g.threads.filterMap fun p => match p.2.stat with
    | .ckpt i => some i
    | .ready | .asleep _ | .blocked _ | .ovl _ _ _ | .restore => none).eraseDups

/-- Whether an index lies in one of some ranges. -/
def inRanges (rs : List (Nat × Nat)) (k : Nat) : Bool := rs.any fun r => r.1 ≤ k && k < r.1 + r.2

/-! ## The save (R109, R110, R390) -/

/-- Bytes of the save area a cluster launch of a kernel needs, in KiB (R390). -/
def saveKib (h : BitVec 512) : Nat :=
  hdrCluster h * (hdrGroups h * (2 * fld h 32 5 + 4) + hdrScratchKib h + 80 * hdrAccSlots h + 8)

/-- A group as it is saved. -/
def savedGroup (cyc : Nat) (live : Option Live) (g : Group) : Group :=
  let g := settle g cyc
  let g := match live with
    | none => g
    | some l => { g with v := g.v.filter fun p => inRanges l.v (p.1 / 64), s := g.s.filter fun p => inRanges l.u p.1 }
  { g with lastIssue := none, eligible := none, urgent := false, quiesced := false, parked := false, records := 0 }

/-- A workgroup as it is saved. -/
def savedWg (cyc : Nat) (live : Option Live) (w : Wg) : Wg :=
  let w := w.settle cyc
  let w := match live with
    | none => w
    | some l => { w with scr := w.scr.filter fun c => inRanges l.scr c.1, gone := [], goneS := [],
                         emptyLines := w.emptyLines.filter fun n => inRanges l.scr (128 * n) }
  { w with held := [], ctx := w.ctx.map fun c => { c with records := 0, quiesced := false } }

/-- The saved state of one workgroup: with what is live, none for everything. -/
structure SavedWg where
  wg : Wg := {}
  groups : List Group := []
  acc : Tbl A40 := []
  accMeta : Tbl AccMeta := []
  pins : List (BitVec 19 × BitVec 17 × Nat) := []
  ops : List (Nat × Op) := []
  deriving Repr, Inhabited

/-- What is live in a workgroup: of each group, and of the workgroup; none where a table is unreadable. -/
def State.wgLive (s : State) (isl core place : Nat) : Option (List (Nat × Live) × Live) × State :=
  let w := ((s.isl isl).wg? core place).getD {}
  let gs := ((s.isl isl).core core).groups.filter fun p => p.2.place = place
  let r := gs.foldl (fun (p : Option (List (Nat × Live) × Live) × State) q =>
    let t := p.2.ckptTables isl w q.2.ckpts
    (p.1.bind fun a => t.1.map fun l => (a.1 ++ [(q.1, l)], a.2.join { l with v := [], u := [] }), t.2)) (some ([], {}), s)
  match w.ctx.bind (·.ckpt) with
  | none => r
  | some i =>
    let t := r.2.ckptTable isl w i
    (r.1.bind fun a => t.1.map fun l => (a.1, a.2.join { l with v := [], u := [] }), t.2)

/-- Takes the state of a workgroup for a save. -/
def Island.takeWg (x : Island) (cyc core place : Nat) (live : Option (List (Nat × Live) × Live)) : SavedWg :=
  let k := x.core core
  let w := (tget? k.places place).getD {}
  let all := live.map (·.2)
  let slots := List.range w.accMap.length
  let keeps (i : Nat) : Bool := match all with
    | some l => bitsN l.acc i 1 = 1
    | none => true
  { wg := savedWg cyc all w,
    groups := (k.groups.filter fun p => p.2.place = place).map fun p =>
      savedGroup cyc (live.map fun a => ((a.1.find? fun q => q.1 = p.1).map (·.2)).getD {}) p.2,
    acc := slots.flatMap fun i => if keeps i then
        (k.acc.filter fun q => q.1 / 16384 = w.accMap.getD i 8).map fun q => (16384 * i + q.1 % 16384, q.2) else [],
    accMeta := slots.filterMap fun i => (tget? k.accMeta (w.accMap.getD i 8)).map fun m => (i, m),
    pins := k.rtab.filterMap fun q => let n := tgetD q.2.pins place 0
      if n = 0 then none else some (q.2.handle, q.2.tenant, n),
    ops := (x.wgOps core place w.launch).map fun p => (p.1, { p.2 with pushes := [], pushed := false }) }

/-- Writes the image, whose layout is the implementation's own: its size and its bytes are free (R390). None while a line of
the save area is busy. -/
def State.writeImage (s : State) (isl pa : Nat) (h : BitVec 512) : Option (Nat × State) :=
  let n := s.freeBytes 3
  let kib := leNat n.1 % (saveKib h + 1)
  if !(s.isl isl).quietRange pa (1024 * kib) then none
  else
    let b := n.2.freeBytes (1024 * kib)
    some (kib, b.2.writeHome isl pa 0 b.1)

/-- Takes a cluster launch off its cores and keeps it as saved; the `CTXSV` is answered. -/
def State.saveCl (s : State) (isl cl : Nat) (live : List (Option (List (Nat × Live) × Live))) : State :=
  match tget? (s.isl isl).cls cl with
  | none => s
  | some c =>
    let w0 := match c.ranks with
      | r :: _ => ((s.isl isl).wg? r.1 r.2).getD {}
      | [] => {}
    let id := c.saving.getD 0
    let o := (s.op? isl id).getD {}
    let pa := fld o.bulk.desc 0 48
    let retry (s : State) : State := if c.forced then s.afterOnce isl 4 .forcedSave [isl, cl, 1] else s.afterOnce isl 4 .checkpointSave [isl, cl]
    match s.writeImage isl pa w0.hdr with
    | none => retry s
    | some (kib, s) =>
      let mine (r : FaultRec) : Bool := c.ranks.any fun q =>
        match recSource r.bits with
        | 0 | 4 => fld (recAgent r.bits) 0 7 = q.1 && (match (s.isl isl).group? q.1 (fld (recAgent r.bits) 11 5) with
          | some g => g.place = q.2 && g.age = r.age
          | none => false) || (r.op.bind fun i => s.op? isl i).any fun o => o.core = q.1 && o.place = q.2
        | 1 => fld (recAgent r.bits) 0 7 = q.1 && fld (recAgent r.bits) 11 5 = q.2
        | 2 | 3 => (r.op.bind fun i => s.op? isl i).any fun o => o.core = q.1 && o.place = q.2
        | _ => false
      let cyc := s.cyc isl
      let parts := (List.range c.ranks.length).map fun i =>
        let r := c.ranks.getD i (0, 0)
        (s.isl isl).takeWg cyc r.1 r.2 (live.getD i none)
      let out (o : Op) : Bool := o.launch = c.launch && c.ranks.any fun r => r.1 = o.core && r.2 = o.place
      let ours (q : Word × Option Nat) : Bool :=
        (q.2.bind fun i => s.op? isl i).any out || fld q.1 8 3 = 1 && c.ranks.any fun r => r.1 = fld q.1 0 7 && r.2 = fld q.1 11 5
      let s := (s.withdraw isl mine out).modIsl isl fun x =>
        { x with faults := x.faults.map fun r => { r with attached := r.attached.filter fun q => !ours q } }
      let v : Saved :=
        { pa := pa, cl := { c with saving := none, forced := false, pushes := none }, wgs := parts.map (·.wg),
          groups := parts.zipIdx.flatMap fun p => p.1.groups.map fun g => (p.2, g),
          acc := parts.zipIdx.map fun p => (p.2, p.1.acc), accMeta := parts.zipIdx.map fun p => (p.2, p.1.accMeta),
          pins := parts.zipIdx.flatMap fun p => p.1.pins.map fun q => (p.2, q.1, q.2.1, q.2.2),
          ops := parts.zipIdx.flatMap fun p => p.1.ops.map fun q => (p.2, q.1, q.2) }
      let hold (x : Island) (h : Nat) : Island := if h = 0 then x else { x with hyps := tmod x.hyps h fun e => { e with holders := e.holders + 1 } }
      let s := s.modIsl isl fun x =>
        let x := v.hys.foldl hold x
        -- an image that stood at this address can be restored no more
        let older (u : Saved) : Bool := u.pa = pa && u.loader.isNone
        let x := (x.saved.filter fun u => older u && !u.discarded).foldl Island.dropSaved x
        { x with ops := x.ops.filter fun p => !(v.ops.any fun q => q.2.1 = p.1),
                 saved := (x.saved.filter fun u => !older u) ++ [v], cls := tdel x.cls cl }
      let s := c.ranks.foldl (fun (s : State) r => s.modIsl isl fun x => x.modCore r.1 fun k =>
        { k.unpinPlace r.2 with engFlight := k.engFlight.filter fun q => !(v.ops.any fun p => p.2.1 = q.1), places := tdel k.places r.2, groups := k.groups.filter fun g => g.2.place ≠ r.2 }) s
      ((s.modOp isl id fun o => { o with res := BitVec.ofNat 64 (256 * kib) }).replyIn isl (halfTrip o.core) id).kickPlaces isl

/-- Saves with everything, once the cluster launch has drained (R110). -/
def State.forceStep (s : State) (isl cl : Nat) : State :=
  match tget? (s.isl isl).cls cl with
  | none => s
  | some c =>
    let s := c.ranks.foldl (fun (s : State) r => s.cancelBlocked isl r.1 r.2) s
    let again (s : State) : State := s.afterOnce isl 4 .forcedSave [isl, cl, 1]
    if !(s.isl isl).clAtRest (s.cyc isl) c then again (s.notAtRest isl cl)
    else
      let r := s.releaseCores isl cl c
      if r.1 then r.2.saveCl isl cl [] else again r.2

/-- A pre-empting cluster launch becomes forced: its runs stop at their next issue boundary (R110). -/
def State.forceCl (s : State) (isl cl : Nat) : State :=
  (s.modIsl isl fun x => { x with cls := tmod x.cls cl fun c => { c with forced := true } }).forceStep isl cl

/-- The timeout of a pre-emption: the cluster launch is saved by force unless all of it has parked; or a forced save goes on
(R110). -/
def execForcedSave (s : State) : Host.Outcome State Fault Refusal :=
  event s fun as s =>
    let isl := ar as 0
    let cl := ar as 1
    match tget? (s.isl isl).cls cl with
    | none => s
    | some c =>
      if c.saving.isNone then s
      else if c.forced then s.forceStep isl cl
      else if (s.isl isl).clParked c then s
      else s.forceCl isl cl

/-- Every group and context of a pre-empting cluster launch has parked or ended: its live state is saved; a table that cannot
be read makes the save a forced one (R52, R109, R337). That it is found here, once all has parked and drained, and not when the
`CKPT` or `MCKPT` issues is a choice of the model (R119 gives no time; log 63). -/
def execCheckpointSave (s : State) : Host.Outcome State Fault Refusal :=
  event s fun as s =>
    let isl := ar as 0
    let cl := ar as 1
    match tget? (s.isl isl).cls cl with
    | none => s
    | some c =>
      if c.saving.isNone || c.forced || !(s.isl isl).clParked c then s
      else
        let again (s : State) : State := s.afterOnce isl 4 .checkpointSave [isl, cl]
        if !(s.isl isl).clAtRest (s.cyc isl) c then again (s.notAtRest isl cl)
        else
          let r := s.releaseCores isl cl c
          if !r.1 then again r.2
          else
            let t := c.ranks.foldl (fun (p : List (Option (List (Nat × Live) × Live)) × State) q =>
              let l := p.2.wgLive isl q.1 q.2
              (p.1 ++ [l.1], l.2)) ([], r.2)
            if t.1.any (·.isNone) then t.2.forceCl isl cl else t.2.saveCl isl cl t.1

/-- The cluster launch a descriptor names, if it runs on the island. -/
def Island.clOf? (x : Island) (key num : Nat) : Option (Nat × Cl) :=
  x.cls.find? fun p => p.2.launch = key && p.2.num = num && p.2.ranks.all fun r =>
    (x.wg? r.1 r.2).all fun w => !w.waiting && w.audit.isNone

/-- `CTXSV` at the system unit: its status at once, or the pre-emption begins (R108, R390). -/
def State.ctxSave (s : State) (isl id : Nat) (o : Op) : Option Nat × State :=
  let d := o.bulk.desc
  match (s.isl isl).clOf? (launchKey isl (fld d 48 16)) (fld d 64 32) with
  | none => (some 1, s)
  | some (cl, c) =>
    let w0 := match c.ranks with
      | r :: _ => ((s.isl isl).wg? r.1 r.2).getD {}
      | [] => {}
    if fld d 96 32 < saveKib w0.hdr then (some 2, s)
    else if c.saving.isSome then (some 3, s)
    else
      let s := s.modIsl isl fun x => { x with cls := tmod x.cls cl fun c => { c with saving := some id } }
      let wake (s : State) (r : Nat × Nat) : State := s.modIsl isl fun x => x.modCore r.1 fun k =>
        { k with groups := tmap k.groups fun _ g => if g.place ≠ r.2 then g else
            { g with threads := g.threads.map fun p => match p.2.stat with
                | .asleep _ => (p.1, { p.2 with stat := .ready })
                | .ready | .blocked _ | .ckpt _ | .ovl _ _ _ | .restore => p } }
      let s := c.ranks.foldl wake s
      (none, (s.startTimer isl (1000000 * (s.isl isl).sys.pretime.toNat) .forcedSave [isl, cl]).checkParked isl cl)

/-! ## The restore (R111, R148, R277, R391) -/

/-- The saved image a descriptor names. -/
def Island.imageOf? (x : Island) (d : BitVec 256) (isl : Nat) : Option Nat :=
  x.saved.findIdx? fun v => v.pa = fld d 0 48 && v.cl.launch = launchKey isl (fld d 48 16) && v.cl.num = fld d 64 32

/-- Follows FORWARD entries to an OPEN ID: the ID, and the first entry on the way that was refuted (R277). -/
def Island.follow (x : Island) : Nat → Nat → Nat × Option Nat
  | 0, h => (h, none)
  | fuel + 1, h =>
    let e := x.hyp h
    if e.st = .forward then
      let r := x.follow fuel e.fwd.toNat
      (r.1, if e.refuted then some h else r.2)
    else (h, none)

/-- The code pointers whose overlays a restored workgroup needs (R148). -/
def neededCps (gs : List Group) (w : Wg) (pins : List (BitVec 19 × BitVec 17 × Nat)) : List Word :=
  let ofThread (t : Thread) : List Word := match t.stat with
    | .ovl target _ _ => [t.cp, target]
    | .ready | .asleep _ | .blocked _ | .ckpt _ | .restore => [t.cp]
  let ctx : List Word := match w.ctx with
    | some c => if c.st = .idle then [] else [c.sp]
    | none => []
  gs.flatMap (fun g => g.threads.flatMap fun p => ofThread p.2) ++ ctx ++ pins.map fun p => ((p.1.setWidth 32 : Word) <<< 13)

/-- Makes the overlays of a restored workgroup resident: whether it must wait for room, and the handles that are left out, those
whose load would return status 4 or 5 (R148). -/
def State.restoreOverlays (s : State) (isl core launch : Nat) (asid : BitVec 16) (priv : Bool) :
    List (BitVec 19) → (Bool × List (BitVec 19)) × State
  | [] => ((false, []), s)
  | h :: r =>
    match s.makeResident isl core launch asid priv h false with
    | (.wait, s) => ((true, []), s)
    | (.never n, s) =>
      if n ≠ 4 && n ≠ 5 then ((true, []), s)
      else let p := s.restoreOverlays isl core launch asid priv r; ((p.1.1, h :: p.1.2), p.2)
    | (.done, s) => s.restoreOverlays isl core launch asid priv r

/-- A restored group in its new slot: its threads stand where they stood, its hypothesis follows the resolves (R111, R277). -/
def restoredGroup (x : Island) (place age : Nat) (g : Group) : Group :=
  let f := x.follow 256 g.hy.toNat
  let stat (t : Thread) : TStat := match t.stat with
    | .blocked i => .blocked i
    | .ready | .asleep _ | .ckpt _ | .ovl _ _ _ | .restore => .ready
  { g with place := place, age := age, hy := BitVec.ofNat 8 f.1,
           orphInfo := match f.2 with
             | some h => BitVec.ofNat 64 (g.hy.toNat + h * 256 + f.1 * 65536)
             | none => g.orphInfo,
           threads := tmap g.threads fun _ t => { t with stat := stat t, orph := t.orph || f.2.isSome } }

/-- A restored context: it goes on, what had faulted from its beginning or its block; one whose stream had ended stays idle, and
one whose hypothesis was refuted has ended (R277, R337). -/
def restoredCtx (x : Island) (cyc : Nat) (c : Ctx) : Ctx :=
  if (x.follow 256 c.hy.toNat).2.isSome then {}
  else
    let c := c.mapHy fun g => BitVec.ofNat 8 (x.follow 256 g.toNat).1
    { c with st := if c.st = .idle || c.sp = 0 then .idle else .running, nextDispatch := cyc + 1, ckpt := none, faults := [],
             readout := c.readout.map fun m => if c.faults.contains m.id then { m with row := 0, left := 128, rows := [] } else m }

/-- The runs of a restored group that park for overlays that cannot be resident, by code pointer. -/
def parkedRuns (g : Group) : List (Word × LaneMask) :=
  let hit := g.threads.filter fun p => p.2.stat = .restore
  ((hit.map fun p => (p.2.depth, p.2.cp)).eraseDups).map fun k =>
    (k.2, maskOf ((hit.filter fun p => (p.2.depth, p.2.cp) = k).map (·.1)))

/-- The runs of a restored group whose code pointers lie in overlays left out park, and are reported (R148); one that was blocked
issues its instruction again once it goes on. -/
def State.parkBad (s : State) (isl core gid : Nat) (bad : List (BitVec 19)) : State :=
  let at' (t : Thread) : Bool := bad.contains (cpHandle t.cp)
  let waits := (((s.isl isl).group? core gid).map (·.threads)).getD [] |>.filterMap fun p => match p.2.stat with
    | .blocked i => if at' p.2 then some i else none
    | .ready | .asleep _ | .ckpt _ | .ovl _ _ _ | .restore => none
  let s := waits.eraseDups.foldl (fun (s : State) i => s.cancelOp isl i) s
  let s := s.modIsl isl fun x => x.modGroup core gid fun g =>
    { g with threads := tmap g.threads fun _ t => if at' t then { t with stat := .restore } else t }
  match (s.isl isl).group? core gid with
  | some g => (parkedRuns g).foldl (fun (s : State) r => s.postRestore isl core gid r.2 r.1) s
  | none => s

/-- The requests of a restored memory instruction that had not been performed start again from the new place. -/
def State.restartSubs (s : State) (isl id : Nat) : State :=
  match s.op? isl id with
  | none => s
  | some o =>
    let x := s.isl isl
    let open' (u : Sub) : Bool := (u.stage = .waiting || u.stage = .going) && u.accs.all fun a => a.fault.isNone
    let back (u : Sub) : Sub :=
      if open' u then { u with stage := .waiting, accs := u.accs.map fun a => placeAcc x o.core o.place o.instr { a with loc := none } } else u
    let s := s.modOp isl id fun o => { o with subs := o.subs.map back }
    if o.released then ((o.subs.filter open').map (·.key)).foldl (fun (s : State) key => s.startSub isl id key) s else s

/-- Performs a restored operation's faulted part again, and what had not been performed of it (R110, R369, R390). -/
def State.replayOp (s : State) (isl id : Nat) (o : Op) : State :=
  let codes := ((o.subs.flatMap (·.accs)).filterMap fun a => if a.done then none else a.fault.map (·.toNat)).eraseDups
  let all : LaneMask := BitVec.allOnes 64
  match o.instr with
  | .cpy .. | .cpyb .. => (codes.foldl (fun (s : State) k => s.resumeCopy isl id false k all) s).afterOnce isl 1 .copyLineTransfer [isl, o.core]
  | .put .. | .get .. | .rntfy .. | .ratom .. =>
    if o.injected then (match codes with
      | [] => s.resumeFabric isl id false 0 all
      | _ => codes.foldl (fun (s : State) k => s.resumeFabric isl id false k all) s)
    else s.kickFab isl o.core o.place
  | .coll .. => s.resumeColl isl id false
  | .mstart .. | .mstartV .. => s.after isl 0 .mstartCheck [isl, o.core, o.place, id]
  | _ => codes.foldl (fun (s : State) k => s.resumeAccess isl id k all true) (s.restartSubs isl id)

/-- The parts of a saved cluster launch that belong to a rank. -/
def Saved.groupsOf (v : Saved) (rank : Nat) : List Group := (v.groups.filter fun p => p.1 = rank).map (·.2)
def Saved.pinsOf (v : Saved) (rank : Nat) : List (BitVec 19 × BitVec 17 × Nat) := (v.pins.filter fun p => p.1 = rank).map (·.2)

/-- The restored workgroup of a rank goes on, on its place. -/
def State.restoreWg (s : State) (isl core place rank : Nat) (v : Saved) (bad : List (BitVec 19)) : State :=
  let cyc := s.cyc isl
  let w0 := v.wgs.getD rank {}
  -- the accumulator slots, under the new mapping (R318)
  let acc := (v.acc.find? fun p => p.1 = rank).map (·.2) |>.getD []
  let accM := (v.accMeta.find? fun p => p.1 = rank).map (·.2) |>.getD []
  let s := s.modIsl isl fun x => x.modCore core fun k =>
    let w := (tget? k.places place).getD {}
    let k := acc.foldl (fun (k : CoreS) q => { k with acc := tput k.acc (16384 * w.accMap.getD (q.1 / 16384) 0 + q.1 % 16384) q.2 }) k
    let k := accM.foldl (fun (k : CoreS) q => { k with accMeta := tput k.accMeta (w.accMap.getD q.1 0) q.2 }) k
    let k := (v.pinsOf rank).foldl (fun (k : CoreS) q => k.pin place w.asid q.1 q.2.2) k
    { k with places := tput k.places place { w with waiting := false, ctx := w0.ctx.map (restoredCtx x cyc) } }
  -- the groups, each in the lowest free slot; its operations go with it
  let s := (v.groupsOf rank).foldl (fun (s : State) g =>
    let x := s.isl isl
    let k := x.core core
    let gid := (tfree k.groups 32).getD 0
    let g' := restoredGroup x place (k.ages + 1) g
    let s := s.modIsl isl fun x =>
      let x := x.dropHolder 256 (if g.ended then 0 else g.hy.toNat)
      x.modCore core fun k => { k with ages := k.ages + 1, groups := tput k.groups gid g' }
    let s := v.ops.foldl (fun (s : State) q =>
      if q.1 = rank && q.2.2.age = g.age && (match q.2.2.agent with | .group _ _ => true | .seq _ _ | .unit _ | .island => false) then
        s.modIsl isl fun x => { x with ops := tput x.ops q.2.1 { q.2.2 with agent := .group core gid, place := place, age := g'.age } }
      else s) s
    let s := s.parkBad isl core gid bad
    if g.ended then s.afterOnce isl 0 .groupSlotRelease [isl, core, gid] else s) s
  let s := match w0.ctx with
    | some c => if c.st = .idle then s else s.modIsl isl fun x => x.dropHolder 256 c.hy.toNat
    | none => s
  -- operations of groups that have ended
  let s := v.ops.foldl (fun (s : State) q =>
    if q.1 = rank && (s.op? isl q.2.1).isNone then
      s.modIsl isl fun x => { x with ops := tput x.ops q.2.1 { q.2.2 with agent := .group core 32, place := place } }
    else s) s
  let s := v.ops.foldl (fun (s : State) q => if q.1 = rank then s.replayOp isl q.2.1 ((s.op? isl q.2.1).getD {}) else s) s
  let s := ((s.kickArray isl core).readoutStart isl core).ctxKick isl core place
  (s.afterOnce isl (256 - s.cyc isl % 256) .urgencyEvaluation [isl, core]).checkWgEnd isl core place

/-- A restore whose cluster launch has its places: overlays first, then it goes on (R148). -/
def State.restoreGo (s : State) (isl id cl : Nat) (v : Saved) : State :=
  match tget? (s.isl isl).cls cl with
  | none => s
  | some c =>
    let again (s : State) : State := s.afterOnce isl 64 .systemUnitRequest [isl, id]
    if (s.isl isl).resolve.isSome then s.afterOnce isl 4 .systemUnitRequest [isl, id]
    else
      let r := (List.range c.ranks.length).foldl (fun (p : (Bool × List (List (BitVec 19))) × State) rank =>
        let q := c.ranks.getD rank (0, 0)
        let w := v.wgs.getD rank {}
        let hs := ((neededCps (v.groupsOf rank) w (v.pinsOf rank)).map cpHandle).eraseDups
        let o := p.2.restoreOverlays isl q.1 w.launch w.asid w.priv hs
        ((p.1.1 || o.1.1, p.1.2 ++ [o.1.2]), o.2)) ((false, []), s)
      if r.1.1 then again r.2
      else
        let s := (List.range c.ranks.length).foldl (fun (s : State) rank =>
          let q := c.ranks.getD rank (0, 0)
          s.restoreWg isl q.1 q.2 rank v (r.1.2.getD rank [])) r.2
        let s := s.modIsl isl fun x => { x with saved := x.saved.filter fun u => u.loader ≠ some id, restoring := x.restoring.filter fun i => i ≠ id }
        let o := (s.op? isl id).getD {}
        (s.modOp isl id fun o => { o with res := 0 }).replyIn isl (halfTrip o.core) id

/-- `CTXLD` at the system unit: its status, or none while it waits for a place (R391). -/
def State.ctxLoad (s : State) (isl id : Nat) (o : Op) : Option Nat × State :=
  let x := s.isl isl
  match x.saved.find? fun v => v.loader = some id with
  | some v =>
    if v.discarded then
      let cl := o.b.toNat
      let s := if o.performed then (s.dropCl isl cl).checkLaunch v.cl.launch else s
      (some 3, s.modIsl isl fun x => { x with restoring := x.restoring.filter fun i => i ≠ id })
    else if o.performed then (none, s.restoreGo isl id o.b.toNat v)
    else match s.findPlaces isl (v.wgs.getD 0 {}).hdr with
      | (none, s) => (none, s)
      | (some (a, rs), s) =>
        let cl := s.nextId
        let s : State := { s with nextId := cl + 1 }
        let e := s.ctxEntry isl (v.wgs.getD 0 {}).asid
        let p := e.2.takePlaces isl a rs fun rank => { v.wgs.getD rank {} with cl := cl, ctx := none, priv := cxPriv e.1 }
        let c : Cl := { v.cl with ranks := p.1, cluster := clusterOf ((a.getD 0 (0, 0, 0)).1) }
        let s := p.2.modIsl isl fun x => { x with cls := tput x.cls cl c }
        (none, (s.modOp isl id fun o => { o with performed := true, b := BitVec.ofNat 64 cl }).restoreGo isl id cl v)
  | none =>
    match x.imageOf? o.bulk.desc isl with
    | none => (some 1, s)
    | some n =>
      let v := x.saved.getD n {}
      if v.discarded then (some 3, s)
      else if v.loader.isSome then (some 1, s)
      else (none, (s.modIsl isl fun x => { x with saved := x.saved.modify n fun v => { v with loader := some id },
                                                  restoring := x.restoring ++ [id] }).after isl 0 .systemUnitRequest [isl, id])

/-! ## The system unit (R401) -/

/-- Answers a request: the value travels back to the core. -/
def State.sysAnswer (s : State) (isl id : Nat) (v : DWord) : State :=
  let o := (s.op? isl id).getD {}
  (s.modOp isl id fun o => { o with res := v }).replyIn isl (halfTrip o.core) id

/-- A shootdown: the entries go at once; it ends when the accesses they translated have completed (R387). -/
def State.sysTlbi (s : State) (isl id : Nat) (o : Op) : State :=
  let s := if o.performed then s
    else
      let busy := (s.isl isl).translating o
      (s.shootdown isl o).modOp isl id fun o => { o with performed := true, after := busy }
  let waits := ((s.op? isl id).getD {}).after.any fun i => i ≠ id && (s.op? isl i).any fun o => (s.isl isl).busyOp i o
  if waits then s.after isl 4 .systemUnitRequest [isl, id] else s.sysAnswer isl id 0

/-- Requests reach the system unit in order and are performed there (R401). -/
def execSystemUnitRequest (s : State) : Host.Outcome State Fault Refusal :=
  event s fun as s =>
    let isl := ar as 0
    let id := ar as 1
    match if s.agenda.any (fun p => p.2 == .reply isl id) then none else s.op? isl id with
    | none => s
    | some o =>
      let rd (n : BitVec 20) : State :=
        let sel := o.a.toNat
        if !o.priv && !openReg n.toNat then s.sysAnswer isl id 0
        else
          let r := s.sysRead isl n.toNat sel o.asid
          r.2.sysAnswer isl id r.1
      let wr (n : BitVec 20) : State :=
        let sel := o.a.toNat
        if perContext n.toNat && selOk (s.isl isl) n.toNat sel && !s.ctxQuiet isl sel then s.after isl 1 .systemUnitRequest as
        else (s.sysWrite isl n.toNat sel o.b).sysAnswer isl id 0
      let status (p : Option Nat × State) : State := match p.1 with
        | some v => p.2.sysAnswer isl id (BitVec.ofNat 64 v)
        | none => p.2
      let resume (mode : Nat) : State := match s.resume isl mode (o.a.setWidth 32) with
        | some p => p.2.sysAnswer isl id (BitVec.ofNat 64 p.1)
        | none => s.after isl 64 .systemUnitRequest as
      match o.instr with
      | .sysrd _ _ n | .sysrdSel _ _ _ n => rd n
      | .syswr _ _ n | .syswrSel _ _ _ n => wr n
      | .tlbiAll _ | .tlbiCtx .. | .tlbiPage .. => s.sysTlbi isl id o
      | .ctxsv .. => status (s.ctxSave isl id o)
      | .ctxld .. => status (s.ctxLoad isl id o)
      | .resumeReplay .. => resume 0
      | .resumeSkip .. => resume 1
      | .resumeTrap .. => resume 2
      | .snap _ _ t => let p := s.snapTrigger isl t.toNat; p.2.sysAnswer isl id (BitVec.ofNat 64 p.1)
      | .topq .. => let p := s.topqRequest (o.bulk.desc.setWidth 128); p.2.sysAnswer isl id (BitVec.ofNat 64 p.1)
      | _ => s

end Sys2Proof.Machine
end

