-- ==== Sys2Proof/Machine/Dispatch.lean ====
section
/-! DEFINITION. One arm per constructor of Instr: the meaning it calls. -/

namespace Sys2Proof.Machine

def exec (i : Instr) (s : State) : Host.Outcome State Fault Refusal :=
  match i with
  | .nop c => Sys2Proof.Machine.execNop c s
  | .bra c off => Sys2Proof.Machine.execBra c off s
  | .brx c park y => Sys2Proof.Machine.execBrx c park y s
  | .call c park x cp => Sys2Proof.Machine.execCall c park x cp s
  | .callx c park x y => Sys2Proof.Machine.execCallx c park x y s
  | .ret c park y => Sys2Proof.Machine.execRet c park y s
  | .exit c => Sys2Proof.Machine.execExit c s
  | .sleep c n => Sys2Proof.Machine.execSleep c n s
  | .ckpt c n => Sys2Proof.Machine.execCkpt c n s
  | .trap c code => Sys2Proof.Machine.execTrap c code s
  | .trapSetv c y => Sys2Proof.Machine.execTrapSetv c y s
  | .trapGetv c x => Sys2Proof.Machine.execTrapGetv c x s
  | .rtt c => Sys2Proof.Machine.execRtt c s
  | .killWg c => Sys2Proof.Machine.execKillWg c s
  | .killLaunch c => Sys2Proof.Machine.execKillLaunch c s
  | .rep c sx sy sz n => Sys2Proof.Machine.execRep c sx sy sz n s
  | .ovlLd c x y z => Sys2Proof.Machine.execOvlLd c x y z s
  | .ovlPin c x z => Sys2Proof.Machine.execOvlPin c x z s
  | .ovlUnpin c x y => Sys2Proof.Machine.execOvlUnpin c x y s
  | .ovlEvict c x z => Sys2Proof.Machine.execOvlEvict c x z s
  | .ovlQry c x z => Sys2Proof.Machine.execOvlQry c x z s
  | .ovlAddr c x y => Sys2Proof.Machine.execOvlAddr c x y s
  | .iadd c t sat x y z => Sys2Proof.Machine.execIadd c t sat x y z s
  | .isub c t sat x y z => Sys2Proof.Machine.execIsub c t sat x y z s
  | .iaddc c cin x y z => Sys2Proof.Machine.execIaddc c cin x y z s
  | .imul c t sat x y z => Sys2Proof.Machine.execImul c t sat x y z s
  | .imulh c t x y z => Sys2Proof.Machine.execImulh c t x y z s
  | .imad c t sat x y z => Sys2Proof.Machine.execImad c t sat x y z s
  | .imadw c t sat x y z => Sys2Proof.Machine.execImadw c t sat x y z s
  | .imin c t x y z => Sys2Proof.Machine.execImin c t x y z s
  | .imax c t x y z => Sys2Proof.Machine.execImax c t x y z s
  | .iabs c t sat x y => Sys2Proof.Machine.execIabs c t sat x y s
  | .iaddmn c t sat x y z => Sys2Proof.Machine.execIaddmn c t sat x y z s
  | .iaddmx c t sat x y z => Sys2Proof.Machine.execIaddmx c t sat x y z s
  | .isad c t sat x y z => Sys2Proof.Machine.execIsad c t sat x y z s
  | .shl c wrap x y z => Sys2Proof.Machine.execShl c wrap x y z s
  | .shr c wrap x y z => Sys2Proof.Machine.execShr c wrap x y z s
  | .sar c wrap x y z => Sys2Proof.Machine.execSar c wrap x y z s
  | .extr c sw rot x y z => Sys2Proof.Machine.execExtr c sw rot x y z s
  | .bool c t m f x y z => Sys2Proof.Machine.execBool c t m f x y z s
  | .popc c t x y => Sys2Proof.Machine.execPopc c t x y s
  | .clz c t x y => Sys2Proof.Machine.execClz c t x y s
  | .brev c t x y => Sys2Proof.Machine.execBrev c t x y s
  | .bfx c t x y z => Sys2Proof.Machine.execBfx c t x y z s
  | .bfi c x y z => Sys2Proof.Machine.execBfi c x y z s
  | .bsel c x y z => Sys2Proof.Machine.execBsel c x y z s
  | .sel c t x y z => Sys2Proof.Machine.execSel c t x y z s
  | .iset c t one cc x y z => Sys2Proof.Machine.execIset c t one cc x y z s
  | .icmpp c t b cc x y z => Sys2Proof.Machine.execIcmpp c t b cc x y z s
  | .mov c t x y => Sys2Proof.Machine.execMov c t x y s
  | .movi c t x n => Sys2Proof.Machine.execMovi c t x n s
  | .movw c x k => Sys2Proof.Machine.execMovw c x k s
  | .movs c t x y z => Sys2Proof.Machine.execMovs c t x y z s
  | .movsrRd c x n => Sys2Proof.Machine.execMovsrRd c x n s
  | .movsrWr c y n => Sys2Proof.Machine.execMovsrWr c y n s
  | .lea c t k x y z => Sys2Proof.Machine.execLea c t k x y z s
  | .iadd64 c t sat x y z => Sys2Proof.Machine.execIadd64 c t sat x y z s
  | .isub64 c t sat x y z => Sys2Proof.Machine.execIsub64 c t sat x y z s
  | .shl64 c x y z => Sys2Proof.Machine.execShl64 c x y z s
  | .shr64 c arith x y z => Sys2Proof.Machine.execShr64 c arith x y z s
  | .cvti c td ts sat x y => Sys2Proof.Machine.execCvti c td ts sat x y s
  | .fadd c f rm x y z => Sys2Proof.Machine.execFadd c f rm x y z s
  | .fsub c f rm x y z => Sys2Proof.Machine.execFsub c f rm x y z s
  | .fmul c f rm x y z => Sys2Proof.Machine.execFmul c f rm x y z s
  | .ffma c f rm x y z => Sys2Proof.Machine.execFfma c f rm x y z s
  | .fmin c f x y z => Sys2Proof.Machine.execFmin c f x y z s
  | .fmax c f x y z => Sys2Proof.Machine.execFmax c f x y z s
  | .fset c f one cc x y z => Sys2Proof.Machine.execFset c f one cc x y z s
  | .fcmpp c f b cc x y z => Sys2Proof.Machine.execFcmpp c f b cc x y z s
  | .frnd c f rm x y => Sys2Proof.Machine.execFrnd c f rm x y s
  | .fcvt c fd fs rm hi fmd fms x y z => Sys2Proof.Machine.execFcvt c fd fs rm hi fmd fms x y z s
  | .fcvti c t fs rm hi x y => Sys2Proof.Machine.execFcvti c t fs rm hi x y s
  | .icvtf c fd t rm x y => Sys2Proof.Machine.execIcvtf c fd t rm x y s
  | .hadd2 c f rm x y z => Sys2Proof.Machine.execHadd2 c f rm x y z s
  | .hmul2 c f rm x y z => Sys2Proof.Machine.execHmul2 c f rm x y z s
  | .hfma2 c f rm x y z => Sys2Proof.Machine.execHfma2 c f rm x y z s
  | .hmin2 c f x y z => Sys2Proof.Machine.execHmin2 c f x y z s
  | .hmax2 c f x y z => Sys2Proof.Machine.execHmax2 c f x y z s
  | .fdot2 c f rm x y z => Sys2Proof.Machine.execFdot2 c f rm x y z s
  | .fscale c f rm x y z => Sys2Proof.Machine.execFscale c f rm x y z s
  | .fclass c f x y => Sys2Proof.Machine.execFclass c f x y s
  | .frcp c f x y => Sys2Proof.Machine.execFrcp c f x y s
  | .frsq c f x y => Sys2Proof.Machine.execFrsq c f x y s
  | .fsqrt c f x y => Sys2Proof.Machine.execFsqrt c f x y s
  | .fexp2 c f x y => Sys2Proof.Machine.execFexp2 c f x y s
  | .flog2 c f x y => Sys2Proof.Machine.execFlog2 c f x y s
  | .fsin c f x y => Sys2Proof.Machine.execFsin c f x y s
  | .fcos c f x y => Sys2Proof.Machine.execFcos c f x y s
  | .ftanh c f x y => Sys2Proof.Machine.execFtanh c f x y s
  | .fmtw c k z => Sys2Proof.Machine.execFmtw c k z s
  | .fmtwRd c k x => Sys2Proof.Machine.execFmtwRd c k x s
  | .fctlRd c x => Sys2Proof.Machine.execFctlRd c x s
  | .fctlWr c z => Sys2Proof.Machine.execFctlWr c z s
  | .fctlSet c z => Sys2Proof.Machine.execFctlSet c z s
  | .fctlClr c z => Sys2Proof.Machine.execFctlClr c z s
  | .lxch c m w zf wide x y z => Sys2Proof.Machine.execLxch c m w zf wide x y z s
  | .lstep c op zf x y z => Sys2Proof.Machine.execLstep c op zf x y z s
  | .lvote c m b x y => Sys2Proof.Machine.execLvote c m b x y s
  | .lmatch c wide hi x y => Sys2Proof.Machine.execLmatch c wide hi x y s
  | .lscan c op exc x y => Sys2Proof.Machine.execLscan c op exc x y s
  | .ld c t e x a off => Sys2Proof.Machine.execLd c t e x a off s
  | .st c t e x a off => Sys2Proof.Machine.execSt c t e x a off s
  | .ldu c t e x a off => Sys2Proof.Machine.execLdu c t e x a off s
  | .atom c op wide e x a off => Sys2Proof.Machine.execAtom c op wide e x a off s
  | .cas c wide e x a off => Sys2Proof.Machine.execCas c wide e x a off s
  | .fence c scope ord => Sys2Proof.Machine.execFence c scope ord s
  | .markEmpty c win pol x a off => Sys2Proof.Machine.execMarkEmpty c win pol x a off s
  | .markFull c win pol x a off => Sys2Proof.Machine.execMarkFull c win pol x a off s
  | .waita c t ne win pol x a off => Sys2Proof.Machine.execWaita c t ne win pol x a off s
  | .pref c win pol a off => Sys2Proof.Machine.execPref c win pol a off s
  | .flush c win a off => Sys2Proof.Machine.execFlush c win a off s
  | .flushAll c => Sys2Proof.Machine.execFlushAll c s
  | .invl c win a off => Sys2Proof.Machine.execInvl c win a off s
  | .invlAll c => Sys2Proof.Machine.execInvlAll c s
  | .hypOpen c x y => Sys2Proof.Machine.execHypOpen c x y s
  | .hypEnter c x y => Sys2Proof.Machine.execHypEnter c x y s
  | .hypLeave c x => Sys2Proof.Machine.execHypLeave c x s
  | .hypResolveConfirm c x y => Sys2Proof.Machine.execHypResolveConfirm c x y s
  | .hypResolveRefute c x y => Sys2Proof.Machine.execHypResolveRefute c x y s
  | .hypQry c x y => Sys2Proof.Machine.execHypQry c x y s
  | .hypQryCur c x => Sys2Proof.Machine.execHypQryCur c x s
  | .cpy c n fill wd ws scope x y => Sys2Proof.Machine.execCpy c n fill wd ws scope x y s
  | .cpyb c x y => Sys2Proof.Machine.execCpyb c x y s
  | .qfence c m => Sys2Proof.Machine.execQfence c m s
  | .qstat c x q => Sys2Proof.Machine.execQstat c x q s
  | .barInit c x k z => Sys2Proof.Machine.execBarInit c x k z s
  | .barArv c x k z => Sys2Proof.Machine.execBarArv c x k z s
  | .barWait c k z => Sys2Proof.Machine.execBarWait c k z s
  | .barArw c k z => Sys2Proof.Machine.execBarArw c k z s
  | .ringInit c x k z => Sys2Proof.Machine.execRingInit c x k z s
  | .ringPushRsv c x k => Sys2Proof.Machine.execRingPushRsv c x k s
  | .ringPushCmt c x k z => Sys2Proof.Machine.execRingPushCmt c x k z s
  | .ringPopTake c x k => Sys2Proof.Machine.execRingPopTake c x k s
  | .ringPopFree c x k z => Sys2Proof.Machine.execRingPopFree c x k z s
  | .ntfy c sys y z => Sys2Proof.Machine.execNtfy c sys y z s
  | .ntfySet c sys y z => Sys2Proof.Machine.execNtfySet c sys y z s
  | .nwait c sys x y z => Sys2Proof.Machine.execNwait c sys x y z s
  | .pbarInit c x k z => Sys2Proof.Machine.execPbarInit c x k z s
  | .pbarArv c x k => Sys2Proof.Machine.execPbarArv c x k s
  | .pbarWait c k z => Sys2Proof.Machine.execPbarWait c k z s
  | .pbarArw c x k => Sys2Proof.Machine.execPbarArw c x k s
  | .mstart c x cp => Sys2Proof.Machine.execMstart c x cp s
  | .mstartV c x y => Sys2Proof.Machine.execMstartV c x y s
  | .mstop c x => Sys2Proof.Machine.execMstop c x s
  | .mqry c x => Sys2Proof.Machine.execMqry c x s
  | .mqryClr c x => Sys2Proof.Machine.execMqryClr c x s
  | .msetLo x k => Sys2Proof.Machine.execMsetLo x k s
  | .msetHi x k => Sys2Proof.Machine.execMsetHi x k s
  | .msetAdd x k => Sys2Proof.Machine.execMsetAdd x k s
  | .msetU x g z => Sys2Proof.Machine.execMsetU x g z s
  | .msetIx x y n z => Sys2Proof.Machine.execMsetIx x y n z s
  | .mfmt k c => Sys2Proof.Machine.execMfmt k c s
  | .msclA g y sel => Sys2Proof.Machine.execMsclA g y sel s
  | .msclB g y sel => Sys2Proof.Machine.execMsclB g y sel s
  | .msclAOff => Sys2Proof.Machine.execMsclAOff s
  | .msclBOff => Sys2Proof.Machine.execMsclBOff s
  | .mma cls i40 sc zf sl fa fb nb => Sys2Proof.Machine.execMma cls i40 sc zf sl fa fb nb s
  | .mmas cls i40 sc zf sl fa fb nb => Sys2Proof.Machine.execMmas cls i40 sc zf sl fa fb nb s
  | .mzero sl => Sys2Proof.Machine.execMzero sl s
  | .mrd fmt scope sl fm => Sys2Proof.Machine.execMrd fmt scope sl fm s
  | .mwr fmt kind sl fm => Sys2Proof.Machine.execMwr fmt kind sl fm s
  | .mbarArv k n => Sys2Proof.Machine.execMbarArv k n s
  | .mbarWait k y => Sys2Proof.Machine.execMbarWait k y s
  | .mbarArw k n => Sys2Proof.Machine.execMbarArw k n s
  | .mbarRsv k y => Sys2Proof.Machine.execMbarRsv k y s
  | .mbarCmt k y => Sys2Proof.Machine.execMbarCmt k y s
  | .mbarTake k y => Sys2Proof.Machine.execMbarTake k y s
  | .mbarFree k y => Sys2Proof.Machine.execMbarFree k y s
  | .mckpt n => Sys2Proof.Machine.execMckpt n s
  | .mjmp x off => Sys2Proof.Machine.execMjmp x off s
  | .mjmpAl off => Sys2Proof.Machine.execMjmpAl off s
  | .mend => Sys2Proof.Machine.execMend s
  | .put c x y => Sys2Proof.Machine.execPut c x y s
  | .get c x y => Sys2Proof.Machine.execGet c x y s
  | .ratom c op wide win ord x a z => Sys2Proof.Machine.execRatom c op wide win ord x a z s
  | .rntfy c x y z => Sys2Proof.Machine.execRntfy c x y z s
  | .rfence c => Sys2Proof.Machine.execRfence c s
  | .coll c x y => Sys2Proof.Machine.execColl c x y s
  | .route c x t k => Sys2Proof.Machine.execRoute c x t k s
  | .topq c x y => Sys2Proof.Machine.execTopq c x y s
  | .sysrd c x n => Sys2Proof.Machine.execSysrd c x n s
  | .sysrdSel c x y n => Sys2Proof.Machine.execSysrdSel c x y n s
  | .syswr c y n => Sys2Proof.Machine.execSyswr c y n s
  | .syswrSel c x y n => Sys2Proof.Machine.execSyswrSel c x y n s
  | .tlbiAll c => Sys2Proof.Machine.execTlbiAll c s
  | .tlbiCtx c y => Sys2Proof.Machine.execTlbiCtx c y s
  | .tlbiPage c win y z => Sys2Proof.Machine.execTlbiPage c win y z s
  | .ctxsv c x y => Sys2Proof.Machine.execCtxsv c x y s
  | .ctxld c x y => Sys2Proof.Machine.execCtxld c x y s
  | .resumeReplay c x y => Sys2Proof.Machine.execResumeReplay c x y s
  | .resumeSkip c x y => Sys2Proof.Machine.execResumeSkip c x y s
  | .resumeTrap c x y => Sys2Proof.Machine.execResumeTrap c x y s
  | .snap c x t => Sys2Proof.Machine.execSnap c x t s
  | .haltIsl c => Sys2Proof.Machine.execHaltIsl c s
  | .haltPnl c => Sys2Proof.Machine.execHaltPnl c s
  | .sleepExpiry => Sys2Proof.Machine.execSleepExpiry s
  | .urgencyEvaluation => Sys2Proof.Machine.execUrgencyEvaluation s
  | .groupSlotRelease => Sys2Proof.Machine.execGroupSlotRelease s
  | .overlayDirectoryArrival => Sys2Proof.Machine.execOverlayDirectoryArrival s
  | .overlayLoadComplete => Sys2Proof.Machine.execOverlayLoadComplete s
  | .waitaMonitorFire => Sys2Proof.Machine.execWaitaMonitorFire s
  | .waitaPoll => Sys2Proof.Machine.execWaitaPoll s
  | .releaseWaitEnd => Sys2Proof.Machine.execReleaseWaitEnd s
  | .acquireWaitEnd => Sys2Proof.Machine.execAcquireWaitEnd s
  | .writeAcknowledgement => Sys2Proof.Machine.execWriteAcknowledgement s
  | .loadValueReturn => Sys2Proof.Machine.execLoadValueReturn s
  | .lNotice => Sys2Proof.Machine.execLNotice s
  | .homeRead => Sys2Proof.Machine.execHomeRead s
  | .homeReadExclusive => Sys2Proof.Machine.execHomeReadExclusive s
  | .homeUpgrade => Sys2Proof.Machine.execHomeUpgrade s
  | .homeWriteBack => Sys2Proof.Machine.execHomeWriteBack s
  | .homeMerge => Sys2Proof.Machine.execHomeMerge s
  | .forwardedRead => Sys2Proof.Machine.execForwardedRead s
  | .noCopyAnswer => Sys2Proof.Machine.execNoCopyAnswer s
  | .invalidationArrival => Sys2Proof.Machine.execInvalidationArrival s
  | .invalidationApply => Sys2Proof.Machine.execInvalidationApply s
  | .invalidationAckArrival => Sys2Proof.Machine.execInvalidationAckArrival s
  | .grantArrival => Sys2Proof.Machine.execGrantArrival s
  | .l1Eviction => Sys2Proof.Machine.execL1Eviction s
  | .poisonConsumption => Sys2Proof.Machine.execPoisonConsumption s
  | .halfReset => Sys2Proof.Machine.execHalfReset s
  | .flitUncorrectable => Sys2Proof.Machine.execFlitUncorrectable s
  | .resolveArrival => Sys2Proof.Machine.execResolveArrival s
  | .confirmCommitPoint => Sys2Proof.Machine.execConfirmCommitPoint s
  | .resolveCompletion => Sys2Proof.Machine.execResolveCompletion s
  | .taggedWrite => Sys2Proof.Machine.execTaggedWrite s
  | .taggedWriteRefusal => Sys2Proof.Machine.execTaggedWriteRefusal s
  | .hypOrphanTrap => Sys2Proof.Machine.execHypOrphanTrap s
  | .copyLineTransfer => Sys2Proof.Machine.execCopyLineTransfer s
  | .cpyCompletion => Sys2Proof.Machine.execCpyCompletion s
  | .cpyEngineFault => Sys2Proof.Machine.execCpyEngineFault s
  | .cpybDestinationDone => Sys2Proof.Machine.execCpybDestinationDone s
  | .barrierArrival => Sys2Proof.Machine.execBarrierArrival s
  | .syncUnitOperation => Sys2Proof.Machine.execSyncUnitOperation s
  | .notifyUnitRequest => Sys2Proof.Machine.execNotifyUnitRequest s
  | .nwaitResend => Sys2Proof.Machine.execNwaitResend s
  | .panelBarrierRootArrival => Sys2Proof.Machine.execPanelBarrierRootArrival s
  | .panelBarrierRelease => Sys2Proof.Machine.execPanelBarrierRelease s
  | .mstartCheck => Sys2Proof.Machine.execMstartCheck s
  | .matrixOperationBegin => Sys2Proof.Machine.execMatrixOperationBegin s
  | .matrixOperationComplete => Sys2Proof.Machine.execMatrixOperationComplete s
  | .readoutHandoff => Sys2Proof.Machine.execReadoutHandoff s
  | .mrdComplete => Sys2Proof.Machine.execMrdComplete s
  | .contextFault => Sys2Proof.Machine.execContextFault s
  | .fabricInject => Sys2Proof.Machine.execFabricInject s
  | .fabricPacketArrival => Sys2Proof.Machine.execFabricPacketArrival s
  | .fabricAcknowledgement => Sys2Proof.Machine.execFabricAcknowledgement s
  | .collectiveCompletion => Sys2Proof.Machine.execCollectiveCompletion s
  | .oedCombine => Sys2Proof.Machine.execOedCombine s
  | .remoteTimeout => Sys2Proof.Machine.execRemoteTimeout s
  | .remotePerm => Sys2Proof.Machine.execRemotePerm s
  | .islandRemoval => Sys2Proof.Machine.execIslandRemoval s
  | .portChangeCommand => Sys2Proof.Machine.execPortChangeCommand s
  | .portStepComplete => Sys2Proof.Machine.execPortStepComplete s
  | .checkpointSave => Sys2Proof.Machine.execCheckpointSave s
  | .forcedSave => Sys2Proof.Machine.execForcedSave s
  | .snapshotLatch => Sys2Proof.Machine.execSnapshotLatch s
  | .faultRecordPost => Sys2Proof.Machine.execFaultRecordPost s
  | .faultQueueRoom => Sys2Proof.Machine.execFaultQueueRoom s
  | .tableWalk => Sys2Proof.Machine.execTableWalk s
  | .snapshotPageCopy => Sys2Proof.Machine.execSnapshotPageCopy s
  | .launchRollback => Sys2Proof.Machine.execLaunchRollback s
  | .auditRerunEnd => Sys2Proof.Machine.execAuditRerunEnd s
  | .auditTimeout => Sys2Proof.Machine.execAuditTimeout s
  | .queueTailAdvance => Sys2Proof.Machine.execQueueTailAdvance s
  | .launchDispatch => Sys2Proof.Machine.execLaunchDispatch s
  | .launchStart => Sys2Proof.Machine.execLaunchStart s
  | .clusterLaunchHandout => Sys2Proof.Machine.execClusterLaunchHandout s
  | .workgroupStart => Sys2Proof.Machine.execWorkgroupStart s
  | .workgroupEnd => Sys2Proof.Machine.execWorkgroupEnd s
  | .clusterLaunchRetire => Sys2Proof.Machine.execClusterLaunchRetire s
  | .launchComplete => Sys2Proof.Machine.execLaunchComplete s
  | .queueRestart => Sys2Proof.Machine.execQueueRestart s
  | .partWrite => Sys2Proof.Machine.execPartWrite s
  | .sysregHostWrite => Sys2Proof.Machine.execSysregHostWrite s
  | .powerGood => Sys2Proof.Machine.execPowerGood s
  | .formationDeadline => Sys2Proof.Machine.execFormationDeadline s
  | .linkTraining => Sys2Proof.Machine.execLinkTraining s
  | .floodRecord => Sys2Proof.Machine.execFloodRecord s
  | .election => Sys2Proof.Machine.execElection s
  | .readyBitSet => Sys2Proof.Machine.execReadyBitSet s
  | .heartbeat => Sys2Proof.Machine.execHeartbeat s
  | .heartbeatLoss => Sys2Proof.Machine.execHeartbeatLoss s
  | .run => Sys2Proof.Machine.execRun s
  | .panelReset => Sys2Proof.Machine.execPanelReset s
  | .rejoin => Sys2Proof.Machine.execRejoin s
  | .attestationRequest => Sys2Proof.Machine.execAttestationRequest s
  | .dump => Sys2Proof.Machine.execDump s
  | .load => Sys2Proof.Machine.execLoad s
  | .cxlMemRead => Sys2Proof.Machine.execCxlMemRead s
  | .cxlMemWrite => Sys2Proof.Machine.execCxlMemWrite s
  | .laneTest => Sys2Proof.Machine.execLaneTest s
  | .clockGate => Sys2Proof.Machine.execClockGate s
  | .sliceRetentionSleep => Sys2Proof.Machine.execSliceRetentionSleep s
  | .sliceWake => Sys2Proof.Machine.execSliceWake s
  | .hbmSelfRefresh => Sys2Proof.Machine.execHbmSelfRefresh s
  | .governorWindow => Sys2Proof.Machine.execGovernorWindow s
  | .classDrop => Sys2Proof.Machine.execClassDrop s
  | .droopAlarmRaise => Sys2Proof.Machine.execDroopAlarmRaise s
  | .droopAlarmClear => Sys2Proof.Machine.execDroopAlarmClear s
  | .hypothesisControllerRequest => Sys2Proof.Machine.execHypothesisControllerRequest s
  | .systemUnitRequest => Sys2Proof.Machine.execSystemUnitRequest s
  | .panelBarrierAgentRequest => Sys2Proof.Machine.execPanelBarrierAgentRequest s
  | .auditRerunStart => Sys2Proof.Machine.execAuditRerunStart s
  | .cxlLinkTraining => Sys2Proof.Machine.execCxlLinkTraining s
  | .dumpMoveComplete => Sys2Proof.Machine.execDumpMoveComplete s

end Sys2Proof.Machine
end

