-- ==== Sys2Proof/Machine/Plan.lean ====
section
/-! DEFINITION. One step of the panel: the pending step that is due, the issue of a group, the dispatch of a context, or the
clock; and the placing of one instruction where the next step issues it. -/

namespace Sys2Proof.Machine

/-! ## One step -/

/-- A pending step is taken. -/
def runAct (s : State) (a : Act) : Host.Outcome State Fault Refusal :=
  match a with
  | .row i as => exec i { s with focus := .event as }
  | .perform isl _ id key => .next (s.performAct isl id key)
  | .reply isl id =>
    match ((s.op? isl id).getD {}).instr with
    | .hypOpen .. | .hypEnter .. | .hypLeave .. | .hypQry .. | .hypQryCur .. | .hypResolveConfirm .. | .hypResolveRefute .. =>
      .next (s.hypReply isl id)
    | _ => .next (s.syncReply isl id)

/-- A group issues what it would issue (R87). -/
def runCand (s : State) (isl core gid : Nat) (c : Cand) : Host.Outcome State Fault Refusal :=
  match c with
  | .run i =>
    match s.auditHalts isl core gid i with
    | some a => exec .auditTimeout { s with focus := .event [isl, a] }
    | none => exec i { s with focus := .group isl core gid }
  | .bad code info =>
    match s.env? isl core gid default with
    | some e => .next (s.takeDecode e code info)
    | none => .next s
  | .orphan => exec .hypOrphanTrap { s with focus := .event [isl, core, gid] }
  | .due => .next (s.deliverDue isl core gid)

/-- The word at a context's stream pointer. -/
def State.streamWord (s : State) (isl core place : Nat) : Option IWord :=
  match s.senv? isl core place with
  | some e => fetchWord ((s.isl isl).core core) e.c.sp e.w.asid true
  | none => none

/-- A context dispatches the instruction at its stream pointer (R319, R320). -/
def runStream (s : State) (isl core place : Nat) : Host.Outcome State Fault Refusal :=
  match s.streamWord isl core place with
  | none => .next (s.dispatchBad isl core place 0)
  | some w =>
    if streamOpcode (fld w 88 8) then
      match decode w with
      | some i => exec i { s with focus := .seq isl core place }
      | none => .next (s.dispatchBad isl core place (fld w 64 32))
    else .next (s.dispatchBad isl core place (fld w 64 32))

/-- What moves when no pending step is due. -/
def moveOn (s : State) : Host.Outcome State Fault Refusal :=
  match firstIssue s.now s.islands with
  | some (isl, core, gid, _, c) => runCand s isl core gid c
  | none =>
    match firstDispatch s.now s.islands with
    | some (isl, core, place) => runStream s isl core place
    | none => .next (tick s)

/-- The pending step that is due first, with the agenda that remains. -/
def dueNow (s : State) : Option (Act × State) :=
  match earliest s s.agenda 0 with
  | some (n, t, a) => if t ≤ s.now then some (a, { s with agenda := s.agenda.eraseIdx n }) else none
  | none => none

/-- One step. -/
def nextStep (s : State) : Host.Outcome State Fault Refusal :=
  match dueNow s with
  | some (a, s') => runAct s' a
  | none => moveOn s

/-! ## Placing an instruction

The place is residency slot 0, and sequencer context 0, of workgroup place 0 of core 0 of island 0. -/

/-- The bits of an instruction given in the table's numbering: those above `nbits` are 0. -/
def tableWord (nbits w : Nat) : IWord := BitVec.ofNat 96 (w % 2 ^ nbits)

/-- A kernel header that declares 248 registers, 64 uniform registers, 8 accumulator slots, 1 group, cluster size 1 and 32
KiB of scratchpad (R50). -/
def placeHdr : BitVec 512 :=
  BitVec.ofNat 512 (31 * 2 ^ 32 + 64 * 2 ^ 40 + 8 * 2 ^ 48 + 2 ^ 56 + 2 ^ 64 + 32 * 2 ^ 80)

/-- Overlay handle 1, whose first instruction the place names. -/
def placeCp : Word := 8192

/-- The workgroup of the place: privileged, with every accumulator slot. -/
def placeWg (ctx : Option Ctx) : Wg :=
  { priv := true, hdr := placeHdr, ctx := ctx, accMap := List.range 8 }

/-- The group of the place: 64 threads at the instruction; a `COPY` group for the copy instructions (R82). -/
def placeGroup (opc : Nat) : Group :=
  { role := if opc = 0x90 ∨ opc = 0x91 then .copy else .vector,
    threads := (List.range 64).map fun l => (l, { cp := placeCp }) }

/-- A repeatable instruction, which follows the placed one (R33). -/
def placeNext : IWord := (encode (.mov default .b32 (.v 0) (.v 0))).getD 0

/-- The core of the place with the instruction in slot 0 of its instruction store. -/
def placeCore (k : CoreS) (w : IWord) : CoreS :=
  let opc := fld w 88 8
  let mst := streamOpcode opc
  { k with
    groups := if mst then [] else [(0, placeGroup opc)],
    places := [(0, placeWg (some (if mst then { st := .running, sp := placeCp } else {})))],
    rtab := [(0, { handle := 1, first := 0, length := 1, count := 2, mst := mst })],
    istore := [(0, w), (1, placeNext)],
    simdNext := [], sfBusy := [], cls := 3 }

/-- The state in which the next step issues an instruction: its island runs, its core holds the class of every
instruction, and nothing that comes earlier is pending. -/
def State.placeWord (s : State) (w : IWord) : State :=
  let x := s.isl 0
  { s with
    agenda := s.agenda.filter fun p => decide (s.now < s.dueTime p.1),
    islands := [(0, { x with running := true, dark := false, cores := [(0, placeCore (x.core 0) w)] })] }

end Sys2Proof.Machine
end

