-- ==== Sys2Proof/Safety.lean ====
section
/-! DEFINITION. The terms in which claims about the machine are stated: when an instruction executes normally, the writes
that a fixed-latency instruction queues, and the tables of the instructions of one shape. -/

namespace Sys2Proof.Safety

open Sys2Proof.Machine

/-! ## When an instruction executes -/

/-- The register operands of an instruction whose index the declared counts limit (R24), each with whether it is a pair;
the last register of a run of registers stands for the run. -/
def operands : Instr → List (Opnd × Bool)
  | .nop _ | .bra .. | .exit _ | .sleep .. | .ckpt .. | .trap .. | .rtt _ | .killWg _ | .killLaunch _ | .rep .. => []
  | .brx _ _ y | .ret _ _ y | .trapSetv _ y => [(y, false)]
  | .call _ _ x _ | .trapGetv _ x => [(x, false)]
  | .callx _ _ x y => [(x, false), (y, false)]
  | .ovlLd _ x y z => [(x, false), (y, false), zreg z false]
  | .ovlPin _ x z | .ovlEvict _ x z | .ovlQry _ x z => [(x, false), zreg z false]
  | .ovlUnpin _ x y => [(x, false), (y, false)]
  | .ovlAddr _ x y => [(x, true), (y, false)]
  | .iadd _ _ _ x y z | .isub _ _ _ x y z | .imul _ _ _ x y z | .imad _ _ _ x y z | .iaddmn _ _ _ x y z
  | .iaddmx _ _ _ x y z | .isad _ _ _ x y z => [(x, false), (y, false), zreg z false]
  | .iaddc _ _ x y z | .imulh _ _ x y z | .imin _ _ x y z | .imax _ _ x y z | .shl _ _ x y z | .shr _ _ x y z
  | .sar _ _ x y z | .bfx _ _ x y z => [(x, false), (y, false), zreg z false]
  | .extr _ _ _ x y z => [(x, false), (y, false), zreg z false]
  | .bfi _ x y z | .bsel _ x y z => [(x, false), (y, false), zreg z false]
  | .imadw _ _ _ x y z => [(x, true), (y, false), zreg z false]
  | .iabs _ _ _ x y => [(x, false), (y, false)]
  | .bool _ t _ _ x y z => [(x, wideT t), (y, wideT t), (z, wideT t)]
  | .popc _ t x y | .clz _ t x y => [(x, false), (y, wideT t)]
  | .brev _ t x y | .mov _ t x y => [(x, wideT t), (y, wideT t)]
  | .sel _ t x y z => [(x, wideT t), (y, wideT t), zreg z (wideT t)]
  | .iset _ t _ _ x y z | .icmpp _ t _ _ x y z => [(x, false), (y, wideT t), (z, wideT t)]
  | .movi _ t x _ => [(x, wideT t)]
  | .movw _ x _ | .movsrRd _ x _ => [(x, false)]
  | .movs _ t x y z => [(x, wideT t), (y, wideT t), zreg z false]
  | .movsrWr _ y _ => [(y, false)]
  | .lea _ _ _ x y z => [(x, true), (y, true), (z, false)]
  | .iadd64 _ _ _ x y z | .isub64 _ _ _ x y z => [(x, true), (y, true), zreg z true]
  | .shl64 _ x y z | .shr64 _ _ x y z => [(x, true), (y, true), zreg z false]
  | .cvti _ td ts _ x y => [(x, wideT td), (y, wideT ts)]
  | .fadd _ _ _ x y z | .fsub _ _ _ x y z | .fmul _ _ _ x y z | .ffma _ _ _ x y z | .hadd2 _ _ _ x y z
  | .hmul2 _ _ _ x y z | .hfma2 _ _ _ x y z | .fdot2 _ _ _ x y z | .fscale _ _ _ x y z =>
    [(x, false), (y, false), zreg z false]
  | .fmin _ _ x y z | .fmax _ _ x y z | .hmin2 _ _ x y z | .hmax2 _ _ x y z => [(x, false), (y, false), zreg z false]
  | .fset _ _ _ _ x y z | .fcmpp _ _ _ _ x y z => [(x, false), (y, false), (z, false)]
  | .frnd _ _ _ x y => [(x, false), (y, false)]
  | .fcvt _ _ _ _ _ _ _ x y z => (x, false) :: (y, false) :: z.toList.map fun o => (o, false)
  | .fcvti _ t _ _ _ x y => [(x, wideT t), (y, false)]
  | .icvtf _ _ t _ x y => [(x, false), (y, wideT t)]
  | .fclass _ _ x y | .frcp _ _ x y | .frsq _ _ x y | .fsqrt _ _ x y | .fexp2 _ _ x y | .flog2 _ _ x y | .fsin _ _ x y
  | .fcos _ _ x y | .ftanh _ _ x y => [(x, false), (y, false)]
  | .fmtw _ _ z | .fctlWr _ z | .fctlSet _ z | .fctlClr _ z => [zreg z false]
  | .fmtwRd _ _ x | .fctlRd _ x => [(x, false)]
  | .lxch _ _ _ _ wide x y z => [(x, wide), (y, wide), zreg z false]
  | .lstep _ _ _ x y z => [(x, false), (y, false), zreg z false]
  | .lvote _ m _ x y => [(x, voteWide m), (y, false)]
  | .lmatch _ wide _ x y => [(x, true), (y, wide)]
  | .lscan _ _ _ x y => [(x, false), (y, false)]
  | .ld _ t _ x a _ | .st _ t _ x a _ | .ldu _ t _ x a _ => [(x, tWidth t = 64), (a, true)]
  | .atom _ _ wide _ x a _ => [(x, wide), (a, true)]
  | .cas _ wide _ x a _ =>
    [(x, true), (a, true)] ++ match x with | .vp k => if wide then [(.vp (k + 2), true)] else [] | _ => []
  | .fence .. | .flushAll _ | .invlAll _ => []
  | .markEmpty _ _ _ x a _ | .markFull _ _ _ x a _ | .waita _ _ _ _ _ x a _ => [(x, false), (a, true)]
  | .pref _ _ _ a _ | .flush _ _ a _ | .invl _ _ a _ => [(a, true)]
  | .hypOpen _ x y | .hypEnter _ x y | .hypResolveConfirm _ x y | .hypResolveRefute _ x y => [(x, false), (y, false)]
  | .hypLeave _ x => [(x, false)]
  | .hypQry _ x y => [(x, true), (y, false)]
  | .hypQryCur _ x => [(x, true)]
  | .cpy _ _ _ _ _ _ x y => [(x, true), (y, true)]
  | .cpyb _ x y => [(x, false), descReg y 8]
  | .qfence .. => []
  | .qstat _ x _ => [(x, false)]
  | .barInit _ x _ z | .ringInit _ x _ z | .ringPushCmt _ x _ z | .ringPopFree _ x _ z | .pbarInit _ x _ z =>
    [(x, false), zreg z false]
  | .barArv _ x _ z => (x.toList.map fun o => (o, false)) ++ [zreg z false]
  | .barWait _ _ z | .barArw _ _ z | .pbarWait _ _ z => [zreg z false]
  | .ringPushRsv _ x _ | .ringPopTake _ x _ | .pbarArv _ x _ | .pbarArw _ x _ => [(x, false)]
  | .ntfy _ _ y z => [(y, false), zreg z false]
  | .ntfySet _ _ y z => [(y, false), zreg z true]
  | .nwait _ _ x y z => [(x, true), (y, false), zreg z true]
  | .mstart _ x _ | .mstop _ x => [(x, false)]
  | .mstartV _ x y => [(x, false), (y, false)]
  | .mqry _ x | .mqryClr _ x => [(x, true)]
  | .put _ x y | .get _ x y | .coll _ x y => [(x, false), descReg y 8]
  | .ratom _ op wide _ _ x a z =>
    [(x, wide || op = .cas), (a, true), (z, false)] ++
      match x with | .vp k => if op = .cas && wide then [(.vp (k + 2), true)] else [] | _ => []
  | .rntfy _ x y z => [(x, false), (y, false), zreg z false]
  | .rfence _ => []
  | .route _ x _ _ => [(x, false)]
  | .topq _ x y => [(x, false), descReg y 4]
  | .sysrd _ x _ => [(x, true)]
  | .sysrdSel _ x y _ => [(x, true), (y, false)]
  | .syswr _ y _ => [(y, true)]
  | .syswrSel _ x y _ => [(x, false), (y, true)]
  | .tlbiAll _ | .haltIsl _ | .haltPnl _ => []
  | .tlbiCtx _ y => [(y, false)]
  | .tlbiPage _ _ y z => [(y, false), (z, true)]
  | .ctxsv _ x y | .ctxld _ x y => [(x, false), descReg y 4]
  | .resumeReplay _ x y | .resumeSkip _ x y | .resumeTrap _ x y => [(x, false), (y, false)]
  | .snap _ x _ => [(x, false)]
  | _ => []

/-- Opcode and MOD of an instruction's word. -/
def opcMd (i : Instr) : Nat × Nat := ((fieldsOf i).map fun f => (f.opc.toNat, f.md.toNat)).getD (0, 0)

/-- A group in focus may execute an instruction: its fields are legal, its context is privileged where it is a privileged
one, its role may issue its class, and its registers lie within the declared counts (R24, R30, R37, R39, R82). `e` is
what the group sees. -/
structure Executes (i : Instr) (c : Ctl) (s : State) (e : Env) : Prop where
  focus : s.focus = .group e.isl e.core e.gid
  env : s.env? e.isl e.core e.gid c = some e
  ctl : (fieldsOf i).map (·.c) = some c
  legal : i.WellFormed
  priv : privileged (opcMd i).1 (opcMd i).2 = true → e.wg.priv = true
  role : roleOk e.g.role (opcMd i).1 = true
  guard : c.ge = true → c.gr.toNat < hdrRegs e.wg.hdr
  regs : ∀ r ∈ operands i, rangeBad e.wg r = false

/-- The agent in focus is one that an instruction acts for: an event has its arguments, a group's instruction a group, a
stream's instruction a sequencer context. -/
def Attended (i : Instr) (s : State) : Prop :=
  match s.focus with
  | .event _ => fieldsOf i = none
  | .group isl core gid => (s.isl isl).group? core gid ≠ none ∧ fieldsOf i ≠ none ∧ streamOpcode (opcMd i).1 = false
  | .seq isl core place => s.senv? isl core place ≠ none ∧ fieldsOf i ≠ none ∧ streamOpcode (opcMd i).1 = true
  | .none => False

/-- The instructions whose legality depends on the machine's state too: on the code pointer, the next word, a format
register or a `REP` in progress (R33, R67, R115, R194). -/
def stateChecked : Instr → Bool
  | .bra .. | .rep .. | .fcvt .. | .lxch .. | .lstep .. => true
  | _ => false

/-- The first decoding fault of an instruction from its word, the context, the role and the declared counts (R39). -/
def firstFault (i : Instr) (c : Ctl) (e : Env) : Option Nat :=
  if Machine.legal i = false then some 1
  else if privileged (opcMd i).1 (opcMd i).2 && !e.wg.priv then some 0x11
  else if !roleOk e.g.role (opcMd i).1 then some 2
  else if (c.ge && decide (hdrRegs e.wg.hdr ≤ c.gr.toNat)) || (operands i).any (rangeBad e.wg) then some 3
  else none

/-! ## Fixed-latency writes (R84) -/

/-- A destination names a lane of the group, where it names one. -/
def OnLanes : WDest → Prop
  | .v _ l | .o _ l | .lt l => l < 64
  | _ => True

/-- Queues writes for a cycle, in order. -/
def queueAll (g : Group) (due : Nat) (ws : List (WDest × DWord)) : Group :=
  ws.foldl (fun g w => addWrite g due w.1 w.2) g

/-- The writes of a register operand in a lane: the word, and for a pair the word above it. -/
def regWrites (x : Opnd) (wide : Bool) (l : Nat) (v : DWord) : List (WDest × DWord) :=
  match x with
  | .v k => [(.v k.toNat l, v)]
  | .vp k => [(.v k.toNat l, v), (.v (k.toNat + 1) l, v >>> 32)]
  | .s k => (.s k.toNat, v) :: if wide then [(.s (k.toNat + 1), v >>> 32)] else []
  | .o k => (.o k.toNat l, v) :: if wide then [(.o (k.toNat + 1) l, v >>> 32)] else []
  | .sr _ | .lt | .imm _ => []

/-- The writes of a result (R27, R30, R150): a per-lane destination in each lane of the mask, and with `latch` the lane's
latch; a uniform destination once, from the lowest lane, and no latch. -/
def resultWrites (x : Opnd) (wide latch : Bool) (m : LaneMask) (val : Nat → DWord) : List (WDest × DWord) :=
  match x with
  | .s k => match lowLane m with
    | some l => regWrites (.s k) wide 0 (val l)
    | none => []
  | _ => (lanesOf m).flatMap fun l => regWrites x wide l (val l) ++ if latch then [(.lt l, val l)] else []

/-- The fall of the completion flag that SETF names (R31). -/
def flagWrite (c : Ctl) : List (WDest × DWord) :=
  if c.setf.toNat < 12 then [(.flag c.setf.toNat, 0)] else []

/-- The state in which the issuing group has writes queued, `lat` cycles after the issue. -/
def queued (s : State) (e : Env) (lat : Nat) (ws : List (WDest × DWord)) : State :=
  s.onGroup e fun g => queueAll g (e.cyc + lat) ws

/-- A per-lane instruction with one fixed-latency result: where the result goes, after how many cycles, in which lanes,
whether the latch takes it, and its value. -/
structure LaneForm where
  ctl : Ctl
  dst : Opnd
  wide : Bool := false
  lat : Nat
  /-- Every active lane, whatever the guard (`SEL`, R164). -/
  all : Bool := false
  latch : Bool := true
  val : Env → Nat → DWord

/-- The state after an instruction of that form. -/
def LaneForm.after (f : LaneForm) (i : Instr) (s : State) (e : Env) : State :=
  queued (s.advance e i f.ctl) e f.lat
    (resultWrites f.dst f.wide f.latch (if f.all then e.run else e.guard) (f.val e) ++ flagWrite f.ctl)

/-- The form of an instruction that writes where its guard holds, and the latch with it. -/
def lane (c : Ctl) (x : Opnd) (wide : Bool) (lat : Nat) (val : Env → Nat → DWord) : Option LaneForm :=
  some { ctl := c, dst := x, wide := wide, lat := lat, val := val }

/-- The form of an instruction that writes every active lane. -/
def laneAll (c : Ctl) (x : Opnd) (wide : Bool) (lat : Nat) (val : Env → Nat → DWord) : Option LaneForm :=
  some { ctl := c, dst := x, wide := wide, lat := lat, all := true, val := val }

/-! ## Integer and address instructions (R149-R171) -/

/-- The number whose bits below `n` are given one by one. -/
def fromBits (f : Nat → Bool) : Nat → Nat
  | 0 => 0
  | n + 1 => fromBits f n + if f n then 2 ^ n else 0

/-- A register value of 32 bits given bit by bit. -/
def bits32 (f : Nat → Bool) : DWord := BitVec.ofNat 64 (fromBits f 32)

/-- The least value of an integer type, and the one above its greatest (R151). -/
def typeLo : IType → Int
  | .i8 => -2 ^ 7
  | .i16 => -2 ^ 15
  | .i32 => -2 ^ 31
  | .i64 => -2 ^ 63
  | .n8 | .n16 | .n32 | .n64 | .b32 | .b64 => 0
def typeHi : IType → Int
  | .i8 => 2 ^ 7
  | .i16 => 2 ^ 15
  | .i32 => 2 ^ 31
  | .i64 => 2 ^ 63
  | .n8 => 2 ^ 8
  | .n16 => 2 ^ 16
  | .n32 | .b32 => 2 ^ 32
  | .n64 | .b64 => 2 ^ 64

/-- `rd` of a source in a lane (R153). -/
def rdSrc (e : Env) (t : IType) (o : Opnd) (l : Nat) : Int := rdT (e.rdW (wideT t) o l) t
def rdSrcZ (e : Env) (t : IType) (z : ZOp) (l : Nat) : Int := rdT (e.rdZW (wideT t) z l) t

/-- The amount of a 32-bit shift (R157). -/
def shiftBy (e : Env) (wrap : Bool) (z : ZOp) (l : Nat) : Nat :=
  if wrap then (e.rdZ32 z l).toNat % 32 else (e.rdZ32 z l).toNat

/-- The integer relation of a condition (R163). -/
def intHolds (cc : ICond) (a b : Int) : Bool :=
  match cc with
  | .eq => a = b
  | .ne => a ≠ b
  | .lt => a < b
  | .le => a ≤ b
  | .gt => b < a
  | .ge => b ≤ a

/-- The arithmetic of R155 and R156: the value of each instruction from the sources as R153 reads them. -/
def arithForm : Instr → Option LaneForm
  | .iadd c t v x y z => lane c x false 4 fun e l => putT (rdSrc e t y l + rdSrcZ e t z l) t v
  | .isub c t v x y z => lane c x false 4 fun e l => putT (rdSrc e t y l - rdSrcZ e t z l) t v
  | .imul c t v x y z => lane c x false 6 fun e l => putT (rdSrc e t y l * rdSrcZ e t z l) t v
  | .imulh c t x y z => lane c x false 6 fun e l =>
      ((BitVec.ofInt 64 (rdSrc e t y l * rdSrcZ e t z l)).extractLsb' 32 32).setWidth 64
  | .imad c t v x y z => lane c x false 6 fun e l =>
      putT (rdSrc e t x l + rdSrc e t y l * rdSrcZ e t z l) t v
  | .imadw c t v x y z => lane c x true 6 fun e l =>
      let p : IType := if t = .i32 then .i64 else .n64
      putT (rdT (e.rd64 x l) p + rdSrc e t y l * rdSrcZ e t z l) p v
  | .imin c t x y z => lane c x false 4 fun e l =>
      putT (min (rdSrc e t y l) (rdSrcZ e t z l)) t false
  | .imax c t x y z => lane c x false 4 fun e l =>
      putT (max (rdSrc e t y l) (rdSrcZ e t z l)) t false
  | .iabs c t v x y => lane c x false 4 fun e l =>
      putT (if rdSrc e t y l < 0 then -rdSrc e t y l else rdSrc e t y l) t v
  | .iaddmn c t v x y z => lane c x false 4 fun e l =>
      putT (min (rdSrc e t x l) (rdT (putT (rdSrc e t y l + rdSrcZ e t z l) t v) t)) t false
  | .iaddmx c t v x y z => lane c x false 4 fun e l =>
      putT (max (rdSrc e t x l) (rdT (putT (rdSrc e t y l + rdSrcZ e t z l) t v) t)) t false
  | .isad c t v x y z => lane c x false 4 fun e l =>
      let d := rdSrc e t y l - rdSrcZ e t z l
      putT (rdSrc e t x l + if d < 0 then -d else d) t v
  | .iaddc c kin x y z => lane c x false 4 fun e l =>
      let cin : Nat := match kin with
        | .c0 => 0
        | .ci => if (e.g.latch l).getLsbD 32 then 1 else 0
        | .c1 => 1
      BitVec.ofNat 64 ((e.rd32 y l).toNat + (e.rdZ32 z l).toNat + cin)
  | _ => none

/-- The value that `EXTR` takes its window out of (R158). -/
def extrSource (e : Env) (sw : Bool) (x y : Opnd) (l : Nat) : Nat :=
  if sw then (e.rd32 y l).toNat * 2 ^ 32 + (e.rd32 x l).toNat else (e.rd32 x l).toNat * 2 ^ 32 + (e.rd32 y l).toNat

/-- Shifts, bits and logic (R157-R162): each result bit by bit or by a division. -/
def bitForm : Instr → Option LaneForm
  | .shl c w x y z => lane c x false 4 fun e l =>
      BitVec.ofNat 64 ((e.rd32 y l).toNat * 2 ^ shiftBy e w z l % 2 ^ 32)
  | .shr c w x y z => lane c x false 4 fun e l =>
      BitVec.ofNat 64 ((e.rd32 y l).toNat / 2 ^ shiftBy e w z l)
  | .sar c w x y z => lane c x false 4 fun e l =>
      (BitVec.ofInt 32 ((e.rd32 y l).toInt / 2 ^ shiftBy e w z l)).setWidth 64
  | .extr c sw rot x y z => lane c x false 4 fun e l =>
      let t := extrSource e sw x y l
      let a := (e.rdZ32 z l).toNat
      if rot then bits32 fun i => t.testBit ((a + i) % 64) else BitVec.ofNat 64 (t / 2 ^ min a 32 % 2 ^ 32)
  | .bool c t m f x y z => lane c x (wideT t) 4 fun e l =>
      let bit (i : Nat) : Bool :=
        let r := f.getLsbD (2 * ((e.rdW (wideT t) y l).getLsbD i).toNat + ((e.rdW (wideT t) z l).getLsbD i).toNat)
        let o := (e.rdW (wideT t) x l).getLsbD i
        match m with
        | .none => r
        | .and => o && r
        | .or => o || r
        | .xor => o != r
      BitVec.ofNat 64 (fromBits bit (if wideT t then 64 else 32))
  | .popc c t x y => lane c x false 4 fun e l =>
      BitVec.ofNat 64 (((List.range 64).map fun i => ((e.rdW (wideT t) y l).getLsbD i).toNat).sum)
  | .clz c t x y => lane c x false 4 fun e l =>
      if wideT t then (e.rd64 y l).clz else (e.rd32 y l).clz.setWidth 64
  | .brev c t x y => lane c x (wideT t) 4 fun e l =>
      let n := if wideT t then 64 else 32
      BitVec.ofNat 64 (fromBits (fun i => (e.rdW (wideT t) y l).getLsbD (n - 1 - i)) n)
  | .bfx c t x y z => lane c x false 4 fun e l =>
      let y := e.rd32 y l
      let p := (e.rdZ32 z l).toNat % 256
      let n := min ((e.rdZ32 z l).toNat / 256 % 256) 32
      let src (i : Nat) : Bool := if i < 32 then y.getLsbD i else t = .i32 && y.getLsbD 31
      bits32 fun i => n ≠ 0 && if i < n then src (p + i) else t = .i32 && src (p + n - 1)
  | .bfi c x y z => lane c x false 4 fun e l =>
      let p := (e.rdZ32 z l).toNat % 256
      let n := (e.rdZ32 z l).toNat / 256 % 256
      bits32 fun i => if p ≤ i && i < min (p + n) 32 then (e.rd32 y l).getLsbD (i - p) else (e.rd32 x l).getLsbD i
  | .bsel c x y z => lane c x false 4 fun e l =>
      let sel := e.rd32 x l
      let src (b k : Nat) : Bool := if b < 4 then (e.rd32 y l).getLsbD (8 * b + k) else (e.rdZ32 z l).getLsbD (8 * (b - 4) + k)
      bits32 fun i =>
        let j := i / 8
        let b := sel.toNat / 2 ^ (3 * j) % 8
        !sel.getLsbD (16 + j) && if sel.getLsbD (12 + j) then src b 7 else src b (i % 8)
  | _ => none

/-- Comparison, selection, moves and conversion (R163-R167, R171). -/
def moveForm : Instr → Option LaneForm
  | .iset c t one cc x y z => lane c x false 4 fun e l =>
      if intHolds cc (rdSrc e t y l) (rdSrc e t z l) then (if one then 1 else 0xFFFFFFFF) else 0
  | .icmpp c t b cc x y z => lane c x false 4 fun e l =>
      bits32 fun i => if i = b.toNat then intHolds cc (rdSrc e t y l) (rdSrc e t z l) else (e.rd32 x l).getLsbD i
  | .sel c t x y z => laneAll c x (wideT t) 4 fun e l =>
      if e.guard.getLsbD l then e.rdW (wideT t) y l else e.rdZW (wideT t) z l
  | .mov c t x y => lane c x (wideT t) 4 fun e l => e.rdW (wideT t) y l
  | .movi c t x i => lane c x (wideT t) 4 fun _ _ =>
      if wideT t then BitVec.ofInt 64 i.toInt else (BitVec.ofInt 32 i.toInt).setWidth 64
  | .movw c x k => lane c x false 4 fun _ _ => k.setWidth 64
  | .movs c t x y z => lane c x (wideT t) 4 fun e l =>
      e.rdW (wideT t) y ((e.rdZ32 z l).toNat % 64)
  | .movsrRd c x n => lane c x false 4 fun e _ =>
      if n.toNat = 4 then BitVec.ofNat 64 e.g.rpi else (tgetD e.g.aw n.toNat 0).setWidth 64
  | .cvti c td ts v x y => lane c x (wideT td) 4 fun e l => putT (rdSrc e ts y l) td v
  | _ => none

/-- 64-bit and address arithmetic (R169, R170). -/
def wideForm : Instr → Option LaneForm
  | .iadd64 c t v x y z => lane c x true 6 fun e l =>
      putT (rdT (e.rd64 y l) t + rdT (e.rdZ64 z l) t) t v
  | .isub64 c t v x y z => lane c x true 6 fun e l =>
      putT (rdT (e.rd64 y l) t - rdT (e.rdZ64 z l) t) t v
  | .shl64 c x y z => lane c x true 6 fun e l =>
      BitVec.ofNat 64 ((e.rd64 y l).toNat * 2 ^ (e.rdZ32 z l).toNat)
  | .shr64 c a x y z => lane c x true 6 fun e l =>
      if a then BitVec.ofInt 64 ((e.rd64 y l).toInt / 2 ^ (e.rdZ32 z l).toNat)
      else BitVec.ofNat 64 ((e.rd64 y l).toNat / 2 ^ (e.rdZ32 z l).toNat)
  | .lea c t k x y z => lane c x true 6 fun e l =>
      BitVec.ofInt 64 ((e.rd64 y l).toNat + rdSrc e t z l * 2 ^ k.toNat)
  | _ => none

/-! ## Floating-point instructions (R173-R192) -/

/-- A floating-point instruction: its result and the sticky flags a lane raises; `special` occupies the special-function
pipe; `ready` is the validity of the format registers it names (R67). -/
structure FpForm where
  ctl : Ctl
  dst : Opnd
  wide : Bool
  lat : Nat
  special : Bool
  ready : Env → Bool
  val : Env → Nat → DWord × Nat

/-- The lanes whose evaluation raises flags: one for a uniform destination (R192). -/
def flagLanes (x : Opnd) (m : LaneMask) : List Nat :=
  match x with
  | .s _ => (lowLane m).toList
  | _ => lanesOf m

/-- The write that raises sticky flags, where there are any (R175). -/
def raiseWrite (flags : Nat) : List (WDest × DWord) := if flags = 0 then [] else [(.fctlRaise, BitVec.ofNat 64 flags)]

/-- The flags that lanes raise together (R63). -/
def flagsOf (f : Nat → Nat) (ls : List Nat) : Nat := ls.foldl (fun a l => a ||| f l) 0

/-- The special-function pipe of a SIMD unit works for 8 cycles from an issue (R173). -/
def pipeTaken (s : State) (e : Env) : State :=
  s.modIsl e.isl fun x => x.modCore e.core fun k => { k with sfBusy := tput k.sfBusy (e.gid % 4) (e.cyc + 8) }

/-- The state after an instruction of that form. -/
def FpForm.after (f : FpForm) (i : Instr) (s : State) (e : Env) : State :=
  let s := s.advance e i f.ctl
  queued (if f.special then pipeTaken s e else s) e f.lat
    (resultWrites f.dst f.wide true e.guard (fun l => (f.val e l).1) ++
      raiseWrite (flagsOf (fun l => (f.val e l).2) (flagLanes f.dst e.guard)) ++ flagWrite f.ctl)

/-- A form that names no format register. -/
def fp (c : Ctl) (x : Opnd) (wide : Bool) (lat : Nat) (val : Env → Nat → DWord × Nat) : Option FpForm :=
  some { ctl := c, dst := x, wide := wide, lat := lat, special := false, ready := fun _ => true, val := val }

/-- `fp_out` of an element pattern with its flags (R177). -/
def out (r : Nat × Nat) : DWord × Nat := (BitVec.ofNat 64 r.1, r.2)

/-- `fp_in` of element 0 of a source, and of a Z source (R177). -/
def fpSrc (e : Env) (f : FType) (o : Opnd) (l : Nat) : Fv := e.fpIn f 0 false (e.rdF f o l)
def fpSrcZ (e : Env) (f : FType) (z : ZOp) (l : Nat) : Fv := e.fpIn f 0 false (e.rdFZ f z l)
/-- `fp_in` of an element of a packed source (R181). -/
def fpEl (e : Env) (f : FType) (hi : Bool) (o : Opnd) (l : Nat) : Fv := e.fpIn f 0 hi (e.rdF f o l)
def fpElZ (e : Env) (f : FType) (hi : Bool) (z : ZOp) (l : Nat) : Fv := e.fpIn f 0 hi (e.rdFZ f z l)

/-- An exact sum rounded once (R180). -/
def sumRounded (d : Fmt) (rm : Nat) (xs : List Fv) (nv : Nat) : Nat × Nat :=
  ((roundFp d rm (sumFv rm xs).1).1, (roundFp d rm (sumFv rm xs).1).2 ||| (sumFv rm xs).2 ||| nv)

/-- An exact product rounded once (R180). -/
def mulRounded (d : Fmt) (rm : Nat) (a b : Fv) : Nat × Nat :=
  ((roundFp d rm (a.mul b).1).1, (roundFp d rm (a.mul b).1).2 ||| (a.mul b).2)

/-- `minimum_number` and `maximum_number` as patterns, without flags (R58). -/
def minPat (d : Fmt) (a b : Fv) : Nat × Nat := ((roundFp d 0 (minFv a b)).1, 0)
def maxPat (d : Fmt) (a b : Fv) : Nat × Nat := ((roundFp d 0 (maxFv a b)).1, 0)

/-- Two elements side by side; a flag that either raises is raised (R181). -/
def packPair (h : Bool → Nat × Nat) : DWord × Nat :=
  (BitVec.ofNat 64 ((h true).1 * 65536 + (h false).1), (h true).2 ||| (h false).2)

/-- The scalar and packed arithmetic of R180 to R182. -/
def fpArithForm : Instr → Option FpForm
  | .fadd c f rm x y z => fp c x false 6 fun e l => out (sumRounded (fmtOf f) (e.rm rm) [fpSrc e f y l, fpSrcZ e f z l] 0)
  | .fsub c f rm x y z => fp c x false 6 fun e l =>
      out (sumRounded (fmtOf f) (e.rm rm) [fpSrc e f y l, (fpSrcZ e f z l).neg] 0)
  | .fmul c f rm x y z => fp c x false 6 fun e l => out (mulRounded (fmtOf f) (e.rm rm) (fpSrc e f y l) (fpSrcZ e f z l))
  | .ffma c f rm x y z => fp c x false 6 fun e l =>
      let p := (fpSrc e f y l).mul (fpSrcZ e f z l)
      out (sumRounded (fmtOf f) (e.rm rm) [e.fpIn f 0 false (e.rd32 x l), p.1] p.2)
  | .fmin c f x y z => fp c x false 4 fun e l => out (minPat (fmtOf f) (fpSrc e f y l) (fpSrcZ e f z l))
  | .fmax c f x y z => fp c x false 4 fun e l => out (maxPat (fmtOf f) (fpSrc e f y l) (fpSrcZ e f z l))
  | .fscale c f rm x y z => fp c x false 6 fun e l =>
      out (roundFp (fmtOf f) (e.rm rm) (match fpSrc e f y l with
        | .fin sg n ex => .fin sg n (ex + (e.rdZ32 z l).toInt)
        | .nan => .nan
        | .inf sg => .inf sg))
  | .hadd2 c f rm x y z => fp c x false 6 fun e l =>
      packPair fun hi => sumRounded (fmtOf f) (e.rm rm) [fpEl e f hi y l, fpElZ e f hi z l] 0
  | .hmul2 c f rm x y z => fp c x false 6 fun e l =>
      packPair fun hi => mulRounded (fmtOf f) (e.rm rm) (fpEl e f hi y l) (fpElZ e f hi z l)
  | .hfma2 c f rm x y z => fp c x false 6 fun e l =>
      packPair fun hi =>
        let p := (fpEl e f hi y l).mul (fpElZ e f hi z l)
        sumRounded (fmtOf f) (e.rm rm) [e.fpIn f 0 hi (e.rd32 x l), p.1] p.2
  | .hmin2 c f x y z => fp c x false 4 fun e l => packPair fun hi => minPat (fmtOf f) (fpEl e f hi y l) (fpElZ e f hi z l)
  | .hmax2 c f x y z => fp c x false 4 fun e l => packPair fun hi => maxPat (fmtOf f) (fpEl e f hi y l) (fpElZ e f hi z l)
  | .fdot2 c f rm x y z => fp c x false 6 fun e l =>
      let p (hi : Bool) := (fpEl e f hi y l).mul (fpElZ e f hi z l)
      out (sumRounded fmt32 (e.rm rm) [e.fpIn .f32 0 false (e.rd32 x l), (p false).1, (p true).1] ((p false).2 ||| (p true).2))
  | _ => none

/-- Rounding to an integral value (R183): a zero result keeps the sign. -/
def integral (rm : Nat) (v : Fv) : Fv :=
  match v with
  | .fin s n e => if 0 ≤ e then v else .fin s (toIntegral rm false n e).1.toNat 0
  | .nan | .inf _ => v

/-- The class of a value (R185), with the least normal magnitude 2^`mb` of its exponent-0 grid. -/
def classOfFv (d : Fmt) (v : Fv) : Nat :=
  match v with
  | .inf true => 0
  | .inf false => 7
  | .nan => 8
  | .fin s n _ =>
    match n, s with
    | 0, true => 3
    | 0, false => 4
    | n + 1, true => if n + 1 < 2 ^ d.mb then 2 else 1
    | n + 1, false => if n + 1 < 2 ^ d.mb then 5 else 6

/-- A value rounded into a type by R65 and R71. -/
def rounded (e : Env) (fd : FType) (fm : Nat) (rm : Rmf) (v : Fv) : Nat × Nat :=
  if fNarrow fd then roundNarrow (tgetD e.wg.fm fm 0) v else roundFp (fmtOf fd) (e.rm rm) v

/-- Whether a format register fits the type it accompanies (R67). -/
def formatFits (e : Env) (f : FType) (fm : Nat) : Bool := !fNarrow f || fmValid (tgetD e.wg.fm fm 0) (fWidth f)

/-- Comparison, classification and conversion (R183-R187). -/
def fpOtherForm : Instr → Option FpForm
  | .fset c f one cc x y z => fp c x false 4 fun e l =>
      (if condF cc (fpSrc e f y l) (fpSrc e f z l) then (if one then 1 else 0xFFFFFFFF) else 0, 0)
  | .fcmpp c f b cc x y z => fp c x false 4 fun e l =>
      (bits32 fun i => if i = b.toNat then condF cc (fpSrc e f y l) (fpSrc e f z l) else (e.rd32 x l).getLsbD i, 0)
  | .frnd c f rm x y => fp c x false 8 fun e l => (BitVec.ofNat 64 (roundFp (fmtOf f) 0 (integral (e.rm rm) (fpSrc e f y l))).1, 0)
  | .fclass c f x y => fp c x false 4 fun e l => (BitVec.ofNat 64 (2 ^ classOfFv (fmtOf f) (fpSrc e f y l)), 0)
  | .fcvt c fd fs rm hi fmd fms x y z => some
    { ctl := c, dst := x, wide := false, lat := 8, special := false,
      ready := fun e => formatFits e fd fmd.toNat && formatFits e fs fms.toNat,
      val := fun e l =>
        let a := rounded e fd fmd.toNat rm (e.fpIn fs fms.toNat hi (e.rdF fs y l))
        match z with
        | none => out a
        | some o => packPair fun h => if h then rounded e fd fmd.toNat rm (fpSrc e .f32 o l) else a }
  | .fcvti c t fs rm hi x y => fp c x (wideT t) 8 fun e l =>
      let r := fpToInt (e.rm rm) t (e.fpIn fs 0 hi (e.rdF fs y l))
      (putT r.1 t false, r.2)
  | .icvtf c fd t rm x y => fp c x false 8 fun e l => out (roundFp (fmtOf fd) (e.rm rm) (ofIntFv (rdSrc e t y l)))
  | _ => none

/-- The special functions (R188): 18 cycles, and 8 on the pipe. -/
def specialForm : Instr → Option FpForm
  | .frcp c f x y => sf c f x y .rcp
  | .frsq c f x y => sf c f x y .rsq
  | .fsqrt c f x y => sf c f x y .sqrt
  | .fexp2 c f x y => sf c f x y .exp2
  | .flog2 c f x y => sf c f x y .log2
  | .fsin c f x y => sf c f x y .sin
  | .fcos c f x y => sf c f x y .cos
  | .ftanh c f x y => sf c f x y .tanh
  | _ => none
where
  /-- A special function of a source. -/
  sf (c : Ctl) (f : FType) (x y : Opnd) (fn : Sfn) : Option FpForm := some
    { ctl := c, dst := x, wide := false, lat := 18, special := true, ready := fun _ => true,
      val := fun e l => out (specialFn fn (fmtOf f) (e.rm .cur) (fpSrc e f y l)) }

/-- The control-word and format-register reads (R190, R191) and the reads of `TRAP.GETV` (R120): `latch` as R174 and R120
say. -/
def readForm : Instr → Option LaneForm
  | .fctlRd c x => lane c x false 4 fun e _ => e.g4.fctl.setWidth 64
  | .fmtwRd c k x => lane c x false 4 fun e _ => (tgetD e.wg.fm k.toNat 0).setWidth 64
  | .trapGetv c x => some { ctl := c, dst := x, wide := false, lat := 4, latch := false, val := fun e _ => e.g4.tvec.setWidth 64 }
  | _ => none

/-- What an instruction that acts once writes into the group, four cycles after issue, from the lowest lane where the guard
holds (R27, R120, R167, R191). -/
def onceForm : Instr → Option (Ctl × WDest × (Env → DWord))
  | .fctlWr c z => some (c, .fctlPut, fun e => (e.rdZ32 z e.lane0).setWidth 64)
  | .fctlSet c z => some (c, .fctlSet, fun e => (e.rdZ32 z e.lane0).setWidth 64)
  | .fctlClr c z => some (c, .fctlClr, fun e => (e.rdZ32 z e.lane0).setWidth 64)
  | .movsrWr c y n => some (c, .aw n.toNat, fun e => (e.rd32 y e.lane0).setWidth 64)
  | .trapSetv c y => some (c, .tvec, fun e => (e.rd32 y e.lane0).setWidth 64)
  | _ => none

/-! ## Lane exchange (R193-R201) -/

/-- Votes and matches (R199, R200). -/
def voteForm : Instr → Option LaneForm
  | .lvote c m b x y => lane c x (voteWide m) 4 fun e _ =>
      let yes (l : Nat) : Bool := (e.rd32 y l).getLsbD b.toNat
      match m with
      | .any => if (lanesOf e.guard).any yes then 1 else 0
      | .all => if (lanesOf e.guard).all yes then 1 else 0
      | .ballot => BitVec.ofNat 64 (fromBits (fun l => e.guard.getLsbD l && yes l) 64)
      | .ballotHi => 0
      | .count => BitVec.ofNat 64 ((lanesOf e.guard).countP yes)
  | .lmatch c wide hi x y => lane c x true 8 fun e l =>
      if hi then 0
      else BitVec.ofNat 64 (fromBits (fun j => e.guard.getLsbD j && e.rdW wide y j == e.rdW wide y l) 64)
  | _ => none

/-- What a lane of `LXCH` or `LSTEP` reads: a lane, itself, zero, or nothing, which traps (R194). -/
def laneSource (e : Env) (zf : Bool) (j : Int) : Src :=
  if 0 ≤ j ∧ j < 64 then (if e.guard.getLsbD j.toNat then .lane j.toNat else if zf then .zero else .trap)
  else if zf then .zero else .own

/-- An exchange: sources and values per lane, with flags. -/
structure ExForm where
  ctl : Ctl
  dst : Opnd
  wide : Bool
  lat : Nat
  zf : Bool
  src : Env → Nat → Src
  val : Env → Nat → DWord × Nat

def exForm : Instr → Option ExForm
  | .lxch c m w zf wide x y z =>
    let src (e : Env) (l : Nat) : Src :=
      let d := (e.rdZ32 z l).toNat
      let n := if w then 64 / 2 ^ d else d
      laneSource e zf (match m with
        | .up => (l : Int) - n
        | .dn => (l : Int) + n
        | .xor => (l ^^^ n : Nat)
        | .idx => n)
    some { ctl := c, dst := x, wide := wide, lat := 6, zf := zf, src := src, val := fun e l => (match src e l with
      | .lane j => e.rdW wide y j
      | .own => e.rdW wide y l
      | .zero | .trap => 0, 0) }
  | .lstep c op zf x y z =>
    let src (e : Env) (l : Nat) : Src :=
      let i := (e.rdZ32 z 0).toNat
      let d := if i < 6 then 64 / 2 ^ (i + 1) else 0
      if d = 0 then .own else laneSource e zf (l ^^^ d : Nat)
    let comb (e : Env) (a b : Word) : DWord × Nat := ((combine op (e.rm .cur) a b).1.setWidth 64, (combine op (e.rm .cur) a b).2)
    some { ctl := c, dst := x, wide := false, lat := 8, zf := zf, src := src, val := fun e l => match src e l with
      | .lane j => comb e (e.rd32 y l) (e.rd32 y j)
      | .own => ((e.rd32 y l).setWidth 64, 0)
      | .zero => comb e (e.rd32 y l) 0
      | .trap => (0, 0) }
  | _ => none

/-- The lanes of an exchange that trap. -/
def ExForm.bad (f : ExForm) (e : Env) : LaneMask := maskOf ((lanesOf e.guard).filter fun l => f.src e l == .trap)

/-- The state after an exchange: the other lanes take the full effect, the trapping ones LANE_SOURCE (R194). -/
def ExForm.after (f : ExForm) (i : Instr) (s : State) (e : Env) : State :=
  let good := e.guard &&& ~~~f.bad e
  (queued (s.advance e i f.ctl) e f.lat
    (resultWrites f.dst f.wide true good (fun l => (f.val e l).1) ++
      raiseWrite (flagsOf (fun l => (f.val e l).2) (lanesOf good)) ++ flagWrite f.ctl)).trapAt e (f.bad e) 4 (f.bad e) e.cp

/-- A running value of an ordered fold, before and after each element (R201). -/
def runFold (op : Word → Word → Word × Nat) : Word × Nat → List Word → Word × Nat
  | a, [] => a
  | a, y :: r => runFold op ((op a.1 y).1, a.2 ||| (op a.1 y).2) r

/-- The value of a voting lane under `LSCAN` (R201): the fold of the voting lanes up to it, or below it; the first lane's
value enters as it is, and an exclusive scan gives the first lane the identity. -/
def scanValue (e : Env) (op : RedOp) (exc : Bool) (y : Opnd) (l : Nat) : Word :=
  match ((lanesOf e.guard).filter fun j => if exc then j < l else j ≤ l).map (e.rd32 y) with
  | [] => redIdentity op
  | a :: r => (runFold (combine op (e.rm .cur)) (a, 0) r).1

/-- The flags of a whole scan. -/
def scanFlags (e : Env) (op : RedOp) (y : Opnd) : Nat :=
  match (lanesOf e.guard).map (e.rd32 y) with
  | [] => 0
  | a :: r => (runFold (combine op (e.rm .cur)) (a, 0) r).2

/-! ## Instructions without a result -/

/-- The state after the issue of an instruction that writes no register: its run has advanced, its flag has fallen (R31,
R114). -/
def plain (i : Instr) (c : Ctl) (s : State) (e : Env) : State := (s.advance e i c).flagNow e c

/-- What a transfer of control reads as the target of a lane, whether it parks, and what becomes of the call depth (R116,
R121). -/
structure JumpForm where
  ctl : Ctl
  park : Bool
  target : Env → Nat → Word
  depth : BitVec 8 → BitVec 8
  /-- The register that takes the return code pointer, for a call. -/
  link : Option Opnd := none
  /-- `RTT` discards the record of a barrier wait that belongs to another code pointer (R315). -/
  forget : Bool := false

def jumpForm : Instr → Option JumpForm
  | .brx c p y => some { ctl := c, park := p, target := fun e l => e.rd32 y l, depth := id }
  | .call c p x t => some { ctl := c, park := p, target := fun _ _ => t, depth := depthUp, link := some x }
  | .callx c p x y => some { ctl := c, park := p, target := fun e l => e.rd32 y l, depth := depthUp, link := some x }
  | .ret c p y => some { ctl := c, park := p, target := fun e l => e.rd32 y l, depth := depthDown }
  | .rtt c => some { ctl := c, park := false, target := fun e l => e.g1.oreg 7 l, depth := depthDown, forget := true }
  | _ => none

/-- The state after a transfer whose targets are all resident: each lane where the guard holds stands at its target, at its
new depth; a call's return code pointer is queued (R116, R121). -/
def JumpForm.after (f : JumpForm) (i : Instr) (s : State) (e : Env) : State :=
  let s := match f.link with
    | some x => queued (s.advance e i f.ctl) e 4
        (resultWrites x false false e.guard (fun _ => (e.cp + 1).setWidth 64) ++ flagWrite f.ctl)
    | none => plain i f.ctl s e
  s.onGroup e fun g => modThreads g e.guard fun l t =>
    { t with cp := f.target e l, depth := f.depth t.depth,
             wait := if f.forget then t.wait.filter fun w => w.cp == f.target e l else t.wait }

/-- Every lane where the guard holds has its target resident for the group's context (R131). -/
def JumpForm.resident (f : JumpForm) (s : State) (e : Env) : Prop :=
  ∀ l, e.guard.getLsbD l = true → resolveCp ((s.isl e.isl).core e.core) e.wg.asid (f.target e l) f.park = .go

/-! ## Operations that a unit performs -/

/-- An instruction that acts once for its group and hands an operation on: what the operation carries. -/
structure SendForm where
  ctl : Ctl
  carry : Env → Op → Op

/-- A word that an operation carries, zero-extended. -/
def word (v : Word) : DWord := v.setWidth 64

def sendA (c : Ctl) (a : Env → DWord) : Option SendForm := some { ctl := c, carry := fun e o => { o with a := a e } }
def sendAB (c : Ctl) (a b : Env → DWord) : Option SendForm :=
  some { ctl := c, carry := fun e o => { o with a := a e, b := b e } }

/-- Synchronisation (R298): the Z source is read once, from the lowest lane where the guard holds. -/
def syncForm : Instr → Option SendForm
  | .barInit c _ _ z | .barArv c _ _ z | .ringInit c _ _ z | .ringPushCmt c _ _ z | .ringPopFree c _ _ z | .pbarInit c _ _ z =>
    sendA c fun e => word (e.rdZ32 z e.lane0)
  | .barWait c _ z | .pbarWait c _ z => some { ctl := c, carry := fun e o => { o with b := word (e.rdZ32 z e.lane0) } }
  | .barArw c _ z => some { ctl := c, carry := fun e o => arriveOrWait e false { o with a := word (e.rdZ32 z e.lane0) } }
  | .pbarArw c _ _ => some { ctl := c, carry := fun e o => arriveOrWait e true o }
  | .ringPushRsv c _ _ | .ringPopTake c _ _ | .pbarArv c _ _ => some { ctl := c, carry := fun _ o => o }
  | .ntfy c _ y z => sendAB c (fun e => word (e.rd32 y e.lane0)) fun e => word (e.rdZ32 z e.lane0)
  | .ntfySet c _ y z | .nwait c _ _ y z => sendAB c (fun e => word (e.rd32 y e.lane0)) fun e => e.rdZ64 z e.lane0
  | _ => none

/-- Hypothesis requests (R278). -/
def hypForm : Instr → Option SendForm
  | .hypOpen c _ y | .hypEnter c _ y | .hypResolveConfirm c _ y | .hypResolveRefute c _ y | .hypQry c _ y =>
    sendA c fun e => word (zeroImm e y)
  | .hypLeave c _ | .hypQryCur c _ => sendA c fun _ => 0
  | _ => none

/-- Whether a hypothesis request holds the classes of R280 until it ends. -/
def entersHyp : Instr → Bool
  | .hypEnter .. | .hypLeave .. => true
  | _ => false

/-- Requests to the sequencer context of the workgroup (R338-R340): the group's hypothesis goes with them. -/
def contextForm : Instr → Option SendForm
  | .mstart c _ cp => sendAB c (fun _ => word cp) fun e => e.g.hy.setWidth 64
  | .mstartV c _ y => sendAB c (fun e => word (e.rd32 y e.lane0)) fun e => e.g.hy.setWidth 64
  | .mstop c _ | .mqry c _ | .mqryClr c _ => sendAB c (fun _ => 0) fun e => e.g.hy.setWidth 64
  | _ => none

/-- System requests (R367, R374-R376, R387-R392, R425), and a query of the topology (R366). -/
def systemForm : Instr → Option SendForm
  | .sysrd c _ n => sendA c fun e => ownSel e n.toNat
  | .sysrdSel c _ y _ => sendA c fun e => word (zeroImm e y)
  | .syswr c y n => sendAB c (fun e => ownSel e n.toNat) fun e => e.rd64 y e.lane0
  | .syswrSel c x y _ => sendAB c (fun e => word (zeroImm e x)) fun e => e.rd64 y e.lane0
  | .tlbiAll c | .snap c _ _ => some { ctl := c, carry := fun _ o => o }
  | .tlbiCtx c y | .resumeReplay c _ y | .resumeSkip c _ y | .resumeTrap c _ y => sendA c fun e => word (zeroImm e y)
  | .tlbiPage c w y z => some { ctl := c, carry := fun e o =>
      { o with a := word (zeroImm e y), bulk := { desc := (e.addr w z 0 e.lane0).setWidth 256 } } }
  | .ctxsv c _ y | .ctxld c _ y | .topq c _ y => some { ctl := c, carry := fun e o =>
      { o with bulk := { desc := (e.desc4 y).setWidth 256 } } }
  | _ => none

/-- A route swap is an arrival at a panel barrier (R365). -/
def routeForm : Instr → Option SendForm
  | .route c _ _ _ => some { ctl := c, carry := fun _ o => o }
  | _ => none

/-- Every request that travels to a unit of the island. -/
def unitForm (i : Instr) : Option SendForm :=
  ((((syncForm i).or (hypForm i)).or (contextForm i)).or (systemForm i)).or (routeForm i)

/-- Under a hypothesis the inter-island instructions trap (R264, R350). -/
def hypBound : Instr → Bool
  | .put .. | .get .. | .ratom .. | .rntfy .. | .rfence .. | .coll .. | .route .. | .topq .. => true
  | _ => false

/-- The unit an operation goes to: the cycles of the way, and the event of its arrival (R283, R299, R307, R310, R338,
R401). -/
def unitWay (i : Instr) (core : Nat) : Option (Nat × Instr) :=
  let near := if core / 64 = 0 then Config.sysNear else Config.sysFar
  let far := if core / 64 = 0 then Config.unitNear else Config.unitFar
  match i with
  | .barInit .. | .barArv .. | .barWait .. | .barArw .. => some (if namesB0 i then 60 else 4, .syncUnitOperation)
  | .ringInit .. | .ringPushRsv .. | .ringPushCmt .. | .ringPopTake .. | .ringPopFree .. => some (4, .syncUnitOperation)
  | .ntfy .. | .ntfySet .. | .nwait .. => some (far, .notifyUnitRequest)
  | .pbarInit .. | .pbarArv .. | .pbarWait .. | .pbarArw .. | .route .. => some (far, .panelBarrierAgentRequest)
  | .hypOpen .. | .hypEnter .. | .hypLeave .. | .hypQry .. | .hypQryCur .. => some (near, .hypothesisControllerRequest)
  | .hypResolveConfirm .. | .hypResolveRefute .. => some (near, .resolveArrival)
  | .sysrd .. | .sysrdSel .. | .syswr .. | .syswrSel .. | .tlbiAll _ | .tlbiCtx .. | .tlbiPage .. | .ctxsv .. | .ctxld .. |
    .resumeReplay .. | .resumeSkip .. | .resumeTrap .. | .snap .. | .topq .. => some (near, .systemUnitRequest)
  | _ => none

/-- Nothing of the group's holds an operation back: no release in progress, no write without acknowledgement, no fence, no
line in L in its core's L1 and no merge of one on its way, no operation in flight (R225, R251, R299). -/
structure Clear (s : State) (e : Env) : Prop where
  releasing : e.g.releasing = []
  unacked : e.g.unacked = 0
  fences : e.g.qfencing = []
  lines : ∀ p ∈ ((s.isl e.isl).core e.core).l1, p.2.st ≠ .l
  merges : ∀ p ∈ (s.isl e.isl).reqs, p.2.core = e.core → ∀ k, p.2.kind ≠ .merge k
  ops : ∀ p ∈ (s.isl e.isl).ops, ¬(p.2.agent = .group e.core e.gid ∧ p.2.age = e.g.age)

/-- The group after the issue of an instruction that blocks its run: the run stands at it and waits for the operation
(R298). -/
def asleep (e : Env) (c : Ctl) (id : Nat) : Group :=
  modThreads (advanceGroup e c) e.run fun _ t => { t with cp := e.cp, stat := .blocked id }

/-! ## Memory instructions (R231-R242) -/

/-- The address of a lane (R17, R234): the window byte above the 64-bit sum of base and offset. -/
def laneAddr (e : Env) (w : BitVec 2) (a : Opnd) (off : BitVec 10) (l : Nat) : VA :=
  BitVec.ofNat 72 ((tgetD e.g.aw w.toNat 0).toNat % 256 * 2 ^ 64 +
    ((((e.rd64 a l).toNat : Int) + off.toInt) % 2 ^ 64).toNat)

/-- A memory instruction: the accesses that its lanes form. -/
structure MemForm where
  ctl : Ctl
  accs : Env → List Acc

/-- One access for each lane where the guard holds. -/
def eachLane (c : Ctl) (f : Env → Nat → Acc) : Option MemForm :=
  some { ctl := c, accs := fun e => (lanesOf e.guard).map (f e) }

def memForm : Instr → Option MemForm
  | .ld c t m _ a off => eachLane c fun e l => { lane := l, va := laneAddr e m.win a off l, n := tWidth t / 8 }
  | .st c t m x a off => eachLane c fun e l =>
      { lane := l, va := laneAddr e m.win a off l, n := tWidth t / 8, x := e.rdW (tWidth t = 64) x l }
  | .ldu c t m _ a off => some { ctl := c, accs := fun e => match lanesOf e.guard with
      | [] => []
      | l :: _ => [{ lane := l, va := laneAddr e m.win a off l, n := tWidth t / 8 }] }
  | .atom c _ wide m x a off => eachLane c fun e l =>
      { lane := l, va := laneAddr e m.win a off l, n := if wide then 8 else 4, x := e.rdW wide x l }
  | .cas c wide m x a off => eachLane c fun e l =>
      { lane := l, va := laneAddr e m.win a off l, n := if wide then 8 else 4, x := (casOperands e wide x l).1,
        y := (casOperands e wide x l).2 }
  | .markEmpty c w _ x a off | .markFull c w _ x a off => eachLane c fun e l =>
      { lane := l, va := laneAddr e w a off l, n := 1, x := markCount e x l }
  | .waita c _ _ w _ x a off => eachLane c fun e l => { lane := l, va := laneAddr e w a off l, n := 4, x := word (e.rd32 x l) }
  | .flush c w a off | .invl c w a off => eachLane c fun e l => { lane := l, va := laneAddr e w a off l, n := 1 }
  | _ => none

/-! ## Frames -/

/-- A group's registers, latch, control registers and counters are those of another. -/
def SameRegisters (g h : Group) : Prop :=
  g.v = h.v ∧ g.s = h.s ∧ g.o = h.o ∧ g.lt = h.lt ∧ g.aw = h.aw ∧ g.tvec = h.tvec ∧ g.fctl = h.fctl ∧ g.hy = h.hy ∧
    g.role = h.role ∧ g.place = h.place ∧ g.unacked = h.unacked ∧ g.pend = h.pend

/-- Every byte of memory, every workgroup with its arrays, every line of every L1, and every group but one are those of
another state. -/
def Spares (s t : State) (isl core gid : Nat) : Prop :=
  (∀ k a, memRead (t.isl k).mem a = memRead (s.isl k).mem a) ∧ (∀ k d p, (t.isl k).wg? d p = (s.isl k).wg? d p) ∧
    (∀ k d, ((t.isl k).core d).l1 = ((s.isl k).core d).l1) ∧
    ∀ k d h, (k, d, h) ≠ (isl, core, gid) → (t.isl k).group? d h = (s.isl k).group? d h

/-- The threads of a group after an issue: those of the run moved by `f`, the others as they stood. -/
def movedThreads (g : Group) (run : LaneMask) (f : Nat → Thread → Thread) : Tbl Thread :=
  g.threads.map fun p => if run.getLsbD p.1 then (p.1, f p.1 p.2) else p

/-- An event of the opcode table with arguments comes to a next state of which something holds. -/
def Gives (i : Instr) (s : State) (as : List Nat) (P : State → Prop) : Prop :=
  s.focus = .event as → ∃ t, exec i s = .next t ∧ P t

/-! ## Overlay instructions (R141-R144) -/

/-- A fixed-latency overlay instruction: its destination, and from what its core holds the result and the residency table
that it leaves. -/
structure OverlayForm where
  ctl : Ctl
  dst : Opnd
  act : Env → CoreS → Word × Tbl REntry

/-- The entry that a handle in a register names (R130, R136). -/
def entryFor (e : Env) (k : CoreS) (h : Word) : Option (Nat × REntry) :=
  if 1 ≤ h.toNat ∧ h.toNat < 0x80000 then
    findEntry k (h.setWidth 19) (if 0x70000 ≤ h.toNat then 0x10000 else e.wg.asid.setWidth 17)
  else none

/-- The pins of a workgroup on an entry (R127). -/
def pinsOf (r : REntry) (place : Nat) : Nat := tgetD r.pins place 0

/-- A residency table with the pins of a workgroup on an entry replaced. -/
def withPins (k : CoreS) (n : Nat) (r : REntry) (place pins : Nat) : Tbl REntry :=
  tput k.rtab n { r with pins := tput r.pins place pins }

/-- The state word of an entry (R144): V, LOADING, MST, the first slot, the length less one, whether the workgroup pins it,
the occupancy, the pins of all, at most 255. -/
def stateWord (k : CoreS) (place : Nat) (r : REntry) : Word :=
  let bit (b : Bool) : BitVec 1 := if b then 1 else 0
  bit (!r.loading) ++ bit r.loading ++ bit r.mst ++ BitVec.ofNat 5 r.first ++ BitVec.ofNat 3 (r.length - 1) ++
    bit (pinsOf r place ≠ 0) ++ BitVec.ofNat 12 (occupancy k r) ++ BitVec.ofNat 8 (min r.pinned 255)

/-- What each of the four does (R141-R144). -/
def pinAct (z : ZOp) (e : Env) (k : CoreS) : Word × Tbl REntry :=
  let h := e.rdZ32 z e.lane0
  match entryFor e k h with
  | some (n, r) => if pinsOf r e.g.place < 255 then (h * 8192, withPins k n r e.g.place (pinsOf r e.g.place + 1)) else (0, k.rtab)
  | none => (0, k.rtab)
def unpinAct (y : Opnd) (e : Env) (k : CoreS) : Word × Tbl REntry :=
  let t := e.rd32 y e.lane0
  match entryFor e k (t / 8192) with
  | some (n, r) =>
    if t.toNat % 8192 = 0 ∧ 0 < pinsOf r e.g.place then (0, withPins k n r e.g.place (pinsOf r e.g.place - 1)) else (1, k.rtab)
  | none => (1, k.rtab)
def evictAct (z : ZOp) (e : Env) (k : CoreS) : Word × Tbl REntry :=
  let h := e.rdZ32 z e.lane0
  if 0x70000 ≤ h.toNat ∧ h.toNat < 0x80000 ∧ e.wg.priv = false then (3, k.rtab)
  else match entryFor e k h with
    | none => (1, k.rtab)
    | some (n, r) => if r.loading = true ∨ r.pinned ≠ 0 ∨ occupancy k r ≠ 0 then (2, k.rtab) else (0, tdel k.rtab n)
def queryAct (z : ZOp) (e : Env) (k : CoreS) : Word × Tbl REntry :=
  match entryFor e k (e.rdZ32 z e.lane0) with
  | some (_, r) => (stateWord k e.g.place r, k.rtab)
  | none => (0, k.rtab)

def overlayForm : Instr → Option OverlayForm
  | .ovlPin c x z => some { ctl := c, dst := x, act := pinAct z }
  | .ovlUnpin c x y => some { ctl := c, dst := x, act := unpinAct y }
  | .ovlEvict c x z => some { ctl := c, dst := x, act := evictAct z }
  | .ovlQry c x z => some { ctl := c, dst := x, act := queryAct z }
  | _ => none

/-- The state after such an instruction: the table first, the result four cycles later, no latch (R137). -/
def OverlayForm.after (f : OverlayForm) (i : Instr) (s : State) (e : Env) : State :=
  let s := s.advance e i f.ctl
  let r := f.act e ((s.isl e.isl).core e.core)
  queued (s.modIsl e.isl fun x => x.modCore e.core fun k => { k with rtab := r.2 }) e 4
    (resultWrites f.dst false false e.guard (fun _ => word r.1) ++ flagWrite f.ctl)

/-! ## Operations under way -/

/-- An operation that a group has issued is in flight, nothing holds it back, and an event at which it goes on is due. -/
def Entered (t : State) (e : Env) (id : Nat) (o : Op) (ev : Instr) (args : List Nat) (cycles : Nat) : Prop :=
  (∃ o', t.op? e.isl id = some o' ∧ { o' with pushed := false } = { o with released := true, pushed := false }) ∧
    (Due.cyc e.isl (e.cyc + cycles), Act.row ev args) ∈ t.agenda

/-- No byte of memory changes. -/
def MemoryKept (s t : State) : Prop := ∀ k a, memRead (t.isl k).mem a = memRead (s.isl k).mem a

/-- The issuing group after an operation has entered: its registers as they were; its run past the instruction, or asleep at
it where the instruction blocks (R298). -/
def Issued (t : State) (i : Instr) (e : Env) (id : Nat) : Prop :=
  ∃ g, (t.isl e.isl).group? e.core e.gid = some g ∧ SameRegisters g e.g ∧
    (e.g.rep = none → g.threads = movedThreads e.g e.run fun _ t =>
      if blocks i then { t with cp := e.cp, stat := .blocked id } else { t with cp := e.cp + 1, stat := .ready })

/-- Eight consecutive uniform registers as one number, the first lowest (R290). -/
def descriptor (e : Env) (k : Nat) (n : Nat) : BitVec 256 :=
  (List.range n).foldr (fun j d => d <<< 32 ||| (e.g4.sreg (k + j)).setWidth 256) 0

/-! ## Streams (R317-R337) -/

/-- A sequencer context in focus may dispatch an instruction. -/
structure Dispatches (i : Instr) (s : State) (e : SEnv) : Prop where
  focus : s.focus = .seq e.isl e.core e.place
  env : s.senv? e.isl e.core e.place = some e
  legal : i.WellFormed

/-- The state after a dispatch that leaves a context and nothing else. -/
def ctxAfter (s : State) (e : SEnv) (c : Ctx) : State :=
  (s.noteClass e.isl e.core 1).modIsl e.isl fun x => x.modWg e.core e.place fun w => { w with ctx := some c }

/-- The context after a dispatch that only moves on. -/
def past (e : SEnv) : Ctx := { e.c with sp := e.c.sp + 1, nextDispatch := e.cyc + 1 }

/-- The context after a dispatch that writes a setting register. -/
def setMs (e : SEnv) (x : Nat) (v : DWord) : Ctx := { past e with ms := tput e.c.ms x v }

/-- A stream instruction of one cycle: when its operands are good, the context it leaves, and the fault it takes else. -/
structure StreamForm where
  good : SEnv → Bool := fun _ => true
  code : Nat := 3
  ctx : State → SEnv → Ctx

/-- The offset of a branch of a stream. -/
def jumpOffset (e : SEnv) (off : BitVec 20) : Int := (e.c.sp.toNat % 8192 : Nat) + off.toInt

/-- A stream pointer with another offset in its overlay. -/
def atOffset (e : SEnv) (o : Int) : Word := BitVec.ofNat 32 (e.c.sp.toNat / 8192 * 8192 + o.toNat)

/-- A uniform pair of a workgroup's group, as it stands now (R321). -/
def uniformPair (s : State) (e : SEnv) (g n : Nat) : DWord :=
  let u (k : Nat) : Nat := (((s.isl e.isl).core e.core).uniform e.w e.place g e.cyc k).toNat
  BitVec.ofNat 64 (u n + u (n + 1) * 2 ^ 32)

/-- The address of a stream's tile: byte `b` of `ms4` names the window, above the base of a setting register (R17, R321). -/
def tileAddr (e : SEnv) (b k off : Nat) : Nat :=
  (tgetD e.c.ms 4 0).toNat / 256 ^ b % 256 * 2 ^ 64 + ((tgetD e.c.ms k 0).toNat + off) % 2 ^ 64

/-- The address that a tile gives where its base or its stride is not a multiple of 16 (R321, R336): the base, or the second
row's. -/
def tileUnaligned (e : SEnv) (b k : Nat) (stride : Option Nat) : Option Nat :=
  if (tgetD e.c.ms k 0).toNat % 16 ≠ 0 then some (tileAddr e b k 0)
  else match stride.map fun j => (tgetD e.c.ms j 0).toNat % 2 ^ 32 with
    | some n => if n % 16 ≠ 0 then some (tileAddr e b k n) else none
    | none => none

/-- The form of an instruction that leaves a context whatever its operands. -/
def leaves (f : SEnv → Ctx) : Option StreamForm := some { ctx := fun _ => f }

/-- The setting register `ms<k>` as a number. -/
def msNat (e : SEnv) (k : Nat) : Nat := (tgetD e.c.ms k 0).toNat

/-- The context after a branch: at the target, with a setting register written. -/
def jumped (e : SEnv) (off : BitVec 20) (c : Ctx) : Ctx := { c with sp := atOffset e (jumpOffset e off) }

/-- Whether a branch's target is an offset that a code pointer holds. -/
def jumpGood (off : BitVec 20) (e : SEnv) : Bool := 0 ≤ jumpOffset e off && jumpOffset e off ≤ 8191

/-- The context after `MJMP` (R333). -/
def countDown (x : Nat) (off : BitVec 20) (e : SEnv) : Ctx :=
  if msNat e x = 0 then past e else jumped e off (setMs e x (BitVec.ofNat 64 (msNat e x - 1)))

/-- A naming of scales (R325). -/
def naming (g k sel : Nat) : ScaleName := { on := true, group := g, reg := k, sel := sel }

def groupGood (g : Nat) (e : SEnv) : Bool := decide (g < hdrGroups e.w.hdr)

def streamForm : Instr → Option StreamForm
  | .msetLo x k => leaves fun e => setMs e x.toNat (BitVec.ofNat 64 (msNat e x.toNat / 2 ^ 32 * 2 ^ 32 + k.toNat))
  | .msetHi x k => leaves fun e => setMs e x.toNat (BitVec.ofNat 64 (k.toNat * 2 ^ 32 + msNat e x.toNat % 2 ^ 32))
  | .msetAdd x k => leaves fun e => setMs e x.toNat (BitVec.ofInt 64 (msNat e x.toNat + k.toInt))
  | .msetIx x y n z => leaves fun e =>
      setMs e x.toNat (BitVec.ofNat 64 (msNat e y.toNat + msNat e z.toNat % 16 * 2 ^ n.toNat))
  | .msetU x g (.s n) => some
      { good := fun e => groupGood g.toNat e && decide (n.toNat + 1 < hdrUniforms e.w.hdr),
        ctx := fun s e => setMs e x.toNat (uniformPair s e g.toNat n.toNat) }
  | .msclA g (.v k) sel => some
      { good := groupGood g.toNat, ctx := fun _ e => { past e with sca := naming g.toNat k.toNat sel.toNat } }
  | .msclB g (.v k) sel => some
      { good := groupGood g.toNat, ctx := fun _ e => { past e with scb := naming g.toNat k.toNat sel.toNat } }
  | .msclAOff => leaves fun e => { past e with sca := { on := false, group := 0, reg := 0, sel := 0 } }
  | .msclBOff => leaves fun e => { past e with scb := { on := false, group := 0, reg := 0, sel := 0 } }
  | .mjmp x off => some { good := jumpGood off, code := 1, ctx := fun _ => countDown x.toNat off }
  | .mjmpAl off => some { good := jumpGood off, code := 1, ctx := fun _ e => jumped e off (past e) }
  | _ => none

/-- The synchronising stream instructions: what the operation carries, whether the context waits blocked, whether a release
comes first (R331, R332). -/
structure MbarForm where
  blocked : Bool
  releases : Bool
  a : SEnv → DWord := fun _ => 0
  b : SEnv → DWord := fun _ => 0

def mbarForm : Instr → Option MbarForm
  | .mbarArv _ n => some { blocked := false, releases := true, a := fun _ => n.setWidth 64 }
  | .mbarWait _ y => some { blocked := true, releases := false, b := fun e => tgetD e.c.ms y.toNat 0 }
  | .mbarArw _ n => some { blocked := true, releases := true, a := fun _ => n.setWidth 64 }
  | .mbarRsv _ _ | .mbarTake _ _ => some { blocked := true, releases := false }
  | .mbarCmt _ y | .mbarFree _ y => some { blocked := false, releases := true, a := fun e => tgetD e.c.ms y.toNat 0 }
  | _ => none

/-! ## Events -/

/-- An event is due some cycles of an island's clock from now. -/
def DueIn (t : State) (isl n : Nat) (ev : Instr) (args : List Nat) : Prop :=
  (Due.cyc isl (t.cyc isl + n), Act.row ev args) ∈ t.agenda

/-- An event is due at some time. -/
def Awaits (t : State) (ev : Instr) (args : List Nat) : Prop := ∃ d, (d, Act.row ev args) ∈ t.agenda

/-- The one request on an island, for a line that the home holds in its slice and no cache holds (R434): what makes its
service one step. -/
def AloneAtHome (x : Island) (id : Nat) (r : Req) : Prop :=
  x.reqs = [(id, r)] ∧ r.granted = false ∧ r.mask = 0 ∧ x.filters = [] ∧ x.hline r.line = { inSlice := true } ∧
    x.asleep = [] ∧ x.bitmap r.line = 0 ∧ x.lhints r.line = 0

/-- A memory after the bytes of a line under a mask have been written (R219, R220). -/
def LineWritten (m m' : Memory) (ln : Nat) (data : Line) (mask : ByteMask) : Prop :=
  (∀ k, k < 128 → memRead m' (128 * ln + k) = if mask.getLsbD k then lineByte data k else memRead m (128 * ln + k)) ∧
    ∀ a, (a < 128 * ln ∨ 128 * ln + 128 ≤ a) → memRead m' a = memRead m a

/-- One record more is pending on an island (R373). -/
def Posted (s t : State) (isl : Nat) (P : BitVec 1024 → Prop) : Prop :=
  ∃ r, (t.isl isl).faults = (s.isl isl).faults ++ [r] ∧ P r.bits

/-- An operation has its result, and the answer of a unit is on its way to the core. -/
def Answered (t : State) (isl id : Nat) (v : DWord) (cycles : Nat) : Prop :=
  (∃ o, t.op? isl id = some o ∧ o.res = v) ∧ (Due.cyc isl (t.cyc isl + cycles), Act.reply isl id) ∈ t.agenda

/-- A barrier of a workgroup, where it stands: `b0` with the cluster launch (R300). -/
def barAt (x : Island) (core place k : Nat) : Option Bar :=
  match x.wg? core place with
  | none => none
  | some w => if k = 0 then (tget? x.cls w.cl).map (·.b0) else some (tgetD w.bars k {})

/-- A ring of a workgroup. -/
def ringAt (x : Island) (core place k : Nat) : Option Ring := (x.wg? core place).map fun w => tgetD w.rings k {}

/-- The only operation on an island, with the group that issued it, whose writes have all been made. -/
structure OnlyOp (s : State) (isl id : Nat) (o : Op) (gid : Nat) (g : Group) : Prop where
  ops : (s.isl isl).ops = [(id, o)]
  agent : o.agent = .group o.core gid
  group : (s.isl isl).group? o.core gid = some g
  age : g.age = o.age
  settled : g.pend = []
  released : o.released = true

/-- That group after the operation has ended: its flag has fallen, and its vector, uniform and operand registers and its latch
are those of `h`. -/
def Ended (t : State) (isl : Nat) (o : Op) (gid : Nat) (g h : Group) : Prop :=
  (t.isl isl).ops = [] ∧ ∃ g', (t.isl isl).group? o.core gid = some g' ∧ g'.v = h.v ∧ g'.s = h.s ∧ g'.o = h.o ∧ g'.lt = h.lt ∧
    ∀ n, g'.flagVal n = if o.flag = some n then g.flagVal n - 1 else g.flagVal n

/-- A memory after bytes have been written from an address up: no other byte changes. -/
def BytesWritten (m m' : Memory) (a : Nat) (bs : List Byte) : Prop :=
  (∀ k b, bs[k]? = some b → memRead m' (a + k) = b) ∧ ∀ j, (j < a ∨ a + bs.length ≤ j) → memRead m' j = memRead m j

/-- A place of `n` bytes of translated memory at an address: UNCACHED, or in a line of an island on which nothing holds or
uses a line. -/
def MemoryAt (x : Island) (l : Loc) (n pa : Nat) : Prop :=
  l = .unc pa ∨ ∃ ln off, l = .line ln off ∧ pa = 128 * ln + off ∧ off + n ≤ 128 ∧ x.cores = [] ∧ x.filters = [] ∧
    x.homes = [] ∧ x.versions = [] ∧ x.reqs = []

/-- The memory of every island but one is as it was. -/
def OthersKept (s t : State) (isl : Nat) : Prop := ∀ k a, k ≠ isl → memRead (t.isl k).mem a = memRead (s.isl k).mem a

/-- Event records have been posted by an island, in order, to a queue that it does not serve yet (R422): a record is what
`P` lists, as code, argument, tag and site. -/
def Reported (s t : State) (isl : Nat) (l : List (Nat × Nat × Nat × Nat)) : Prop :=
  (t.isl isl).fstat.qrdy = (s.isl isl).fstat.qrdy ∧
    (t.isl isl).events.map (fun b => (fld b 0 8, fld b 8 8, fld b 16 16, fld b 32 4)) =
      (s.isl isl).events.map (fun b => (fld b 0 8, fld b 8 8, fld b 16 16, fld b 32 4)) ++ l

/-- An event is due at a time from now, in picoseconds. -/
def DuePs (t : State) (ps : Nat) (ev : Instr) (args : List Nat) : Prop := (Due.ps (t.now + ps), Act.row ev args) ∈ t.agenda

/-- A system register's number, and its value in an island's registers (R402). -/
def sysNow (x : Island) (n sel : Nat) : Option DWord :=
  match n with
  | 0x010 => some x.sys.ctxtab
  | 0x013 => some (x.sys.slotshare.setWidth 64)
  | 0x014 => some x.sys.fq
  | 0x015 => some x.sys.snpool
  | 0x016 => some x.sys.topo
  | 0x018 => some (if sel < 64 then tgetD x.sys.hq sel 0 else 0)
  | 0x019 => some (if sel < 16 then tgetD x.sys.dq sel 0 else 0)
  | 0x01A => some (if sel < 32 then tgetD x.sys.rtab sel 0 else 0)
  | 0x01B => some (if x.sys.rtact then 1 else 0)
  | 0x020 => some (if sel < 128 then (x.core sel).part.setWidth 64 else 0)
  | 0x021 => some (if sel < 128 then (x.core sel).errcnt else 0)
  | 0x028 => some (x.sys.pretime.setWidth 64)
  | 0x029 => some (x.sys.rtime.setWidth 64)
  | 0x02A => some (x.sys.auditfrac.setWidth 64)
  | 0x030 => some (x.sys.cstep.setWidth 64)
  | _ => none

/-- No operation of a core's copy engine has a fault outstanding (R289). -/
def NoCopyFaults (x : Island) (core : Nat) : Prop :=
  ∀ p ∈ x.ops, p.2.core = core → copyInstr p.2.instr = true → ∀ u ∈ p.2.subs, ∀ a ∈ u.accs, a.fault = none

/-- A cluster launch of one workgroup, which an operation of another workgroup saves, on an island whose home slices hold
and use no line. -/
structure Saves (s : State) (isl cl id core place : Nat) (c : Cl) (o : Op) (w : Wg) : Prop where
  cls : (s.isl isl).cls = [(cl, c)]
  saving : c.saving = some id
  ranks : c.ranks = [(core, place)]
  wg : ((s.isl isl).core core).places = [(place, w)]
  op : s.op? isl id = some o
  other : o.core ≠ core
  reqs : (s.isl isl).reqs = []
  homes : (s.isl isl).homes = []
  filters : (s.isl isl).filters = []
  l1 : ((s.isl isl).core core).l1 = []

/-- It has been saved: its image, of some size in KiB within what R390 allows, is written at the save area and nowhere else;
it has left its core, and `CTXSV` has its answer. -/
def SavedNow (s t : State) (isl id core place : Nat) (c : Cl) (o : Op) (w : Wg) : Prop :=
  let pa := fld o.bulk.desc 0 48
  ∃ kib, kib ≤ hdrCluster w.hdr * (hdrGroups w.hdr * (2 * fld w.hdr 32 5 + 4) + hdrScratchKib w.hdr + 80 * hdrAccSlots w.hdr + 8) ∧
    Answered t isl id (BitVec.ofNat 64 (256 * kib)) (halfTrip o.core) ∧ OthersKept s t isl ∧
    (∀ a, (a < pa ∨ pa + 1024 * kib ≤ a) → memRead (t.isl isl).mem a = memRead (s.isl isl).mem a) ∧
    (t.isl isl).cls = [] ∧ (t.isl isl).wg? core place = none ∧ (∀ p ∈ ((t.isl isl).core core).groups, p.2.place ≠ place) ∧
    ∃ v ∈ (t.isl isl).saved, v.pa = pa ∧ v.cl.launch = c.launch ∧ v.cl.num = c.num

/-- The slot of an island's queue that its next record goes to (R98, R375), the descriptor and the slot lying apart in
memory, in lines that nothing holds or uses. -/
structure Room (s : State) (isl pa tail slot : Nat) : Prop where
  room : s.qRoom isl pa = some (tail, slot)
  apart : slot + 128 ≤ pa ∨ pa + 64 ≤ slot
  serves : (s.isl isl).fstat.qrdy = true
  cores : (s.isl isl).cores = []
  filters : (s.isl isl).filters = []
  homes : (s.isl isl).homes = []
  versions : (s.isl isl).versions = []
  reqs : (s.isl isl).reqs = []
  wf : memWf (s.isl isl).mem = true

/-- A record has been written to a queue: its slot holds it, TAIL is one more, no other byte changes. -/
def Recorded (s t : State) (isl pa tail slot : Nat) (b : BitVec 1024) : Prop :=
  OthersKept s t isl ∧ (∀ k, k < 128 → memRead (t.isl isl).mem (slot + k) = BitVec.ofNat 8 (b.toNat / 256 ^ k)) ∧
    (∀ k, k < 8 → memRead (t.isl isl).mem (pa + 24 + k) = BitVec.ofNat 8 ((tail + 1) / 256 ^ k)) ∧
    ∀ a, (a < slot ∨ slot + 128 ≤ a) → (a < pa + 24 ∨ pa + 32 ≤ a) → memRead (t.isl isl).mem a = memRead (s.isl isl).mem a

end Sys2Proof.Safety
end

