-- ==== Sys2Proof/Certificates/Slice0/Obligations.lean ====
section
/-! DEFINITION. The statements about the machine, for the provers. -/

section Statements

open Sys2Proof Sys2Proof.Machine Sys2Proof.Safety

/-! ## Encodings -/

/-- Every well-formed instruction has a word, and the decoder reads that instruction from it (R21-R37 and the encoding
tables of the class chapters). -/
def Obligations.EncodedInstructionsDecode : Prop :=  ∀ i : Instr, i.WellFormed → ∃ w, encode i = some w ∧ decode w = some i

/-- What the decoder accepts is well-formed, and its word is the only one: every reserved or unused field is zero (R8, R22).

Instructions of twelve bytes at ascending addresses, the byte of bits 7:0 first (R5, R21). -/
def Obligations.DecodedWordsAreCanonical : Prop :=
  (∀ (w : IWord) (i : Instr), decode w = some i → i.WellFormed ∧ encode i = some w) ∧
  ((∀ w : IWord, decodeBytes (bytesOfWord w) = decode w) ∧
  ∀ (w : IWord) (k : Nat), k < 12 → (bytesOfWord w)[k]? = some (BitVec.ofNat 8 (w.toNat / 256 ^ k)))

/-! ## Reset, words and memory -/

/-- The words that the chapters write out as examples, word 0 in the low bits, decode to what they stand for (R31, R32, R116, R148,
R172, R192, R198, R244, R283, R296, R316, R341, R349, R408): `NOP`, `REP`, `CALL`, `OVL.LD`, `IADDMN`, `FFMA.rtz`, `LSTEP`, `LD`,
`HYP.RESOLVE`, `CPY`, `QFENCE`, `MMA`, `RATOM` and `RESUME`. -/
def Obligations.SpecWordsDecode : Prop :=  decode 0x00000000000000007804F800#96 = some (.nop ⟨false, false, 0, 0, 15, 0x009, 15, false⟩) ∧
    decode 0x0F4C00000304000000007800#96 = some (.rep ⟨false, false, 0, 0, 0, 0, 15, false⟩ 1 0 3 16) ∧
    decode 0x030007B0000A000000007800#96 = some (.call ⟨false, false, 0, 0, 0, 0, 15, false⟩ false (.v 30) 0x0000A000) ∧
    decode 0x100081302301400000001000#96 = some (.ovlLd ⟨false, false, 0, 0, 0, 0, 2, false⟩ (.s 4) (.imm 8) (.imm 5)) ∧
    decode 0x220002802C03000010007800#96 = some (.iaddmn ⟨false, false, 0, 0, 2, 0, 15, false⟩ .i32 false (.v 10) (.v 11) (.op (.v 12))) ∧
    decode 0x43140200A012000000007800#96 = some (.ffma ⟨false, false, 0, 0, 0, 0, 15, false⟩ .f32 .rtz (.v 8) (.v 40) (.op (.v 72))) ∧
    decode 0x611002002080000000007800#96 = some (.lstep ⟨false, false, 0, 0, 0, 0, 15, false⟩ .addF32 false (.v 8) (.v 8) (.op (.s 0))) ∧
    decode 0x681002041304000000000900#96 = some (.ld ⟨false, false, 0, 0, 0, 0, 1, false⟩ .n32 ⟨1, .near, .none, .none⟩ (.v 8) (.vp 4) 16) ∧
    decode 0x8B0481300C00000000001800#96 = some (.hypResolveRefute ⟨false, false, 0, 0, 0, 0, 3, false⟩ (.s 4) (.imm 3)) ∧
    decode 0x908041041800000000000910#96 = some (.cpy ⟨false, false, 0, 0, 0, 0, 1, false⟩ .w4 false 1 0 .wg (.vp 4) (.vp 6)) ∧
    decode 0x920000000300400000001000#96 = some (.qfence ⟨false, false, 0, 0, 0, 0, 2, false⟩ 1) ∧
    decode 0xBB0700400302000000007800#96 = some (.mma .bf16 false false true 1 0 0 8) ∧
    decode 0xCA0002840881400000000000#96 = some (.ratom ⟨false, false, 0, 0, 0, 0, 0, false⟩ .add false 0 .none (.v 10) (.vp 2) (.s 5)) ∧
    decode 0xDD0081081800000000000000#96 = some (.resumeReplay ⟨false, false, 0, 0, 0, 0, 0, false⟩ (.s 4) (.s 6))

/-! ## Steps -/

/-- When nothing is due before it, a step issues to a group exactly the instruction that the word at the code pointer of its
turn decodes to (R21, R79, R87), dispatches to a sequencer context the one at its stream pointer (R317), and takes an event
that is due. -/
def Obligations.StepRunsTheDecodedInstruction : Prop :=  -- the instruction at a group's turn
  (∀ (k : CoreS) (g : Group) (w : Wg) (cp : Word) (iw : IWord) (i : Instr),
    g.rep = none → fetchWord k cp w.asid false = some iw → decode iw = some i → streamOpcode (fld iw 88 8) = false →
      wordCand k g w cp = (.run i, ctlOf i)) ∧
  -- its issue
  (∀ (s : State) (isl core gid : Nat) (g : Group) (i : Instr),
    dueNow s = none → firstIssue s.now s.islands = some (isl, core, gid, g, .run i) → s.auditHalts isl core gid i = none →
      step s = exec i { s with focus := .group isl core gid }) ∧
  -- the dispatch of a context
  (∀ (s : State) (isl core place : Nat) (e : SEnv) (iw : IWord) (i : Instr),
    dueNow s = none → firstIssue s.now s.islands = none → firstDispatch s.now s.islands = some (isl, core, place) →
    s.senv? isl core place = some e → fetchWord ((s.isl isl).core core) e.c.sp e.w.asid true = some iw →
    decode iw = some i → streamOpcode (fld iw 88 8) = true →
      step s = exec i { s with focus := .seq isl core place }) ∧
  -- an event
  (∀ (s s' : State) (i : Instr) (as : List Nat), dueNow s = some (.row i as, s') →
      step s = exec i { s' with focus := .event as })

/-- No instruction and no event is refused, and none ends a run: whatever the state, `exec` answers a next state for every
row of the opcode table that acts for the agent in focus. -/
def Obligations.EveryInstructionAnswers : Prop :=  ∀ (i : Instr) (s : State), Attended i s → ∃ t, exec i s = .next t

/-- A word that decodes to nothing, and a word of the matrix streams, is ILLEGAL in a group's stream: the group parks at it,
its record holds code 1 and bits 95:64 of the word, and no register, flag or memory changes (R36, R37, R39).

Of the decoding faults that apply to an instruction the core takes the first in the order ILLEGAL, PERM, ROLE, REG_RANGE.
The faulting instruction has no effect: the group parks, with a record at the instruction that names all lanes; no register,
flag, thread or memory changes. -/
def Obligations.IllegalWordsPark : Prop :=
  ((∀ (k : CoreS) (g : Group) (w : Wg) (cp : Word) (iw : IWord),
    g.rep = none → fetchWord k cp w.asid false = some iw → (decode iw = none ∨ streamOpcode (fld iw 88 8) = true) →
      (wordCand k g w cp).1 = .bad 1 (BitVec.ofNat 64 (iw.toNat / 2 ^ 64))) ∧
  (∀ (s : State) (isl core gid : Nat) (g : Group) (code : Nat) (info : DWord),
    (s.isl isl).group? core gid = some g →
      ∃ t, runCand s isl core gid (.bad code info) = .next t ∧
        (t.isl isl).group? core gid = some { g with parked := true, records := g.records + 1 } ∧
        (∀ k, (t.isl k).mem = (s.isl k).mem) ∧ (∀ k c p, (t.isl k).wg? c p = (s.isl k).wg? c p) ∧
        ∃ r, (t.isl isl).faults = (s.isl isl).faults ++ [r] ∧ recCode r.bits = code % 256 ∧ recInfo r.bits = info ∧
          recLanes r.bits = BitVec.allOnes 64)) ∧
  (∀ (i : Instr) (c : Ctl) (s : State) (e : Env) (isl core gid : Nat) (g : Group),
    s.focus = .group isl core gid → s.env? isl core gid c = some e → (fieldsOf i).map (·.c) = some c →
    streamOpcode (opcMd i).1 = false → (s.isl isl).group? core gid = some g →
    ∀ code, firstFault i c e = some code → (code = 1 ∨ stateChecked i = false) →
      ∃ t r, exec i s = .next t ∧ (t.isl isl).group? core gid = some { g with parked := true, records := g.records + 1 } ∧
        (∀ k, (t.isl k).mem = (s.isl k).mem) ∧ (∀ k c p, (t.isl k).wg? c p = (s.isl k).wg? c p) ∧
        (t.isl isl).faults = (s.isl isl).faults ++ [r] ∧ recCode r.bits = code ∧ recCp r.bits = e.cp ∧
        recLanes r.bits = BitVec.allOnes 64)

/-! ## Registers and fixed latencies (R84) -/

/-- A write is seen from its cycle on and not before; of writes to one place, the one of the later cycle stands, and of one
cycle the one issued later (R84). `ws` are the writes that a group has issued, each with its cycle.

A register, latch value, flag or control register of a group changes with time only where a queued write names it; the
hypothesis, the threads and the counter of unacknowledged writes do not change with time. -/
def Obligations.WritesLandAtTheirCycle : Prop :=
  (∀ (g₀ : Group) (ws : List (Nat × WDest × DWord)), g₀.pend = [] → (∀ w ∈ ws, OnLanes w.2.1) →
    let g := ws.foldl (fun g w => addWrite g w.1 w.2.1 w.2.2) g₀
    -- before its cycle a write is not seen
    (∀ due d v cyc, cyc < due →
      { settle (addWrite g due d v) cyc with pend := [] } = { settle g cyc with pend := [] }) ∧
    -- from its cycle on it is, where no write to the same place of a later cycle has been made
    (∀ due n l v cyc, l < 64 → due ≤ cyc → (∀ w ∈ ws, w.2.1 = .v n l → w.1 ≤ due ∨ cyc < w.1) →
      (settle (addWrite g due (.v n l) v) cyc).vreg n l = v.setWidth 32) ∧
    (∀ due n v cyc, due ≤ cyc → (∀ w ∈ ws, w.2.1 = .s n → w.1 ≤ due ∨ cyc < w.1) →
      (settle (addWrite g due (.s n) v) cyc).sreg n = v.setWidth 32) ∧
    (∀ due n l v cyc, l < 64 → due ≤ cyc → (∀ w ∈ ws, w.2.1 = .o n l → w.1 ≤ due ∨ cyc < w.1) →
      (settle (addWrite g due (.o n l) v) cyc).oreg n l = v.setWidth 32) ∧
    (∀ due l v cyc, due ≤ cyc → (∀ w ∈ ws, w.2.1 = .lt l → w.1 ≤ due ∨ cyc < w.1) →
      (settle (addWrite g due (.lt l) v) cyc).latch l = v)) ∧
  (∀ (g : Group) (cyc : Nat), (∀ p ∈ g.pend, OnLanes p.dest) →
    (∀ n l, l < 64 → (∀ p ∈ g.pend, p.dest ≠ .v n l) → (settle g cyc).vreg n l = g.vreg n l) ∧
    (∀ n l, l < 64 → (∀ p ∈ g.pend, p.dest ≠ .o n l) → (settle g cyc).oreg n l = g.oreg n l) ∧
    (∀ n, (∀ p ∈ g.pend, p.dest ≠ .s n) → (settle g cyc).sreg n = g.sreg n) ∧
    (∀ l, (∀ p ∈ g.pend, p.dest ≠ .lt l) → (settle g cyc).latch l = g.latch l) ∧
    (∀ f, (∀ p ∈ g.pend, p.dest ≠ .flag f) → (settle g cyc).flagVal f = g.flagVal f) ∧
    (∀ k, (∀ p ∈ g.pend, p.dest ≠ .aw k) → tgetD (settle g cyc).aw k 0 = tgetD g.aw k 0) ∧
    ((∀ p ∈ g.pend, p.dest ≠ .tvec) → (settle g cyc).tvec = g.tvec) ∧
    ((∀ p ∈ g.pend, p.dest ∉ [.fctlPut, .fctlSet, .fctlClr, .fctlRaise]) → (settle g cyc).fctl = g.fctl) ∧
    (settle g cyc).hy = g.hy ∧ (settle g cyc).threads = g.threads ∧ (settle g cyc).unacked = g.unacked)

/-- The frame of every instruction of fixed latency (R31, R84, R150, R192): a state in which the run has advanced and writes
are queued. No byte of memory or of any array changes, no other group, workgroup or core's cache; the group's registers stand
as they stood, and what is queued is what was queued and the instruction's writes. -/
def Obligations.FixedLatencyFrame : Prop :=  ∀ (s : State) (e : Env) (i : Instr) (c : Ctl) (lat : Nat) (ws : List (WDest × DWord)) (g : Group),
    (s.isl e.isl).group? e.core e.gid = some g → e.g = settle g (s.cyc e.isl) →
    ∃ g', ((queued (s.advance e i c) e lat ws).isl e.isl).group? e.core e.gid = some g' ∧
      g'.v = e.g.v ∧ g'.s = e.g.s ∧ g'.o = e.g.o ∧ g'.lt = e.g.lt ∧ g'.aw = e.g.aw ∧ g'.tvec = e.g.tvec ∧ g'.fctl = e.g.fctl ∧
      g'.hy = e.g.hy ∧ g'.role = e.g.role ∧ g'.place = e.g.place ∧ g'.unacked = e.g.unacked ∧
      (∀ f, g'.flagVal f = e.g.flagVal f + if c.setf.toNat = f ∧ f < 12 then 1 else 0) ∧
      (∀ p, p ∈ g'.pend ↔ p ∈ e.g.pend ∨ ∃ w ∈ ws, p = { due := e.cyc + lat, rank := if w.1 = .fctlRaise then 1 else 0,
                                                         dest := w.1, val := w.2 }) ∧
      -- the active lanes stand at the next instruction, the others where they stood
      (e.g.rep = none → g'.threads = e.g.threads.map fun p =>
        if e.run.getLsbD p.1 then (p.1, { p.2 with cp := e.cp + 1, stat := .ready }) else p) ∧
      -- everything else of the machine
      (∀ k a, memRead ((queued (s.advance e i c) e lat ws).isl k).mem a = memRead (s.isl k).mem a) ∧
      (∀ k d p, ((queued (s.advance e i c) e lat ws).isl k).wg? d p = (s.isl k).wg? d p) ∧
      (∀ k d, (((queued (s.advance e i c) e lat ws).isl k).core d).l1 = ((s.isl k).core d).l1) ∧
      (∀ k d h, (k, d, h) ≠ (e.isl, e.core, e.gid) →
        ((queued (s.advance e i c) e lat ws).isl k).group? d h = (s.isl k).group? d h)

/-- A group's `v` register, uniform register and operand-file register read as they were last written; reads of `sr` numbers
give the machine's width, steps, lane, slot, core, cluster, half and island (R23, R25, R28).

The guard (R30): with GE = 0 it holds in every active lane, with GE = 1 in the active lanes where the bit GB of the guard
register, negated by GN, is 1.

`put` and `rd` (R153): a value of a type put into a register and read again is the value, wrapped into the type or
limited to its range. -/
def Obligations.SourcesReadTheirStorage : Prop :=
  (∀ (e : Env) (l : Nat), l < 64 →
    (∀ k, e.rd32 (.v k) l = e.g4.vreg k.toNat l) ∧ (∀ k, e.rd32 (.s k) l = e.g4.sreg k.toNat) ∧
    (∀ k, e.rd32 (.o k) l = e.g1.oreg k.toNat l) ∧ e.rd32 .lt l = (e.g.latch l).setWidth 32 ∧
    (∀ i : BitVec 10, (e.rd32 (.imm i) l).toInt = i.toInt) ∧ (∀ i : BitVec 20, (e.rdZ32 (.imm i) l).toInt = i.toInt) ∧
    (∀ i : BitVec 20, (e.rdZ64 (.imm i) l).toInt = i.toInt) ∧
    (∀ k, (e.rd64 (.vp k) l).toNat = (e.g4.vreg k.toNat l).toNat + (e.g4.vreg (k.toNat + 1) l).toNat * 2 ^ 32) ∧
    (∀ k, (e.rd64 (.s k) l).toNat = (e.g4.sreg k.toNat).toNat + (e.g4.sreg (k.toNat + 1)).toNat * 2 ^ 32) ∧
    (∀ k, (e.rd64 (.o k) l).toNat = (e.g1.oreg k.toNat l).toNat + (e.g1.oreg (k.toNat + 1) l).toNat * 2 ^ 32) ∧
    e.rd32 (.sr 0) l = 64 ∧ e.rd32 (.sr 1) l = 6 ∧ e.rd32 (.sr 2) l = BitVec.ofNat 32 l ∧
    e.rd32 (.sr 3) l = BitVec.ofNat 32 e.gid ∧ e.rd32 (.sr 8) l = BitVec.ofNat 32 e.core ∧
    e.rd32 (.sr 9) l = BitVec.ofNat 32 (e.core / 4) ∧ e.rd32 (.sr 10) l = BitVec.ofNat 32 (e.core / 64) ∧
    e.rd32 (.sr 11) l = BitVec.ofNat 32 e.isl ∧ e.rd32 (.sr 13) l = 0) ∧
  (∀ (g : Group) (c : Ctl) (run : LaneMask) (l : Nat),
    (guardLanes g c run).getLsbD l =
      (run.getLsbD l && (!c.ge || ((g.vreg c.gr.toNat l).getLsbD c.gb.toNat != c.gn)))) ∧
  (∀ (x : Int) (t : IType),
    (typeLo t ≤ x ∧ x < typeHi t → ∀ v, rdT (putT x t v) t = x) ∧
    typeLo t ≤ rdT (putT x t false) t ∧ rdT (putT x t false) t < typeHi t ∧
    (rdT (putT x t false) t - x) % (typeHi t - typeLo t) = 0 ∧
    rdT (putT x t true) t = max (typeLo t) (min x (typeHi t - 1)))

/-! ## Integer and address instructions -/

/-- Addition, subtraction, multiplication, minimum, maximum, absolute value and difference, carry (R151-R156): the exact
result of the typed sources, wrapped or saturated, written where the guard holds after 4 or 6 cycles.

Shifts, extraction, logic, counts and bit fields (R157-R162).

Comparison, selection, moves and conversions between integer types (R163-R168, R171).

64-bit arithmetic and address formation (R169, R170). -/
def Obligations.IntegerInstructions : Prop :=
  (∀ (i : Instr) (f : LaneForm) (s : State) (e : Env), arithForm i = some f → Executes i f.ctl s e →
    exec i s = .next (f.after i s e)) ∧
  (∀ (i : Instr) (f : LaneForm) (s : State) (e : Env), bitForm i = some f → Executes i f.ctl s e →
    exec i s = .next (f.after i s e)) ∧
  (∀ (i : Instr) (f : LaneForm) (s : State) (e : Env), moveForm i = some f → Executes i f.ctl s e →
    exec i s = .next (f.after i s e)) ∧
  (∀ (i : Instr) (f : LaneForm) (s : State) (e : Env), wideForm i = some f → Executes i f.ctl s e →
    exec i s = .next (f.after i s e))

/-- `SHL`, `SHR` and `SAR` (R157): the whole 32-bit amount counts; `.wrap` takes it modulo 32; an amount of 32 or more gives
0, or the sign of the source.

`POPC`, `CLZ` and `BREV` (R160): the number of set bits, the number of leading zeros, the bits in reverse order, of 32 or
64 bits; the counts go to a single register. -/
def Obligations.ShiftsAndBitCounts : Prop :=
  (∀ (c : Ctl) (wrap : Bool) (x y : Opnd) (z : ZOp) (s : State) (e : Env),
    let a (l : Nat) : Nat := if wrap then (e.rdZ32 z l).toNat % 32 else (e.rdZ32 z l).toNat
    let left (l : Nat) : Word := e.rd32 y l <<< a l
    let right (l : Nat) : Word := e.rd32 y l >>> a l
    let arith (l : Nat) : Word := (e.rd32 y l).sshiftRight (a l)
    (Executes (.shl c wrap x y z) c s e → exec (.shl c wrap x y z) s =
      .next (({ ctl := c, dst := x, lat := 4, val := fun _ l => (left l).setWidth 64 } : LaneForm).after (.shl c wrap x y z) s e)) ∧
    (Executes (.shr c wrap x y z) c s e → exec (.shr c wrap x y z) s =
      .next (({ ctl := c, dst := x, lat := 4, val := fun _ l => (right l).setWidth 64 } : LaneForm).after (.shr c wrap x y z) s e)) ∧
    (Executes (.sar c wrap x y z) c s e → exec (.sar c wrap x y z) s =
      .next (({ ctl := c, dst := x, lat := 4, val := fun _ l => (arith l).setWidth 64 } : LaneForm).after (.sar c wrap x y z) s e)) ∧
    (∀ l, 32 ≤ a l → left l = 0 ∧ right l = 0 ∧ arith l = if (e.rd32 y l).msb then 0xFFFFFFFF else 0)) ∧
  (∀ (c : Ctl) (t : IType) (x y : Opnd) (s : State) (e : Env),
    let ones (e : Env) (l : Nat) : DWord :=
      BitVec.ofNat 64 (((List.range 64).filter fun i => (e.rdW (wideT t) y l).getLsbD i).length)
    let zeros (e : Env) (l : Nat) : DWord :=
      if wideT t then (e.rd64 y l).clz else ((e.rdW false y l).setWidth 32).clz.setWidth 64
    (Executes (.popc c t x y) c s e → exec (.popc c t x y) s =
      .next (({ ctl := c, dst := x, lat := 4, val := ones } : LaneForm).after (.popc c t x y) s e)) ∧
    (Executes (.clz c t x y) c s e → exec (.clz c t x y) s =
      .next (({ ctl := c, dst := x, lat := 4, val := zeros } : LaneForm).after (.clz c t x y) s e)) ∧
    (Executes (.brev c t x y) c s e → ∃ v : Nat → DWord,
      exec (.brev c t x y) s = .next (({ ctl := c, dst := x, wide := wideT t, lat := 4, val := fun _ => v } : LaneForm).after
        (.brev c t x y) s e) ∧
      ∀ l i, (v l).getLsbD i = (decide (i < if wideT t then 64 else 32) &&
        (e.rdW (wideT t) y l).getLsbD ((if wideT t then 63 else 31) - i))))

/-- `SEL` (R164): its guard selects and does not guard. In every active lane the destination takes *y* where the guard
condition holds and *z* elsewhere; a uniform destination is ILLEGAL. -/
def Obligations.SelectsByTheGuard : Prop :=  (∀ (c : Ctl) (t : IType) (x y : Opnd) (z : ZOp) (s : State) (e : Env), Executes (.sel c t x y z) c s e →
    let v (e : Env) (l : Nat) : DWord :=
      if !c.ge || ((e.g4.vreg c.gr.toNat l).getLsbD c.gb.toNat != c.gn) then e.rdW (wideT t) y l else e.rdZW (wideT t) z l
    exec (.sel c t x y z) s =
      .next (({ ctl := c, dst := x, wide := wideT t, lat := 4, all := true, val := v } : LaneForm).after (.sel c t x y z) s e)) ∧
  ∀ (c : Ctl) (t : IType) (k : BitVec 8) (y : Opnd) (z : ZOp) (s : State) (e : Env) (isl core gid : Nat),
    s.focus = .group isl core gid → s.env? isl core gid c = some e →
      ∃ t', exec (.sel c t (.s k) y z) s = .next t' ∧ ∃ r, (t'.isl isl).faults = (s.isl isl).faults ++ [r] ∧ recCode r.bits = 1

/-! ## Floating point -/

/-- Scalar and packed arithmetic (R180-R182): the exact result of the decoded sources, rounded once by the mode; flags rise
with the result.

Comparison, classification, rounding and conversion (R183-R187). A conversion that names a format register that is not
valid for its type is ILLEGAL (R67).

The special functions (R173, R188): 18 cycles, and 8 cycles of the special-function pipe of the SIMD unit. -/
def Obligations.FloatInstructions : Prop :=
  (∀ (i : Instr) (f : FpForm) (s : State) (e : Env), fpArithForm i = some f → Executes i f.ctl s e →
    exec i s = .next (f.after i s e)) ∧
  (∀ (i : Instr) (f : FpForm) (s : State) (e : Env), fpOtherForm i = some f → Executes i f.ctl s e →
    (f.ready e = true → exec i s = .next (f.after i s e)) ∧
    (f.ready e = false → ∃ info, exec i s = .next (s.takeDecode e 1 info))) ∧
  (∀ (i : Instr) (f : FpForm) (s : State) (e : Env), specialForm i = some f → Executes i f.ctl s e →
    exec i s = .next (f.after i s e))

/-- Every value of a format is rounded to itself, exactly, in every mode (R56, R59).

Minimum and maximum (R58): of a number and a NaN the number, of two NaNs the default NaN, −0 below +0; and of two values
one of them, no greater, or no less, than either. -/
def Obligations.RoundingAndExtremes : Prop :=
  (∀ d ∈ [fmt32, fmt16, fmtB16, fmt40], ∀ (rm p : Nat), p < 2 ^ (1 + d.eb + d.mb) → decodeF d p ≠ .nan →
    roundFp d rm (decodeF d p) = (p, 0)) ∧
  ((∀ a : Fv, minFv a .nan = a ∧ minFv .nan a = a ∧ maxFv a .nan = a ∧ maxFv .nan a = a) ∧
  (∀ d rm, roundFp d rm (minFv .nan .nan) = (d.nan, 0) ∧ roundFp d rm (maxFv .nan .nan) = (d.nan, 0)) ∧
  (∀ m n : Int, minFv (.fin true 0 m) (.fin false 0 n) = .fin true 0 m ∧ minFv (.fin false 0 n) (.fin true 0 m) = .fin true 0 m ∧
    maxFv (.fin true 0 m) (.fin false 0 n) = .fin false 0 n ∧ maxFv (.fin false 0 n) (.fin true 0 m) = .fin false 0 n) ∧
  (∀ a b : Fv, a ≠ .nan → b ≠ .nan →
    (minFv a b = a ∨ minFv a b = b) ∧ (maxFv a b = a ∨ maxFv a b = b) ∧
    condF .le (minFv a b) a = true ∧ condF .le (minFv a b) b = true ∧
    condF .ge (maxFv a b) a = true ∧ condF .ge (maxFv a b) b = true))

/-- Access to the control word, the window registers, the trap vector and the format registers (R120, R167, R168, R190,
R191): reads like other results; writes once for the group, from the lowest lane where the guard holds, after 4 cycles. -/
def Obligations.ControlRegisterAccess : Prop :=  (∀ (i : Instr) (f : LaneForm) (s : State) (e : Env), readForm i = some f → Executes i f.ctl s e →
    exec i s = .next (f.after i s e)) ∧
  (∀ (i : Instr) (c : Ctl) (d : WDest) (v : Env → DWord) (s : State) (e : Env), onceForm i = some (c, d, v) →
    Executes i c s e →
      exec i s = .next (queued (s.advance e i c) e 4 ((if e.guard = 0 then [] else [(d, v e)]) ++ flagWrite c))) ∧
  ∀ (c : Ctl) (k : BitVec 3) (z : ZOp) (s : State) (e : Env), Executes (.fmtw c k z) c s e →
    ∃ t, exec (.fmtw c k z) s = .next t ∧
      (t.isl e.isl).group? e.core e.gid = ((queued (s.advance e (.fmtw c k z) c) e 4 (flagWrite c)).isl e.isl).group? e.core e.gid ∧
      ∀ w, (s.isl e.isl).wg? e.core e.g.place = some w →
        (t.isl e.isl).wg? e.core e.g.place = some (if e.guard = 0 then w else
          (w.settle e.cyc).addFm (e.cyc + 4) e.gid k.toNat (e.rdZ32 z e.lane0))

/-! ## Lane exchange (R193-R201) -/

/-- Votes and matches over the lanes where the guard holds (R199, R200).

`LMATCH` (R200): each voting lane gets the mask of the voting lanes whose source equals its own, itself among them; no
lane has a number of 64 or more, so the high half of the mask is empty.

`LXCH` and `LSTEP` (R193, R194, R196-R198): each lane reads the lane it names. A source lane out of range gives the lane's
own value, one where the guard does not hold traps LANE_SOURCE, and under zero-fill both give zero; the other lanes take the
full effect. Under `REP` an exchange without zero-fill is ILLEGAL.

`LSCAN` (R201): each voting lane gets the ordered fold of the voting lanes up to it, or below it; 12 cycles, 24 for a
floating-point sum, whose flags rise with it. -/
def Obligations.LaneInstructions : Prop :=
  (∀ (i : Instr) (f : LaneForm) (s : State) (e : Env), voteForm i = some f → Executes i f.ctl s e →
    exec i s = .next (f.after i s e)) ∧
  (∀ (c : Ctl) (wide hi : Bool) (x y : Opnd) (s : State) (e : Env), Executes (.lmatch c wide hi x y) c s e →
    ∃ m : Nat → DWord, exec (.lmatch c wide hi x y) s =
        .next (({ ctl := c, dst := x, wide := true, lat := 8, val := fun _ => m } : LaneForm).after (.lmatch c wide hi x y) s e) ∧
      (∀ l j, j < 64 → (m l).getLsbD j = (!hi && e.guard.getLsbD j && decide (e.rdW wide y j = e.rdW wide y l))) ∧
      (∀ l, hi = false → e.guard.getLsbD l = true → (m l).getLsbD l = true)) ∧
  (∀ (i : Instr) (f : ExForm) (s : State) (e : Env), exForm i = some f → Executes i f.ctl s e →
    (e.g.rep = none ∨ f.zf = true → exec i s = .next (f.after i s e)) ∧
    (e.g.rep ≠ none → f.zf = false → ∃ info, exec i s = .next (s.takeDecode e 1 info))) ∧
  (∀ (c : Ctl) (op : RedOp) (exc : Bool) (x y : Opnd) (s : State) (e : Env), Executes (.lscan c op exc x y) c s e →
    exec (.lscan c op exc x y) s = .next (queued (s.advance e (.lscan c op exc x y) c) e (if op = .addF32 then 24 else 12)
      (resultWrites x false true e.guard (fun l => (scanValue e op exc y l).setWidth 64) ++ raiseWrite (scanFlags e op y) ++
        flagWrite c)))

/-! ## Control -/

/-- `NOP` (R114): no effect beyond its hints; its flag rises at issue and falls at once. -/
def Obligations.NopHasNoEffect : Prop :=  ∀ (c : Ctl) (s : State) (e : Env), Executes (.nop c) c s e →
    ∃ t g', exec (.nop c) s = .next t ∧ (t.isl e.isl).group? e.core e.gid = some g' ∧ SameRegisters g' e.g ∧
      (∀ f, g'.flagVal f = e.g.flagVal f) ∧ Spares s t e.isl e.core e.gid ∧
      (e.g.rep = none → g'.threads = movedThreads e.g e.run fun _ t => { t with cp := e.cp + 1, stat := .ready })

/-- `BRA` (R115): where the guard holds, the offset of the code pointer becomes the branch's own plus the immediate, in the
same overlay; the other lanes move on. A target offset below 0 or above 8,191 takes ILLEGAL at the `BRA`.

`BRX`, `CALL`, `CALLX`, `RET` and `RTT` to resident targets (R116, R121, R131): each lane where the guard holds stands at
its own target, at its new call depth; a call queues its return code pointer.

A `CALL` of an overlay that is not resident, without a handler (R116, R131, R133, R372): the return code pointers are
written all the same; the lanes stay at the call, at their depth; the group parks with an OVL_MISS record that names them. -/
def Obligations.TransfersOfControl : Prop :=
  (∀ (c : Ctl) (off : BitVec 20) (s : State) (e : Env), Executes (.bra c off) c s e →
    let o : Int := (e.cp.toNat % 8192 : Nat) + off.toInt
    (0 ≤ o ∧ o ≤ 8191 → ∃ t g', exec (.bra c off) s = .next t ∧ (t.isl e.isl).group? e.core e.gid = some g' ∧
      SameRegisters g' e.g ∧ (∀ f, g'.flagVal f = e.g.flagVal f) ∧ Spares s t e.isl e.core e.gid ∧
      (e.g.rep = none → g'.threads = movedThreads e.g e.run fun l t =>
        { t with cp := if e.guard.getLsbD l then BitVec.ofNat 32 (e.cp.toNat / 8192 * 8192 + o.toNat) else e.cp + 1,
                 stat := .ready })) ∧
    (¬(0 ≤ o ∧ o ≤ 8191) → ∃ info, exec (.bra c off) s = .next (s.takeDecode e 1 info))) ∧
  (∀ (i : Instr) (f : JumpForm) (s : State) (e : Env), jumpForm i = some f → Executes i f.ctl s e → f.resident s e →
    exec i s = .next (f.after i s e)) ∧
  (∀ (c : Ctl) (p : Bool) (x : Opnd) (t : Word) (r : Nat) (s : State) (e : Env), Executes (.call c p x t) c s e →
    e.guard ≠ 0 → e.g.rep = none → e.g4.tvec = 0 → resolveCp ((s.isl e.isl).core e.core) e.wg.asid t p = .miss r →
    ∃ s' g' b, exec (.call c p x t) s = .next s' ∧ (s'.isl e.isl).group? e.core e.gid = some g' ∧ g'.parked = true ∧
      g'.records = e.g.records + 1 ∧
      g'.v = e.g.v ∧ g'.s = e.g.s ∧ g'.o = e.g.o ∧ Spares s s' e.isl e.core e.gid ∧
      (∀ w ∈ resultWrites x false false e.guard (fun _ => (e.cp + 1).setWidth 64),
        ∃ q ∈ g'.pend, q.due = e.cyc + 4 ∧ q.dest = w.1 ∧ q.val = w.2) ∧
      g'.threads = movedThreads e.g e.run (fun l t =>
        { t with cp := if e.guard.getLsbD l then e.cp else e.cp + 1, stat := .ready }) ∧
      (s'.isl e.isl).faults = (s.isl e.isl).faults ++ [b] ∧ recCode b.bits = 5 ∧ recCp b.bits = e.cp ∧
      recLanes b.bits = e.guard ∧ recInfo b.bits = BitVec.ofNat 64 (r * 2 ^ 32 + t.toNat))

/-- `EXIT` (R117): the threads where the guard holds leave the PC table; a group without threads has ended.

`SLEEP` and `CKPT` (R109, R118, R119): a sleep, where the guard holds in some lane, takes the whole run for its cycles
from issue; a checkpoint parks the run where its cluster launch is being pre-empted; else they only advance. -/
def Obligations.EndsAndSleeps : Prop :=
  (∀ (c : Ctl) (s : State) (e : Env), Executes (.exit c) c s e → e.g.rep = none →
    ∃ t g', exec (.exit c) s = .next t ∧ (t.isl e.isl).group? e.core e.gid = some g' ∧ SameRegisters g' e.g ∧
      Spares s t e.isl e.core e.gid ∧
      g'.threads = (movedThreads e.g e.run fun _ t => { t with cp := e.cp + 1, stat := .ready }).filter
        (fun p => !e.guard.getLsbD p.1) ∧
      g'.ended = (e.g.ended || g'.threads.isEmpty)) ∧
  ((∀ (c : Ctl) (n : BitVec 20) (s : State) (e : Env), Executes (.sleep c n) c s e →
    (e.guard = 0 → exec (.sleep c n) s = .next (plain (.sleep c n) c s e)) ∧
    (e.guard ≠ 0 → e.g.rep = none → ∃ t g', exec (.sleep c n) s = .next t ∧ (t.isl e.isl).group? e.core e.gid = some g' ∧
      SameRegisters g' e.g ∧ Spares s t e.isl e.core e.gid ∧
      (Due.cyc e.isl (e.cyc + n.toNat), Act.row .sleepExpiry [e.isl, e.core, e.gid]) ∈ t.agenda ∧
      g'.threads = movedThreads e.g e.run fun _ t => { t with cp := e.cp + 1, stat := .asleep (e.cyc + n.toNat) })) ∧
  ∀ (c : Ctl) (k : BitVec 20) (s : State) (e : Env), Executes (.ckpt c k) c s e →
    ((s.isl e.isl).preempting e.wg = false → exec (.ckpt c k) s = .next (plain (.ckpt c k) c s e)) ∧
    ((s.isl e.isl).preempting e.wg = true → e.g.rep = none → ∃ t g', exec (.ckpt c k) s = .next t ∧
      (t.isl e.isl).group? e.core e.gid = some g' ∧ SameRegisters g' e.g ∧ Spares s t e.isl e.core e.gid ∧
      g'.threads = movedThreads e.g e.run fun _ t => { t with cp := e.cp + 1, stat := .ckpt k.toNat }))

/-- `TRAP` with a resident handler (R112, R120): in each lane where the guard holds `o7` is the code pointer of the next
instruction, `o6` the code 0x41, `o4:o5` the constant; the lane stands at `tvec`, one call deeper. The other lanes go on.

`TRAP` without a handler (R112, R372): the group parks with a record of code 0x41 that names the lanes and the constant;
the lanes stay at the `TRAP`. Where the guard holds in no lane it only advances. -/
def Obligations.Traps : Prop :=
  (∀ (c : Ctl) (k : BitVec 20) (s : State) (e : Env), Executes (.trap c k) c s e → e.g.rep = none → e.g4.tvec ≠ 0 →
    resolveCp ((s.isl e.isl).core e.core) e.wg.asid e.g4.tvec false = .go →
    ∃ t g', exec (.trap c k) s = .next t ∧ (t.isl e.isl).group? e.core e.gid = some g' ∧
      (∀ l, l < 64 → e.guard.getLsbD l = true →
        g'.oreg 7 l = e.cp + 1 ∧ g'.oreg 6 l = 0x41 ∧ g'.oreg 4 l = k.setWidth 32 ∧ g'.oreg 5 l = 0) ∧
      (∀ r l, l < 64 → (e.guard.getLsbD l = false ∨ r < 4 ∨ 7 < r) → g'.oreg r l = e.g.oreg r l) ∧
      g'.v = e.g.v ∧ g'.s = e.g.s ∧ g'.lt = e.g.lt ∧ g'.aw = e.g.aw ∧ g'.tvec = e.g.tvec ∧ g'.fctl = e.g.fctl ∧
      g'.pend = e.g.pend ∧ Spares s t e.isl e.core e.gid ∧
      g'.threads = movedThreads e.g e.run (fun l t =>
        if e.guard.getLsbD l then { t with cp := e.g4.tvec, depth := if t.depth = 255 then 255 else t.depth + 1, stat := .ready }
        else { t with cp := e.cp + 1, stat := .ready })) ∧
  (∀ (c : Ctl) (k : BitVec 20) (s : State) (e : Env), Executes (.trap c k) c s e → e.g.rep = none →
    (e.guard = 0 → exec (.trap c k) s = .next (plain (.trap c k) c s e)) ∧
    (e.guard ≠ 0 → e.g4.tvec = 0 →
      ∃ t g' r, exec (.trap c k) s = .next t ∧ (t.isl e.isl).group? e.core e.gid = some g' ∧ g'.parked = true ∧
        g'.records = e.g.records + 1 ∧ SameRegisters g' e.g ∧ Spares s t e.isl e.core e.gid ∧
        (t.isl e.isl).faults = (s.isl e.isl).faults ++ [r] ∧ recCode r.bits = 0x41 ∧ recInfo r.bits = k.setWidth 64 ∧
        recLanes r.bits = e.guard ∧ recCp r.bits = e.cp ∧
        g'.threads = movedThreads e.g e.run fun l t =>
          { t with cp := if e.guard.getLsbD l then e.cp else e.cp + 1, stat := .ready }))

/-- `REP` (R32-R35): it takes no turn and no time; the run stays at it with no repeat issued, and its count, its steps and
its run are noted. Before a word that is not repeatable, or at the end of an offset range, it takes ILLEGAL (R33). -/
def Obligations.RepeatsBegin : Prop :=  ∀ (c : Ctl) (sx sy sz : BitVec 2) (n : BitVec 10) (s : State) (e : Env), Executes (.rep c sx sy sz n) c s e →
    let step (b : BitVec 2) : Nat := match b.toNat with | 0 => 0 | 1 => 1 | 2 => 2 | _ => 4
    let next := fetchWord ((s.isl e.isl).core e.core) (e.cp + 1) e.wg.asid false
    ((∃ w, next = some w ∧ repeatable (fld w 88 8) = true) → e.cp.toNat % 8192 < 8191 →
      ∃ t, exec (.rep c sx sy sz n) s = .next t ∧ t.agenda = s.agenda ∧ Spares s t e.isl e.core e.gid ∧
        ∀ g, (s.isl e.isl).group? e.core e.gid = some g → (t.isl e.isl).group? e.core e.gid = some
          { g with rpi := 0, rep := some { sx := step sx, sy := step sy, sz := step sz, n := n.toNat, cp := e.cp, lanes := e.run } }) ∧
    ((¬∃ w, next = some w ∧ repeatable (fld w 88 8) = true) ∨ e.cp.toNat % 8192 = 8191 →
      ∃ info, exec (.rep c sx sy sz n) s = .next (s.takeDecode e 1 info))

/-- Kills and halts (R122, R408): where the guard holds in some lane, every thread of the workgroup's groups ends, the launch
is marked killed, the island stops, the islands of the panel stop; else they only advance. -/
def Obligations.KillsAndHalts : Prop :=  (∀ (i : Instr) (c : Ctl) (s : State) (e : Env), i ∈ [.killWg c, .killLaunch c, .haltIsl c, .haltPnl c] → Executes i c s e →
    e.guard = 0 → exec i s = .next (plain i c s e)) ∧
  (∀ (c : Ctl) (s : State) (e : Env), Executes (.killWg c) c s e → e.guard ≠ 0 →
    ∃ t, exec (.killWg c) s = .next t ∧ ∀ gid g, (s.isl e.isl).group? e.core gid = some g → g.place = e.g.place →
      (∀ p ∈ g.threads, p.1 < 64) → ∃ g', (t.isl e.isl).group? e.core gid = some g' ∧ g'.threads = [] ∧ g'.ended = true) ∧
  (∀ (c : Ctl) (s : State) (e : Env) (l : Launch), Executes (.killLaunch c) c s e → e.guard ≠ 0 →
    tget? s.launches e.wg.launch = some l →
      ∃ t l', exec (.killLaunch c) s = .next t ∧ tget? t.launches e.wg.launch = some l' ∧ l'.killed = true) ∧
  (∀ (c : Ctl) (s : State) (e : Env), Executes (.haltIsl c) c s e → e.guard ≠ 0 →
    ∃ t, exec (.haltIsl c) s = .next t ∧ (t.isl e.isl).running = false ∧
      ∀ k, k ≠ e.isl → (t.isl k).running = (s.isl k).running) ∧
  ∀ (c : Ctl) (s : State) (e : Env), Executes (.haltPnl c) c s e → e.guard ≠ 0 → e.isl < 16 →
    ∃ t, exec (.haltPnl c) s = .next t ∧ (t.isl e.isl).running = false ∧
      ∀ k, k < 16 → (s.isl e.isl).present k = true → (t.isl k).running = false

/-! ## Overlays -/

/-- `OVL.PIN`, `OVL.UNPIN`, `OVL.EVICT` and `OVL.QRY` (R127, R137, R141-R144): performed at issue, the result four cycles
later; without a lane where the guard holds they only advance.

`OVL.LD` and `OVL.ADDR` (R138, R145). A load answers 4 cycles after issue with status 4 for a handle that cannot be, 1
for a handle already resident, 3 for a first slot outside the context's slots and 2 for one that another overlay holds; it
waits behind a load of the same handle; else it makes a loading entry at the first slot, and its directory read begins. -/
def Obligations.OverlayInstructions : Prop :=
  (∀ (i : Instr) (f : OverlayForm) (s : State) (e : Env), overlayForm i = some f → Executes i f.ctl s e →
    (e.guard = 0 → exec i s = .next (plain i f.ctl s e)) ∧ (e.guard ≠ 0 → exec i s = .next (f.after i s e))) ∧
  ((∀ (c : Ctl) (x y : Opnd) (z : ZOp) (s : State) (e : Env), Executes (.ovlLd c x y z) c s e →
    (e.guard = 0 → exec (.ovlLd c x y z) s = .next (plain (.ovlLd c x y z) c s e)) ∧
    (e.guard ≠ 0 →
      let h := e.rdZ32 z e.lane0
      let first := (zeroImm e y).toNat
      let k := (s.isl e.isl).core e.core
      let mask := ((s.advance e (.ovlLd c x y z) c).slotMask e.isl e.wg.asid e.wg.priv (h.setWidth 19)).1
      let answers (st : DWord) : Prop := ∃ t g', exec (.ovlLd c x y z) s = .next t ∧ (t.isl e.isl).group? e.core e.gid = some g' ∧
        ((t.isl e.isl).core e.core).rtab = k.rtab ∧
        ∀ w ∈ resultWrites x false false e.guard (fun _ => st), ∃ q ∈ g'.pend, q.due = e.cyc + 4 ∧ q.dest = w.1 ∧ q.val = w.2
      (h.toNat = 0 ∨ 0x80000 ≤ h.toNat → answers 4) ∧
      (∀ n r, entryFor e k h = some (n, r) → r.loading = false → answers 1) ∧
      (∀ n r, entryFor e k h = some (n, r) → r.loading = true → ∃ t o, exec (.ovlLd c x y z) s = .next t ∧
        t.op? e.isl s.nextId = some o ∧ o.instr = .ovlLd c x y z ∧ ((t.isl e.isl).core e.core).rtab = k.rtab) ∧
      (1 ≤ h.toNat → h.toNat < 0x80000 → entryFor e k h = none →
        (32 ≤ first ∨ mask.getLsbD first = false → answers 3) ∧
        (first < 32 → mask.getLsbD first = true → slotTaken k none first = true → answers 2) ∧
        (first < 32 → mask.getLsbD first = true → slotTaken k none first = false → ∀ j, tfree k.rtab 32 = some j →
          ∃ t o r d, exec (.ovlLd c x y z) s = .next t ∧ t.op? e.isl s.nextId = some o ∧ o.instr = .ovlLd c x y z ∧
            tget? ((t.isl e.isl).core e.core).rtab j = some r ∧ r.loading = true ∧ r.handle = h.setWidth 19 ∧ r.first = first ∧
            (Due.cyc e.isl (e.cyc + d), Act.row .overlayDirectoryArrival [e.isl, e.core, s.nextId]) ∈ t.agenda)))) ∧
  ∀ (c : Ctl) (x y : Opnd) (s : State) (e : Env), Executes (.ovlAddr c x y) c s e →
    (e.guard = 0 → exec (.ovlAddr c x y) s = .next (plain (.ovlAddr c x y) c s e)) ∧
    (e.guard ≠ 0 → ∃ t o d, exec (.ovlAddr c x y) s = .next t ∧ t.op? e.isl s.nextId = some o ∧ o.instr = .ovlAddr c x y ∧
      o.a = word (e.rd32 y e.lane0) ∧ o.flag = setFlag c ∧
      (Due.cyc e.isl (e.cyc + d), Act.row .overlayDirectoryArrival [e.isl, e.core, s.nextId]) ∈ t.agenda))

/-! ## Memory -/

/-- Memory is a list in one form: a byte written is the byte read, every other address reads as before, and the form is
kept (R5). Addresses that nothing has written read 0 (the model's choice, log 7). -/
def Obligations.MemoryReadsWhatWasWritten : Prop :=  ∀ (m : Memory) (a n v : Nat), memWf m = true →
    memWf (memPut m a n v) = true ∧ memNat (memPut m a n v) a n = v % 256 ^ n ∧
    (∀ b, (b < a ∨ a + n ≤ b) → memRead (memPut m a n v) b = memRead m b) ∧
    (∀ k, k < n → memRead (memPut m a n v) (a + k) = BitVec.ofNat 8 (v / 256 ^ k)) ∧
    ∀ m', memWf m' = true → (∀ b, memRead m' b = memRead m b) → m' = m

/-- A memory instruction (R17, R231, R234-R242) forms one access for each lane where its guard holds, at the address of R17,
and one request for each line (for each lane, for `MARK`); its flag stands until they have been performed. Without an access
and without an ordering half it only advances.

A load's value in its register (R236): the bytes of the access, sign-extended for the signed types that are shorter than
the register and zero-extended for the others; no register but the destination's in that lane changes. -/
def Obligations.MemoryRequests : Prop :=
  (∀ (i : Instr) (f : MemForm) (s : State) (e : Env), memForm i = some f → Executes i f.ctl s e →
    let accs := (f.accs e).map (placeAcc ((s.advance e i f.ctl).isl e.isl) e.core e.g.place i)
    let one : Bool := match i with
      | .markEmpty .. | .markFull .. => true
      | _ => false
    (e.guard = 0 → releases i = none → acquires i = none → exec i s = .next (plain i f.ctl s e)) ∧
    (e.guard ≠ 0 ∨ releases i ≠ none ∨ acquires i ≠ none →
      let o := { e.op i f.ctl with subs := formSubs one accs }
      exec i s = .next (((s.advance e i f.ctl).launchOp e o).postFormed e.isl s.nextId o [cXlate, cAlign])) ∧
    ∀ a, a ∈ (formSubs one accs).flatMap (·.accs) ↔ a ∈ accs) ∧
  (∀ (c : Ctl) (t : IType) (e : MemExt) (k : BitVec 8) (ad : Opnd) (off : BitVec 10) (a : Acc) (m : DWord) (g : Group),
    a.res = some m → a.lane < 64 → m.toNat < 2 ^ tWidth t →
    let short (x : Opnd) := accResult (.ld c t e x ad off) a g
    (tWidth t < 64 → (BitVec.toInt ((short (.v k)).vreg k.toNat a.lane) - rdT m t) % 2 ^ 32 = 0) ∧
    (tWidth t = 64 → (short (.vp k)).vreg k.toNat a.lane = m.setWidth 32 ∧
      (short (.vp k)).vreg (k.toNat + 1) a.lane = (m >>> 32).setWidth 32) ∧
    (∀ n l, l < 64 → ((n, l) ≠ (k.toNat, a.lane)) → (short (.v k)).vreg n l = g.vreg n l) ∧
    (∀ n l, l < 64 → ((n, l) ≠ (k.toNat, a.lane)) → ((n, l) ≠ (k.toNat + 1, a.lane)) → (short (.vp k)).vreg n l = g.vreg n l) ∧
    (short (.v k)).s = g.s ∧ (short (.v k)).o = g.o ∧ (short (.v k)).lt = g.lt ∧ (short (.v k)).threads = g.threads)

/-- A fence (R225, R239, R254), the operations on whole caches (R242) and a prefetch (R235, R242). A fence enters as an operation
of its group, whatever its guard; one that nothing holds back has ended at once. A flush or an invalidation of the whole L1
makes one request for each of its lines. A prefetch fills the lines of the lanes whose address it can form, never traps, and
its flag falls after four cycles, whatever its guard. -/
def Obligations.FencesAndCacheOperations : Prop :=
  (∀ (c : Ctl) (sc : Scope) (o : MOrd) (s : State) (e : Env), Executes (.fence c sc o) c s e →
    (releases (.fence c sc o) ≠ none ∨ acquires (.fence c sc o) ≠ none →
      exec (.fence c sc o) s = .next ((s.advance e (.fence c sc o) c).launchOp e (e.op (.fence c sc o) c))) ∧
    (releases (.fence c sc o) = none → acquires (.fence c sc o) = none →
      exec (.fence c sc o) s = .next (plain (.fence c sc o) c s e))) ∧
  (∀ (c : Ctl) (sc : Scope) (o : MOrd) (s : State) (e : Env), Executes (.fence c sc o) c s e → Clear s e →
    (o = .rel ∨ ((s.isl e.isl).core e.core).pinv = []) →
    ∃ t g', exec (.fence c sc o) s = .next t ∧ MemoryKept s t ∧ t.op? e.isl s.nextId = none ∧
      (t.isl e.isl).group? e.core e.gid = some g' ∧ SameRegisters g' e.g ∧ (∀ f, g'.flagVal f = e.g.flagVal f) ∧
      (e.g.rep = none → g'.threads = movedThreads e.g e.run fun _ t => { t with cp := e.cp + 1, stat := .ready })) ∧
  (∀ (i : Instr) (c : Ctl) (s : State) (e : Env), i ∈ [.flushAll c, .invlAll c] → Executes i c s e →
    ((e.guard = 0 ∨ ((s.isl e.isl).core e.core).l1 = []) → exec i s = .next (plain i c s e)) ∧
    (e.guard ≠ 0 → ((s.isl e.isl).core e.core).l1 ≠ [] → ∃ subs,
      exec i s = .next ((s.advance e i c).launchOp e { e.op i c with subs := subs }) ∧
      subs.map (fun u => u.accs.map (·.loc)) = ((s.isl e.isl).core e.core).l1.map fun p => [some (.line p.1 0)])) ∧
  ∀ (c : Ctl) (w : BitVec 2) (p : Policy) (a : Opnd) (off : BitVec 10) (s : State) (e : Env),
    Executes (.pref c w p a off) c s e →
    let i : Instr := .pref c w p a off
    let q := queued (s.advance e i c) e 4 (flagWrite c)
    let accs := (lanesOf e.guard).map fun l =>
      placeAcc ((s.advance e i c).isl e.isl) e.core e.g.place i { lane := l, va := laneAddr e w a off l, n := 1 }
    let subs := formSubs false (accs.filter fun a => a.fault.isNone)
    (subs = [] → exec i s = .next q) ∧
    (subs ≠ [] → exec i s = .next (q.launchOp e { e.op i c with subs := subs, flag := none })) ∧
    (e.guard = 0 → subs = []) ∧
    ∃ t, exec i s = .next t ∧ (t.isl e.isl).faults = (s.isl e.isl).faults ∧ MemoryKept s t

/-- The requests of an operation on one line, in ascending order of lanes (R235-R238): a load takes its bytes and changes
none; a store replaces its bytes, the later lane's where two overlap; an atomic replaces them with the combination; a
compare-and-swap where the old value equals the compared one; each reads what the earlier lanes left. Every byte outside the
accesses is as it was, and the mask names the bytes written.

The combine functions of `ATOM` and the value rule of `CAS` (R233, R238), on 32 and 64 bits. -/
def Obligations.AccessesOnALine : Prop :=
  (∀ (i : Instr) (l : Line) (m : ByteMask) (as : List Acc), (∀ a ∈ as, a.done = false ∧ a.off + a.n ≤ 128 ∧ a.n ≤ 8) →
    let r := performLine i l m as
    (∀ k, k < 128 → (∀ a ∈ as, k < a.off ∨ a.off + a.n ≤ k) → lineByte r.1 k = lineByte l k ∧ r.2.1.getLsbD k = m.getLsbD k) ∧
    (isWrite i = false → r.1 = l ∧ r.2.1 = m) ∧
    r.2.2.map (fun a => (a.lane, a.va, a.n, a.x, a.y, a.loc)) = as.map (fun a => (a.lane, a.va, a.n, a.x, a.y, a.loc)) ∧
    ∀ a, a.done = false → a.off + a.n ≤ 128 → a.n ≤ 8 →
      let q := performLine i l m (as ++ [a])
      let old := lineNat r.1 a.off a.n
      q.2.2 = r.2.2 ++ [accAfter i a old] ∧
      (match accWrites i a old with
        | some v => q.1 = linePutN r.1 a.off a.n v ∧ (v < 256 ^ a.n → lineNat q.1 a.off a.n = v) ∧
            ∀ k, a.off ≤ k → k < a.off + a.n → q.2.1.getLsbD k = true
        | none => q.1 = r.1 ∧ q.2.1 = r.2.1)) ∧
  ((∀ (n m v : Nat), n = 32 ∨ n = 64 → m < 2 ^ n → v < 2 ^ n →
    let a := BitVec.ofNat n m
    let b := BitVec.ofNat n v
    atomCombine .add n m v = (a + b).toNat ∧ atomCombine .and n m v = (a &&& b).toNat ∧
    atomCombine .or n m v = (a ||| b).toNat ∧ atomCombine .xor n m v = (a ^^^ b).toNat ∧ atomCombine .swap n m v = v ∧
    atomCombine .minN n m v = min m v ∧ atomCombine .maxN n m v = max m v ∧
    (BitVec.ofNat n (atomCombine .minI n m v)).toInt = min a.toInt b.toInt ∧
    (BitVec.ofNat n (atomCombine .maxI n m v)).toInt = max a.toInt b.toInt ∧
    atomCombine .inc n m v = (if v ≤ m then 0 else m + 1) ∧
    ∀ op ∈ [AtomOp.add, .minI, .minN, .maxI, .maxN, .and, .or, .xor, .swap, .inc], atomCombine op n m v < 2 ^ n) ∧
  ∀ (c : Ctl) (w : Bool) (e : MemExt) (x o : Opnd) (off : BitVec 10) (a : Acc) (m : Nat),
    accWrites (.cas c w e x o off) a m = if m = a.x.toNat % 256 ^ a.n then some (a.y.toNat % 256 ^ a.n) else none)

/-- A store performed in the L1 (R213, R217, R219) changes its line in the issuing core's L1 as the accesses on the line say,
and marks the written bytes dirty; no other line of that L1, no line of another L1 and no byte of memory changes.

A store performed at memory outside the caches (R211, R235): of the island's memory the bytes from each access's address
are the stored ones, and every other byte of every island is as it was. -/
def Obligations.StoresReachMemory : Prop :=
  (∀ (s : State) (isl id key ln lat : Nat) (o : Op) (st : LineSt) (a : L1Line) (u : Sub),
    (s.isl isl).l1? o.core ln = some a → (o.subs.find? fun u => u.key = key) = some u → isWrite o.instr = true →
    let t := s.performL1 isl id key ln lat o st
    let r := performLine o.instr a.data 0 u.accs
    (∃ b, (t.isl isl).l1? o.core ln = some b ∧ b.st = st ∧ b.data = r.1 ∧ b.dirty = a.dirty ||| r.2.1 ∧ b.launch = o.launch) ∧
    (∀ k c l, (k, c, l) ≠ (isl, o.core, ln) → (t.isl k).l1? c l = (s.isl k).l1? c l) ∧
    ∀ k b, memRead (t.isl k).mem b = memRead (s.isl k).mem b) ∧
  (∀ (s : State) (isl id key d pa : Nat) (o : Op) (u : Sub) (a : Acc) (c : Ctl) (t : IType) (e : MemExt) (x ad : Opnd)
    (off : BitVec 10), o.instr = .st c t e x ad off → u.accs = [a] → a.done = false → a.loc = some (.unc pa) →
    memWf (s.isl isl).mem = true →
    let s' := s.performTarget isl id key d o u (.unc pa)
    (∀ k, k < a.n → memRead (s'.isl isl).mem (pa + k) = BitVec.ofNat 8 (a.x.toNat / 256 ^ k)) ∧
    (∀ b, (b < pa ∨ pa + a.n ≤ b) → memRead (s'.isl isl).mem b = memRead (s.isl isl).mem b) ∧
    (∀ k b, k ≠ isl → memRead (s'.isl k).mem b = memRead (s.isl k).mem b) ∧ memWf (s'.isl isl).mem = true)

/-! ## Requests to the units of the island -/

/-- Synchronisation, notification, hypotheses, sequencer contexts, system and topology requests (R278, R298, R338, R365, R366,
R401): made once for the group, where the guard holds in some lane; the operation carries what the lowest such lane reads.

Where nothing holds an operation back, its request reaches its unit after the way of R283, R299, R307, R310, R338 or
R401; a wait puts the run to sleep at the instruction. No register and no byte of memory changes.

Under a hypothesis the inter-island instructions, a route swap and a topology request trap before any effect, with the
code of HYP_REMOTE and their opcode (R264, R350). -/
def Obligations.UnitRequests : Prop :=
  (∀ (i : Instr) (f : SendForm) (s : State) (e : Env), unitForm i = some f → Executes i f.ctl s e →
    (hypBound i = true → e.g.hy = 0) →
    (e.guard = 0 → exec i s = .next (plain i f.ctl s e)) ∧
    (e.guard ≠ 0 →
      let t := (s.advance e i f.ctl).launchOp e (f.carry e (e.op i f.ctl))
      exec i s = .next (if entersHyp i then t.onGroup e fun g => { g with entering := g.entering ++ [s.nextId] } else t))) ∧
  (∀ (i : Instr) (f : SendForm) (s : State) (e : Env), unitForm i = some f → Executes i f.ctl s e →
    (hypBound i = true → e.g.hy = 0) → Clear s e → e.guard ≠ 0 →
    ∃ t, exec i s = .next t ∧ MemoryKept s t ∧ Issued t i e s.nextId ∧
      (∀ d ev, unitWay i e.core = some (d, ev) → Entered t e s.nextId (f.carry e (e.op i f.ctl)) ev [e.isl, s.nextId] d) ∧
      ((contextForm i).isSome → Entered t e s.nextId (f.carry e (e.op i f.ctl)) .mstartCheck [e.isl, e.core, e.g.place, s.nextId] 4)) ∧
  (∀ (i : Instr) (c : Ctl) (s : State) (e : Env), hypBound i = true → Executes i c s e → e.g.hy ≠ 0 →
    exec i s = .next (s.takeDecode e 0x0A (BitVec.ofNat 64 (256 * (opcMd i).1))))

/-- `QSTAT` (R295): the number of operations of the queue, at most 255, and the room left; bit 16 says that one of them waits
for `RESUME`.

`CPY`, `CPYB` and `QFENCE` (R284, R288, R290-R294). A `CPY` joins the copy queue with one access for each lane where the
guard holds; a `CPYB` gets its status four cycles after issue and joins the queue where it is 0; a multicast to a rank that
the cluster does not have traps MCAST; a queue fence ends when the operations before it have. -/
def Obligations.CopyInstructions : Prop :=
  (∀ (c : Ctl) (x : Opnd) (q : BitVec 20) (s : State) (e : Env), Executes (.qstat c x q) c s e →
    (e.guard = 0 → exec (.qstat c x q) s = .next (plain (.qstat c x q) c s e)) ∧
    (e.guard ≠ 0 → ∃ v : Nat, exec (.qstat c x q) s =
        .next (queued (s.advance e (.qstat c x q) c) e 4
          (resultWrites x false false e.guard (fun _ => BitVec.ofNat 64 v) ++ flagWrite c)) ∧
      (∀ cap f, (q.toNat = 0 ∧ cap = 32 ∧ f = copyInstr ∨ q.toNat = 1 ∧ cap = 64 ∧ f = fabricInstr) →
        let ops := (s.isl e.isl).ops.filter fun p => f p.2.instr && p.2.place = e.g.place && p.2.core = e.core
        v % 256 = min ops.length 255 ∧ v / 256 % 256 = cap - ops.length ∧
          (v / 65536 = 1 ↔ ∃ p ∈ ops, ∃ u ∈ p.2.subs, ∃ a ∈ u.accs, a.fault ≠ none)))) ∧
  ((∀ (c : Ctl) (n : CpySize) (fill : Bool) (wd ws : BitVec 2) (sc : Scope) (x y : Opnd) (s : State) (e : Env),
    let i : Instr := .cpy c n fill wd ws sc x y
    Executes i c s e →
    (e.guard = 0 → exec i s = .next (plain i c s e)) ∧
    (e.guard ≠ 0 → Clear s e → ∀ w, (s.isl e.isl).wg? e.core e.g.place = some w → ∃ t o w' d, exec i s = .next t ∧
      MemoryKept s t ∧ Issued t i e s.nextId ∧ t.op? e.isl s.nextId = some o ∧ o.instr = i ∧ o.flag = setFlag c ∧
      (t.isl e.isl).wg? e.core e.g.place = some w' ∧ w'.copyq = w.copyq ++ [s.nextId] ∧
      (d, Act.row .copyLineTransfer [e.isl, e.core]) ∈ t.agenda ∧
      ∀ a : Acc, (∃ u ∈ o.subs, a ∈ u.accs) ↔ ∃ l, l < 64 ∧ e.guard.getLsbD l = true ∧
        a = { lane := l, va := laneAddr e ws y 0 l, n := cpyBytes n, x := (laneAddr e wd x 0 l).setWidth 64,
              y := (laneAddr e wd x 0 l >>> 64).setWidth 64 })) ∧
  (∀ (c : Ctl) (x : Opnd) (k : BitVec 8) (s : State) (e : Env),
    let i : Instr := .cpyb c x (.s k)
    let d := descriptor e k.toNat 8
    Executes i c s e →
    (e.guard = 0 → exec i s = .next (plain i c s e)) ∧
    (e.guard ≠ 0 → match checkBd (s.isl e.isl) e.core e.g.place e.wg d with
      | .mcast => exec i s = .next (s.takeDecode e 0x18 (BitVec.ofNat 64 (bdMcast d)))
      | .status n =>
        (n ≠ 0 → exec i s = .next (queued (s.advance e i c) e 4
          (resultWrites x false false e.guard (fun _ => BitVec.ofNat 64 n) ++ flagWrite c))) ∧
        (n = 0 → exec i s = .next ((queued (s.advance e i c) e 4 (resultWrites x false false e.guard (fun _ => 0))).launchOp e
            { e.op i c with lanes := e.run, bulk := { desc := d, dests := bdDests d } })))) ∧
  ∀ (c : Ctl) (m : BitVec 20) (s : State) (e : Env), Executes (.qfence c m) c s e → Clear s e →
    (∀ p ∈ (s.isl e.isl).ops, p.2.place = e.g.place → p.2.core = e.core → copyInstr p.2.instr = false ∧ fabricInstr p.2.instr = false) →
    (∀ w, (s.isl e.isl).wg? e.core e.g.place = some w → w.mrds = []) →
    ∃ t, exec (.qfence c m) s = .next t ∧ t.op? e.isl s.nextId = none ∧ MemoryKept s t ∧ Issued t (.qfence c m) e s.nextId)

/-- `PUT`, `GET`, `RNTFY`, `COLL` (R346, R350-R353, R356, R360, R364): to an island without a usable route they trap
REMOTE_ABSENT; a descriptor that is refused answers with its status after four cycles; else the operation joins the fabric
queue, `PUT` and `GET` with the status 0.

`RATOM` and `RFENCE` (R354, R355, R357): the lanes where the guard holds make one request for each island they name, and
the launch is no longer replayable; lanes whose island has no usable route trap REMOTE_ABSENT. A fence ends when the remote
operations of the workgroup before it have. -/
def Obligations.FabricInstructions : Prop :=
  ((∀ (get : Bool) (c : Ctl) (x : Opnd) (k : BitVec 8) (s : State) (e : Env),
    let i : Instr := if get then .get c x (.s k) else .put c x (.s k)
    let d := descriptor e k.toNat 8
    Executes i c s e → e.g.hy = 0 →
    (e.guard = 0 → exec i s = .next (plain i c s e)) ∧
    (e.guard ≠ 0 →
      ((s.isl e.isl).routeTo (pgIsland d) = none →
        exec i s = .next ((plain i c s e).trapAt e e.run 0x20 (BitVec.ofNat 64 (pgIsland d + 256 * (opcMd i).1)) e.cp)) ∧
      (∀ r, (s.isl e.isl).routeTo (pgIsland d) = some r →
        let n := checkPg (s.isl e.isl) e.core e.g.place get d
        (n ≠ 0 → exec i s = .next (queued (s.advance e i c) e 4
          (resultWrites x false false e.guard (fun _ => BitVec.ofNat 64 n) ++ flagWrite c))) ∧
        (n = 0 → exec i s = .next
          ((queued (s.advance e i c) e 4 (resultWrites x false false e.guard (fun _ => 0))).launchOp e
            { e.op i c with bulk := { desc := d } }))))) ∧
  (∀ (c : Ctl) (x y : Opnd) (z : ZOp) (s : State) (e : Env),
    let i : Instr := .rntfy c x y z
    let t := (zeroImm e x).toNat % 16
    Executes i c s e → e.g.hy = 0 →
    (e.guard = 0 → exec i s = .next (plain i c s e)) ∧
    (e.guard ≠ 0 → (s.isl e.isl).routeTo t = none →
      exec i s = .next ((plain i c s e).trapAt e e.run 0x20 (BitVec.ofNat 64 (t + 256 * (opcMd i).1)) e.cp)) ∧
    (e.guard ≠ 0 → (s.isl e.isl).routeTo t ≠ none → Clear s e → ∃ s', exec i s = .next s' ∧ MemoryKept s s' ∧
      Issued s' i e s.nextId ∧ Entered s' e s.nextId { e.op i c with
          a := BitVec.ofNat 64 (t + 16 * ((zeroImm e y).toNat % 1024)), b := word (e.rdZ32 z e.lane0) }
        .fabricInject [e.isl, s.nextId] 1)) ∧
  ∀ (c : Ctl) (x : Opnd) (k : BitVec 8) (s : State) (e : Env),
    let i : Instr := .coll c x (.s k)
    let d := descriptor e k.toNat 8
    Executes i c s e → e.g.hy = 0 →
    (e.guard = 0 → exec i s = .next (plain i c s e)) ∧
    (e.guard ≠ 0 → (∀ t ∈ clMembers d, (s.isl e.isl).routeTo t ≠ none) →
      (clValid e.isl d = false → exec i s = .next (queued (s.advance e i c) e 4
        (resultWrites x false false e.guard (fun _ => 1) ++ flagWrite c))) ∧
      (clValid e.isl d = true → Clear s e → ∃ s', exec i s = .next s' ∧ MemoryKept s s' ∧ Issued s' i e s.nextId ∧
        Entered s' e s.nextId { e.op i c with bulk := { desc := d } } .fabricInject [e.isl, s.nextId] 1)) ∧
    (e.guard ≠ 0 → ∀ t, (clMembers d).find? (fun t => ((s.isl e.isl).routeTo t).isNone) = some t →
      exec i s = .next ((plain i c s e).trapAt e e.run 0x20 (BitVec.ofNat 64 (t + 256 * (opcMd i).1)) e.cp))) ∧
  ((∀ (c : Ctl) (op : RatomOp) (wide : Bool) (win : BitVec 2) (o : MOrd) (x a z : Opnd) (s : State) (e : Env) (l : Launch),
    let i : Instr := .ratom c op wide win o x a z
    let isle (l : Nat) : Nat := (e.rd32 z l).toNat % 16
    let n := if wide then 8 else 4
    Executes i c s e → e.g.hy = 0 → tget? s.launches e.wg.launch = some l →
    (e.guard = 0 → exec i s = .next (plain i c s e)) ∧
    (e.guard ≠ 0 → Clear s e →
      (∀ l, l < 64 → e.guard.getLsbD l = true → (s.isl e.isl).routeTo (isle l) ≠ none ∧
        (laneAddr e win a 0 l).toNat % n = 0 ∧ inWindow (laneAddr e win a 0 l) = false) →
      ∃ t ap l', exec i s = .next t ∧ MemoryKept s t ∧ Issued t i e s.nextId ∧ t.op? e.isl s.nextId = some ap ∧ ap.instr = i ∧
        (Due.cyc e.isl (e.cyc + 1), Act.row .fabricInject [e.isl, s.nextId]) ∈ t.agenda ∧
        tget? t.launches e.wg.launch = some l' ∧ l'.nonReplayable = true ∧
        ∀ l k, (∃ u ∈ ap.subs, u.key = k ∧ ∃ a ∈ u.accs, a.lane = l) ↔ (l < 64 ∧ e.guard.getLsbD l = true ∧ k = isle l)) ∧
    (e.guard ≠ 0 → ∀ t, (∀ l, l < 64 → e.guard.getLsbD l = true → isle l = t) → (s.isl e.isl).routeTo t = none →
      exec i s = .next ((plain i c s e).trapAt e e.guard 0x20 (BitVec.ofNat 64 (t + 256 * 0xCA)) e.cp))) ∧
  ∀ (c : Ctl) (s : State) (e : Env), Executes (.rfence c) c s e → e.g.hy = 0 → Clear s e →
    (∀ p ∈ (s.isl e.isl).ops, p.2.place = e.g.place → p.2.core = e.core → fabricInstr p.2.instr = false) →
    ∃ t, exec (.rfence c) s = .next t ∧ t.op? e.isl s.nextId = none ∧ MemoryKept s t ∧ Issued t (.rfence c) e s.nextId)

/-! ## Matrix streams -/

/-- Setting registers, scale namings and branches of a stream (R321, R325, R333): one cycle, one effect on the context; a
register or group that the workgroup does not have takes REG_RANGE, a branch out of the offsets' range ILLEGAL, and the
stream pointer keeps naming the instruction (R336).

`MFMT`, `MCKPT` and `MEND` (R319, R322, R333, R337): a format register takes the constant at the dispatch; a checkpoint
parks the context where its cluster launch is being pre-empted; an end leaves it idle.

The `MBAR` instructions (R317, R331, R332): an operation of the context at its barrier or ring; dispatch waits for it, and
the stream pointer names it. Its release comes first; where no operation of the context is open it goes on at once. -/
def Obligations.StreamInstructions : Prop :=
  (∀ (i : Instr) (f : StreamForm) (s : State) (e : SEnv), streamForm i = some f → Dispatches i s e →
    (f.good e = true → exec i s = .next (ctxAfter s e (f.ctx s e))) ∧
    (f.good e = false → ∃ info, exec i s = .next ((s.noteClass e.isl e.core 1).dispatchFault e f.code info 0 false))) ∧
  ((∀ (k : BitVec 10) (c : Word) (s : State) (e : SEnv), Dispatches (.mfmt k c) s e →
    exec (.mfmt k c) s = .next ((s.noteClass e.isl e.core 1).modIsl e.isl fun x => x.modWg e.core e.place fun w =>
      { w.addFm e.cyc 64 k.toNat c with ctx := some (past e) })) ∧
  (∀ (k : BitVec 20) (s : State) (e : SEnv), Dispatches (.mckpt k) s e →
    ((s.isl e.isl).preempting e.w = false → exec (.mckpt k) s = .next (ctxAfter s e (past e))) ∧
    ((s.isl e.isl).preempting e.w = true → ∃ t w, exec (.mckpt k) s = .next t ∧ (t.isl e.isl).wg? e.core e.place = some w ∧
      w.ctx = some { past e with st := .parked, ckpt := some k.toNat })) ∧
  ∀ (s : State) (e : SEnv), Dispatches .mend s e → e.c.waitOp = none → e.c.killed = false →
    ∃ t w, exec .mend s = .next t ∧ (t.isl e.isl).wg? e.core e.place = some w ∧ w.ctx = some { e.c with st := .idle, sp := 0 } ∧
      MemoryKept s t) ∧
  (∀ (i : Instr) (f : MbarForm) (s : State) (e : SEnv), mbarForm i = some f → Dispatches i s e → e.c.arw = none →
    (f.releases = true → e.c.handed = [] ∧ e.c.current = none ∧ e.c.readout = [] ∧ e.c.killed = false) →
    ∃ t o w, exec i s = .next t ∧ t.op? e.isl s.nextId = some o ∧ o.agent = .seq e.core e.place ∧ o.instr = i ∧
      o.cp = e.c.sp ∧ o.a = f.a e ∧ o.b = f.b e ∧ (t.isl e.isl).wg? e.core e.place = some w ∧
      w.ctx = some { e.c with nextDispatch := e.cyc + 1, waitOp := some s.nextId,
                              st := if f.blocked then .blocked else e.c.st } ∧
      (Due.cyc e.isl (e.cyc + if namesB0 i then 60 else 4), Act.row .syncUnitOperation [e.isl, s.nextId]) ∈ t.agenda)

/-- `MMA` and `MMAS` (R320, R323, R327, R336): with modes that may combine, a slot the workgroup has and aligned settings the
operation is handed to the array, as the stream's registers stand; else the context faults at it: with ILLEGAL, with REG_RANGE
or, with the address of the first operand that is not aligned, with ALIGN.

`MZERO`, `MRD` and `MWR` (R320, R329, R336): with a slot that the workgroup has, and for a tile valid formats, aligned
settings and rows that may be accessed, the operation joins the readout queue; else the context faults at it, with the address
where one is at fault. That a row which may not be accessed is found at the dispatch, that REG_RANGE comes before ALIGN, and
that a stride's ALIGN names the second row are the model's choices (log 38). -/
def Obligations.MatrixDispatch : Prop :=
  (∀ (i : Instr) (a : MmaArgs) (s : State) (e : SEnv), mmaArgs i = some a → Dispatches i s e →
    let m := e.mxOp i s.nextId a.fa a.fb
    let scales := !a.sc || !(scaleBad e.w e.c.sca a.nb || scaleBad e.w e.c.scb a.nb)
    let s' := s.noteClass e.isl e.core 1
    let first := (tileUnaligned e 0 0 (some 2)).or ((tileUnaligned e 1 1 (some 3)).or
      (if a.sparse then tileUnaligned e 3 7 none else none))
    (m.instr = i ∧ m.cp = e.c.sp ∧ m.hy = e.c.hy ∧ m.fa = tgetD e.w.fm a.fa 0 ∧ m.fb = tgetD e.w.fm a.fb 0 ∧
      ∀ k, k < 16 → m.mset k = tgetD e.c.ms k 0) ∧
    (mmaModes a m = false → ∃ info, exec i s = .next (s'.dispatchFault e 1 info 0 false)) ∧
    (mmaModes a m = true → a.slot < hdrAccSlots e.w.hdr → scales = true →
      (((tgetD e.c.ms 0 0).toNat % 16 ≠ 0 ∨ (tgetD e.c.ms 1 0).toNat % 16 ≠ 0 ∨ (tgetD e.c.ms 2 0).toNat % 16 ≠ 0 ∨
        (tgetD e.c.ms 3 0).toNat % 16 ≠ 0 ∨ (a.sparse = true ∧ (tgetD e.c.ms 7 0).toNat % 16 ≠ 0)) →
        first ≠ none) ∧
      (∀ va, first = some va → exec i s = .next (s'.dispatchFault e cAlign 0 va false)) ∧
      (first = none → ∃ t w d, exec i s = .next t ∧
        (t.isl e.isl).wg? e.core e.place = some w ∧ w.ctx = some { past e with handed := e.c.handed ++ [m] } ∧
        (d, Act.row .matrixOperationBegin [e.isl, e.core]) ∈ t.agenda ∧ MemoryKept s t)) ∧
    (mmaModes a m = true → (hdrAccSlots e.w.hdr ≤ a.slot ∨ scales = false) →
      ∃ info, exec i s = .next (s'.dispatchFault e 3 info 0 false))) ∧
  ((∀ (sl : BitVec 10) (s : State) (e : SEnv), Dispatches (.mzero sl) s e →
    (hdrAccSlots e.w.hdr ≤ sl.toNat → ∃ info, exec (.mzero sl) s =
      .next ((s.noteClass e.isl e.core 1).dispatchFault e 3 info 0 false)) ∧
    (sl.toNat < hdrAccSlots e.w.hdr → ∃ t w d, exec (.mzero sl) s = .next t ∧ (t.isl e.isl).wg? e.core e.place = some w ∧
      w.ctx = some { past e with readout := e.c.readout ++ [e.mxOp (.mzero sl) s.nextId 0 0] } ∧
      (d, Act.row .readoutHandoff [e.isl, e.core, e.place]) ∈ t.agenda ∧ MemoryKept s t)) ∧
  ∀ (i : Instr) (f : TileFmt) (sl fm : BitVec 10) (write : Bool) (s : State) (e : SEnv),
    ((∃ sc, i = .mrd f sc sl fm) ∧ write = true) ∨ ((∃ k, i = .mwr f k sl fm) ∧ write = false) → Dispatches i s e →
    let m := e.mxOp i s.nextId fm.toNat 0
    let valid := !(f = .q8 || f = .q6 || f = .q4) || fmValid (tgetD e.w.fm fm.toNat 0) (tileBits f)
    let s' := s.noteClass e.isl e.core 1
    let first := tileUnaligned e 2 5 (some 6)
    (valid = false → ∃ info, exec i s = .next (s'.dispatchFault e 1 info 0 false)) ∧
    (valid = true → hdrAccSlots e.w.hdr ≤ sl.toNat → ∃ info, exec i s = .next (s'.dispatchFault e 3 info 0 false)) ∧
    (valid = true → sl.toNat < hdrAccSlots e.w.hdr →
      ((tgetD e.c.ms 5 0).toNat % 16 ≠ 0 ∨ (tgetD e.c.ms 6 0).toNat % 16 ≠ 0 →
        first ≠ none) ∧
      (∀ va, first = some va → exec i s = .next (s'.dispatchFault e cAlign 0 va write)) ∧
      (first = none →
        (∀ q, (s'.tileFault e m f write).1 = some q →
          exec i s = .next ((s'.tileFault e m f write).2.dispatchFault e q.1 0 q.2.toNat write)) ∧
        ((s'.tileFault e m f write).1 = none → ∃ t w d, exec i s = .next t ∧
          (t.isl e.isl).wg? e.core e.place = some w ∧ w.ctx = some { past e with readout := e.c.readout ++ [m] } ∧
          (d, Act.row .readoutHandoff [e.isl, e.core, e.place]) ∈ t.agenda))))

/-! ## Coherence -/

/-- The arrival of requests at the home (R215, R218, R219, R266, R428, R434, R435). Each kind, at a slice in retention sleep,
wakes it and arrives again; behind another request for its line, it waits in the line's queue. A read of a line that no
cache holds is granted at once, exclusively unless it is for a cluster-reach write; a read-exclusive, and an upgrade whose
copy is gone, in M; a tagged write makes a version and leaves memory as it is.

Write-backs and merges (R219, R220): the bytes under the mask are written to the home copy and no other byte changes; the
request is over.

What is lost (R7, R227-R229): poison that is consumed posts its record, with the address, the code pointer and the lanes, and
rolls the launch back. A half that is reset loses its cores' contents, its requests and its directories, and its registers are
at their reset values; each line of the other half's slices that a lost core owned dirty, or of whose region a lost cluster may
have held a line in L, is poisoned, the lost clusters and owner go, and a read that waits for a lost owner gets the poisoned
home copy. An uncorrectable flit poisons its region or, where its header is lost, every region with a message in flight on the
link; a read in service there gets poisoned data; MACHINE_CHECK is posted. That a link is one of a cluster and a slice is
the model's choice (log 66). -/
def Obligations.RequestsAtTheHome : Prop :=
  ((∀ (row : Instr) (s : State) (isl id : Nat) (r : Req),
    row ∈ [.homeRead, .homeReadExclusive, .homeUpgrade, .taggedWrite, .homeWriteBack, .homeMerge] →
    tget? (s.isl isl).reqs id = some r → row = reqRow r.kind →
    (sliceOf r.line ∈ (s.isl isl).asleep → Gives row s [isl, id] fun t =>
      Awaits t .sliceWake [isl, sliceOf r.line] ∧ DueIn t isl 2000 row [isl, id] ∧ MemoryKept s t) ∧
    (row ∉ [.homeWriteBack, .homeMerge] → sliceOf r.line ∉ (s.isl isl).asleep → r.granted = false → (∃ x, ((s.isl isl).hline r.line).txn = some x ∧ x.req ≠ id) →
      id ∉ ((s.isl isl).hline r.line).queue → Gives row s [isl, id] fun t =>
        ((t.isl isl).hline r.line).queue = ((s.isl isl).hline r.line).queue ++ [id] ∧ MemoryKept s t)) ∧
  (∀ (s : State) (isl id : Nat) (r : Req), r.kind = .read → AloneAtHome (s.isl isl) id r →
    Gives .homeRead s [isl, id] fun t => MemoryKept s t ∧ DueIn t isl (hop r.core (sliceOf r.line)) .grantArrival [isl, id] ∧
      ∃ q, tget? (t.isl isl).reqs id = some q ∧ q.data = memLine (s.isl isl).mem (128 * r.line) ∧
        q.grant = (if r.forL then .s else .e)) ∧
  (∀ (s : State) (isl id : Nat) (r : Req), r.kind = .readEx → AloneAtHome (s.isl isl) id r →
    Gives .homeReadExclusive s [isl, id] fun t => MemoryKept s t ∧
      DueIn t isl (hop r.core (sliceOf r.line)) .grantArrival [isl, id] ∧ ((t.isl isl).hline r.line).owner = some (r.core, .m) ∧
      ∃ q, tget? (t.isl isl).reqs id = some q ∧ q.data = memLine (s.isl isl).mem (128 * r.line) ∧ q.grant = .m ∧ q.withData = true) ∧
  (∀ (s : State) (isl id : Nat) (r : Req), r.kind = .upgrade → AloneAtHome (s.isl isl) id r →
    Gives .homeUpgrade s [isl, id] fun t => MemoryKept s t ∧
      DueIn t isl (hop r.core (sliceOf r.line)) .grantArrival [isl, id] ∧
      ∃ q, tget? (t.isl isl).reqs id = some q ∧ q.kind = .readEx ∧ q.data = memLine (s.isl isl).mem (128 * r.line) ∧ q.grant = .m) ∧
  ∀ (s : State) (isl id : Nat) (r : Req) (o : Op) (u : Sub), r.kind = .tagged → AloneAtHome (s.isl isl) id r → r.tag ≠ 0 →
    (s.isl isl).versions = [] → (s.isl isl).resolve = none → (s.isl isl).resolveQ = [] → s.op? isl r.op = some o →
    (o.subs.find? fun u => u.key = r.sub) = some u →
    let q := performLine o.instr ((s.isl isl).chainView r.line r.tag) 0 u.accs
    q.2.1 ≠ 0 → Gives .taggedWrite s [isl, id] fun t => MemoryKept s t ∧
      DueIn t isl (hop r.core (sliceOf r.line)) .grantArrival [isl, id] ∧
      (t.isl isl).versions = [{ line := r.line, tag := r.tag, data := lineMerge 0 q.1 q.2.1, mask := q.2.1 }]) ∧
  ((∀ (s : State) (isl id : Nat) (r : Req) (k : Bool), r.kind = .writeBack k → (s.isl isl).reqs = [(id, r)] → r.ans = none →
    sliceOf r.line ∉ (s.isl isl).asleep → memWf (s.isl isl).mem = true → Gives .homeWriteBack s [isl, id] fun t =>
      LineWritten (s.isl isl).mem (t.isl isl).mem r.line r.data r.mask ∧ memWf (t.isl isl).mem = true ∧ tget? (t.isl isl).reqs id = none ∧
      ∀ k, k ≠ isl → (t.isl k).mem = (s.isl k).mem) ∧
  ∀ (s : State) (isl id : Nat) (r : Req) (k : Bool), r.kind = .merge k → (s.isl isl).reqs = [(id, r)] → r.inv = none →
    sliceOf r.line ∉ (s.isl isl).asleep → (s.isl isl).filters = [] → ((s.isl isl).hline r.line).owner = none → memWf (s.isl isl).mem = true →
    Gives .homeMerge s [isl, id] fun t =>
      LineWritten (s.isl isl).mem (t.isl isl).mem r.line r.data r.mask ∧ memWf (t.isl isl).mem = true ∧ tget? (t.isl isl).reqs id = none ∧
      ∀ k, k ≠ isl → (t.isl k).mem = (s.isl k).mem) ∧
  ((∀ (s : State) (isl core src slot launch cp lanes va : Nat),
    Gives .poisonConsumption s [isl, core, src, slot, launch, cp, lanes, va] fun t => MemoryKept s t ∧
      DueIn t isl 1 .launchRollback [launch] ∧
      Posted s t isl fun b => recCode b = 0x30 ∧ recInfo b = BitVec.ofNat 64 (va / 128 * 128) ∧ recAddr b = BitVec.ofNat 72 va ∧
        recCp b = BitVec.ofNat 32 cp ∧ recLanes b = BitVec.ofNat 64 lanes ∧ recSource b = src % 16 ∧
        recLaunch b = launch % 2 ^ 16) ∧
  ((∀ (s : State) (isl half : Nat), half < 2 → (∀ ln, ((s.isl isl).hline ln).txn = none) →
    let lost : BitVec 32 := if half = 0 then 0xFFFF else 0xFFFF0000
    Gives .halfReset s [isl, half] fun t => MemoryKept s t ∧
      -- its cores and, in H0, the system unit have their registers at reset
      (∀ c, halfOf c = half → (t.isl isl).core c =
        { disabled := ((s.isl isl).core c).disabled, badLanes := ((s.isl isl).core c).badLanes }) ∧
      (∀ c, halfOf c = half → ((t.isl isl).core c).groups = [] ∧ ((t.isl isl).core c).l1 = [] ∧
        ((t.isl isl).core c).part = 0x00061A00) ∧
      (t.isl isl).sys = (if half = 0 then { topo := (s.isl isl).sys.topo } else (s.isl isl).sys) ∧
      (∀ c, halfOf c ≠ half → (t.isl isl).core c = (s.isl isl).core c) ∧
      (∀ p ∈ (t.isl isl).reqs, halfOf p.2.core ≠ half) ∧
      -- the other half's slices mark what may be lost, and forget the reset half
      (∀ ln, sliceOf ln / 32 ≠ half →
        let h := (s.isl isl).hline ln
        let h' := (t.isl isl).hline ln
        h'.poison = (h.poison || h.owner.any (fun p => halfOf p.1 = half && p.2 ≠ .e) ||
          decide ((s.isl isl).lhints ln &&& lost ≠ 0)) ∧
        h'.clusters = h.clusters &&& ~~~lost ∧ h'.lhint = h.lhint &&& ~~~lost ∧
        h'.owner = (if h.owner.any fun p => halfOf p.1 = half then none else h.owner)) ∧
      ∀ ln, sliceOf ln / 32 = half → (t.isl isl).hline ln = {}) ∧
  ∀ (s : State) (isl half ln id : Nat) (h : HLine) (x : Txn) (r : Req) (st : OwnSt), half < 2 → sliceOf ln / 32 ≠ half →
    (s.isl isl).homes = [(ln, h)] → h.txn = some x → x.phase = .owner ∨ x.phase = .writeBack → halfOf x.target = half →
    h.owner = some (x.target, st) → st ≠ .e → h.inSlice = true → h.queue = [] → x.req = id → (s.isl isl).reqs = [(id, r)] →
    r.kind = .read → r.line = ln → halfOf r.core ≠ half → r.waits = [] →
    Gives .halfReset s [isl, half] fun t => DueIn t isl (1 + hop r.core (sliceOf ln)) .grantArrival [isl, id] ∧ MemoryKept s t ∧
      ∃ q, tget? (t.isl isl).reqs id = some q ∧ q.data = memLine (s.isl isl).mem (128 * ln) ∧ q.poison = true) ∧
  (∀ (s : State) (isl region link : Nat), (∀ ln, ln / 4 = region → ((s.isl isl).hline ln).txn = none) →
    Gives .flitUncorrectable s [isl, region, 0, link] fun t => MemoryKept s t ∧
      (∀ ln, (t.isl isl).hline ln =
        if ln / 4 = region then { (s.isl isl).hline ln with poison := true } else (s.isl isl).hline ln) ∧
      Posted s t isl fun b => recCode b = 0x31 ∧ recInfo b = 1 ∧ recSource b = 5) ∧
  (∀ (s : State) (isl ln link : Nat) (h : HLine) (x : Txn) (r : Req), (s.isl isl).homes = [(ln, h)] → h.txn = some x →
    (s.isl isl).reqs = [(x.req, r)] → r.kind = .read → r.line = ln → h.inSlice = true → h.queue = [] →
    Gives .flitUncorrectable s [isl, ln / 4, 0, link] fun t => MemoryKept s t ∧
      DueIn t isl (1 + hop r.core (sliceOf ln)) .grantArrival [isl, x.req] ∧
      ∃ q, tget? (t.isl isl).reqs x.req = some q ∧ q.data = memLine (s.isl isl).mem (128 * ln) ∧ q.poison = true) ∧
  ∀ (s : State) (isl link : Nat), (∀ ln, ((s.isl isl).hline ln).txn = none) →
    let sent (core ln : Nat) : Prop := 64 * (core / 4) + sliceOf ln = link
    Gives .flitUncorrectable s [isl, 0, 1, link] fun t => MemoryKept s t ∧
      (∀ ln, (∃ p ∈ (s.isl isl).reqs, sent p.2.core p.2.line ∧ p.2.line / 4 = ln / 4) ∨
          (∃ p ∈ (s.isl isl).invs, sent p.2.core p.2.line ∧ p.2.line / 4 = ln / 4) → ((t.isl isl).hline ln).poison = true) ∧
      (∀ ln, (∀ p ∈ (s.isl isl).reqs, sent p.2.core p.2.line → p.2.line / 4 ≠ ln / 4) →
        (∀ p ∈ (s.isl isl).invs, sent p.2.core p.2.line → p.2.line / 4 ≠ ln / 4) →
        (t.isl isl).hline ln = (s.isl isl).hline ln) ∧
      Posted s t isl fun b => recCode b = 0x31 ∧ recInfo b = 1 ∧ recSource b = 5)

/-- What reaches the caches (R213, R215, R219, R220, R222, R434): a forwarded read finds the owner's dirty copy, which stays
in O and answers with its bytes, or finds none, and the home then waits for the write-back on its way or, with none, grants;
an invalidation enters its core's queue, is acknowledged one cycle later and applied within 256, and one that finds its
cluster's line in L, while a recall waits for it, goes to the core that holds it and is answered by the merge it forces; a grant fills the line; an evicted dirty line writes its bytes back; a cluster's L notice sets its hint. -/
def Obligations.MessagesToTheCaches : Prop :=  (∀ (s : State) (isl id : Nat) (v : Req) (x : Txn) (a : L1Line), v.kind = .read → tget? (s.isl isl).reqs id = some v →
    ((s.isl isl).hline v.line).txn = some x → (s.isl isl).l1? x.target v.line = some a → a.view = 0 → a.st = .m →
    Gives .forwardedRead s [isl, id] fun t => MemoryKept s t ∧ (t.isl isl).l1? x.target v.line = some { a with st := .o } ∧
      ∃ n q, tget? (t.isl isl).reqs n = some q ∧ q.kind = .writeBack false ∧ q.line = v.line ∧ q.data = a.data ∧ q.mask = a.dirty ∧
        q.ans = some id ∧ DueIn t isl (1 + hop x.target (sliceOf v.line)) .homeWriteBack [isl, n]) ∧
  (∀ (s : State) (isl id : Nat) (v : Req) (x : Txn), tget? (s.isl isl).reqs id = some v →
    ((s.isl isl).hline v.line).txn = some x → (s.isl isl).l1? x.target v.line = none →
    Gives .forwardedRead s [isl, id] fun t => DueIn t isl (1 + hop x.target (sliceOf v.line)) .noCopyAnswer [isl, id]) ∧
  (∀ (s : State) (isl id : Nat) (r : Req) (x : Txn), tget? (s.isl isl).reqs id = some r →
    ((s.isl isl).hline r.line).txn = some x → x.req = id → x.phase = .owner → x.wbSeen = false →
    let onItsWay := ∃ p ∈ (s.isl isl).reqs, p.2.core = x.target ∧ p.2.line = r.line ∧ p.2.ans = none ∧ ∃ k, p.2.kind = .writeBack k
    (onItsWay → Gives .noCopyAnswer s [isl, id] fun t =>
      ((t.isl isl).hline r.line).txn = some { x with phase := .writeBack } ∧ MemoryKept s t) ∧
    (¬onItsWay → r.kind = .read → ((s.isl isl).hline r.line).inSlice = true → Gives .noCopyAnswer s [isl, id] fun t =>
      ((t.isl isl).hline r.line).txn = none ∧ DueIn t isl (1 + hop r.core (sliceOf r.line)) .grantArrival [isl, id] ∧
        MemoryKept s t)) ∧
  (∀ (s : State) (isl id : Nat) (v : Inv), tget? (s.isl isl).invs id = some v →
    (s.isl isl).filter (clusterOf v.core) v.line = {} → (∀ a, (s.isl isl).l1? v.core v.line = some a → a.st ≠ .l) →
    Gives .invalidationArrival s [isl, id] fun t => MemoryKept s t ∧
      ((t.isl isl).core v.core).pinv = ((s.isl isl).core v.core).pinv ++ [id] ∧
      DueIn t isl (1 + hop v.core (sliceOf v.line)) .invalidationAckArrival [isl, id] ∧
      ∃ n, 1 ≤ n ∧ n < 256 ∧ DueIn t isl n .invalidationApply [isl, v.core, id]) ∧
  (∀ (s : State) (isl id k : Nat) (v : Inv) (x : Txn) (a : L1Line), (s.isl isl).invs = [(id, v)] → v.viewOnly = false →
    ((s.isl isl).hline v.line).txn = some x → id ∈ x.acks → ((s.isl isl).filter (clusterOf v.core) v.line).lrank = some k →
    (s.isl isl).l1? (4 * clusterOf v.core + k) v.line = some a → a.st = .l →
    Gives .invalidationArrival s [isl, id] fun t => MemoryKept s t ∧
      ((t.isl isl).core (4 * clusterOf v.core + k)).pinv = ((s.isl isl).core (4 * clusterOf v.core + k)).pinv ++ [id] ∧
      tget? (t.isl isl).invs id = some { v with core := 4 * clusterOf v.core + k, force := true }) ∧
  (∀ (s : State) (isl core id : Nat) (v : Inv) (a : L1Line), tget? (s.isl isl).invs id = some v → v.core = core →
    ((s.isl isl).core core).pinv = [id] → v.force = false → v.viewOnly = false → ((s.isl isl).core core).l1 = [(v.line, a)] → a.st = .s →
    Gives .invalidationApply s [isl, core, id] fun t => MemoryKept s t ∧ ((t.isl isl).core core).pinv = [] ∧
      ((t.isl isl).core core).l1 = []) ∧
  (∀ (s : State) (isl id : Nat) (v : Inv), tget? (s.isl isl).invs id = some v → v.arrived = false → (s.isl isl).reqs = [] →
    ((s.isl isl).hline v.line).txn = none →
    Gives .invalidationAckArrival s [isl, id] fun t => tget? (t.isl isl).invs id = some { v with acked := true } ∧ MemoryKept s t) ∧
  (∀ (s : State) (isl id : Nat) (r : Req), (s.isl isl).reqs = [(id, r)] → r.kind = .read → (s.isl isl).ops = [] →
    ((s.isl isl).core r.core).pinv = [] → ((s.isl isl).core r.core).l1 = [] → (s.isl isl).filters = [] → r.stale = false →
    Gives .grantArrival s [isl, id] fun t => MemoryKept s t ∧ (t.isl isl).reqs = [] ∧ ∃ a, (t.isl isl).l1? r.core r.line = some a ∧
      a.st = r.grant ∧ a.data = r.data ∧ a.poison = r.poison ∧ a.dirty = 0 ∧ a.view = r.view) ∧
  (∀ (s : State) (isl core ln : Nat) (a : L1Line), (s.isl isl).l1? core ln = some a → a.st = .m →
    Gives .l1Eviction s [isl, core, ln] fun t => MemoryKept s t ∧
      ∃ n q, tget? (t.isl isl).reqs n = some q ∧ q.kind = .writeBack false ∧ q.line = ln ∧ q.data = a.data ∧ q.mask = a.dirty ∧
        DueIn t isl (hop core (sliceOf ln)) .homeWriteBack [isl, n]) ∧
  ∀ (s : State) (isl k ln : Nat), ((s.isl isl).filter k ln).lrank ≠ none →
    Gives .lNotice s [isl, k, ln] fun t => MemoryKept s t ∧
      ((t.isl isl).hline ln).lhint = ((s.isl isl).hline ln).lhint ||| (1#32 <<< k)

/-! ## Hypotheses -/

/-- The controller's answers (R278-R280, R282): a request is performed when it arrives, and its answer goes back to the core.
`OPEN` answers 2, 3 or 1 in bits 15:8 where it may not, else the lowest free ID, which it makes OPEN one deeper under its
parent; `ENTER` answers 1, 2, 3 or 0; `LEAVE` the parent; a query its word.

A resolve at the controller (R271, R272, R274, R281, R283): rejected with 3, 1, 2 or 4, it answers; else its ID is
RESOLVING at once; behind another resolve it waits; a confirm comes to its commit point 600 cycles later, and 2,000 more where
a slice sleeps; a refute waits from then on for its tagged writes. -/
def Obligations.HypothesisRequests : Prop :=
  ((∀ (s : State) (isl id : Nat) (o : Op) (c : Ctl) (x y : Opnd), s.op? isl id = some o → o.instr = .hypOpen c x y →
    let m := s.isl isl
    let p := o.a.toNat
    let may := p ≤ 255 ∧ (m.hyp p).st = .opened ∧ m.resolvingAt p = false ∧ (p = 0 ∨ (m.hyp p).asid = o.asid)
    Gives .hypothesisControllerRequest s [isl, id] fun t => MemoryKept s t ∧ ∃ v, Answered t isl id v (halfTrip o.core) ∧
      (¬may → v = 0x200 ∧ (t.isl isl).hyps = m.hyps) ∧
      (may → (m.hyp p).depth = 8 → v = 0x300 ∧ (t.isl isl).hyps = m.hyps) ∧
      (may → (m.hyp p).depth ≠ 8 → (∀ g, 1 ≤ g → g ≤ 255 → (m.hyp g).st ≠ .free) → v = 0x100 ∧ (t.isl isl).hyps = m.hyps) ∧
      ∀ g, may → (m.hyp p).depth ≠ 8 → 1 ≤ g → g ≤ 255 → (m.hyp g).st = .free → (∀ k, 1 ≤ k → k < g → (m.hyp k).st ≠ .free) →
        v = BitVec.ofNat 64 g ∧ (∀ k, k ≠ g → (t.isl isl).hyp k = m.hyp k) ∧
        ((t.isl isl).hyp g).st = .opened ∧ ((t.isl isl).hyp g).parent = BitVec.ofNat 8 p ∧
        ((t.isl isl).hyp g).depth = (m.hyp p).depth + 1 ∧ ((t.isl isl).hyp g).asid = o.asid ∧
        ((t.isl isl).hyp g).launch = BitVec.ofNat 16 (launchNum o.launch)) ∧
  (∀ (s : State) (isl id : Nat) (o : Op) (c : Ctl) (x y : Opnd), s.op? isl id = some o → o.instr = .hypEnter c x y →
    let m := s.isl isl
    let g := o.a.toNat
    Gives .hypothesisControllerRequest s [isl, id] fun t => MemoryKept s t ∧ (t.isl isl).hyps = m.hyps ∧
      Answered t isl id (if 255 < g ∨ ((m.hyp g).st ≠ .opened ∧ (m.hyp g).st ≠ .resolving) then 1
        else if g ≠ 0 ∧ (m.hyp g).asid ≠ o.asid then 2 else if m.resolvingAt g = true then 3 else 0) (halfTrip o.core)) ∧
  (∀ (s : State) (isl id : Nat) (o : Op) (c : Ctl) (x : Opnd) (g : Group), s.op? isl id = some o → o.instr = .hypLeave c x →
    (s.isl isl).opGroup? o = some g →
    Gives .hypothesisControllerRequest s [isl, id] fun t => MemoryKept s t ∧
      Answered t isl id (((s.isl isl).hyp g.hy.toNat).parent.setWidth 64) (halfTrip o.core)) ∧
  ∀ (s : State) (isl id : Nat) (o : Op) (c : Ctl) (x y : Opnd), s.op? isl id = some o → o.instr = .hypQry c x y →
    let h := (s.isl isl).hyp o.a.toNat
    Gives .hypothesisControllerRequest s [isl, id] fun t => MemoryKept s t ∧ ∃ v, Answered t isl id v (halfTrip o.core) ∧
      (255 < o.a.toNat → v = 0) ∧
      (o.a.toNat ≤ 255 → h.st = .opened → fld v 0 16 = o.a.toNat ∧ fld v 16 8 = h.parent.toNat ∧ fld v 26 4 = h.depth.toNat ∧
        fld v 30 2 = 1)) ∧
  (∀ (s : State) (isl id : Nat) (o : Op) (c : Ctl) (y z : Opnd) (confirm : Bool), s.op? isl id = some o →
    o.instr = (if confirm then .hypResolveConfirm c y z else .hypResolveRefute c y z) →
    let x := s.isl isl
    let g := o.a.toNat
    let status : DWord := if g = 0 then 3 else if 255 < g ∨ (x.hyp g).st = .free ∨ (x.hyp g).st = .forward then 1
      else if o.priv = false ∧ (x.hyp g).asid ≠ o.asid then 2 else if x.resolvingAt g = true then 4 else 0
    (status ≠ 0 → Gives .resolveArrival s [isl, id] fun t => MemoryKept s t ∧ Answered t isl id status (halfTrip o.core) ∧
      (t.isl isl).hyps = x.hyps) ∧
    (status = 0 → Gives .resolveArrival s [isl, id] fun t => MemoryKept s t ∧ ((t.isl isl).hyp g).st = .resolving ∧
      (x.resolve ≠ none → (t.isl isl).resolve = x.resolve ∧
        (t.isl isl).resolveQ = x.resolveQ ++ [{ op := id, id := BitVec.ofNat 8 g, confirm := confirm }]) ∧
      (x.resolve = none → (t.isl isl).resolve = some { op := id, id := BitVec.ofNat 8 g, confirm := confirm } ∧
        DueIn t isl (if confirm then if x.asleep = [] then 600 else 2600 else 0)
          (if confirm then .confirmCommitPoint else .resolveCompletion) [isl])))

/-- The commit point of a confirm (R272, R273): the confirmed bytes come into the home copy, where the parent is the root, or
into the parent's version, all others staying; the groups under the ID go on under its parent; the resolve completes 300
cycles, and 2 for each line of the slice that holds most, later. -/
def Obligations.CommitPoint : Prop :=  ∀ (s : State) (isl : Nat) (r : Resolve) (v : Version), (s.isl isl).resolve = some r → r.confirm = true → r.committed = false →
    (s.isl isl).tagsQuiet r.id.toNat = true → (s.isl isl).versions = [v] → v.tag = r.id → (s.isl isl).reqs = [] →
    (s.isl isl).filters = [] → ((s.isl isl).hline v.line).txn = none → ((s.isl isl).hline v.line).owner = none →
    ((s.isl isl).hline v.line).queue = [] → memWf (s.isl isl).mem = true →
    let p := ((s.isl isl).hyp r.id.toNat).parent
    Gives .confirmCommitPoint s [isl] fun t => DueIn t isl 302 .resolveCompletion [isl] ∧
      (t.isl isl).resolve = some { r with committed := true } ∧
      (p = 0 → LineWritten (s.isl isl).mem (t.isl isl).mem v.line v.data v.mask ∧ (t.isl isl).versions = []) ∧
      (p ≠ 0 → MemoryKept s t ∧ (t.isl isl).versions = [{ v with tag := p, data := lineMerge 0 v.data v.mask }]) ∧
      ∀ core gid g, (s.isl isl).group? core gid = some g → ∃ g', (t.isl isl).group? core gid = some g' ∧
        g'.hy = (if g.hy = r.id then p else g.hy) ∧ g'.v = g.v ∧ g'.s = g.s ∧ g'.o = g.o

/-- The end of a resolve, of a refused tagged write, and of an orphan (R269, R272, R274, R275, R283): an ID that no saved group
holds is free again and the resolve answers 0; a refute ends 600 cycles after the last of its tagged writes has been
acknowledged, and 2,000 more where a slice sleeps, and the versions of its subtree are then gone and memory is as it was; a
refused write is due in each of its lanes as HYP_FULL with the address of the line; an orphan takes HYP_ORPHAN before it issues. -/
def Obligations.EndsOfHypotheses : Prop :=  (∀ (s : State) (isl : Nat) (r : Resolve) (o : Op), (s.isl isl).resolve = some r → r.id ≠ 0 → (s.isl isl).resolveQ = [] →
    s.op? isl r.op = some o → ((s.isl isl).hyp r.id.toNat).holders = 0 →
    (r.confirm = true → r.committed = true → Gives .resolveCompletion s [isl] fun t => MemoryKept s t ∧
      (t.isl isl).resolve = none ∧ ((t.isl isl).hyp r.id.toNat).st = .free ∧ (t.isl isl).versions = (s.isl isl).versions ∧
      Answered t isl r.op 0 (halfTrip o.core)) ∧
    (r.confirm = false → r.ready = false → (s.isl isl).tagsQuiet r.id.toNat = true → Gives .resolveCompletion s [isl] fun t =>
      MemoryKept s t ∧ (t.isl isl).resolve = some { r with ready := true } ∧
        DueIn t isl (if (s.isl isl).asleep = [] then 600 else 2600) .resolveCompletion [isl]) ∧
    (r.confirm = false → r.ready = true → (s.isl isl).tagsQuiet r.id.toNat = true → (s.isl isl).subtree r.id.toNat = [r.id.toNat] →
      Gives .resolveCompletion s [isl] fun t => MemoryKept s t ∧
      (t.isl isl).resolve = none ∧ ((t.isl isl).hyp r.id.toNat).st = .free ∧ Answered t isl r.op 0 (halfTrip o.core) ∧
      (t.isl isl).versions = (s.isl isl).versions.filter fun v => v.tag ≠ r.id)) ∧
  (∀ (s : State) (isl id : Nat) (r : Req) (o : Op) (g : Group) (u : Sub) (a : Acc), (s.isl isl).reqs = [(id, r)] →
    (s.isl isl).ops = [(r.op, o)] → (∃ c ty m x ad off, o.instr = .st c ty m x ad off) → o.subs = [u] → u.key = r.sub →
    u.accs = [a] → o.agent = .group o.core o.slot → (s.isl isl).opGroup? o = some g → g.due = [] →
    Gives .taggedWriteRefusal s [isl, id] fun t => MemoryKept s t ∧ ∃ g' d, (t.isl isl).group? o.core o.slot = some g' ∧
      g'.due = [d] ∧ d.lane = a.lane ∧ d.code = 8 ∧ d.info = BitVec.ofNat 64 (a.va.toNat / 128 * 128)) ∧
  ∀ (s : State) (isl core gid : Nat) (g : Group) (run : LaneMask) (cp : Word), (s.isl isl).group? core gid = some g →
    g.standing (s.cyc isl) = some (run, cp) → g.tvec = 0 → g.pend = [] →
    (∃ p ∈ g.threads, run.getLsbD p.1 = true ∧ p.1 < 64 ∧ p.2.orph = true) →
    Gives .hypOrphanTrap s [isl, core, gid] fun t => MemoryKept s t ∧
      (∃ g', (t.isl isl).group? core gid = some g' ∧ g'.parked = true ∧ SameRegisters g' g ∧
        ∀ p ∈ g'.threads, run.getLsbD p.1 = true → p.1 < 64 → p.2.orph = false) ∧
      Posted s t isl fun b => recCode b = 7 ∧ recCp b = cp ∧ recInfo b = g.orphInfo

/-! ## Synchronisation -/

/-- `BAR.INIT` (R303) sets EXP and REM to the count and keeps PHASE, with status 0; a count of 0 or above 4,095 gives status 1,
arrivals under way or a blocked waiter status 2, with no change. `b0` changes for every workgroup of the cluster launch. -/
def Obligations.BarriersAreSet : Prop :=  ∀ (s : State) (isl id : Nat) (o : Op) (c : Ctl) (x : Opnd) (k : BitVec 10) (z : ZOp) (b : Bar), s.op? isl id = some o →
    o.instr = .barInit c x k z → barAt (s.isl isl) o.core o.place k.toNat = some b →
    let n := fld o.a 0 32
    let good := 1 ≤ n ∧ n ≤ 4095
    let idle := b.rem = b.exp ∧ b.waiters = []
    Gives .syncUnitOperation s [isl, id] fun t => MemoryKept s t ∧
      Answered t isl id (if ¬good then 1 else if ¬idle then 2 else 0) (if k = 0 then 60 else 4) ∧
      ∃ b', barAt (t.isl isl) o.core o.place k.toNat = some b' ∧ b'.phase = b.phase ∧ b'.waiters = b.waiters ∧
        (¬(good ∧ idle) → b' = b) ∧ (good ∧ idle → b'.exp.toNat = n ∧ b'.rem.toNat = n) ∧
        (k = 0 → ∀ w core place w', (t.isl isl).wg? o.core o.place = some w → (t.isl isl).wg? core place = some w' → w'.cl = w.cl →
          barAt (t.isl isl) core place 0 = some b')

/-- An arrival (R301) of count *c* is *c* arrivals of count 1, and one of count 0 is none. One lowers REM; the one that brings
it to 0 flips PHASE, sets REM to EXP and wakes every waiter.

Arrivals and waits at a barrier (R299, R301, R302, R293): the phase before an arrival is its answer; those it wakes, and
a wait whose phase has passed, are answered 4 cycles later, 60 for `b0`; a wait whose phase has not, and an arrival that also
waits and completes no phase, block.

Stage rings (R305, R306): initialisation; a reservation of the slot at PUT where it is EMPTY and a take of the slot at GET
where it is FULL, which else block; commits and frees of the slot that a slot word names, which serve who waits. -/
def Obligations.BarrierAndRingOperations : Prop :=
  (∀ b : Bar, arrive 0 b = (b, []) ∧
    (∀ n, arrive (n + 1) b = ((arrive 1 (arrive n b).1).1, (arrive n b).2 ++ (arrive 1 (arrive n b).1).2)) ∧
    (b.rem ≠ 1 → arrive 1 b = ({ b with rem := b.rem - 1 }, [])) ∧
    (b.rem = 1 → arrive 1 b = ({ b with rem := b.exp, phase := !b.phase, waiters := [] }, b.waiters))) ∧
  (∀ (s : State) (isl id : Nat) (o : Op) (c : Ctl) (k : BitVec 10) (z : ZOp) (b : Bar),
    s.op? isl id = some o → barAt (s.isl isl) o.core o.place k.toNat = some b →
    let time := if k = 0 then 60 else 4
    let r := arrive (fld o.a 0 12) b
    let barrier (t : State) : Option Bar := barAt (t.isl isl) o.core o.place k.toNat
    let woken (t : State) : Prop := ∀ w ∈ r.2, (Due.cyc isl (t.cyc isl + time), Act.reply isl w) ∈ t.agenda
    let replied (t : State) : Prop := (Due.cyc isl (t.cyc isl + time), Act.reply isl id) ∈ t.agenda
    (∀ d, o.instr = .barArv c (some d) k z → Gives .syncUnitOperation s [isl, id] fun t => MemoryKept s t ∧
      barrier t = some r.1 ∧ woken t ∧ Answered t isl id (if b.phase then 1 else 0) time) ∧
    (o.instr = .barArv c none k z → Gives .syncUnitOperation s [isl, id] fun t => MemoryKept s t ∧
      barrier t = some r.1 ∧ woken t) ∧
    (o.instr = .barWait c k z → Gives .syncUnitOperation s [isl, id] fun t => MemoryKept s t ∧
      (b.phase = o.b.getLsbD 0 → barrier t = some { b with waiters := b.waiters ++ [id] }) ∧
      (b.phase ≠ o.b.getLsbD 0 → barrier t = some b ∧ replied t)) ∧
    (o.instr = .barArw c k z → o.performed = false → Gives .syncUnitOperation s [isl, id] fun t => MemoryKept s t ∧ woken t ∧
      (r.1.phase = b.phase → barrier t = some { r.1 with waiters := r.1.waiters ++ [id] }) ∧
      (r.1.phase ≠ b.phase → barrier t = some r.1 ∧ replied t)) ∧
    ∀ n, Gives .barrierArrival s [isl, o.core, o.place, k.toNat, n] fun t => MemoryKept s t ∧ barrier t = some (arrive n b).1 ∧
      ∀ w ∈ (arrive n b).2, (Due.cyc isl (t.cyc isl + time), Act.reply isl w) ∈ t.agenda) ∧
  (∀ (s : State) (isl id : Nat) (o : Op) (c : Ctl) (x : Opnd) (k : BitVec 10) (z : ZOp) (r : Ring),
    s.op? isl id = some o → ringAt (s.isl isl) o.core o.place k.toNat = some r → o.agent = .group o.core o.slot →
    let n := fld o.a 0 32
    let named (st : SlotSt) : Prop := n < 32 ∧ n % 16 < r.slots ∧ r.st.getD (n % 16) .empty = st ∧
      (r.ph.getD (n % 16) false = true ↔ n / 16 = 1)
    let ring (t : State) : Option Ring := ringAt (t.isl isl) o.core o.place k.toNat
    let slot (i : Nat) : DWord := BitVec.ofNat 64 (i + if r.ph.getD i false then 16 else 0)
    let clear := r.slots = 0 ∨ ((∀ u ∈ r.st, u = .empty) ∧ r.put = r.get ∧ r.reservers = [] ∧ r.takers = [])
    let open' := r.slots ≠ 0 ∧ r.reservers = [] ∧ r.takers = []
    let after (v : DWord) (q : Ring) : Prop := Gives .syncUnitOperation s [isl, id] fun t => MemoryKept s t ∧ ring t = some q ∧
      Answered t isl id v 4
    (o.instr = .ringInit c x k z → (n < 2 ∨ 16 < n → after 1 r) ∧ (2 ≤ n → n ≤ 16 → ¬clear → after 2 r) ∧
      (2 ≤ n → n ≤ 16 → clear →
        after 0 { slots := n, st := List.replicate n .empty, ph := List.replicate n false })) ∧
    (o.instr = .ringPushRsv c x k →
      (r.slots = 0 → after 0x80000000 r) ∧
      (open' → r.st.getD r.put .full = .empty →
        after (slot r.put) { r with st := r.st.set r.put .rsvd, put := (r.put + 1) % r.slots }) ∧
      (open' → r.st.getD r.put .full ≠ .empty → Gives .syncUnitOperation s [isl, id] fun t => MemoryKept s t ∧
        ring t = some { r with reservers := [id] } ∧ t.op? isl id = some o)) ∧
    (o.instr = .ringPopTake c x k →
      (r.slots = 0 → after 0x80000000 r) ∧
      (open' → r.st.getD r.get .empty = .full →
        after (slot r.get) { r with st := r.st.set r.get .held, get := (r.get + 1) % r.slots }) ∧
      (open' → r.st.getD r.get .empty ≠ .full → Gives .syncUnitOperation s [isl, id] fun t => MemoryKept s t ∧
        ring t = some { r with takers := [id] } ∧ t.op? isl id = some o)) ∧
    (o.instr = .ringPushCmt c x k z →
      (r.slots = 0 → r.reservers = [] → r.takers = [] → after 2 r) ∧ (open' → ¬named .rsvd → after 1 r) ∧
      (open' → named .rsvd → after 0 { r with st := r.st.set (n % 16) .full }) ∧
      (∀ w p, r.slots ≠ 0 → r.reservers = [] → r.takers = [w] → r.get = n % 16 → w ≠ id → s.op? isl w = some p → named .rsvd →
        Gives .syncUnitOperation s [isl, id] fun t => Answered t isl id 0 4 ∧ Answered t isl w (BitVec.ofNat 64 n) 4 ∧
          ring t = some { r with st := (r.st.set (n % 16) .full).set (n % 16) .held, get := (r.get + 1) % r.slots, takers := [] })) ∧
    (o.instr = .ringPopFree c x k z →
      (r.slots = 0 → r.reservers = [] → r.takers = [] → after 2 r) ∧ (open' → ¬named .held → after 1 r) ∧
      (open' → named .held → after 0
        { r with st := r.st.set (n % 16) .empty, ph := r.ph.set (n % 16) (!r.ph.getD (n % 16) false) })))

/-- Notify counters (R307-R309): an increment saturates; a set replaces; each satisfies the waiters whose threshold it
reaches. A wait that finds its threshold reached is answered with the counter; else it waits, or is sent again where all 512
waiters are taken. -/
def Obligations.NotifyCounters : Prop :=  (∀ (s : State) (isl id : Nat) (o : Op) (c : Ctl) (sys : Bool) (y : Opnd) (z : ZOp) (set : Bool), s.op? isl id = some o →
    o.instr = (if set then .ntfySet c sys y z else .ntfy c sys y z) →
    let k := fld o.a 0 10
    let v : DWord := if set then o.b else BitVec.ofNat 64 (min (((s.isl isl).counter k).toNat + o.b.toNat) (2 ^ 64 - 1))
    Gives .notifyUnitRequest s [isl, id] fun t => MemoryKept s t ∧ (t.isl isl).counter k = v ∧
      (∀ j, j % 1024 ≠ k → (t.isl isl).counter j = (s.isl isl).counter j) ∧
      ∀ w p, (s.isl isl).nwaiters = [w] → w.ctr = k → w.op ≠ id → s.op? isl w.op = some p →
        (w.thr.toNat ≤ v.toNat → (t.isl isl).nwaiters = [] ∧ Answered t isl w.op v (fullTrip p.core)) ∧
        (v.toNat < w.thr.toNat → (t.isl isl).nwaiters = [w])) ∧
  (∀ (s : State) (isl id : Nat) (o : Op) (c : Ctl) (sys : Bool) (x y : Opnd) (z : ZOp), s.op? isl id = some o →
    o.instr = .nwait c sys x y z →
    let k := fld o.a 0 10
    let v := (s.isl isl).counter k
    Gives .notifyUnitRequest s [isl, id] fun t => MemoryKept s t ∧ (∀ j, (t.isl isl).counter j = (s.isl isl).counter j) ∧
      (o.b.toNat ≤ v.toNat → Answered t isl id v (fullTrip o.core)) ∧
      (v.toNat < o.b.toNat → (s.isl isl).nwaiters.length < 512 →
        (t.isl isl).nwaiters = (s.isl isl).nwaiters ++ [{ op := id, ctr := k, thr := o.b }]) ∧
      (v.toNat < o.b.toNat → 512 ≤ (s.isl isl).nwaiters.length → DueIn t isl (1024 - fullTrip o.core) .nwaitResend [isl, id])) ∧
  ∀ (s : State) (isl id : Nat) (o : Op), s.op? isl id = some o →
    Gives .nwaitResend s [isl, id] fun t => MemoryKept s t ∧ DueIn t isl (fullTrip o.core) .notifyUnitRequest [isl, id]

/-- `PBAR.init` (R311): MASK = z<15:0> and LOCAL = z<27:16>, with ARR 0, and status 0; status 1 for LOCAL 0, a nonzero z<31:28>
or a MASK without the issuing island, status 2 for arrivals or a blocked waiter, with no change; no other island's changes. -/
def Obligations.PanelBarriersAreSet : Prop :=  ∀ (s : State) (isl id : Nat) (o : Op) (c : Ctl) (x : Opnd) (k : BitVec 10) (z : ZOp), s.op? isl id = some o → isl < 16 →
    o.instr = .pbarInit c x k z →
    let n := fld o.a 0 32
    let b := (s.isl isl).pbar k.toNat
    let good := n / 2 ^ 16 % 2 ^ 12 ≠ 0 ∧ n / 2 ^ 28 = 0 ∧ n.testBit isl = true
    let idle := b.arr = 0 ∧ b.waiters = []
    Gives .panelBarrierAgentRequest s [isl, id] fun t => MemoryKept s t ∧
      Answered t isl id (if ¬good then 1 else if ¬idle then 2 else 0) (fullTrip o.core) ∧
      (∀ j, j ≠ k.toNat → (t.isl isl).pbar j = (s.isl isl).pbar j) ∧ (∀ j, j ≠ isl → t.isl j = s.isl j) ∧
      (¬(good ∧ idle) → (t.isl isl).pbar k.toNat = b) ∧
      (good ∧ idle → (t.isl isl).pbar k.toNat =
        { b with mask := BitVec.ofNat 16 n, loc := BitVec.ofNat 12 (n / 2 ^ 16), arr := 0 })

/-- Arrivals and waits at a panel barrier, and the swap of routes with one (R312, R365): an uninitialised barrier gives status
1, an invalid route table status 2; else an arrival raises ARR, and the one that makes LOCAL sends the island's arrival up.

The root of a panel barrier (R313, R314, R365): when every island of MASK has arrived the phase completes everywhere 320 ns
after the last arrival left, with the swap armed there; arrivals with different masks break the barrier. -/
def Obligations.PanelBarriers : Prop :=
  (∀ (s : State) (isl id : Nat) (o : Op) (c : Ctl) (x : Opnd) (k t : BitVec 10) (z : ZOp), s.op? isl id = some o →
    let b := (s.isl isl).pbar k.toNat
    let ph : DWord := if b.phase then 1 else 0
    let row := Instr.panelBarrierAgentRequest
    -- the arrival that `u` has made, with what is armed
    let arrived (u : State) (armed : Option Nat) (ws : List Nat) : Prop :=
      (b.arr + 1 ≠ b.loc → (u.isl isl).pbar k.toNat = { b with arr := b.arr + 1, armed := armed, waiters := ws }) ∧
      (b.arr + 1 = b.loc → (u.isl isl).pbar k.toNat = { b with arr := 0, armed := armed, waiters := ws } ∧
        (Due.ps (s.now + 160000), Act.row .panelBarrierRootArrival [isl, k.toNat, b.mask.toNat, s.now]) ∈ u.agenda)
    (o.instr = .pbarArv c x k → Gives row s [isl, id] fun u => MemoryKept s u ∧
      (b.mask = 0 → (u.isl isl).pbar k.toNat = b ∧ Answered u isl id (256 + ph) (fullTrip o.core)) ∧
      (b.mask ≠ 0 → arrived u b.armed b.waiters ∧ Answered u isl id ph (fullTrip o.core))) ∧
    (o.instr = .route c x t k → Gives row s [isl, id] fun u => MemoryKept s u ∧
      (b.mask = 0 → (u.isl isl).pbar k.toNat = b ∧ Answered u isl id (256 + ph) (fullTrip o.core)) ∧
      (b.mask ≠ 0 → (s.isl isl).tableValid t.toNat = false →
        (u.isl isl).pbar k.toNat = b ∧ Answered u isl id (512 + ph) (fullTrip o.core)) ∧
      (b.mask ≠ 0 → (s.isl isl).tableValid t.toNat = true →
        arrived u (some t.toNat) b.waiters ∧ Answered u isl id ph (fullTrip o.core))) ∧
    (o.instr = .pbarWait c k z → Gives row s [isl, id] fun u => MemoryKept s u ∧
      (b.phase = o.b.getLsbD 0 → (u.isl isl).pbar k.toNat = { b with waiters := b.waiters ++ [id] }) ∧
      (b.phase ≠ o.b.getLsbD 0 → (u.isl isl).pbar k.toNat = b ∧
        (Due.cyc isl (u.cyc isl + fullTrip o.core), Act.reply isl id) ∈ u.agenda)) ∧
    (o.instr = .pbarArw c x k → o.performed = false → Gives row s [isl, id] fun u => MemoryKept s u ∧
      (b.mask = 0 → (u.isl isl).pbar k.toNat = b ∧ Answered u isl id 1 (fullTrip o.core)) ∧
      (b.mask ≠ 0 → arrived u b.armed (b.waiters ++ [id])))) ∧
  ((∀ (s : State) (isl k left : Nat), isl < 16 → tgetD s.pbRoot k [] = [] →
    Gives .panelBarrierRootArrival s [isl, k, 2 ^ isl, left] fun t => MemoryKept s t ∧
      tgetD t.pbRoot k [] = [{ isl := isl, mask := BitVec.ofNat 16 (2 ^ isl), leftAt := left }] ∧
      (Due.ps (max s.now (left + 320000)), Act.row .panelBarrierRelease [k]) ∈ t.agenda) ∧
  (∀ (s : State) (i j k mask left : Nat) (a : RootArr), i < 16 → j < 16 → i ≠ j → tgetD s.pbRoot k [] = [a] → a.isl = i →
    a.mask = BitVec.ofNat 16 mask → mask = 2 ^ i + 2 ^ j → left ≤ a.leftAt →
    Gives .panelBarrierRootArrival s [j, k, mask, left] fun t => MemoryKept s t ∧
      (Due.ps (max s.now (a.leftAt + 320000)), Act.row .panelBarrierRelease [k]) ∈ t.agenda) ∧
  (∀ (s : State) (isl k : Nat) (a : RootArr), isl < 16 → tget? s.pbRoot k = some [a] → a.isl = isl →
    a.mask = BitVec.ofNat 16 (2 ^ isl) →
    let b := (s.isl isl).pbar k
    b.waiters = [] → Gives .panelBarrierRelease s [k] fun t => MemoryKept s t ∧
      (t.isl isl).pbar k = { b with phase := !b.phase, armed := none } ∧
      (∀ n, b.armed = some n → ((t.isl isl).sys.rtact ↔ n = 1)) ∧
      (b.armed = none → (t.isl isl).sys = (s.isl isl).sys)) ∧
  ∀ (s : State) (i j k mask left : Nat) (a : RootArr), i < 16 → j < 16 → i ≠ j → tgetD s.pbRoot k [] = [a] → a.isl = i →
    a.mask ≠ BitVec.ofNat 16 mask → (s.islands.map (·.1)).Nodup → i ∈ s.islands.map (·.1) → j ∈ s.islands.map (·.1) →
    ((s.isl i).pbar k).waiters = [] → ((s.isl j).pbar k).waiters = [] → (∀ n, n ≠ i → n ≠ j → ((s.isl n).pbar k).waiters = []) →
    Gives .panelBarrierRootArrival s [j, k, mask, left] fun t => MemoryKept s t ∧
      ∀ n, n = i ∨ n = j → ((t.isl n).pbar k).mask = 0 ∧ ((t.isl n).pbar k).arr = 0 ∧
        ((t.isl n).pbar k).phase = !((s.isl n).pbar k).phase)

/-! ## The copy engine -/

/-- A line transfer of a bulk copy between scratchpads (R284, R285, R290, R293): the engine's turn starts it, with at most 64
in flight; its bytes arrive from the source; they are written at the destination, where no other byte changes; the last of
them ends the copy's first step at its destination.

What follows the bytes of a copy (R287, R289, R293, R301): at a destination full bits, then the signal word, then one
arrival; when every destination has finished, the operation ends, leaves its queue and lowers its flag. A fault of the engine
posts a record of the engine and parks the issuing group. -/
def Obligations.CopyEngineSteps : Prop :=
  ((∀ (s : State) (isl core : Nat), 64 ≤ ((s.isl isl).core core).engFlight.length → NoCopyFaults (s.isl isl) core →
    Gives .copyLineTransfer s [isl, core] fun t => t = s) ∧
  ∀ (s : State) (isl id q off r doff : Nat) (o : Op) (c : Ctl) (x y : Opnd), s.op? isl id = some o → o.instr = .cpyb c x y →
    let m := s.isl isl
    let d := o.bulk.desc
    bdMcast d = 0 → o.performed = false →
    -- the engine's turn
    (∀ w, (m.core o.core).engFlight = [] → NoCopyFaults m o.core → (m.core o.core).places = [(o.place, w)] → o.place < 4 → w.copyq = [id] → o.subs = [] →
      o.bulk.moved = 0 → bdLen d ≠ 0 → inWindow (bdSrc d) = true → inWindow (bdDestVa d 0) = true →
      windowLoc m o.core o.place (bdSrc d) = some (.scr q r off) → (∃ a b e, windowLoc m o.core o.place (bdDestVa d 0) = some (.scr a b e)) →
      let n := min (bdLen d) (min (128 - (bdSrc d).toNat % 128) (128 - (bdDestVa d 0).toNat % 128))
      Gives .copyLineTransfer s [isl, o.core] fun t => MemoryKept s t ∧ ∃ o' u a, t.op? isl id = some o' ∧ o'.subs = [u] ∧
        u.key = 0 ∧ u.stage = .going ∧ u.data = [] ∧ u.accs = [a] ∧ a.va = bdSrc d ∧ a.n = n ∧ a.loc = some (.scr q r off) ∧
        o'.bulk.moved = n ∧ ((t.isl isl).core o.core).engFlight = [(id, 0)] ∧
        DueIn t isl (if q = o.core then Config.latOwn else Config.latPeer) .copyLineTransfer [isl, o.core, id, 0]) ∧
    ∀ u a w, o.subs = [u] → u.stage = .going → u.accs = [a] →
      -- its bytes arrive
      (u.data = [] → 0 < a.n → a.loc = some (.scr q r off) → inWindow a.va = true → windowLoc m o.core o.place a.va = some (.scr q r off) →
        m.wg? q r = some w → w.emptyLines = [] → Gives .copyLineTransfer s [isl, o.core, id, u.key] fun t => MemoryKept s t ∧
          Awaits t .copyLineTransfer [isl, o.core, id, u.key, 1] ∧
          ∃ o' u', t.op? isl id = some o' ∧ o'.subs = [u'] ∧ u'.key = u.key ∧ u'.data = leBytes a.n (memNat w.scr off a.n)) ∧
      -- they are written
      (let va := vaPlus (bdDestVa d 0) u.key;
        (m.core o.core).engFlight.head? = some (id, u.key) → o.refuted = false → inWindow va = true → windowLoc m o.core o.place va = some (.scr q r doff) → m.wg? q r = some w → memWf w.scr = true →
        Gives .copyLineTransfer s [isl, o.core, id, u.key, 1] fun t => MemoryKept s t ∧
          (∃ w', (t.isl isl).wg? q r = some w' ∧ memWf w'.scr = true ∧
            (∀ k b, u.data[k]? = some b → memRead w'.scr (doff + k) = b) ∧
            ∀ b, (b < doff ∨ doff + u.data.length ≤ b) → memRead w'.scr b = memRead w.scr b) ∧
          (bdLen d ≤ o.bulk.moved → Awaits t .cpybDestinationDone [isl, o.core, id, 0]) ∧
          ∃ o', t.op? isl id = some o' ∧ o'.subs = [])) ∧
  ((∀ (s : State) (isl id r off q p : Nat) (o : Op) (w : Wg), s.op? isl id = some o →
    let d := o.bulk.desc
    windowLoc (s.isl isl) o.core o.place (bdDestVa d r) = some (.scr q p off) → (s.isl isl).wg? q p = some w → w.held = [] →
    memWf w.scr = true → Gives .cpybDestinationDone s [isl, o.core, id, r] fun t => MemoryKept s t ∧
      (∃ w', (t.isl isl).wg? q p = some w' ∧
        (bdFill d = true → ∀ n, off / 128 ≤ n → n ≤ (off + bdLen d - 1) / 128 → n ∉ w'.emptyLines) ∧
        (bdFill d = false → w'.emptyLines = w.emptyLines) ∧
        (bdSen d = true → memNat w'.scr (4 * bdSoff d) 4 = bdSval d) ∧
        ∀ b : Nat, (bdSen d = false ∨ b < 4 * bdSoff d ∨ 4 * bdSoff d + 4 ≤ b) → memRead w'.scr b = memRead w.scr b) ∧
      (bdBen d = true → DueIn t isl (if bdBar d = 0 then 60 else 4) .barrierArrival [isl, q, p, bdBar d, 1, id, o.core, r]) ∧
      (bdBen d = false → o.bulk.dests = [r] → Awaits t .cpyCompletion [isl, o.core, id])) ∧
  (∀ (s : State) (isl id r core q p k : Nat) (o : Op) (b : Bar), s.op? isl id = some o → o.bulk.dests = [r] →
    barAt (s.isl isl) q p k = some b → Gives .barrierArrival s [isl, q, p, k, 1, id, core, r] fun t => MemoryKept s t ∧
      barAt (t.isl isl) q p k = some (arrive 1 b).1 ∧ Awaits t .cpyCompletion [isl, core, id]) ∧
  (∀ (s : State) (isl id f gid : Nat) (o : Op) (g : Group) (w : Wg), (s.isl isl).ops = [(id, o)] →
    (∃ c n fl a b sc x y, o.instr = .cpy c n fl a b sc x y) → o.agent = .group o.core gid →
    (s.isl isl).group? o.core gid = some g → g.age = o.age → g.pend = [] → o.flag = some f →
    (s.isl isl).wg? o.core o.place = some w → Gives .cpyCompletion s [isl, o.core, id] fun t => MemoryKept s t ∧
      (t.isl isl).ops = [] ∧ (∃ w', (t.isl isl).wg? o.core o.place = some w' ∧ w'.copyq = w.copyq.filter fun i => i ≠ id) ∧
      ∃ g', (t.isl isl).group? o.core gid = some g' ∧ g'.v = g.v ∧ g'.s = g.s ∧ g'.o = g.o ∧
        ∀ n, g'.flagVal n = if n = f then g.flagVal n - 1 else g.flagVal n) ∧
  ∀ (s : State) (isl id gid code lanes va : Nat) (write : Bool) (o : Op) (g : Group), s.op? isl id = some o →
    o.agent = .group o.core gid → (s.isl isl).group? o.core gid = some g → g.age = o.age → code < 256 → code ≠ 0x10 →
    Gives .cpyEngineFault s [isl, o.core, id, code, if write then 1 else 0, lanes, va] fun t => MemoryKept s t ∧
      (∃ g', (t.isl isl).group? o.core gid = some g' ∧ g'.parked = true ∧ g'.records = g.records + 1) ∧
      Posted s t isl fun b => recCode b = code ∧ recCp b = o.cp ∧ recSource b = 2 ∧ recLanes b = BitVec.ofNat 64 lanes ∧
        recAddr b = BitVec.ofNat 72 va ∧ recAsid b = o.asid)

/-! ## The matrix unit -/

/-- `MSTART` at the context (R338): status 1 to 5 in the order of their conditions, with no effect; else the context starts,
with its registers at zero and the group's hypothesis. Behind a loading overlay the request waits.

The integer sums of the array (R74, R75, R326): an element of an INT40 slot becomes the exact sum of itself and the products
of a block, limited to 40 bits with a symmetric range, and says whether it was.

Operations of the matrix unit after their dispatch (R320, R326, R329, R330, R334, R336): the free array takes a context's
oldest operation, clearing the slot where it says so and giving it its kind; a slot is ready when its operation completes; a
readout is handed on, an `MZERO` leaves its slot zero, an `MRD` leaves when its last row is written; a context's fault is
posted and the context stops. -/
def Obligations.MatrixUnit : Prop :=
  (∀ (s : State) (isl id gid place : Nat) (o : Op) (c : Ctl) (k : BitVec 8) (cp : Word) (g : Group) (w : Wg),
    (s.isl isl).ops = [(id, o)] → o.instr = .mstart c (.s k) cp → o.agent = .group o.core gid → o.lanes ≠ 0 →
    (s.isl isl).group? o.core gid = some g → g.age = o.age → g.ended = false → (s.isl isl).wg? o.core place = some w →
    let t₀ : Word := o.a.setWidth 32
    let entry := findEntry ((s.isl isl).core o.core) (cpHandle t₀) (tenantKey (cpHandle t₀) o.asid)
    let answers (n : Nat) (f : Option Ctx → Prop) : Prop := Gives .mstartCheck s [isl, o.core, place, id] fun t => MemoryKept s t ∧
      (t.isl isl).ops = [] ∧ (∃ g', (t.isl isl).group? o.core gid = some g' ∧ g'.sreg k.toNat = BitVec.ofNat 32 n ∧
        ∀ j, j ≠ k.toNat → g'.sreg j = (settle g (s.cyc isl)).sreg j) ∧
      ∃ w', (t.isl isl).wg? o.core place = some w' ∧ f w'.ctx
    (w.ctx = none → answers 1 (· = none)) ∧
    ∀ x, w.ctx = some x →
      (x.st ≠ .idle → answers 2 (· = some x)) ∧
      (x.st = .idle → cpHandle t₀ = 0 ∨ entry = none → answers 3 (· = some x)) ∧
      ∀ n r, x.st = .idle → cpHandle t₀ ≠ 0 → entry = some (n, r) →
        (r.loading = true → Gives .mstartCheck s [isl, o.core, place, id] fun t =>
          DueIn t isl 1 .mstartCheck [isl, o.core, place, id] ∧ t.isl isl = s.isl isl) ∧
        (r.loading = false → r.mst = false → answers 4 (· = some x)) ∧
        (r.loading = false → r.mst = true → r.count ≤ cpOff t₀ → answers 5 (· = some x)) ∧
        (r.loading = false → r.mst = true → cpOff t₀ < r.count → answers 0 fun y => ∃ z, y = some z ∧ z.sp = t₀ ∧ z.st = .running ∧
          (∀ j, z.mset j = 0) ∧ z.mrow = 0 ∧ z.sca.on = false ∧ z.scb.on = false ∧ z.hy = o.hy)) ∧
  (∀ (c : A40) (xs ys : List Int), xs.length = ys.length →
    let r := accumulate true c (xs.map ofIntFv) (ys.zipIdx.map fun q => (q.2, ofIntFv q.1))
    let exact : Int := c.toInt + (List.zipWith (· * ·) xs ys).sum
    let top : Int := 2 ^ 39 - 1
    r.1.toInt = max (-top) (min exact top) ∧ (r.2 = true ↔ r.1.toInt ≠ exact)) ∧
  ((∀ (s : State) (isl core place : Nat) (w : Wg) (c : Ctx) (m : MxOp) (a : MmaArgs), ((s.isl isl).core core).places = [(place, w)] →
    place < 4 → ((s.isl isl).core core).mx.busy = none → 3 ≤ ((s.isl isl).core core).cls → w.ctx = some c → c.handed = [m] →
    c.current = none → c.readout = [] → c.faults = [] → (s.isl isl).cls = [] → mmaArgs m.instr = some a → m.begun = false →
    let p := w.phys a.slot
    Gives .matrixOperationBegin s [isl, core] fun t => MemoryKept s t ∧ ((t.isl isl).core core).mx.busy = some (place, m.id) ∧
      DueIn t isl 0 .matrixOperationBegin [isl, core, place, m.id, 1] ∧
      (((t.isl isl).core core).slotMeta p).kind = a.i40 ∧
      (a.zf = true → ∀ j, j < 16384 → tgetD ((t.isl isl).core core).acc (16384 * p + j) 0 = 0) ∧
      (a.zf = false → ((t.isl isl).core core).acc = ((s.isl isl).core core).acc) ∧
      ∃ w' c', (t.isl isl).wg? core place = some w' ∧ w'.ctx = some c' ∧ c'.handed = [] ∧ c'.current = some { m with begun := true }) ∧
  (∀ (s : State) (isl core place id : Nat) (w : Wg) (c : Ctx), (s.isl isl).wg? core place = some w → w.ctx = some c →
    c.waitOp = none → c.stopping = [] → c.st = .running →
    Gives .matrixOperationComplete s [isl, core, place, id] fun t => MemoryKept s t ∧
      ∃ w' c', (t.isl isl).wg? core place = some w' ∧ w'.ctx = some c' ∧ c'.draining = c.draining.filter fun m => m.id ≠ id) ∧
  (∀ (s : State) (isl core place : Nat) (w : Wg) (c : Ctx) (m : MxOp), ((s.isl isl).core core).places = [(place, w)] →
    w.ctx = some c → c.readout = [m] → m.turn = 0 → (∀ a ∈ c.handed ++ c.current.toList ++ c.draining, a.slot ≠ m.slot) →
    ((s.isl isl).core core).mx.readout = none → s.nextId ≠ 0 → c.faults = [] →
    Gives .readoutHandoff s [isl, core, place] fun t => MemoryKept s t ∧
      ((t.isl isl).core core).mx.readout = some (place, m.id) ∧ ∃ d, (d, Act.row .readoutHandoff [isl, core, place, m.id, 0]) ∈ t.agenda) ∧
  (∀ (s : State) (isl core place : Nat) (w : Wg) (c : Ctx) (m : MxOp) (sl : BitVec 10),
    ((s.isl isl).core core).places = [(place, w)] → w.ctx = some c → c.readout = [m] → m.instr = .mzero sl → c.faults = [] → c.waitOp = none → c.stopping = [] →
    c.st = .running → Gives .readoutHandoff s [isl, core, place, m.id, 0] fun t => MemoryKept s t ∧
      (∀ j, j < 16384 → tgetD ((t.isl isl).core core).acc (16384 * w.phys sl.toNat + j) 0 = 0) ∧
      ((t.isl isl).core core).slotMeta (w.phys sl.toNat) = { kind := false, sat := false, shift := 0 } ∧
      ∃ w' c', (t.isl isl).wg? core place = some w' ∧ w'.ctx = some c' ∧ c'.readout = []) ∧
  (∀ (s : State) (isl core place : Nat) (w : Wg) (c : Ctx) (m : MxOp), (s.isl isl).wg? core place = some w → w.ctx = some c →
    c.readout = [m] → c.waitOp = none → c.stopping = [] → c.st = .running → Gives .mrdComplete s [isl, core, place, m.id] fun t => MemoryKept s t ∧
      ∃ w' c', (t.isl isl).wg? core place = some w' ∧ w'.ctx = some c' ∧ c'.readout = []) ∧
  ∀ (s : State) (isl core place code info va cp : Nat) (write : Bool) (passed : Option Nat) (w : Wg) (c : Ctx), (s.isl isl).wg? core place = some w →
    w.ctx = some c → code < 256 → code ≠ 0x10 → code ≠ 3 → place < 4 →
    let args := match passed with
      | some id => [1, id]
      | none => [0]
    Gives .contextFault s ([isl, core, place, code, info, va, cp, if write then 1 else 0] ++ args) fun t => MemoryKept s t ∧
      (∃ w' c', (t.isl isl).wg? core place = some w' ∧ w'.ctx = some c' ∧ c'.st = .faulted ∧ c'.sp = c.sp ∧ c'.ms = c.ms) ∧
      Posted s t isl fun b => recCode b = code ∧ recInfo b = BitVec.ofNat 64 info ∧ recCp b = BitVec.ofNat 32 cp ∧
        recSource b = 1 ∧ recLanes b = BitVec.allOnes 64 ∧ recAddr b = BitVec.ofNat 72 va)

/-! ## What comes back to the groups -/

/-- The ends of memory instructions (R31, R86, R224, R225, R236): a value that returns goes to its register, but is discarded
where the group has ended, and the flag falls; an acknowledgement lowers the counter of unacknowledged writes; a release waits
until it is 0, writes the lines in L of its core home, and ends once no merge of the core is under way; an acquire ends when
the invalidations before it have been applied.

What befalls groups with time (R86, R89, R90, R118, R206): a sleeper whose cycles have passed is ready again; an evaluation
marks of two unended groups of a team the one that has retired less, and clears the L1's protection bits; an ended group with
nothing under way leaves its slot, its registers staying readable. -/
def Obligations.ReturnsToGroups : Prop :=
  ((∀ (s : State) (isl id gid : Nat) (o : Op) (g : Group) (u : Sub) (a : Acc) (c : Ctl) (ty : IType) (e : MemExt) (x ad : Opnd)
    (off : BitVec 10), OnlyOp s isl id o gid g → o.instr = .ld c ty e x ad off → (e.ord ≠ .acq ∧ e.ord ≠ .ar) → o.subs = [u] →
    u.stage = .performed → u.counted = false → u.accs = [a] →
    Gives .loadValueReturn s [isl, o.core, id, u.key] fun t => MemoryKept s t ∧
      Ended t isl o gid g (if g.ended then g else accResult o.instr a g)) ∧
  (∀ (s : State) (isl id gid n : Nat) (o : Op) (g : Group) (u : Sub) (c : Ctl) (ty : IType) (e : MemExt) (x ad : Opnd)
    (off : BitVec 10), OnlyOp s isl id o gid g → o.instr = .st c ty e x ad off → o.subs = [u] → o.pushes = [] →
    u.stage = .performed → u.counted = true → (∀ a ∈ u.accs, a.res = none) →
    Gives .writeAcknowledgement s [isl, o.core, id, u.key, n] fun t => MemoryKept s t ∧ Ended t isl o gid g g ∧
      ∃ g', (t.isl isl).group? o.core gid = some g' ∧ g'.unacked = g.unacked - 1) ∧
  (∀ (s : State) (isl id gid : Nat) (o : Op) (g : Group) (c : Ctl) (sc : Scope) (k : MOrd), (s.isl isl).ops = [(id, o)] →
    o.agent = .group o.core gid → (s.isl isl).group? o.core gid = some g → g.age = o.age → g.pend = [] →
    o.instr = .fence c sc k → (k = .rel ∨ k = .ar) → o.released = false → g.releasing = [id] → o.after = [] → o.pushes = [] →
    (g.unacked ≠ 0 → Gives .releaseWaitEnd s [isl, o.core, id] fun t => t = s) ∧
    (g.unacked = 0 → k = .rel → (∀ p ∈ ((s.isl isl).core o.core).l1, p.2.st ≠ .l) →
      (∀ p ∈ (s.isl isl).reqs, p.2.core = o.core → ∀ d, p.2.kind ≠ .merge d) →
      Gives .releaseWaitEnd s [isl, o.core, id] fun t => MemoryKept s t ∧ Ended t isl o gid g g ∧
        ∃ g', (t.isl isl).group? o.core gid = some g' ∧ g'.releasing = []) ∧
    (∀ ln a, g.unacked = 0 → sc = .isl → o.pushed = false → ((s.isl isl).core o.core).l1 = [(ln, a)] → a.st = .l →
      (s.isl isl).reqs = [] →
      Gives .releaseWaitEnd s [isl, o.core, id] fun t => MemoryKept s t ∧ ∃ n q o', t.op? isl id = some o' ∧ o'.pushes = [n] ∧
        tget? (t.isl isl).reqs n = some q ∧ q.kind = .merge true ∧ q.line = ln ∧ q.data = a.data ∧ q.mask = a.dirty)) ∧
  ∀ (s : State) (isl id gid : Nat) (o : Op) (g : Group) (c : Ctl) (sc : Scope) (k : MOrd), OnlyOp s isl id o gid g →
    o.instr = .fence c sc k → o.drains = [] → (o.after = [] ∨ ((s.isl isl).core o.core).pinv = []) →
    Gives .acquireWaitEnd s [isl, o.core, id] fun t => MemoryKept s t ∧ Ended t isl o gid g g ∧
      ∃ g', (t.isl isl).group? o.core gid = some g' ∧ g'.acquiring = g.acquiring.filter fun n => n ≠ id) ∧
  ((∀ (s : State) (isl core gid : Nat) (g : Group), (s.isl isl).group? core gid = some g →
    Gives .sleepExpiry s [isl, core, gid] fun t => MemoryKept s t ∧ (t.isl isl).group? core gid = some { g with
      threads := g.threads.map fun p => (p.1, match p.2.stat with
        | .asleep till => if till ≤ s.cyc isl then { p.2 with stat := .ready } else p.2
        | _ => p.2) }) ∧
  (∀ (s : State) (isl core place i j : Nat) (w : Wg) (g h : Group), ((s.isl isl).core core).places = [(place, w)] →
    hdrUoff w.hdr = false → ((s.isl isl).core core).groups = [(i, g), (j, h)] → i < j → g.place = place → h.place = place →
    g.role = .vector → h.role = .vector → g.ended = false → h.ended = false →
    Gives .urgencyEvaluation s [isl, core] fun t => MemoryKept s t ∧ Awaits t .urgencyEvaluation [isl, core] ∧
      (t.isl isl).group? core i = some { g with urgent := decide (g.retired.toNat ≤ h.retired.toNat) } ∧
      (t.isl isl).group? core j = some { h with urgent := decide (h.retired.toNat < g.retired.toNat) } ∧
      ∀ p ∈ ((t.isl isl).core core).l1, p.2.prot = false) ∧
  ∀ (s : State) (isl core gid : Nat) (g : Group) (w : Wg), ((s.isl isl).core core).groups = [(gid, g)] → g.ended = true →
    g.pend = [] → g.due = [] → (s.isl isl).wg? core g.place = some w →
    (g.unacked ≠ 0 → Gives .groupSlotRelease s [isl, core, gid] fun t => Awaits t .groupSlotRelease [isl, core, gid] ∧
      (t.isl isl).group? core gid = some g) ∧
    (g.unacked = 0 → g.releasing = [] → (∀ p ∈ g.flags, p.2 = 0) →
      Gives .groupSlotRelease s [isl, core, gid] fun t => MemoryKept s t ∧ (t.isl isl).group? core gid = none ∧
        ∃ w', (t.isl isl).wg? core g.place = some w' ∧ tgetD w'.gone g.gidx [] = g.v ∧ tgetD w'.goneS g.gidx [] = g.s))

/-- The steps of a load of the instruction store (R86, R138, R139, R145). A directory entry that arrives and may be read gives
the load the slots that its instructions take, and its image is read; one that may not ends it with status 4, one with more
than 8,192 instructions with 5, one whose slots do not all lie among those it may use with 3. An image whose address is in a
window, or that faults, ends it with 4: the entry is gone. Else its words stand in the store from the load's first slot on, the
entry is resident, and the status is 0. The status goes to the register of the instruction that loads, and its flag falls.
`OVL.ADDR` gets the address of its instruction, or 0.

Translation (R382-R384, R387, R393) and waits on memory (R241). A leaf grants an access, or takes PERM, and places the
byte at its address plus the offset in its page; a walk that ends at a bad entry takes XLATE in its requests, one that ends at
a leaf installs the translation, one that a shootdown overtook begins again. Before the first write to a 64 KiB page of an
interval, the page's bytes as they are before the write are copied to a free page of the pool, its leaf's EPOCH becomes that
of the context, and nothing else in memory changes; where the pool is full, and before a write to a larger page, nothing is
copied and the launch becomes non-replayable. A monitor that fires, and a poll, read again what the wait waits for.

That the words of a load are written when the last of them arrives is the model's choice (log 52), and so is the copy's place
on the pool's first free page (log 60). -/
def Obligations.OverlaysAndTranslation : Prop :=
  ((∀ (s : State) (isl id n gid : Nat) (o : Op) (g : Group) (c : Ctl) (k : BitVec 8) (y : Opnd) (z : ZOp) (r : REntry),
    OnlyOp s isl id o gid g → o.instr = .ovlLd c (.s k) y z → o.lanes ≠ 0 → g.ended = false →
    ((s.isl isl).core o.core).rtab = [(n, r)] → n = fld o.b 0 32 →
    (∀ gp ∈ ((s.isl isl).core o.core).groups, ∀ th ∈ gp.2.threads, ∀ x d, th.2.stat ≠ .ovl x d n) →
    let d := (s.readDir isl o.core o.eater o.asid (o.a.setWidth 19)).1
    let ends (st : Nat) (t : State) : Prop := MemoryKept s t ∧ ∃ h, Ended t isl o gid g h ∧ h.v = g.v ∧ h.o = g.o ∧ h.lt = g.lt ∧
      ∀ j, h.sreg j = if j = k.toNat then BitVec.ofNat 32 st else g.sreg j
    let gone (st : Nat) (t : State) : Prop := ends st t ∧ ((t.isl isl).core o.core).rtab = []
    let slots (v : Nat) : Nat := (ovCount v + 1023) / 1024
    let mine (v : Nat) : Prop := r.first + slots v ≤ 32 ∧ ∀ j, r.first < j → j < r.first + slots v → bitsN (fld o.b 32 32) j 1 = 1
    (o.performed = false → d = none → Gives .overlayDirectoryArrival s [isl, o.core, id] (gone 4)) ∧
    (∀ v, o.performed = false → d = some v → 8192 < ovCount v → Gives .overlayDirectoryArrival s [isl, o.core, id] (gone 5)) ∧
    (∀ v, o.performed = false → d = some v → ovCount v ≤ 8192 → ¬mine v →
      Gives .overlayDirectoryArrival s [isl, o.core, id] (gone 3)) ∧
    (∀ v, o.performed = false → d = some v → ovCount v ≤ 8192 → mine v →
      Gives .overlayDirectoryArrival s [isl, o.core, id] fun t => MemoryKept s t ∧
        ((t.isl isl).core o.core).rtab = [(n, { r with length := slots v, count := ovCount v, mst := ovMst v })] ∧
        Awaits t .overlayLoadComplete [isl, o.core, id]) ∧
    (inWindow (ovAddr o.bulk.desc.toNat) = true → Gives .overlayLoadComplete s [isl, o.core, id] (gone 4)) ∧
    (inWindow (ovAddr o.bulk.desc.toNat) = false →
      let image := (s.readVa isl o.core noPlace (ovContext (s.isl isl) o.asid (o.a.setWidth 19)) true .image 0
        (ovAddr o.bulk.desc.toNat) (12 * ovCount o.bulk.desc.toNat)).1
      (image.fault ≠ none → Gives .overlayLoadComplete s [isl, o.core, id] (gone 4)) ∧
      (image.fault = none → Gives .overlayLoadComplete s [isl, o.core, id] fun t => ends 0 t ∧
        ((t.isl isl).core o.core).rtab = [(n, { r with loading := false })] ∧
        ∀ j, j < ovCount o.bulk.desc.toNat → tgetD ((t.isl isl).core o.core).istore (1024 * r.first + j) 0 =
          BitVec.ofNat 96 (leNat ((image.bytes.drop (12 * j)).take 12))))) ∧
  ∀ (s : State) (isl id gid : Nat) (o : Op) (g : Group) (c : Ctl) (k : BitVec 8) (y : Opnd), OnlyOp s isl id o gid g →
    o.instr = .ovlAddr c (.s k) y → o.lanes ≠ 0 → g.ended = false →
    let cp : Word := o.a.setWidth 32
    let v (d : Option Nat) : DWord := match d with
      | some d => if cpOff cp < ovCount d then BitVec.ofNat 64 ((ovAddr d).toNat + 12 * cpOff cp) else 0
      | none => 0
    Gives .overlayDirectoryArrival s [isl, o.core, id] fun t => MemoryKept s t ∧ (t.isl isl).ops = [] ∧
      ∃ g', (t.isl isl).group? o.core gid = some g' ∧
        g'.sreg k.toNat = (v (s.readDir isl o.core o.eater o.asid (cpHandle cp)).1).setWidth 32 ∧
        g'.sreg (k.toNat + 1) = (v (s.readDir isl o.core o.eater o.asid (cpHandle cp)).1 >>> 32).setWidth 32) ∧
  ((∀ (pte level : Nat) (priv : Bool) (w : Want) (va : VA),
    let denied := (w = .write ∧ pte.testBit 2 = false) ∨ (w = .image ∧ pte.testBit 3 = false) ∨ (priv = false ∧ pte.testBit 4 = false)
    let home := pte / 2 ^ 8 % 4
    let pa := pte / 2 ^ 16 % 2 ^ 32 * 65536 + va.toNat % (65536 * 8192 ^ level)
    (denied → leafGrant pte level priv w va = .error 0x11) ∧
    (¬denied → home < 2 → pa < Config.hbmBytes → leafGrant pte level priv w va =
      .ok (if home = 0 then .line (pa / 128) (pa % 128) else .unc pa)) ∧
    (¬denied → home < 2 → Config.hbmBytes ≤ pa → leafGrant pte level priv w va = .error 0x10)) ∧
  (∀ (s : State) (isl n id gid : Nat) (k : Walk) (o : Op) (g : Group) (u : Sub) (a : Acc) (c : Ctl) (ty : IType) (e : MemExt)
    (x ad : Opnd) (off : BitVec 10), (s.isl isl).walks = [(n, k)] → (s.isl isl).walkQueue = [] → k.waiters = [(id, u.key)] →
    OnlyOp s isl id o gid g → o.instr = .ld c ty e x ad off → o.subs = [u] → u.accs = [a] → a.va = k.va → a.fault = none →
    a.loc = none → u.stage = .walking → u.counted = false → o.asid = k.asid →
    (∀ l, tget? s.launches o.launch = some l → l.killed = false) →
    let found := ((s.walkTouch isl k.asid k.va).walk isl k.asid k.va).1
    (k.stale = true → Gives .tableWalk s [isl, n] fun t => MemoryKept s t ∧ DueIn t isl 1 .tableWalk [isl, n] ∧
      (t.isl isl).walks = [(n, { k with stale := false })]) ∧
    (k.stale = false → found = .bad → (s.isl isl).faults = [] → Gives .tableWalk s [isl, n] fun t => MemoryKept s t ∧
      (t.isl isl).walks = [] ∧ (∃ g', (t.isl isl).group? o.core gid = some g' ∧ g'.parked = true ∧ SameRegisters g' g) ∧
      Posted s t isl fun b => recCode b = 0x10 ∧ recAddr b = a.va ∧ recCp b = o.cp) ∧
    (∀ pte level ea, k.stale = false → found = .leaf pte level ea → Gives .tableWalk s [isl, n] fun t => MemoryKept s t ∧
      (t.isl isl).walks = [] ∧ ∃ l, tgetD (t.isl isl).microTlb o.core [] =
        { asid := k.asid, va := k.va, level := level, pte := BitVec.ofNat 64 pte } :: l)) ∧
  (∀ (s : State) (isl n : Nat) (k : Walk) (c : BitVec 512), tget? (s.isl isl).walks n = some k → tget? (s.isl isl).ctxs k.asid.toNat = some c →
    Gives .snapshotPageCopy s [isl, n] fun t => DueIn t isl 1 .tableWalk [isl, n] ∧
      (∀ pte level ea key l, (s.walk isl k.asid k.va).1 = .leaf pte level ea → s.needsSnap isl k.asid k.va pte level = some key →
        tget? s.launches key = some l → ((∀ i, i < fld (s.isl isl).sys.snpool 48 16 → ∃ p ∈ (s.isl isl).pageLogs, p.pool = i) ∨ level ≠ 0) →
        MemoryKept s t ∧ (t.isl isl).pageLogs = (s.isl isl).pageLogs ∧
          ∃ l', tget? t.launches key = some l' ∧ l'.nonReplayable = true) ∧
      (∀ pte ea key, (s.walk isl k.asid k.va).1 = .leaf pte 0 ea → s.needsSnap isl k.asid k.va pte 0 = some key →
        let page := pte / 2 ^ 16 % 2 ^ 32 * 65536
        let pool := fld (s.isl isl).sys.snpool 0 48
        0 < fld (s.isl isl).sys.snpool 48 16 → (s.isl isl).pageLogs = [] → pte / 2 ^ 8 % 4 < 2 → page < Config.hbmBytes →
        (ea + 8 ≤ pool ∨ pool + 65536 ≤ ea) → (s.isl isl).cores = [] → (s.isl isl).filters = [] → (s.isl isl).homes = [] →
        (s.isl isl).versions = [] → (s.isl isl).reqs = [] → memWf (s.isl isl).mem = true →
        OthersKept s t isl ∧ t.launches = s.launches ∧
        (t.isl isl).pageLogs = [{ launch := key, asid := k.asid, pa := page, pin := none, pte := ea, pool := 0 }] ∧
        (∀ j, j < 65536 → memRead (t.isl isl).mem (pool + j) = memRead (s.isl isl).mem (page + j)) ∧
        (∀ j, j < 8 → memRead (t.isl isl).mem (ea + j) = BitVec.ofNat 8 ((pte % 2 ^ 48 + cxSnepoch c * 2 ^ 48) / 256 ^ j)) ∧
        ∀ a, (a < pool ∨ pool + 65536 ≤ a) → (a < ea ∨ ea + 8 ≤ a) →
          memRead (t.isl isl).mem a = memRead (s.isl isl).mem a)) ∧
  ∀ (row : Instr) (s : State) (isl id q r off : Nat) (o : Op) (u : Sub) (a : Acc) (c : Ctl) (ty : IType) (ne : Bool)
    (win : BitVec 2) (pol : Policy) (x ad : Opnd) (d : BitVec 10), row ∈ [.waitaMonitorFire, .waitaPoll] → s.op? isl id = some o →
    o.instr = .waita c ty ne win pol x ad d → o.subs = [u] → u.stage = .waiting → u.accs = [a] → a.done = false → a.fault = none →
    a.loc = some (.scr q r off) → Gives row s [isl, o.core, id] fun t => MemoryKept s t ∧
      (∀ m ∈ ((t.isl isl).core o.core).monitors, m.op ≠ id) ∧
      (Due.cyc isl (t.cyc isl + (if q = o.core then Config.latOwn else Config.latPeer) / 2), Act.perform isl o.core id u.key) ∈ t.agenda)

/-! ## The fabric -/

/-- A packet at its target (R344, R346, R347, R353, R355, R356, R358, R368). One waits there while an operation before its own
in its queue has packets to send or stands with a fault. Without a valid context there it is refused with code
0x21. A notification raises its counter; a write stores its bytes and no other byte of memory changes, and raises the counter
it carries, once for its operation; an atomic leaves the
combined value and carries the old one back, and one that was performed before only does the latter; the bytes of a read go
back. Each is acknowledged over the links it took.

What returns to the island that issued (R346, R353, R355, R356, R358). What belongs to an attempt that has been given up
is dropped; a refusal becomes REMOTE_PERM; a notification ends with its acknowledgement, a `PUT` with its last one; the old
value of an atomic goes to its lane's register, unless its group has ended; the bytes of a `GET` are written where they go, and
its last set the touched scratchpad lines full and end it.

That a packet waits for its queue at its target, and that a counter is raised once for an operation that is replayed, is the
model's reading (log 70). -/
def Obligations.PacketsAtTheirTarget : Prop :=
  (∀ (s : State) (id : Nat) (p : Pkt) (c : BitVec 512), s.pkts = [(id, p)] → p.route = [] → p.done = false →
    tget? (s.isl p.dst).ctxs p.asid.toNat = some c →
    let x := s.isl p.dst
    let sum (k n : Nat) : DWord := BitVec.ofNat 64 (min ((x.counter k).toNat + n) (2 ^ 64 - 1))
    let answered (t : State) (n code : Nat) (f : Pkt → Prop) : Prop :=
      (∃ r, t.pkts = [(n, r)] ∧ r.done = true ∧ r.code = code ∧ f r) ∧
        DuePs t (oneWay p.links.length) .fabricAcknowledgement [p.src, n]
    let gives (P : State → Prop) : Prop := Gives .fabricPacketArrival s [p.dst, id] P
    let before := s.queueBefore p.src p.core p.place p.op
    ((∃ i ∈ before, ∃ o, s.op? p.src i = some o ∧ (o.faulted = true ∨ o.sent = false)) →
      gives fun t => t.islands = s.islands ∧ t.pkts = s.pkts ∧ DueIn t p.dst 1 .fabricPacketArrival [p.dst, id]) ∧
    (before = [] →
    (cxV c = false → gives fun t => MemoryKept s t ∧ answered t id 0x21 fun _ => True) ∧
    (p.kind = .notify → cxV c = true → x.rseq = [] → gives fun t => MemoryKept s t ∧ (answered t id p.code fun _ => True) ∧
      (t.isl p.dst).counter (fld p.x 0 10) = sum (fld p.x 0 10) (fld p.y 0 32)) ∧
    (∀ q, p.kind = .atom → cxV c = true → x.rseq = [q] → q.src = p.src → q.op = p.op → q.lane = p.key →
      gives fun t => MemoryKept s t ∧ answered t id p.code fun r => r.x = q.old) ∧
    ∀ e, cxV c = true → x.oedTlb = [e] → e.covers p.asid p.va = true → s.launches = [] →
      (∀ w code, p.kind = .write ∧ w = Want.write ∨ p.kind = .atom ∧ x.rseq = [] ∧ w = Want.write ∨
          p.kind = .read ∧ p.key = 0 ∧ w = Want.read →
        leafGrant e.pte.toNat e.level p.priv w p.va = .error code →
        gives fun t => MemoryKept s t ∧ answered t id 0x21 fun _ => True) ∧
      (∀ l pa, p.kind = .write → leafGrant e.pte.toNat e.level p.priv .write p.va = .ok l → MemoryAt x l p.data.length pa →
        memWf x.mem = true → gives fun t => OthersKept s t p.dst ∧ memWf (t.isl p.dst).mem = true ∧
          BytesWritten x.mem (t.isl p.dst).mem pa p.data ∧ (answered t id p.code fun _ => True) ∧
          ∀ k, (t.isl p.dst).counter k = if p.nctr.map (· % 1024) = some (k % 1024) ∧ p.code = 0 ∧
            (∃ o, s.op? p.src p.op = some o ∧ o.attempt = p.attempt) ∧ (∀ q ∈ x.rseq, q.src = p.src → q.op ≠ p.op)
            then sum k 1 else x.counter k) ∧
      (∀ l pa ct op wide win ord a b z, p.kind = .atom → leafGrant e.pte.toNat e.level p.priv .write p.va = .ok l →
        MemoryAt x l p.n pa → memWf x.mem = true → x.rseq = [] → p.instr = .ratom ct op wide win ord a b z →
        let m := memNat x.mem pa p.n
        let v := p.x.toNat % 256 ^ p.n
        let new := match op with
          | .add => (m + v) % 256 ^ p.n
          | .fadd => atomCombine .fadd (8 * p.n) m v
          | .swap => v
          | .cas => if m = v then p.y.toNat % 256 ^ p.n else m
          | .minN => min m v
          | .maxN => max m v
          | .minI => if sextN m (8 * p.n) ≤ sextN v (8 * p.n) then m else v
          | .maxI => if sextN v (8 * p.n) ≤ sextN m (8 * p.n) then m else v
        gives fun t => OthersKept s t p.dst ∧ memWf (t.isl p.dst).mem = true ∧
          BytesWritten x.mem (t.isl p.dst).mem pa (leBytes p.n new) ∧ (answered t id p.code fun r => r.x = BitVec.ofNat 64 m) ∧
          (t.isl p.dst).rseq = [{ src := p.src, op := p.op, lane := p.key, old := BitVec.ofNat 64 m }]) ∧
      ∀ l pa o, p.kind = .read → leafGrant e.pte.toNat e.level p.priv .read p.va = .ok l → MemoryAt x l p.n pa → p.key = 0 →
        s.op? p.src p.op = some o → pgLen o.bulk.desc = p.n → pieceLen o.bulk.desc 0 = p.n → 0 < p.n →
        s.nextId ≠ id → gives fun t => MemoryKept s t ∧
          answered t s.nextId p.code fun r => r.data = leBytes p.n (memNat x.mem pa p.n) ∧ r.va = p.va)) ∧
  (∀ (s : State) (isl pid : Nat) (p : Pkt), s.pkts = [(pid, p)] →
    let answers (P : State → Prop) : Prop := Gives .fabricAcknowledgement s [isl, pid] P
    let gives (P : State → Prop) : Prop := answers fun t => t.pkts = [] ∧ P t
    (∀ o, s.op? isl p.op = some o → o.attempt ≠ p.attempt → gives fun t => t.islands = s.islands) ∧
    (∀ o, s.op? isl p.op = some o → o.attempt = p.attempt → p.code ≠ 0 →
      answers fun t => t.islands = s.islands ∧ DueIn t isl 0 .remotePerm [isl, p.op, p.attempt, p.key, p.va.toNat]) ∧
    ∀ gid o g w, OnlyOp s isl p.op o gid g → o.attempt = p.attempt → p.code = 0 → (s.isl isl).wg? o.core o.place = some w →
      let left (t : State) : Prop := ∃ w', (t.isl isl).wg? o.core o.place = some w' ∧ w'.fabq = w.fabq.filter fun i => i ≠ p.op
      (∀ c x y z, o.instr = .rntfy c x y z → p.kind = .notify →
        gives fun t => MemoryKept s t ∧ Ended t isl o gid g g ∧ left t) ∧
      (∀ c x y, o.instr = .put c x y → p.kind = .write →
        (o.bulk.moved < pgLen o.bulk.desc → gives fun t => t.islands = s.islands) ∧
        (pgLen o.bulk.desc ≤ o.bulk.moved → gives fun t => MemoryKept s t ∧ Ended t isl o gid g g ∧ left t)) ∧
      (∀ c op wide win ord x a z u k, o.instr = .ratom c op wide win ord x a z → p.kind = .atom →
        (ord ≠ .acq ∧ ord ≠ .ar) → o.injected = true → o.subs = [u] → u.key = p.dst → p.dst < 16 → u.accs = [k] → k.lane = p.key →
        gives fun t => MemoryKept s t ∧ Ended t isl o gid g (if g.ended then g else ratomResult o.instr p.key p.x g) ∧ left t) ∧
      ∀ c x y q r off v, o.instr = .get c x y → p.kind = .read → inWindow (vaPlus (pgLva o.bulk.desc) p.key) = true →
        windowLoc (s.isl isl) o.core o.place (vaPlus (pgLva o.bulk.desc) p.key) = some (.scr q r off) →
        (s.isl isl).wg? q r = some v → memWf v.scr = true → v.held = [] → s.queueBefore isl o.core o.place p.op = [] →
        (o.bulk.got + p.data.length < pgLen o.bulk.desc → gives fun t => MemoryKept s t ∧
          (∃ o', t.op? isl p.op = some o' ∧ o'.bulk.got = o.bulk.got + p.data.length) ∧
          ∃ v', (t.isl isl).wg? q r = some v' ∧ BytesWritten v.scr v'.scr off p.data) ∧
        (pgLen o.bulk.desc ≤ o.bulk.got + p.data.length → gives fun t => MemoryKept s t ∧ Ended t isl o gid g g ∧
          (∃ v', (t.isl isl).wg? q r = some v' ∧ BytesWritten v.scr v'.scr off p.data ∧
            (pgFill o.bulk.desc = false → v'.emptyLines = v.emptyLines) ∧
            ∀ n a, pgFill o.bulk.desc = true →
              windowLoc (s.isl isl) o.core o.place (pgLva o.bulk.desc) = some (.scr q r a) → a / 128 ≤ n →
              n ≤ (a + pgLen o.bulk.desc - 1) / 128 → n ∉ v'.emptyLines) ∧
          ∀ k, (t.isl isl).counter k = if pgNen o.bulk.desc ∧ k % 1024 = pgNctr o.bulk.desc then
            BitVec.ofNat 64 (min (((s.isl isl).counter k).toNat + 1) (2 ^ 64 - 1)) else (s.isl isl).counter k))

/-- Faults after issue (R358): an operation that its target refuses, or that is not acknowledged in time, posts REMOTE_PERM or
REMOTE_TIMEOUT with its code pointer, lanes, target and remote address, and its group parks; what is under way of that attempt
no longer counts, and neither does an event of an earlier attempt. A collective that waits for a closed port longer than
`sys.rtime` ends with status 6 (R364).

The injection of operations (R342, R346, R350, R351, R355, R356, R358, R368). An operation behind one whose last packet has
not left waits. One whose target has no usable route any more is discarded: its lanes have REMOTE_ABSENT due. Else its timer of
`sys.rtime` microseconds starts and its packets leave: a notification, the lanes of an atomic, the request of a `GET`, the
bytes of a `PUT` as they are read.

Packets on their way (R342, R358, R367, R368): an OED sends a packet on by the next port of its route, over a first link
in 600 ns and over each further one in 125 ns; behind a closed port it waits. -/
def Obligations.PacketsOnTheirWay : Prop :=
  ((∀ (s : State) (isl id gid : Nat) (o : Op) (g : Group), s.op? isl id = some o → o.agent = .group o.core gid →
    (s.isl isl).group? o.core gid = some g → g.age = o.age →
    let posts (row : Instr) (args : List Nat) (code target : Nat) (lanes : LaneMask) (va : VA) : Prop :=
      Gives row s args fun t => MemoryKept s t ∧ (∃ o', t.op? isl id = some o' ∧ o'.attempt = o.attempt + 1) ∧
        (∃ g', (t.isl isl).group? o.core gid = some g' ∧ g'.parked = true ∧ g'.records = g.records + 1) ∧
        Posted s t isl fun b => recCode b = code ∧ recCp b = o.cp ∧ recSource b = 3 ∧ recLanes b = lanes ∧ fld b 340 4 = target ∧
          recAddr b = va ∧ recAsid b = o.asid ∧ recAgent b = agentWord 3 o.core o.place
    let whole (target key : Nat) (va rva : VA) : Prop :=
      posts .remotePerm [isl, id, o.attempt, key, va.toNat] 0x21 target (BitVec.allOnes 64) va ∧
        posts .remoteTimeout [isl, id, o.attempt] 0x22 target (BitVec.allOnes 64) rva
    (∀ c x y key va, o.instr = .put c x y ∨ o.instr = .get c x y →
      whole (pgIsland o.bulk.desc) key va (pgRva o.bulk.desc)) ∧
    (∀ c x y z key va, o.instr = .rntfy c x y z → whole (fld o.a 0 4) key va 0) ∧
    (∀ c op w win ord x a z u k va, o.instr = .ratom c op w win ord x a z → o.subs = [u] → u.key < 16 → u.accs = [k] → k.lane < 64 →
      k.done = false → k.fault = none →
      posts .remotePerm [isl, id, o.attempt, k.lane, va] 0x21 u.key (1#64 <<< k.lane) k.va ∧
        posts .remoteTimeout [isl, id, o.attempt] 0x22 u.key (1#64 <<< k.lane) k.va) ∧
    ∀ n key va, n ≠ o.attempt → Gives .remotePerm s [isl, id, n, key, va] (fun t => t = { s with pkts := t.pkts } ∧
        ∀ q, q ∈ t.pkts ↔ q ∈ s.pkts ∧ ¬(q.2.src = isl ∧ q.2.op = id ∧ q.2.attempt = n ∧ q.2.key = key ∧ q.2.code ≠ 0)) ∧
      Gives .remoteTimeout s [isl, id, n] fun t => t = s) ∧
  ∀ (s : State) (isl k port : Nat) (c : Coll), tget? s.colls k = some c → isl ∈ c.stuck →
    Gives .remoteTimeout s [isl, k, port, 0] fun t => t.islands = s.islands ∧
      ∃ c', tget? t.colls k = some c' ∧ c'.status = some 6) ∧
  (∀ (s : State) (isl id : Nat) (o : Op) (w : Wg), s.op? isl id = some o → o.faulted = false →
    (s.isl isl).wg? o.core o.place = some w →
    (o.injected = false →
    (∀ n p, w.fabq = [n, id] → n ≠ id → s.op? isl n = some p → p.sent = false →
      Gives .fabricInject s [isl, id] fun t => t = s) ∧
    (∀ gid g c x y z, OnlyOp s isl id o gid g → o.instr = .rntfy c x y z → w.fabq = [id] → (s.isl isl).faults = [] →
      (s.isl isl).routeTo (fld o.a 0 4) = none → (∀ l ∈ lanesOf o.lanes, (tget? g.threads l).isSome = true) →
      Gives .fabricInject s [isl, id] fun t => MemoryKept s t ∧ Ended t isl o gid g g ∧
        ∃ g', (t.isl isl).group? o.core gid = some g' ∧ g'.due = g.due ++ (lanesOf o.lanes).map fun l =>
          { lane := l, op := id, code := 0x20, info := BitVec.ofNat 64 (fld o.a 0 4 + 256 * 0xCB) }) ∧
    (w.fabq = [id] → (s.isl isl).running = true →
      let starts (P : State → Prop) : Prop := Gives .fabricInject s [isl, id] fun t => MemoryKept s t ∧
        (∃ o', t.op? isl id = some o' ∧ o'.injected = true) ∧
        DuePs t (1000000 * (s.isl isl).sys.rtime.toNat) .remoteTimeout [isl, id, o.attempt] ∧ P t
      let sends (t : State) (P : Pkt → Prop) : Prop := ∃ n p, tget? t.pkts n = some p ∧ p.src = isl ∧ p.op = id ∧
        p.attempt = o.attempt ∧ p.asid = o.asid ∧ p.done = false ∧ P p
      (∀ c x y z r, o.instr = .rntfy c x y z → (s.isl isl).routeTo (fld o.a 0 4) = some r →
        starts fun t => sends t fun p => p.kind = .notify ∧ p.dst = fld o.a 0 4 ∧ fld p.x 0 10 = fld o.a 4 10 ∧ p.y = o.b) ∧
      (∀ c op wide win ord x a z u k r, o.instr = .ratom c op wide win ord x a z → o.subs = [u] → u.key < 16 → u.accs = [k] →
        k.lane < 64 → k.done = false → k.fault = none → (s.isl isl).routeTo u.key = some r →
        starts fun t => sends t fun p => p.kind = .atom ∧ p.dst = u.key ∧ p.key = k.lane ∧ p.va = k.va ∧ p.n = k.n ∧
          p.x = k.x ∧ p.y = k.y ∧ p.instr = o.instr) ∧
      (∀ c x y r, o.instr = .get c x y → (s.isl isl).routeTo (pgIsland o.bulk.desc) = some r →
        starts fun t => sends t fun p => p.kind = .read ∧ p.dst = pgIsland o.bulk.desc ∧ p.va = pgRva o.bulk.desc ∧
          p.n = pgLen o.bulk.desc) ∧
      ∀ c x y r, o.instr = .put c x y → (s.isl isl).routeTo (pgIsland o.bulk.desc) = some r →
        starts fun t => DuePs t (beatPs (pieceLen o.bulk.desc 0)) .fabricInject [isl, id, o.attempt])) ∧
    ∀ c x y q r off v, o.instr = .put c x y → o.bulk.moved < pgLen o.bulk.desc →
      (s.isl isl).routeTo (pgIsland o.bulk.desc) ≠ none →
      let d := o.bulk.desc
      let n := pieceLen d o.bulk.moved
      inWindow (vaPlus (pgLva d) o.bulk.moved) = true →
      windowLoc (s.isl isl) o.core o.place (vaPlus (pgLva d) o.bulk.moved) = some (.scr q r off) → (s.isl isl).wg? q r = some v →
      v.emptyLines = [] → Gives .fabricInject s [isl, id, o.attempt] fun t => MemoryKept s t ∧
        (∃ o', t.op? isl id = some o' ∧ o'.bulk.moved = o.bulk.moved + n) ∧
        (∃ p, tget? t.pkts s.nextId = some p ∧ p.kind = .write ∧ p.src = isl ∧ p.dst = pgIsland d ∧ p.op = id ∧
          p.va = vaPlus (pgRva d) o.bulk.moved ∧ p.data = leBytes n (memNat v.scr off n) ∧
          p.nctr = if o.bulk.moved + n = pgLen d ∧ pgNen d = true then some (pgNctr d) else none) ∧
        (o.bulk.moved + n < pgLen d →
          DuePs t (beatPs (pieceLen d (o.bulk.moved + n))) .fabricInject [isl, id, o.attempt])) ∧
  (∀ (s : State) (id port : Nat) (p : Pkt) (r : List Nat), tget? s.pkts id = some p → p.done = false → p.route = port :: r →
    (∀ far q, (s.isl p.here).portTrained p.here port = true → port ∉ (s.isl p.here).closedPorts → s.farEnd p.here port = some (far, q) →
      Gives .fabricPacketArrival s [p.here, id] fun t => t.islands = s.islands ∧
        tget? t.pkts id = some { p with held := false, here := far, route := r, links := p.links ++ [16 * p.here + port] } ∧
        DuePs t (if p.links = [] then 600000 else 125000) .fabricPacketArrival [far, id]) ∧
    ((s.isl p.here).portTrained p.here port = false ∨ port ∈ (s.isl p.here).closedPorts →
      Gives .fabricPacketArrival s [p.here, id] fun t => t.islands = s.islands ∧ tget? t.pkts id = some { p with held := true } ∧
        t.agenda = s.agenda))

/-- Collectives (R359-R364, R367). A member joins with its descriptor; an OED whose inputs are all there combines them element by
element, its own first and its children's in ascending port code; the value goes to the parent in 600 ns, and waits where a
change has closed the port; with the root's the collective has status 0. Under another status each member's operation ends
with it and no byte is written; else the members owed the result write it, a line's bytes at a time, and the last ends. -/
def Obligations.Collectives : Prop :=  -- joining: a member of a broadcast that is not its root
  (∀ (s : State) (isl id : Nat) (o : Op) (c : Ctl) (x y : Opnd) (w : Wg), s.op? isl id = some o → o.instr = .coll c x y →
    o.faulted = false → o.injected = false → (s.isl isl).wg? o.core o.place = some w → w.fabq = [id] → s.colls = [] →
    clOp o.bulk.desc = 2 →
    isl ≠ clRoot o.bulk.desc → isl ∈ clMembers o.bulk.desc → clRoot o.bulk.desc ∈ clMembers o.bulk.desc →
    (∀ t ∈ clMembers o.bulk.desc, (s.isl isl).routeTo t ≠ none) →
    Gives .fabricInject s [isl, id] fun t => MemoryKept s t ∧ (∃ o', t.op? isl id = some o' ∧ o'.injected = true) ∧
      t.colls = [(s.nextId, { id := clId o.bulk.desc, members := [(isl, { op := id, desc := o.bulk.desc, ready := true })] })]) ∧
  -- combining
  (∀ (s : State) (isl k n : Nat) (c : Coll), tget? s.colls k = some c → s.collReady c isl = true → clOp c.desc ≤ 1 →
    let ins := (match tget? c.members isl with | some m => [m.words] | none => []) ++
      (s.collChildren c isl).map fun j => tgetD c.values j []
    (∀ v ∈ ins, v.length = n) → ins ≠ [] →
    let combined (t : State) : Prop := t.islands = s.islands ∧ ∃ c' v, tget? t.colls k = some c' ∧ tget? c'.values isl = some v ∧
      v.length = n ∧ (∀ u, ins = [u] → v = u) ∧
      (clType c.desc = 1 → ∀ j, j < n → v.getD j 0 = (ins.map fun u => u.getD j 0).sum) ∧
      (clType c.desc ≠ 1 → ∀ a b, ins = [a, b] → ∀ j, j < n → v.getD j 0 =
        BitVec.ofNat 32 (roundFp fmt32 0 (sumFv 0 [decodeF fmt32 (a.getD j 0).toNat, decodeF fmt32 (b.getD j 0).toNat]).1).1)
    (isl = clRoot c.desc → Gives .oedCombine s [isl, k] fun t => combined t ∧ ∃ c', tget? t.colls k = some c' ∧ c'.status = some 0) ∧
    ∀ port far q, isl ≠ clRoot c.desc → tget? c.parents isl = some port → s.farEnd isl port = some (far, q) →
      (port ∉ (s.isl isl).closedPorts → (s.isl isl).portTrained isl port = true → Gives .oedCombine s [isl, k] fun t =>
        combined t ∧ DuePs t 600000 .oedCombine [far, k, isl]) ∧
      (port ∈ (s.isl isl).closedPorts → (s.isl isl).running = true → Gives .oedCombine s [isl, k] fun t => combined t ∧
        (∃ c', tget? t.colls k = some c' ∧ c'.stuck = c.stuck ++ [isl]) ∧
        DuePs t (1000000 * (s.isl isl).sys.rtime.toNat) .remoteTimeout [isl, k, port, 0])) ∧
  -- a child's value arrives
  (∀ (s : State) (isl k child : Nat) (c : Coll), tget? s.colls k = some c → Gives .oedCombine s [isl, k, child] fun t =>
    t.islands = s.islands ∧ ∃ c', tget? t.colls k = some c' ∧ c' = { c with up := c.up ++ [child] }) ∧
  -- completion
  ∀ (s : State) (isl k gid off : Nat) (c : Coll) (m : Member) (o : Op) (g : Group) (cc : Ctl) (x : BitVec 8) (y : Opnd),
    s.colls = [(k, c)] → c.members = [(isl, m)] → m.ended = false → OnlyOp s isl m.op o gid g → o.instr = .coll cc (.s x) y →
    o.lanes ≠ 0 → g.ended = false →
    let ended (t : State) (n : Nat) : Prop := t.colls = [] ∧ (t.isl isl).ops = [] ∧
      (∃ g', (t.isl isl).group? o.core gid = some g' ∧ g'.sreg x.toNat = BitVec.ofNat 32 n ∧
        ∀ j, j ≠ x.toNat → g'.sreg j = g.sreg j) ∧
      ∀ j, (t.isl isl).counter j = if clNen m.desc ∧ j % 1024 = clNctr m.desc then
        BitVec.ofNat 64 (min (((s.isl isl).counter j).toNat + 1) (2 ^ 64 - 1)) else (s.isl isl).counter j
    (∀ n, c.status = some n → n ≠ 0 ∨ c.receives isl = false → n < 256 → Gives .collectiveCompletion s [isl, k, off] fun t =>
      MemoryKept s t ∧ ended t n) ∧
    ∀ q r a w, c.status = some 0 → c.receives isl = true → s.collDownClosed c 16 isl = none →
      let bs := bytesOf c.result
      let va := vaPlus (clDst m.desc) off
      let n := min (bs.length - off) (128 - va.toNat % 128)
      inWindow va = true → windowLoc (s.isl isl) o.core o.place va = some (.scr q r a) → (s.isl isl).wg? q r = some w →
      memWf w.scr = true → Gives .collectiveCompletion s [isl, k, off] fun t => MemoryKept s t ∧
        (∃ w', (t.isl isl).wg? q r = some w' ∧ BytesWritten w.scr w'.scr a ((bs.drop off).take n)) ∧
        (bs.length ≤ off + n → ended t 0) ∧
        (off + n < bs.length → t.colls = s.colls ∧ DuePs t (beatPs n) .collectiveCompletion [isl, k, off + n])

/-- The change of a port (R366, R367). A command closes the port and drains it; a second one for the port waits. The steps drain,
quiesce, retune, retrain and announce follow one another, each reported with TAG; with the last the port's bits take what the
retraining gave in every copy of the topology, and the port opens where it trained.

The removal of an island (R359, R389, R414, R422): the Bellwether's copy gives it the new state, with GEN + 1; it stops issue;
a quarantine is reported with the event QUARANTINE; launches that name it and have not started end ABSENT. -/
def Obligations.TopologyChanges : Prop :=
  ((∀ (s : State) (isl port action tag : Nat), s.siteState isl = 1 → 1 ≤ port → port ≤ 14 →
    ((∀ c ∈ (s.isl isl).portChgs, c.port ≠ port) → Gives .portChangeCommand s [isl, port, action, tag] fun t => MemoryKept s t ∧
      port ∈ (t.isl isl).closedPorts ∧ DuePs t 0 .portStepComplete [isl, port, 1] ∧
      (t.isl isl).portChgs = (s.isl isl).portChgs ++ [{ port := port, action := action, tag := tag }]) ∧
    ((∃ c ∈ (s.isl isl).portChgs, c.port = port) → Gives .portChangeCommand s [isl, port, action, tag] fun t =>
      t.islands = s.islands ∧ Awaits t .portChangeCommand [isl, port, action, tag])) ∧
  ∀ (s : State) (isl port ok : Nat) (c : PortChg), (s.isl isl).portChgs = [c] → c.port = port → ok ≤ 1 →
    (s.isl isl).fstat.qrdy = false →
    let gives (P : State → Prop) : Prop := Gives .portStepComplete s [isl, port, ok] P
    let next (t : State) : Prop := (t.isl isl).portChgs = [{ c with stage := c.stage + 1 }] ∧
      (t.isl isl).closedPorts = (s.isl isl).closedPorts ∧ MemoryKept s t ∧
      Reported s t isl [(3, c.stage % 256, c.tag % 65536, isl % 16)]
    (c.stage = 0 → s.portDrained isl port = false → gives fun t => t.islands = s.islands ∧
      DuePs t 125000 .portStepComplete [isl, port, ok]) ∧
    (c.stage = 0 ∧ s.portDrained isl port = true ∨ c.stage = 1 → gives fun t => next t ∧
      Awaits t .portStepComplete [isl, port, 1]) ∧
    (c.stage = 2 → gives fun t => next t ∧
      Awaits t .portStepComplete [isl, port, if c.action ≠ 1 ∧ s.trains isl port = true then 1 else 0]) ∧
    (c.stage = 3 → gives fun t => next t ∧ Awaits t .portStepComplete [isl, port, ok]) ∧
    ∀ b : Nat, c.stage = 4 → isl < 16 → b < 32 → 1 ≤ port → port ≤ 14 → s.bell = some b → s.siteState (b / 2) = 1 → s.siteState isl = 1 →
      s.topoQuiet = true → isl ≠ b / 2 → gives fun t => (t.isl isl).portChgs = [] ∧
        (t.isl isl).portTrained isl port = decide (ok = 1) ∧ (t.isl (b / 2)).portTrained isl port = decide (ok = 1) ∧
        (t.isl (b / 2)).topo.gen = (s.isl (b / 2)).topo.gen + 1 ∧
        (port ∈ (t.isl isl).closedPorts ↔ ok = 0 ∧ port ∈ (s.isl isl).closedPorts) ∧
        Reported s t isl [(3, 4, c.tag % 65536, isl % 16)]) ∧
  (∀ (s : State) (isl st b : Nat), s.bell = some b → b < 32 → isl < 16 → s.siteState isl = 1 → s.siteState (b / 2) = 1 →
    st = 2 ∨ st = 3 →
    (s.topoQuiet = false → Gives .islandRemoval s [isl, st] fun t => t.islands = s.islands ∧
      DueIn t (b / 2) 1 .islandRemoval [isl, st]) ∧
    (s.topoQuiet = true → (∀ p ∈ s.islands, p.2.ops = [] ∧ p.2.pbars = []) → s.colls = [] → s.pbRoot = [] →
      (∀ k, ∀ p ∈ s.agenda, flyingArrival k p.2 = none) → (s.isl (b / 2)).fstat.qrdy = false → isl ≠ b / 2 →
      let removed (t : State) : Prop := t.siteState isl = st ∧ (∀ k, k ≠ isl → t.siteState k = s.siteState k) ∧
        (t.isl isl).dark = true ∧ (t.isl isl).running = false ∧ (t.isl (b / 2)).topo.gen = (s.isl (b / 2)).topo.gen + 1 ∧
        Reported s t (b / 2) ((2, 0, 0, b / 2 % 16) :: if st = 3 then [(4, 0, 0, isl)] else [])
      (s.launches = [] → Gives .islandRemoval s [isl, st] removed) ∧
      ∀ n l, s.launches = [(n, l)] → l.onIsland isl = true → l.fail = 0 → l.started = false → l.rolling = false →
        Gives .islandRemoval s [isl, st] fun t => removed t ∧ Awaits t .launchComplete [n] ∧
          ∃ l', tget? t.launches n = some l' ∧ l'.fail = 3))

/-! ## Saving, faults, rollback and audit -/

/-- Pre-emption (R108-R110, R390). A cluster launch whose groups and contexts have all parked or ended, and which has drained, is
saved at its save area and leaves its core; one that has not drained is looked at again. At the timeout one that has not
parked becomes forced, and is saved with everything as soon as it has drained.

The fault queue and the event queue (R375, R379, R422): a pending record is written to the next slot, TAIL advances and the
interrupt is raised, and a record that has been acted on or withdrawn in the meantime leaves; without room nothing changes, nor
while requests of the record's instruction are still being translated (the model's choice, log 67). When HEAD has advanced, the island's own records that it has passed are
consumed and held events are written.

Rollback (R394): a launch that consumed poison is killed; where it is replayable it is rolled back and, once it has left every
island, its logged pages are copied back and its packet is dispatched again, else it completes with ERROR.

Audits (R396-R398): a rerun starts on a core of the other half that can admit it; signatures that agree end the audit, others
post MACHINE_CHECK with both and make the original core suspect; an audit that is abandoned before its rerun ends without a
verdict. -/
def Obligations.SavesAndRollbacks : Prop :=
  (∀ (s : State) (isl cl id core place : Nat) (c : Cl) (o : Op) (w : Wg), Saves s isl cl id core place c o w →
    (c.forced = false → (s.isl isl).clParked c = true → (s.isl isl).clAtRest (s.cyc isl) c = false →
      Gives .checkpointSave s [isl, cl] fun t => MemoryKept s t ∧
        t.isl isl = { s.isl isl with cls := [(cl, { c with pushes := none })] } ∧ Awaits t .checkpointSave [isl, cl]) ∧
    (∀ live, c.forced = false → (s.isl isl).clParked c = true → (s.isl isl).clAtRest (s.cyc isl) c = true →
      let pushed := (s.releaseCores isl cl c).2
      pushed.wgLive isl core place = (some live, pushed) →
      Gives .checkpointSave s [isl, cl] fun t => SavedNow s t isl id core place c o w) ∧
    (c.forced = false → (s.isl isl).clParked c = true → Gives .forcedSave s [isl, cl] fun t => t = s) ∧
    (c.forced = false → (s.isl isl).clParked c = false → (s.isl isl).resolve ≠ none → (s.isl isl).ops = [(id, o)] → w.ctx = none →
      Gives .forcedSave s [isl, cl] fun t => MemoryKept s t ∧ (t.isl isl).cls = [(cl, { c with forced := true, pushes := none })] ∧
        Awaits t .forcedSave [isl, cl, 1]) ∧
    (c.forced = true → (s.isl isl).clAtRest (s.cyc isl) c = true → (s.isl isl).ops = [(id, o)] → w.ctx = none →
      Gives .forcedSave s [isl, cl, 1] fun t => SavedNow s t isl id core place c o w)) ∧
  ((∀ (s : State) (isl tail slot : Nat) (r : FaultRec), (s.isl isl).faults = [r] → r.posted = false →
    let pa := fld (s.isl isl).sys.fq 0 48
    (s.qRoom isl pa = none → Gives .faultRecordPost s [isl] fun t => t = s) ∧
    (r.gathering = true → Gives .faultRecordPost s [isl] fun t => t = s) ∧
    (Room s isl pa tail slot → r.gathering = false → Gives .faultRecordPost s [isl] fun t =>
      Recorded s t isl pa tail slot r.bits ∧
      (t.isl isl).faults = (if r.settled then [] else [{ r with posted := true, num := tail }]) ∧
      (t.isl isl).irqFault = (s.isl isl).irqFault + 1)) ∧
  (∀ (s : State) (isl : Nat), (∀ r ∈ (s.isl isl).faults, r.posted = true) → (s.isl isl).events = [] →
    Gives .faultQueueRoom s [isl] fun t => MemoryKept s t ∧ ∀ r, r ∈ (t.isl isl).faults ↔
      r ∈ (s.isl isl).faults ∧ (recSource r.bits = 5 → s.qHead isl (fld (s.isl isl).sys.fq 0 48) ≤ r.num)) ∧
  ∀ (s : State) (isl tail slot : Nat) (b : BitVec 1024), (s.isl isl).faults = [] → (s.isl isl).events = [b] →
    let pa := fld (s.isl isl).host.eq 0 48
    Room s isl pa tail slot → Gives .faultQueueRoom s [isl] fun t => Recorded s t isl pa tail slot b ∧ (t.isl isl).events = [] ∧
      (t.isl isl).irqEvent = (s.isl isl).irqEvent + 1) ∧
  (∀ (s : State) (key : Nat) (l : Launch), s.launches = [(key, l)] →
    (l.rolling = false → l.killed = false → l.fail = 0 → (∀ p ∈ s.islands, p.2.cores = []) →
      Gives .launchRollback s [key] fun t => MemoryKept s t ∧ ∃ l', t.launches = [(key, l')] ∧ l'.killed = true ∧
        (l'.rolling = true ↔ pkReplay l.packet = true ∧ pkSnap l.packet = true ∧ l.nonReplayable = false ∧ l.replays < 3) ∧
        (l'.rolling = false → l'.fail = 6)) ∧
    (l.rolling = true → (∃ i ∈ s.islesOf l, (s.isl i).launchGone key = false) → Gives .launchRollback s [key] fun t => t = s) ∧
    ∀ x g, l.rolling = true → l.fail = 0 → s.islands = [(l.island, x)] → s.islesOf l = [l.island] → x.launchGone key = true →
      x.hyps.all (fun p => p.2.st ≠ .opened || p.1 = 0) = true → x.resolve = none → x.pageLogs = [g] → g.launch = key → g.pin = none →
      x.sys.dq = [] →
      x.cores = [] → x.filters = [] → x.homes = [] → x.versions = [] → x.reqs = [] → memWf x.mem = true →
      Gives .launchRollback s [key] fun t => DueIn t l.island 0 .launchStart [key] ∧ (t.isl l.island).pageLogs = [] ∧
        (∃ l', t.launches = [(key, l')] ∧ l'.rolling = false ∧ l'.killed = false ∧ l'.started = false ∧ l'.replays = l.replays + 1 ∧
          l'.packet = l.packet) ∧
        BytesWritten x.mem (t.isl l.island).mem g.pa (memReadN x.mem (fld x.sys.snpool 0 48 + 65536 * g.pool) 65536)) ∧
  ((∀ (s : State) (isl a : Nat) (u : Audit), tget? (s.isl isl).audits a = some u → u.rerun = none → u.core < 128 →
    (s.isl isl).auditRooms u ≠ [] → Gives .auditRerunStart s [isl, a] fun t => MemoryKept s t ∧
      ∃ core place cl u' w, tget? (t.isl isl).audits a = some u' ∧ u'.rerun = some (core, place) ∧ halfOf core ≠ halfOf u.core ∧
        DueIn t isl 0 .workgroupStart [isl, cl] ∧ (t.isl isl).wg? core place = some w ∧ w.audit = some a ∧ w.launch = u.launch ∧
        w.buffer = [] ∧ w.frames = u.wg.frames) ∧
  (∀ (s : State) (isl a core place : Nat) (u : Audit) (w : Wg) (k : CoreS), (s.isl isl).audits = [(a, u)] →
    (s.isl isl).cores = [(core, k)] → k.places = [(place, w)] → w.audit = some a → w.ended = true → w.killed = false →
    u.core < 128 → s.launches = [] →
    (w.sig = u.wg.sig → Gives .auditRerunEnd s [isl, a] fun t => MemoryKept s t ∧ (t.isl isl).audits = [] ∧
      (t.isl isl).faults = (s.isl isl).faults) ∧
    (w.sig ≠ u.wg.sig → Gives .auditRerunEnd s [isl, a] fun t => MemoryKept s t ∧ (t.isl isl).audits = [] ∧
      (t.isl isl).sys.coresus.getLsbD u.core = true ∧ Posted s t isl fun b => recCode b = 0x31 ∧ recSource b = 5 ∧
        recInfo b = u.wg.sig ∧ fld b 352 64 = w.sig.toNat ∧ recAgent b = agentWord 5 u.core 0)) ∧
  ∀ (s : State) (isl a : Nat) (u : Audit), (s.isl isl).audits = [(a, u)] → u.rerun = none →
    Gives .auditTimeout s [isl, a] fun t => MemoryKept s t ∧ (t.isl isl).audits = [])

/-- The system unit (R379, R387, R390, R391, R401-R403, R407). `SYSRD` answers with the register; a register that unprivileged code
may not read answers it with 0. `SYSWR` writes it. `TLBI` takes the matching translations out of the TLBs. `CTXSV` and `CTXLD`
answer with their statuses. `RESUME` of no record answers 1, of an island's own record 2. `SNAP` disarms every island, and has
every present island latch 320 ns later. -/
def Obligations.SystemUnit : Prop :=  (∀ (s : State) (isl id : Nat) (o : Op), s.op? isl id = some o → (∀ p ∈ s.agenda, p.2 ≠ .reply isl id) →
    let answers (v : DWord) : Prop := Gives .systemUnitRequest s [isl, id] fun t => MemoryKept s t ∧
      Answered t isl id v (halfTrip o.core)
    (∀ c x y n v, o.instr = .sysrd c x n ∨ o.instr = .sysrdSel c x y n → sysNow (s.isl isl) n.toNat o.a.toNat = some v →
      answers (if o.priv = true ∨ n.toNat = 0x16 ∨ n.toNat = 0x1B then v else 0)) ∧
    (∀ c x y, o.instr = .syswrSel c x y 0x029 ∨ o.instr = .syswr c y 0x029 →
      Gives .systemUnitRequest s [isl, id] fun t => MemoryKept s t ∧ Answered t isl id 0 (halfTrip o.core) ∧
        (t.isl isl).sys.rtime = o.b.setWidth 20) ∧
    (∀ c x y, o.instr = .syswrSel c x y 0x012 ∨ o.instr = .syswr c y 0x012 →
      Gives .systemUnitRequest s [isl, id] fun t => MemoryKept s t ∧ Answered t isl id 0 (halfTrip o.core) ∧
        fld (t.isl isl).sys.ovgdir 0 64 = (tgetD (s.isl isl).sys.halves (65536 * 0x011 + o.a.toNat) 0).toNat ∧
        fld (t.isl isl).sys.ovgdir 64 43 = fld o.b 0 43) ∧
    (∀ c x y, o.instr = .syswrSel c x y 0x01A → o.a.toNat < 32 → Gives .systemUnitRequest s [isl, id] fun t => MemoryKept s t ∧
      Answered t isl id 0 (halfTrip o.core) ∧ ∀ n, tgetD (t.isl isl).sys.rtab n 0 =
        if n = o.a.toNat ∧ o.a.toNat / 16 ≠ (if (s.isl isl).sys.rtact then 1 else 0) then o.b &&& 0x8000000FFFFFFFFF
        else tgetD (s.isl isl).sys.rtab n 0) ∧
    (∀ c, o.instr = .tlbiAll c → o.performed = false → o.after = [] → (s.isl isl).ops = [(id, o)] → o.subs = [] →
      Gives .systemUnitRequest s [isl, id] fun t => MemoryKept s t ∧ Answered t isl id 0 (halfTrip o.core) ∧
        (t.isl isl).oedTlb = [] ∧ (∀ p ∈ (t.isl isl).microTlb, p.2 = []) ∧ (∀ p ∈ (t.isl isl).clusterTlb, p.2 = []) ∧
        ∀ p ∈ (t.isl isl).walks, p.2.stale = true) ∧
    (∀ c x y, o.instr = .ctxsv c x y →
      let hit := (s.isl isl).clOf? (launchKey isl (fld o.bulk.desc 48 16)) (fld o.bulk.desc 64 32)
      (hit = none → answers 1) ∧
      ∀ cl k core place w, hit = some (cl, k) → k.ranks = [(core, place)] → (s.isl isl).wg? core place = some w →
        (fld o.bulk.desc 96 32 < saveKib w.hdr → answers 2) ∧
        (saveKib w.hdr ≤ fld o.bulk.desc 96 32 → k.saving ≠ none → answers 3) ∧
        (saveKib w.hdr ≤ fld o.bulk.desc 96 32 → k.saving = none → (s.isl isl).running = true →
          Gives .systemUnitRequest s [isl, id] fun t => MemoryKept s t ∧
            DuePs t (1000000 * (s.isl isl).sys.pretime.toNat) .forcedSave [isl, cl] ∧
            ∃ k', tget? (t.isl isl).cls cl = some k' ∧ (tget? (s.isl isl).cls cl = some k → k'.saving = some id))) ∧
    (∀ c x y, o.instr = .ctxld c x y → (∀ v ∈ (s.isl isl).saved, v.loader ≠ some id) →
      (s.isl isl).imageOf? o.bulk.desc isl = none → answers 1) ∧
    (∀ c x y v, o.instr = .ctxld c x y → (s.isl isl).saved = [v] → v.loader = none → v.pa = fld o.bulk.desc 0 48 →
      v.cl.launch = launchKey isl (fld o.bulk.desc 48 16) → v.cl.num = fld o.bulk.desc 64 32 →
      (v.discarded = true → answers 3) ∧
      (v.discarded = false → Gives .systemUnitRequest s [isl, id] fun t => MemoryKept s t ∧
        (t.isl isl).saved = [{ v with loader := some id }] ∧ DueIn t isl 0 .systemUnitRequest [isl, id])) ∧
    (∀ c x y, o.instr = .resumeReplay c x y ∨ o.instr = .resumeSkip c x y ∨ o.instr = .resumeTrap c x y →
      ((∀ r ∈ (s.isl isl).faults, r.settled = true ∨ recAgent r.bits ≠ o.a.setWidth 32) → answers 1) ∧
      ∀ r, (s.isl isl).faults = [r] → r.gathering = false → r.settled = false → recAgent r.bits = o.a.setWidth 32 →
        recSource r.bits = 5 → answers 2) ∧
    ∀ c x n, o.instr = .snap c x n →
      ((s.isl isl).sys.snapArm = false → answers 1) ∧
      ((s.isl isl).sys.snapArm = true → isl < 16 → Gives .systemUnitRequest s [isl, id] fun t => MemoryKept s t ∧
        Answered t isl id 0 (halfTrip o.core) ∧ DuePs t 320000 .snapshotLatch [n.toNat] ∧ (∀ k, (t.isl k).sys.snapArm = false) ∧
        (t.isl isl).sys.snapTag = n.setWidth 8)) ∧
  ∀ (s : State) (tag : Nat), Gives .snapshotLatch s [tag] fun t => MemoryKept s t ∧ ∀ i ∈ s.presentIsles,
    (t.isl i).half0.snapCount = BitVec.ofNat 64 (s.cyc i - (s.isl i).half0.resetAt) ∧
    (t.isl i).half1.snapCount = BitVec.ofNat 64 (s.cyc i - (s.isl i).half1.resetAt)

/-! ## Launches -/

/-- Launch queues (R98, R101, R103, R105, R106). A store to TAIL tags the packets it makes visible with the launch that made it; the
packet at HEAD is dispatched when its queue runs, the packet before it has started and its parent has completed: it gets the
lowest free number, HEAD passes it, and its start is looked at. A packet that is refused is not launched. That a descriptor
which is none (a reserved field not zero, LOGN 0, BASE not a multiple of 128) dispatches nothing is the model's choice (log 61).

The start of a launch (R100-R102, R392): with an island gone it ends ABSENT; else it starts when each of its conditions has
been seen to hold, each of its islands is handed its island launch, its queue goes on, and with SNAP the context's epoch is
raised. -/
def Obligations.LaunchesBegin : Prop :=
  ((∀ (s : State) (isl q key tail : Nat) (l : Launch), tget? s.launches key = some l → (s.queue isl false q).seen < tail →
    Gives .queueTailAdvance s [isl, 0, q, key, tail] fun t => MemoryKept s t ∧ Awaits t .launchDispatch [isl, 0, q] ∧
      (t.queue isl false q).seen = tail ∧
      (t.queue isl false q).parents = (s.queue isl false q).parents ++ [((s.queue isl false q).seen, key)]) ∧
  (∀ (s : State) (isl q key tail : Nat), (s.queue isl true q).seen < tail →
    Gives .queueTailAdvance s [isl, 1, q, key, tail] fun t => MemoryKept s t ∧ Awaits t .launchDispatch [isl, 1, q] ∧
      (t.queue isl true q).parents = (s.queue isl true q).parents ++ [((s.queue isl true q).seen, 0)]) ∧
  (∀ (s : State) (isl host q : Nat), Gives .queueRestart s [isl, host, q] fun t => t.islands = s.islands ∧
    Awaits t .launchDispatch [isl, host, q]) ∧
  ∀ (s : State) (isl q : Nat) (host : Bool),
    let e := (s.isl isl).qEntry host q
    let pa := qePa e
    let head := s.qHead isl pa
    let args := [isl, if host then 1 else 0, q]
    (e.getLsbD 63 = false ∨ (s.isl isl).fstat.qrdy = false ∨ s.qState isl pa ≠ 1 ∨ head = s.qTail isl pa ∨
        (s.queue isl host q).starting ≠ none ∨ s.qValid isl pa = false → Gives .launchDispatch s args fun t => t = s) ∧
    ∀ c v n st hdr u,
      let x := s.isl isl
      let slot := vaPlus (BitVec.ofNat 72 (s.qBase isl pa)) (128 * (head % 2 ^ s.qLogn isl pa))
      let p := BitVec.ofNat 1024 v
      s.servesQueue isl host q = true → s.qState isl pa = 1 → head < s.qTail isl pa → s.qTail isl pa - head ≤ 2 ^ s.qLogn isl pa →
      s.qValid isl pa = true → pa + 64 ≤ Config.hbmBytes → s.queue isl host q = {} → x.cores = [] → x.filters = [] →
      x.homes = [] → x.versions = [] → x.reqs = [] → memWf x.mem = true →
      tget? x.ctxs (qeAsid e).toNat = some c → s.vaQuiet isl (qeAsid e) (cxPriv c) slot 128 = true →
      -- the packet and its kernel record are read, which leaves the machine as `u`
      (s.readVaN isl (qeAsid e) (cxPriv c) slot 128).1 = some v →
      (s.readVaN isl (qeAsid e) (cxPriv c) slot 128).2.checkPacket isl host (qeAsid e) (cxPriv c) p = (st, hdr, u) →
      u.launches = [] → u.queue isl host q = {} → (u.isl isl).cores = [] → (u.isl isl).filters = [] →
      (∀ h ∈ (u.isl isl).homes, h.2.owner = none ∧ h.2.txn = none) → (u.isl isl).versions = [] → (u.isl isl).reqs = [] →
      memWf (u.isl isl).mem = true →
      (st ≠ 0 → Gives .launchDispatch s args fun t => t.launches = []) ∧
      (st = 0 → n = (if host then 1 else 0x8000) → Gives .launchDispatch s args fun t =>
        t.qHead isl pa = (head + 1) % 2 ^ 64 ∧ (t.queue isl host q).starting = some (launchKey isl n) ∧
        DueIn t isl 0 .launchStart [launchKey isl n] ∧
        t.launches = [(launchKey isl n, { num := n, packet := p, hdr := hdr, asid := qeAsid e, priv := cxPriv c, island := isl,
                                          hostQ := host, queue := q, slotVa := slot })])) ∧
  (∀ (s : State) (key : Nat) (l : Launch), s.launches = [(key, l)] → l.started = false → l.rolling = false →
    let met (i : Nat) : Prop := i ∈ l.depsSeen ∨
      depValue (pkDep l.packet i) ≤ ((s.isl (depIsland (pkDep l.packet i))).counter (depCounter (pkDep l.packet i))).toNat
    (s.allPresent l.packet = false → l.fail = 0 → Gives .launchStart s [key] fun t => t.islands = s.islands ∧
      Awaits t .launchComplete [key] ∧ ∃ l', t.launches = [(key, l')] ∧ l'.fail = 3) ∧
    (s.allPresent l.packet = true → (∃ i < pkNdep l.packet, ¬met i) → Gives .launchStart s [key] fun t =>
      t.islands = s.islands ∧ ∃ l', t.launches = [(key, l')] ∧ l'.started = false ∧
        ∀ i < pkNdep l.packet, i ∈ l'.depsSeen ↔ met i) ∧
    (s.allPresent l.packet = true → (∀ i < pkNdep l.packet, met i) → pkWinCnt l.packet = 0 →
      Gives .launchStart s [key] fun t => (∃ l', t.launches = [(key, l')] ∧ l'.started = true ∧ l'.packet = l.packet) ∧
        (∀ i < 16, l.onIsland i = true → tget? (t.isl i).handout key = some 0 ∧ DueIn t i 0 .clusterLaunchHandout [i, key]) ∧
        ((s.queue l.island l.hostQ l.queue).starting = some key → (t.queue l.island l.hostQ l.queue).starting = none ∧
          Awaits t .launchDispatch [l.island, if l.hostQ then 1 else 0, l.queue]) ∧
        ∀ i c, i < 16 → l.onIsland i = true → pkSnap l.packet = true → tget? (s.isl i).ctxs l.asid.toNat = some c →
          cxSnepoch c + 1 < 65536 → ∃ c', tget? (t.isl i).ctxs l.asid.toNat = some c' ∧ cxSnepoch c' = cxSnepoch c + 1))

/-- Cluster launches (R92, R94, R97, R102, R204, R300). Where a cluster admits it, the next cluster launch of an island launch takes
places on cores of that cluster, with its work identifiers, and waits for its start; else it waits for room. At its start each
group begins at its entry with its registers, flags and counters at 0 and each barrier expects its workgroup's groups. A
partition is written where it is a legal one.

The ends of workgroups, cluster launches and launches (R93, R94, R103-R105, R395). A workgroup whose groups' slots are free and
whose queues and context have drained ends, and its completion event is published or held; with the last workgroup its
cluster launch retires, and with the last of those the launch completes: STATUS is written, whatever the outcome; LNC is raised
where the launch has run to DONE, KILLED or REPLAYED, and after REJECTED, ABSENT or ERROR its queue halts and the event QHALT is
posted. -/
def Obligations.LaunchesEnd : Prop :=
  ((∀ (s : State) (isl key n : Nat) (l : Launch), tget? (s.isl isl).handout key = some n → tget? s.launches key = some l →
    ((∀ k < 32, admitAll l.hdr (hdrCluster l.hdr) ((s.isl isl).rooms k) = false) →
      Gives .clusterLaunchHandout s [isl, key] fun t => t = s) ∧
    ((∃ k < 32, admitAll l.hdr (hdrCluster l.hdr) ((s.isl isl).rooms k) = true) → hdrCluster l.hdr ≠ 0 →
      Gives .clusterLaunchHandout s [isl, key] fun t => MemoryKept s t ∧ ∃ cl c, tget? (t.isl isl).cls cl = some c ∧
        c.launch = key ∧ c.num = n ∧ (∀ r ∈ c.ranks, clusterOf r.1 = c.cluster) ∧
        DueIn t isl 0 .workgroupStart [isl, cl] ∧
        tget? (t.isl isl).handout key = (if n + 1 < pkNcl l.packet then some (n + 1) else tget? (tdel (s.isl isl).handout key) key) ∧
        (hdrCluster l.hdr = 1 → ∃ core place w, c.ranks = [(core, place)] ∧ (t.isl isl).wg? core place = some w ∧
          w.launch = key ∧ w.rank = 0 ∧ w.hdr = l.hdr ∧ w.waiting = true ∧ w.wid3 = BitVec.ofNat 64 n ∧
          let k := if l.hostQ then ordinalOf (pkIslMask l.packet) isl else 0
          w.wid4 = BitVec.ofNat 64 (k % pkE4 l.packet) ∧ w.wid5 = BitVec.ofNat 64 (k / pkE4 l.packet)))) ∧
  (∀ (s u : State) (isl cl core place : Nat) (c : Cl) (l : Launch) (w v : Wg), tget? (s.isl isl).cls cl = some c →
    c.ranks = [(core, place)] → tget? s.launches c.launch = some l → (s.isl isl).wg? core place = some w → w.waiting = true →
    w.killed = false → s.startAll isl (startCps (pkCodeptr l.packet)) c.ranks = (.yes, u) →
    ((u.isl isl).core core).groups = [] → (u.isl isl).wg? core place = some v → hdrPrivate v.hdr = 0 → v.hdr = l.hdr →
    hdrGroups v.hdr ≤ 32 → Gives .workgroupStart s [isl, cl] fun t => (∀ a, memRead (t.isl isl).mem a = memRead (u.isl isl).mem a) ∧
      (∃ w', (t.isl isl).wg? core place = some w' ∧ w'.waiting = false ∧
        ∀ b, 1 ≤ b → b < 16 → tget? w'.bars b = some { exp := BitVec.ofNat 12 (hdrGroups v.hdr), rem := BitVec.ofNat 12 (hdrGroups v.hdr) }) ∧
      ∀ i < hdrGroups v.hdr, ∃ g, (t.isl isl).group? core i = some g ∧ g.gidx = i ∧ g.place = place ∧ g.tvec = hdrTrapEntry v.hdr ∧
        g.role = (if (hdrRoleMask v.hdr).testBit i then .copy else .vector) ∧
        g.threads = (List.range (2 ^ hdrW v.hdr 0)).map (fun k =>
          (k, { cp := if (hdrRoleMask v.hdr).testBit i then hdrCopyEntry v.hdr else pkCodeptr l.packet })) ∧
        (∀ k j, g.vreg k j = 0 ∧ g.oreg k j = 0 ∧ g.latch j = 0 ∧ g.flagVal k = 0) ∧ g.hy = 0 ∧ g.rpi = 0 ∧
        (∀ k, g.sreg k = if 3 ≤ hdrUniforms v.hdr ∧ k < 3 then BitVec.ofNat 32 ((pkArgVa l.packet).toNat / 2 ^ (32 * k)) else 0)) ∧
  ∀ (s : State) (isl core v : Nat) (k : CoreS), (s.isl isl).cores = [(core, k)] → k.places = [] → k.l1 = [] → v < 2 ^ 32 →
    let ok := v % 64 + v / 2 ^ 8 % 64 + v / 2 ^ 16 % 64 = 32 ∧ 6 ≤ v / 2 ^ 16 % 64 ∧ v / 2 ^ 16 % 64 ≤ 16 ∧ v / 2 ^ 24 % 16 ≤ v / 2 ^ 8 % 64
    Gives .partWrite s [isl, core, v] fun t => MemoryKept s t ∧
      ((t.isl isl).core core).part = if ok then BitVec.ofNat 32 v &&& 0x0F3F3F3F else k.part) ∧
  ((∀ (s : State) (isl core place : Nat) (w : Wg) (l : Launch), (s.isl isl).wg? core place = some w → s.launches = [(w.launch, l)] →
    w.audit = none → w.killed = false → hdrAud w.hdr = false →
    ((s.isl isl).wgDone core place = false → Gives .workgroupEnd s [isl, core, place] fun t => t = s) ∧
    ((s.isl isl).wgDone core place = true →
      let ends (P : State → Prop) : Prop := Gives .workgroupEnd s [isl, core, place] fun t => MemoryKept s t ∧
        (∃ w', (t.isl isl).wg? core place = some w' ∧ w'.ended = true ∧ w'.ctx = none ∧ w'.scr = w.scr) ∧
        (∀ cl, tget? (s.isl isl).cls w.cl = some cl → cl.ranks = [(core, place)] → Awaits t .clusterLaunchRetire [isl, w.cl]) ∧ P t
      (pkWgn l.packet = false → ends fun t => t.launches = s.launches) ∧
      (pkWgn l.packet = true → pkReplay l.packet = true → ends fun t => ∃ l', t.launches = [(w.launch, l')] ∧
        tgetD l'.heldEvents (128 * isl + core) 0 = tgetD l.heldEvents (128 * isl + core) 0 + 1) ∧
      (pkWgn l.packet = true → pkReplay l.packet = false → ((s.isl isl).core core).l1 = [] → ends fun t => ∃ id o c y,
        t.op? isl id = some o ∧ o.instr = .ntfy c false y (.imm 1) ∧ o.a = BitVec.ofNat 64 (pkWgnc l.packet) ∧ o.b = 1))) ∧
  (∀ (s : State) (isl cl core place : Nat) (c : Cl) (w : Wg), (s.isl isl).cls = [(cl, c)] → c.ranks = [(core, place)] →
    ((s.isl isl).core core).places = [(place, w)] →
    (w.ended = false → Gives .clusterLaunchRetire s [isl, cl] fun t => t = s) ∧
    (w.ended = true → c.saving = none → Gives .clusterLaunchRetire s [isl, cl] fun t => MemoryKept s t ∧ (t.isl isl).cls = [] ∧
      (t.isl isl).wg? core place = none ∧ ∀ l, tget? s.launches c.launch = some l → l.started = true → l.done = false →
        s.islesOf l = [isl] → (s.isl isl).audits = [] → (s.isl isl).handout = [] → (s.isl isl).saved = [] →
        Awaits t .launchComplete [c.launch])) ∧
  ∀ (s : State) (key : Nat) (l : Launch) (x : Island), s.launches = [(key, l)] →
    (l.rolling = true → Gives .launchComplete s [key] fun t => t.islands = s.islands ∧ Awaits t .launchRollback [key]) ∧
    (l.rolling = false → (∃ i ∈ s.islesOf l, (s.isl i).launchGone key = false) → Gives .launchComplete s [key] fun t => t = s) ∧
    ∀ loc pa, l.rolling = false → s.islands = [(l.island, x)] → s.islesOf l = [l.island] → x.launchGone key = true →
      l.heldEvents = [] → x.ops = [] → x.sys.dq = [] → x.cores = [] → x.filters = [] → x.homes = [] → x.versions = [] → x.reqs = [] →
      memWf x.mem = true → s.vaQuiet l.island l.asid l.priv (vaPlus l.slotVa 7) 1 = true →
      s.placeOf l.island 0 noPlace l.asid l.priv .write (vaPlus l.slotVa 7) = (.ok loc, s) → MemoryAt x loc 1 pa →
      let st := if l.fail ≠ 0 then l.fail else if l.killed then 4 else if l.replays ≠ 0 then 5 else 1
      let runs := st = 1 ∨ st = 4 ∨ st = 5
      let halts := qePa (x.qEntry l.hostQ l.queue) + 11
      let eq := fld x.host.eq 0 48
      let apart (a : Nat) : Prop := (a < eq ∨ eq + 64 ≤ a) ∧
        ∀ tail slot, s.qRoom l.island eq = some (tail, slot) → a < slot ∨ slot + 128 ≤ a
      Gives .launchComplete s [key] fun t => t.launches = [] ∧
        (runs → BytesWritten x.mem (t.isl l.island).mem pa [BitVec.ofNat 8 st]) ∧
        (¬runs → x.events = [] → apart pa → apart halts → pa ≠ halts →
          memRead (t.isl l.island).mem pa = BitVec.ofNat 8 st ∧ memRead (t.isl l.island).mem halts = 2 ∧
          (x.fstat.qrdy = false → Reported s t l.island [(1, st % 256, 0, l.island % 16)]) ∧
          ∀ a, a ≠ pa → a ≠ halts → apart a → memRead (t.isl l.island).mem a = memRead x.mem a) ∧
        ∀ i k, (t.isl i).counter k = if runs ∧ pkLn l.packet = true ∧ i = pkLni l.packet ∧ k % 1024 = pkLnc l.packet then
          BitVec.ofNat 64 (min (((s.isl i).counter k).toNat + 1) (2 ^ 64 - 1)) else (s.isl i).counter k)

/-! ## Formation, the host and power -/

/-- Formation (R409-R416, R421). At power-good every half of a populated site boots the image of slot A, or else of slot B, whose
key has the digest in its ROM, whose signature verifies and whose security version its fuses accept, and its steps get their
deadlines; a half without one, or whose version differs from its neighbour's at step 2, has failed at the
deadline and no longer takes part; one that did its work passes. A port notes whether it trained. A record is kept and passed
on once. A component of more than half of the counted sites forms the panel under its lowest site; other islands stay dark.

After formation (R389, R416-R418): the ready bits rise, the queues are served with the last; heartbeats come every 100 µs; an
island that lost them is removed, and where all others lost the Bellwether's they halt; an island that the host asks back
trains, and becomes present, cleared, with a link to the panel. -/
def Obligations.PanelFormation : Prop :=
  ((∀ (s : State), Gives .powerGood s [] fun t => MemoryKept s t ∧
    (Due.ps (s.now + 1000000000000), Act.row .election []) ∈ t.agenda ∧ ∀ i < 16, s.populated.getLsbD i = true →
      let f := (s.isl i).flash
      let good (slot : Option FwImage) (least : Nat) (g : FwImage) : Prop := slot = some g ∧ sha384 (pointBytes g.key) = f.rom ∧
        verifies g.key g.body g.sig = true ∧ least ≤ g.security
      let boots (least : Nat) (b : Half) : Prop := b = { image := b.image } ∧
        (∀ g, good f.slotA least g → b.image = some (0, g.version)) ∧
        ((∀ g, ¬good f.slotA least g) → (∀ g, good f.slotB least g → b.image = some (1, g.version)) ∧
          ((∀ g, ¬good f.slotB least g) → b.image = none))
      boots f.min0 (t.isl i).half0 ∧ boots f.min1 (t.isl i).half1 ∧
        Awaits t .cxlLinkTraining [i] ∧ ∀ h < 2, ∀ p ∈ [(1, 200), (2, 600), (3, 900), (4, 1000)],
          (Due.ps (s.now + p.2 * 1000000000), Act.row .formationDeadline [i, h, p.1]) ∈ t.agenda) ∧
  (∀ (s : State) (isl h k : Nat), h < 2 → k < 5 → s.choices = [] →
    let half (t : State) : Half := if h = 0 then (t.isl isl).half0 else (t.isl isl).half1
    let other (t : State) : Half := if h = 0 then (t.isl isl).half1 else (t.isl isl).half0
    let good := (k = 1 → (half s).image ≠ none) ∧
      (k = 2 → ∀ a b, (half s).image = some a → (other s).image = some b → a.2 = b.2)
    let gives (P : State → Prop) : Prop := Gives .formationDeadline s [isl, h, k] fun t => MemoryKept s t ∧ other t = other s ∧ P t
    ((half s).failed = true → gives fun t => t = s) ∧
    ((half s).failed = false → good → gives fun t => half t = { half s with step := k }) ∧
    ((half s).failed = false → ¬good → gives fun t => half t = { half s with failed := true } ∧ (t.isl isl).fstat.phase = 6 ∧
      (t.isl isl).dark = true ∧ (t.isl isl).fstat.ordy = false ∧ (t.isl isl).fstat.mrdy = false ∧ (t.isl isl).fstat.qrdy = false ∧
      (k = 2 → (t.isl isl).fstat.fwmis = true))) ∧
  (∀ (s : State) (isl port pass : Nat), isl < 16 → 1 ≤ port → port ≤ 14 → Gives .linkTraining s [isl, port, pass] fun t =>
    MemoryKept s t ∧ (t.isl isl).portTrained isl port = (decide (pass = 1) && s.partnered isl port)) ∧
  (∀ (s : State) (isl h i k : Nat), h < 2 → k < 2 → (s.isl isl).passes = true →
    let half (t : State) : Half := if h = 0 then (t.isl isl).half0 else (t.isl isl).half1
    (half s).step = 3 →
    (tget? (half s).records (2 * i + k) ≠ none → Gives .floodRecord s [isl, h, i, k] fun t => t = s) ∧
    (tget? (half s).records (2 * i + k) = none → Gives .floodRecord s [isl, h, i, k] fun t => MemoryKept s t ∧
      tget? (half t).records (2 * i + k) = some (tgetD (s.isl i).topo.sites i {}).links ∧
      Awaits t .floodRecord [isl, 1 - h, i, k] ∧
      ∀ p, h = 0 → p ∈ s.passedLinks isl → Awaits t .floodRecord [p.2, 0, i, k])) ∧
  ∀ (s : State),
    let counted := (s.populatedSites.filter fun i => !(s.isl i).selfFailed).length
    let closed (t : State) (i : Nat) : Prop := (t.isl i).dark = true ∧
      (t.isl i).fstat.phase = if (s.isl i).selfFailed = true then 6 else 5
    ((∀ c ∈ s.components, c.length < 2 ∨ 2 * c.length < counted) → Gives .election s [] fun t => MemoryKept s t ∧
      t.outcome = some 3 ∧ t.bell = s.bell ∧ ∀ i ∈ s.populatedSites, closed t i) ∧
    ∀ c low rest, c ∈ s.components → c = low :: rest → 2 ≤ c.length → counted < 2 * c.length →
      (∀ d ∈ s.components, d ≠ c → d.length < 2 ∨ 2 * d.length < counted) → (∀ i ∈ c, i ∈ s.populatedSites) → c.Nodup →
      Gives .election s [] fun t => t.bell = some (2 * low) ∧
        t.outcome = some (if c.length = 16 then 0 else if s.components.any (fun d => d ≠ c && decide (2 ≤ d.length)) then 2 else 1) ∧
        (∀ i ∈ c, t.siteState i = 1 ∧ (t.isl i).dark = false ∧ (t.isl i).running = true ∧ (t.isl i).topo.gen = 1 ∧
          (t.isl i).topo.bell = BitVec.ofNat 8 (2 * low) ∧ (t.isl i).fstat.phase = 4 ∧
          (t.isl i).sys.topo = BitVec.ofNat 64 0x861C450000 ∧ (t.isl i).sys.rtact = false) ∧
        ∀ i ∈ s.populatedSites, i ∉ c → t.siteState i = 2 ∧ closed t i) ∧
  ((∀ (s : State) (isl : Nat), (s.isl isl).half0.failed = false → (s.isl isl).half1.failed = false → (s.isl isl).fstat.phase = 4 →
    (s.isl isl).faults = [] → (s.isl isl).events = [] →
    Gives .readyBitSet s [isl, 11] (fun t => MemoryKept s t ∧ (t.isl isl).fstat = { (s.isl isl).fstat with hrdy := true }) ∧
    Gives .readyBitSet s [isl, 12] (fun t => MemoryKept s t ∧ (t.isl isl).fstat = { (s.isl isl).fstat with ordy := true }) ∧
    ((s.isl isl).fstat.hrdy = true →
      Gives .readyBitSet s [isl, 13] fun t => MemoryKept s t ∧ (t.isl isl).fstat = { (s.isl isl).fstat with mrdy := true }) ∧
    Gives .readyBitSet s [isl, 14] fun t => MemoryKept s t ∧ (t.isl isl).fstat = { (s.isl isl).fstat with qrdy := true }) ∧
  (∀ (s : State) (isl b : Nat), s.bell = some b → s.siteState isl = 1 → s.choices = [] →
    Gives .heartbeat s [isl] fun t => MemoryKept s t ∧ (t.isl isl).heardAt = s.now ∧ (t.isl isl).beatAt = s.now ∧
      DuePs t 100000000 .heartbeat [isl]) ∧
  (∀ (s : State) (isl b : Nat), s.bell = some b → s.siteState isl = 1 → s.bellLost = false →
    let missed (i : Nat) : Prop := (s.isl i).heardAt + 1000000000 ≤ s.now
    ((∃ i < 16, s.siteState i = 1 ∧ i ≠ b / 2 ∧ ¬missed i) → Gives .heartbeatLoss s [isl] fun t => t.islands = s.islands ∧
      DueIn t (b / 2) 0 .islandRemoval [isl, 3]) ∧
    ((∀ i < 16, s.siteState i = 1 → i ≠ b / 2 → missed i) → Gives .heartbeatLoss s [isl] fun t => t.bellLost = true ∧
      ∀ i < 16, s.siteState i = 1 → i ≠ b / 2 → (t.isl i).running = false ∧
        ((s.isl i).fstat.qrdy = false → Reported s t i [(7, 0, 0, b / 2 % 16)]))) ∧
  ∀ (s : State) (isl b : Nat), s.bell = some b → b < 32 → isl < 16 → s.siteState (b / 2) = 1 → s.choices = [] →
    (s.siteState isl = 0 ∨ s.siteState isl = 1 → Gives .rejoin s [b / 2, isl] fun t => t = s) ∧
    (s.siteState isl = 2 ∨ s.siteState isl = 3 →
      (∀ p q, (∀ d, (d, Act.row .rejoin [b / 2, isl, 1]) ∉ s.agenda) → (s.isl isl).half0.image = some p →
        (s.isl isl).half1.image = some q → p.2 = q.2 → Gives .rejoin s [b / 2, isl] fun t => MemoryKept s t ∧
          DuePs t 700000000000 .rejoin [b / 2, isl, 1] ∧ (t.isl isl).half0.failed = false ∧ (t.isl isl).half1.failed = false) ∧
      (∀ p j q, s.topoQuiet = true → (s.isl isl).quietRange Config.topoPa 136 = true → 1 ≤ p → p ≤ 6 → s.farEnd isl p = some (j, q) →
        s.siteState j = 1 → (s.isl isl).portTrained isl p = true → Gives .rejoin s [b / 2, isl, 1] fun t =>
          t.siteState isl = 1 ∧ (t.isl isl).fstat.phase = 4 ∧ (t.isl isl).dark = false ∧
          (t.isl isl).running = decide (s.siteState isl = 2) ∧ (t.isl isl).cls = [] ∧ (t.isl isl).saved = [] ∧
          (t.isl isl).microTlb = [] ∧ (t.isl isl).clusterTlb = [] ∧ (t.isl isl).oedTlb = [] ∧
          (t.isl (b / 2)).topo.gen = (s.isl (b / 2)).topo.gen + 1)))

/-- The host (R258, R408, R414, R419, R420, R424, R427). RUN starts a halted island and its timers; a panel reset at the control port
brings every island to its state after power-on; register writes take effect where the island serves them; CXL.mem writes
store their bytes and reads change none; a trained port shows the chain of four capabilities; a report carries its nonce, the
digest of the running image, its half's certificate and a signature with the half's key; dumps and loads halt the island, move
the range at 121 GB/s and leave their status; a dump writes the range's bytes to the host, all ones for a poisoned line, which
is posted as POISON. Where the capabilities stand and which bytes of a report fit the mailbox is the model's choice (log 64).

Power and spare lanes (R399, R428, R429, R431). Idle units are gated after 64 cycles, slices without an access for 1 ms sleep and
wake again; a window of the governor raises the estimate by no more than STEP, and grants what fits; a core without work for
1 µs drops to class 0; the droop alarm rises with a reading below THRESH and falls 1 µs after readings above THRESH + 10 mV
began; it makes cycles 625 ps long from the next edge on, and its end 500 ps; a second bad lane of a unit disables its core. -/
def Obligations.HostAndPower : Prop :=
  ((∀ (s : State) (isl : Nat),
    ((s.isl isl).dark = true ∨ (s.isl isl).running = true ∨ s.bellLost = true → Gives .run s [isl] fun t => t = s) ∧
    ((s.isl isl).dark = false → (s.isl isl).running = false → s.bellLost = false → Gives .run s [isl] fun t => MemoryKept s t ∧
      (t.isl isl).running = true ∧ ∀ p ∈ (s.isl isl).frozen, DuePs t p.1 p.2.1 p.2.2)) ∧
  (∀ (s : State) (isl : Nat),
    (s.bell.map (· / 2) = some isl ∨ s.outcome = some 3 → Gives .panelReset s [isl] fun t => t.agenda = [(.ps 0, .row .powerGood [])] ∧
      t.now = 0 ∧ t.bell = none ∧ t.outcome = none ∧ t.launches = [] ∧ t.pkts = [] ∧ t.populated = s.populated ∧
      ∀ i, (t.isl i).running = false ∧ (t.isl i).sys.rtime = 100 ∧ (t.isl i).cores = [] ∧ (t.isl i).fstat.phase = 0) ∧
    (s.bell.map (· / 2) ≠ some isl → s.outcome ≠ some 3 → Gives .panelReset s [isl] fun t => t = s)) ∧
  (∀ (s : State) (isl off v : Nat), v < 2 ^ 64 →
    let x := s.isl isl
    let closed := x.dark = true ∧ x.fstat.phase ≠ 4
    (x.host.cxlUp = false ∨ off % 8 ≠ 0 ∨ closed ∧ off ≠ 0x3008 → Gives .sysregHostWrite s [isl, off, v] fun t => t = s) ∧
    (x.host.cxlUp = true → ¬closed →
      Gives .sysregHostWrite s [isl, 0x3010, v] (fun t => MemoryKept s t ∧ (t.isl isl).host.hsel = BitVec.ofNat 64 v) ∧
      Gives .sysregHostWrite s [isl, 8 * 0x029, v] (fun t => MemoryKept s t ∧ (t.isl isl).sys.rtime = BitVec.ofNat 20 v) ∧
      (v % 4 = 1 → x.host.dumpGo = false → Gives .sysregHostWrite s [isl, 0x3048, v] fun t => DueIn t isl 0 .dump [isl] ∧
        (t.isl isl).host.dumpGo = true ∧ (t.isl isl).host.dumpStatus = 0)) ∧
    (x.host.cxlUp = true → v % 8 = 0 → x.dark = false → Gives .sysregHostWrite s [isl, 0x3008, v] fun t => MemoryKept s t ∧
      (t.isl isl).running = false) ∧
    (x.host.cxlUp = true → v % 2 = 1 → Gives .sysregHostWrite s [isl, 0x3008, v] fun t => MemoryKept s t ∧ DueIn t isl 0 .run [isl] ∧
      (v % 4 = 3 → DueIn t isl 0 .panelReset [isl]) ∧
      (v % 8 ≥ 4 → s.bell.map (· / 2) = some isl → DueIn t isl 0 .rejoin [isl, v / 2 ^ 8 % 16]))) ∧
  (∀ (s : State) (isl : Nat), Gives .cxlLinkTraining s [isl] fun t => MemoryKept s t ∧ (t.isl isl).host.cxlUp = true ∧
    ∀ k, k < 4 → (t.cfgRead isl (capabilityAt k)).toNat = k + 1 + (if k < 3 then 2 ^ 16 * capabilityAt (k + 1) else 0)) ∧
  (∀ (s : State) (isl a n : Nat) (bs : List Nat),
    let x := s.isl isl
    (x.memServed a n = false → Gives .cxlMemRead s [isl, a, n] fun t => t = s) ∧
    (x.memServed a n = true → 0 < n → x.quietRange a n = false → Gives .cxlMemRead s [isl, a, n] fun t => t.islands = s.islands ∧
      DueIn t isl 1 .cxlMemRead [isl, a, n]) ∧
    (x.memServed a n = true → 0 < n → x.quietRange a n = true → x.homes = [] →
      Gives .cxlMemRead s [isl, a, n] fun t => MemoryKept s t) ∧
    (x.memServed a bs.length = true → x.cores = [] → x.filters = [] → x.homes = [] → x.reqs = [] → memWf x.mem = true →
      Gives .cxlMemWrite s ([isl, a] ++ bs) fun t => OthersKept s t isl ∧
        BytesWritten x.mem (t.isl isl).mem a (bs.map fun b => BitVec.ofNat 8 b))) ∧
  (∀ (s : State) (isl : Nat),
    let x := s.isl isl
    ((x.dark = true ∧ x.fstat.phase ≠ 4) ∨ x.host.mailPending = true → Gives .attestationRequest s [isl] fun t => t = s) ∧
    (x.dark = false → x.host.mailPending = false → Gives .attestationRequest s [isl] fun t => MemoryKept s t ∧
      Awaits t .attestationRequest [isl, 1] ∧ (t.isl isl).host.mailPending = true ∧ (t.isl isl).host.mailDone = false) ∧
    Gives .attestationRequest s [isl, 1] fun t => MemoryKept s t ∧ (t.isl isl).host.mailDone = true ∧
      (t.isl isl).host.mailPending = false ∧ ∃ r, (t.isl isl).host.report = some r ∧ r.nonce = x.host.nonce ∧ r.site = isl ∧
        r.half = (if x.host.mailHalf = 0 then 0 else 1) ∧ r.outcome = x.fstat.outcome ∧ r.gen = x.topo.gen ∧
        (let who := if x.host.mailHalf = 0 then x.flash.id0 else x.flash.id1
         r.key = who.key ∧ r.cert = who.cert ∧ ∃ k, r.sig = signWith who.secret r.body 4 k) ∧
        (∀ g, (if x.host.mailHalf = 0 then x.half0 else x.half1).image = some (0, g) ∨
            (if x.host.mailHalf = 0 then x.half0 else x.half1).image = some (1, g) →
          ∀ a, (if (if x.host.mailHalf = 0 then x.half0 else x.half1).image = some (0, g) then x.flash.slotA else x.flash.slotB) = some a →
            r.digest = a.digest ∧ r.version = a.security) ∧
        ∀ j b, r.mailbox[j]? = some b → memRead (t.isl isl).host.reportBytes (0x4100 + j) = b) ∧
  (∀ (row : Instr) (s : State) (isl : Nat), row = .dump ∨ row = .load → (s.isl isl).host.dumpGo = true → s.choices = [] →
    let h := (s.isl isl).host
    let bad := h.dumpHost.toNat % 4096 ≠ 0 ∨ h.dumpPa.toNat % 65536 ≠ 0 ∨ h.dumpLen.toNat % 65536 ≠ 0 ∨
      Config.hbmBytes < h.dumpPa.toNat + h.dumpLen.toNat
    let guessing := ∃ p ∈ (s.isl isl).hyps, p.1 ≠ 0 ∧ p.2.st ≠ .free
    (bad → Gives row s [isl] fun t => MemoryKept s t ∧ (t.isl isl).running = false ∧ DueIn t isl 0 .dumpMoveComplete [isl, 1, 0]) ∧
    (¬bad → guessing → Gives row s [isl] fun t => MemoryKept s t ∧ (t.isl isl).running = false ∧
      DueIn t isl 0 .dumpMoveComplete [isl, 2, 0]) ∧
    (¬bad → ¬guessing → (s.isl isl).reqs = [] → (s.isl isl).invs = [] → Gives row s [isl] fun t => (t.isl isl).running = false ∧
      DuePs t (h.dumpLen.toNat * 1000 / 121) .dumpMoveComplete [isl, 0, h.dumpLen.toNat])) ∧
  (∀ (s : State) (isl st n : Nat), (s.isl isl).fstat.qrdy = false → (s.isl isl).host.dumpDir = false →
    memWf (s.isl isl).host.upstream = true →
    let h := (s.isl isl).host
    let poisoned (a : Nat) : Bool := ((s.isl isl).hline (a / 128)).poison
    Gives .dumpMoveComplete s [isl, st, n] fun t => MemoryKept s t ∧
      (∀ j, memRead (t.isl isl).host.upstream (h.dumpHost.toNat + j) =
        if n ≤ j then memRead h.upstream (h.dumpHost.toNat + j)
        else if poisoned (h.dumpPa.toNat + j) then 0xFF else memRead (s.isl isl).mem (h.dumpPa.toNat + j)) ∧
      (∀ a, a < h.dumpHost.toNat → memRead (t.isl isl).host.upstream a = memRead h.upstream a) ∧
      ∀ q ∈ (s.isl isl).homes, q.2.poison = true → h.dumpPa.toNat ≤ 128 * q.1 → 128 * q.1 < h.dumpPa.toNat + n →
        ∃ r ∈ (t.isl isl).faults, recCode r.bits = 0x30 ∧ recSource r.bits = 5 ∧ recAddr r.bits = BitVec.ofNat 72 (128 * q.1)) ∧
  ∀ (s : State) (isl st n : Nat), (s.isl isl).fstat.qrdy = false → (s.isl isl).cores = [] → (s.isl isl).filters = [] →
    (s.isl isl).homes = [] → (s.isl isl).reqs = [] → Gives .dumpMoveComplete s [isl, st, n] fun t => OthersKept s t isl ∧
      (t.isl isl).host.dumpStatus = BitVec.ofNat 8 st ∧ (t.isl isl).host.dumpGo = false ∧ (t.isl isl).running = (s.isl isl).running ∧
      Reported s t isl [(6, st % 256, 0, isl % 16)] ∧
      ∀ a, ((s.isl isl).host.dumpDir = false ∨ a < (s.isl isl).host.dumpPa.toNat ∨ (s.isl isl).host.dumpPa.toNat + n ≤ a) →
        memRead (t.isl isl).mem a = memRead (s.isl isl).mem a) ∧
  ((∀ (s : State) (isl core unit : Nat), unit < 4 ∧ tgetD ((s.isl isl).core core).simdNext unit 0 + 64 ≤ s.cyc isl ∨
      unit = 4 ∧ ((s.isl isl).core core).mx.busy = none ∧
        tgetD ((s.isl isl).core core).clsUsed 3 0 + 64 * (s.isl isl).period ≤ s.now →
    Gives .clockGate s [isl, core, unit] fun t => MemoryKept s t ∧ unit ∈ ((t.isl isl).core core).gated) ∧
  (∀ (s : State) (isl sl : Nat), sl ∉ (s.isl isl).asleep →
    (tgetD (s.isl isl).sliceUsed sl 0 + 1000000000 ≤ s.now → Gives .sliceRetentionSleep s [isl, sl] fun t => MemoryKept s t ∧
      sl ∈ (t.isl isl).asleep) ∧
    (s.now < tgetD (s.isl isl).sliceUsed sl 0 + 1000000000 → Gives .sliceRetentionSleep s [isl, sl] fun t =>
      t.islands = s.islands ∧ DuePs t (tgetD (s.isl isl).sliceUsed sl 0 + 1000000000 - s.now) .sliceRetentionSleep [isl, sl])) ∧
  (∀ (s : State) (isl sl : Nat), Gives .sliceWake s [isl, sl] fun t => MemoryKept s t ∧ sl ∉ (t.isl isl).asleep) ∧
  (∀ (s : State) (isl stack : Nat), Gives .hbmSelfRefresh s [isl, stack] fun t => MemoryKept s t ∧ stack ∈ (t.isl isl).refresh) ∧
  (∀ (s : State) (isl : Nat), ((s.isl isl).cores.map (·.1)).Pairwise (· < ·) →
    Gives .governorWindow s [isl] fun t => MemoryKept s t ∧
      (t.isl isl).estimate ≤ (s.isl isl).estimate + (s.isl isl).sys.cstep.toNat ∧
      ∀ c k rest, (s.isl isl).cores = (c, k) :: rest → k.cls < k.clsWant →
        classAmps k.clsWant - classAmps k.cls ≤ (s.isl isl).sys.cstep.toNat → ((t.isl isl).core c).cls = k.clsWant) ∧
  (∀ (s : State) (isl core : Nat), ((s.isl isl).core core).mx.busy = none → ((s.isl isl).core core).blocking = false →
    (∀ p ∈ ((s.isl isl).core core).clsUsed, p.2 + 1000000 ≤ s.now) → 1000000 ≤ s.now →
    Gives .classDrop s [isl, core] fun t => MemoryKept s t ∧ ((t.isl isl).core core).cls = 0) ∧
  (∀ (row : Instr) (s : State) (isl ps : Nat), (row, ps) ∈ [(.droopAlarmRaise, 625), (.droopAlarmClear, 500)] →
    Gives row s [isl, 1] fun t => MemoryKept s t ∧ (t.isl isl).period = ps ∧ t.cyc isl = s.cyc isl) ∧
  (∀ (s : State) (isl : Nat), (s.isl isl).fstat.qrdy = false →
    let limit := (s.isl isl).sys.thresh.toNat
    ((s.isl isl).sys.droopAlarm = false → (s.isl isl).rail < limit → Gives .droopAlarmRaise s [isl] fun t => MemoryKept s t ∧
      (t.isl isl).sys.droopAlarm = true ∧ (t.isl isl).sys.droopCount.toNat = min ((s.isl isl).sys.droopCount.toNat + 1) 0x7FFF ∧
      Awaits t .droopAlarmRaise [isl, 1] ∧ Reported s t isl [(5, 1, 0, isl % 16)]) ∧
    (∀ mv, limit ≤ mv → Gives .droopAlarmRaise s [isl, 0, mv] fun t => MemoryKept s t ∧ (t.isl isl).rail = mv ∧
      (t.isl isl).sys = (s.isl isl).sys ∧ (t.isl isl).events = (s.isl isl).events ∧
      (mv ≤ limit + 10 → (t.isl isl).railHigh = none) ∧
      (limit + 10 < mv → (s.isl isl).railHigh = none → (t.isl isl).railHigh = some s.now ∧ DuePs t 1000000 .droopAlarmClear [isl])) ∧
    (∀ since, (s.isl isl).sys.droopAlarm = true → (s.isl isl).railHigh = some since → s.now < since + 1000000 →
      Gives .droopAlarmClear s [isl] fun t => t = s) ∧
    (∀ since, (s.isl isl).sys.droopAlarm = true → (s.isl isl).railHigh = some since → since + 1000000 ≤ s.now →
      Gives .droopAlarmClear s [isl] fun t => MemoryKept s t ∧
      (t.isl isl).sys.droopAlarm = false ∧ Awaits t .droopAlarmClear [isl, 1] ∧ Reported s t isl [(5, 0, 0, isl % 16)])) ∧
  ∀ (s : State) (isl core bad : Nat), 1 ≤ bad → bad ≤ 128 → ((s.isl isl).core core).places = [] →
    bad - 1 ∉ ((s.isl isl).core core).badLanes → ((s.isl isl).core core).disabled = false →
    Gives .laneTest s [isl, core, bad] fun t => MemoryKept s t ∧
      ((t.isl isl).core core).badLanes = ((s.isl isl).core core).badLanes ++ [bad - 1] ∧
      (((t.isl isl).core core).disabled = true ↔ ∃ l ∈ ((s.isl isl).core core).badLanes, l / 32 = (bad - 1) / 32))

/-! ## Reset, words and memory -/

/-- The machine after reset: no half has begun to boot and the power-good signal is pending (R409); every island is dark, not
running, with its register resets (R204, R262, R358, R404, R430, R431); memory lists nothing, and an unlisted byte reads 0,
which is the model's choice (log 7); the values without a rule are those of log 6. -/
def Obligations.ResetState : Prop :=  State.reset.now = 0 ∧ State.reset.agenda = [(.ps 0, .row .powerGood [])] ∧ State.reset.bell = none ∧ State.reset.outcome = none ∧
    State.reset.launches = [] ∧ State.reset.pkts = [] ∧ State.reset.colls = [] ∧ State.reset.topq = [] ∧
    ∀ k, let x := State.reset.isl k
      x.dark = true ∧ x.running = false ∧ x.period = 500 ∧ x.half0.step = 0 ∧ x.half1.step = 0 ∧ x.sys.pretime = 100 ∧
        x.sys.rtime = 100 ∧ x.sys.cstep = 500 ∧ x.sys.thresh = 600 ∧ x.sys.ctxtab = 0 ∧ x.sys.rtact = false ∧ x.sys.snapArm = false ∧
        (∀ c, (x.core c).part = 0x00061A00 ∧ (x.core c).groups = [] ∧ (x.core c).places = [] ∧ (x.core c).rtab = []) ∧
        (∀ g, (x.hyp g).st = if g = 0 then .opened else .free) ∧ (∀ n, x.counter n = 0) ∧ ∀ a, memRead x.mem a = 0

/-- The memory of every island keeps its canonical form: addresses strictly rising, no entry that equals what an unlisted address
reads as; so equal memories are equal data. -/
def Obligations.MemoryStaysCanonical : Prop :=  ∀ (s t : State), (∀ k, memWf (s.isl k).mem = true) → step s = .next t → ∀ k, memWf (t.isl k).mem = true

/-- Memory has that form at reset. -/
def Obligations.ResetMemoryIsCanonical : Prop := ∀ k, memWf (State.reset.isl k).mem = true

end Statements
end

