-- ==== Sys2Proof/Laws/State.lean ====
section
/-! SUPPORT. One lemma per field per named update of the state, of an island and of a core: what an update leaves as it was,
so that no later proof unfolds a record update. -/

namespace Sys2Proof.Laws

open Sys2Proof.Machine

/-! ## The panel -/

@[simp] theorem setIsl_now (s : State) (i : Nat) (x : Island) : (s.setIsl i x).now = s.now := rfl
@[simp] theorem setIsl_agenda (s : State) (i : Nat) (x : Island) : (s.setIsl i x).agenda = s.agenda := rfl
@[simp] theorem setIsl_choices (s : State) (i : Nat) (x : Island) : (s.setIsl i x).choices = s.choices := rfl
@[simp] theorem setIsl_freeCtr (s : State) (i : Nat) (x : Island) : (s.setIsl i x).freeCtr = s.freeCtr := rfl
@[simp] theorem setIsl_focus (s : State) (i : Nat) (x : Island) : (s.setIsl i x).focus = s.focus := rfl
@[simp] theorem setIsl_nextId (s : State) (i : Nat) (x : Island) : (s.setIsl i x).nextId = s.nextId := rfl
@[simp] theorem setIsl_populated (s : State) (i : Nat) (x : Island) : (s.setIsl i x).populated = s.populated := rfl
@[simp] theorem setIsl_badLinks (s : State) (i : Nat) (x : Island) : (s.setIsl i x).badLinks = s.badLinks := rfl
@[simp] theorem setIsl_fibreGood (s : State) (i : Nat) (x : Island) : (s.setIsl i x).fibreGood = s.fibreGood := rfl
@[simp] theorem setIsl_fibreTo (s : State) (i : Nat) (x : Island) : (s.setIsl i x).fibreTo = s.fibreTo := rfl
@[simp] theorem setIsl_bell (s : State) (i : Nat) (x : Island) : (s.setIsl i x).bell = s.bell := rfl
@[simp] theorem setIsl_outcome (s : State) (i : Nat) (x : Island) : (s.setIsl i x).outcome = s.outcome := rfl
@[simp] theorem setIsl_bellLost (s : State) (i : Nat) (x : Island) : (s.setIsl i x).bellLost = s.bellLost := rfl
@[simp] theorem setIsl_launches (s : State) (i : Nat) (x : Island) : (s.setIsl i x).launches = s.launches := rfl
@[simp] theorem setIsl_hqs (s : State) (i : Nat) (x : Island) : (s.setIsl i x).hqs = s.hqs := rfl
@[simp] theorem setIsl_pbRoot (s : State) (i : Nat) (x : Island) : (s.setIsl i x).pbRoot = s.pbRoot := rfl
@[simp] theorem setIsl_pkts (s : State) (i : Nat) (x : Island) : (s.setIsl i x).pkts = s.pkts := rfl
@[simp] theorem setIsl_colls (s : State) (i : Nat) (x : Island) : (s.setIsl i x).colls = s.colls := rfl
@[simp] theorem setIsl_topq (s : State) (i : Nat) (x : Island) : (s.setIsl i x).topq = s.topq := rfl

@[simp] theorem modIsl_now (s : State) (i : Nat) (f : Island → Island) : (s.modIsl i f).now = s.now := rfl
@[simp] theorem modIsl_agenda (s : State) (i : Nat) (f : Island → Island) : (s.modIsl i f).agenda = s.agenda := rfl
@[simp] theorem modIsl_choices (s : State) (i : Nat) (f : Island → Island) : (s.modIsl i f).choices = s.choices := rfl
@[simp] theorem modIsl_freeCtr (s : State) (i : Nat) (f : Island → Island) : (s.modIsl i f).freeCtr = s.freeCtr := rfl
@[simp] theorem modIsl_focus (s : State) (i : Nat) (f : Island → Island) : (s.modIsl i f).focus = s.focus := rfl
@[simp] theorem modIsl_nextId (s : State) (i : Nat) (f : Island → Island) : (s.modIsl i f).nextId = s.nextId := rfl
@[simp] theorem modIsl_populated (s : State) (i : Nat) (f : Island → Island) : (s.modIsl i f).populated = s.populated := rfl
@[simp] theorem modIsl_badLinks (s : State) (i : Nat) (f : Island → Island) : (s.modIsl i f).badLinks = s.badLinks := rfl
@[simp] theorem modIsl_fibreGood (s : State) (i : Nat) (f : Island → Island) : (s.modIsl i f).fibreGood = s.fibreGood := rfl
@[simp] theorem modIsl_fibreTo (s : State) (i : Nat) (f : Island → Island) : (s.modIsl i f).fibreTo = s.fibreTo := rfl
@[simp] theorem modIsl_bell (s : State) (i : Nat) (f : Island → Island) : (s.modIsl i f).bell = s.bell := rfl
@[simp] theorem modIsl_outcome (s : State) (i : Nat) (f : Island → Island) : (s.modIsl i f).outcome = s.outcome := rfl
@[simp] theorem modIsl_bellLost (s : State) (i : Nat) (f : Island → Island) : (s.modIsl i f).bellLost = s.bellLost := rfl
@[simp] theorem modIsl_launches (s : State) (i : Nat) (f : Island → Island) : (s.modIsl i f).launches = s.launches := rfl
@[simp] theorem modIsl_hqs (s : State) (i : Nat) (f : Island → Island) : (s.modIsl i f).hqs = s.hqs := rfl
@[simp] theorem modIsl_pbRoot (s : State) (i : Nat) (f : Island → Island) : (s.modIsl i f).pbRoot = s.pbRoot := rfl
@[simp] theorem modIsl_pkts (s : State) (i : Nat) (f : Island → Island) : (s.modIsl i f).pkts = s.pkts := rfl
@[simp] theorem modIsl_colls (s : State) (i : Nat) (f : Island → Island) : (s.modIsl i f).colls = s.colls := rfl
@[simp] theorem modIsl_topq (s : State) (i : Nat) (f : Island → Island) : (s.modIsl i f).topq = s.topq := rfl

@[simp] theorem at_now (s : State) (d : Due) (a : Act) : (s.at d a).now = s.now := rfl
@[simp] theorem at_choices (s : State) (d : Due) (a : Act) : (s.at d a).choices = s.choices := rfl
@[simp] theorem at_freeCtr (s : State) (d : Due) (a : Act) : (s.at d a).freeCtr = s.freeCtr := rfl
@[simp] theorem at_focus (s : State) (d : Due) (a : Act) : (s.at d a).focus = s.focus := rfl
@[simp] theorem at_nextId (s : State) (d : Due) (a : Act) : (s.at d a).nextId = s.nextId := rfl
@[simp] theorem at_populated (s : State) (d : Due) (a : Act) : (s.at d a).populated = s.populated := rfl
@[simp] theorem at_badLinks (s : State) (d : Due) (a : Act) : (s.at d a).badLinks = s.badLinks := rfl
@[simp] theorem at_fibreGood (s : State) (d : Due) (a : Act) : (s.at d a).fibreGood = s.fibreGood := rfl
@[simp] theorem at_fibreTo (s : State) (d : Due) (a : Act) : (s.at d a).fibreTo = s.fibreTo := rfl
@[simp] theorem at_islands (s : State) (d : Due) (a : Act) : (s.at d a).islands = s.islands := rfl
@[simp] theorem at_bell (s : State) (d : Due) (a : Act) : (s.at d a).bell = s.bell := rfl
@[simp] theorem at_outcome (s : State) (d : Due) (a : Act) : (s.at d a).outcome = s.outcome := rfl
@[simp] theorem at_bellLost (s : State) (d : Due) (a : Act) : (s.at d a).bellLost = s.bellLost := rfl
@[simp] theorem at_launches (s : State) (d : Due) (a : Act) : (s.at d a).launches = s.launches := rfl
@[simp] theorem at_hqs (s : State) (d : Due) (a : Act) : (s.at d a).hqs = s.hqs := rfl
@[simp] theorem at_pbRoot (s : State) (d : Due) (a : Act) : (s.at d a).pbRoot = s.pbRoot := rfl
@[simp] theorem at_pkts (s : State) (d : Due) (a : Act) : (s.at d a).pkts = s.pkts := rfl
@[simp] theorem at_colls (s : State) (d : Due) (a : Act) : (s.at d a).colls = s.colls := rfl
@[simp] theorem at_topq (s : State) (d : Due) (a : Act) : (s.at d a).topq = s.topq := rfl

@[simp] theorem after_now (s : State) (i c : Nat) (r : Instr) (as : List Nat) : (s.after i c r as).now = s.now := rfl
@[simp] theorem after_choices (s : State) (i c : Nat) (r : Instr) (as : List Nat) : (s.after i c r as).choices = s.choices := rfl
@[simp] theorem after_freeCtr (s : State) (i c : Nat) (r : Instr) (as : List Nat) : (s.after i c r as).freeCtr = s.freeCtr := rfl
@[simp] theorem after_focus (s : State) (i c : Nat) (r : Instr) (as : List Nat) : (s.after i c r as).focus = s.focus := rfl
@[simp] theorem after_nextId (s : State) (i c : Nat) (r : Instr) (as : List Nat) : (s.after i c r as).nextId = s.nextId := rfl
@[simp] theorem after_populated (s : State) (i c : Nat) (r : Instr) (as : List Nat) : (s.after i c r as).populated = s.populated := rfl
@[simp] theorem after_badLinks (s : State) (i c : Nat) (r : Instr) (as : List Nat) : (s.after i c r as).badLinks = s.badLinks := rfl
@[simp] theorem after_fibreGood (s : State) (i c : Nat) (r : Instr) (as : List Nat) : (s.after i c r as).fibreGood = s.fibreGood := rfl
@[simp] theorem after_fibreTo (s : State) (i c : Nat) (r : Instr) (as : List Nat) : (s.after i c r as).fibreTo = s.fibreTo := rfl
@[simp] theorem after_islands (s : State) (i c : Nat) (r : Instr) (as : List Nat) : (s.after i c r as).islands = s.islands := rfl
@[simp] theorem after_bell (s : State) (i c : Nat) (r : Instr) (as : List Nat) : (s.after i c r as).bell = s.bell := rfl
@[simp] theorem after_outcome (s : State) (i c : Nat) (r : Instr) (as : List Nat) : (s.after i c r as).outcome = s.outcome := rfl
@[simp] theorem after_bellLost (s : State) (i c : Nat) (r : Instr) (as : List Nat) : (s.after i c r as).bellLost = s.bellLost := rfl
@[simp] theorem after_launches (s : State) (i c : Nat) (r : Instr) (as : List Nat) : (s.after i c r as).launches = s.launches := rfl
@[simp] theorem after_hqs (s : State) (i c : Nat) (r : Instr) (as : List Nat) : (s.after i c r as).hqs = s.hqs := rfl
@[simp] theorem after_pbRoot (s : State) (i c : Nat) (r : Instr) (as : List Nat) : (s.after i c r as).pbRoot = s.pbRoot := rfl
@[simp] theorem after_pkts (s : State) (i c : Nat) (r : Instr) (as : List Nat) : (s.after i c r as).pkts = s.pkts := rfl
@[simp] theorem after_colls (s : State) (i c : Nat) (r : Instr) (as : List Nat) : (s.after i c r as).colls = s.colls := rfl
@[simp] theorem after_topq (s : State) (i c : Nat) (r : Instr) (as : List Nat) : (s.after i c r as).topq = s.topq := rfl

@[simp] theorem afterPs_now (s : State) (p : Nat) (r : Instr) (as : List Nat) : (s.afterPs p r as).now = s.now := rfl
@[simp] theorem afterPs_choices (s : State) (p : Nat) (r : Instr) (as : List Nat) : (s.afterPs p r as).choices = s.choices := rfl
@[simp] theorem afterPs_freeCtr (s : State) (p : Nat) (r : Instr) (as : List Nat) : (s.afterPs p r as).freeCtr = s.freeCtr := rfl
@[simp] theorem afterPs_focus (s : State) (p : Nat) (r : Instr) (as : List Nat) : (s.afterPs p r as).focus = s.focus := rfl
@[simp] theorem afterPs_nextId (s : State) (p : Nat) (r : Instr) (as : List Nat) : (s.afterPs p r as).nextId = s.nextId := rfl
@[simp] theorem afterPs_populated (s : State) (p : Nat) (r : Instr) (as : List Nat) : (s.afterPs p r as).populated = s.populated := rfl
@[simp] theorem afterPs_badLinks (s : State) (p : Nat) (r : Instr) (as : List Nat) : (s.afterPs p r as).badLinks = s.badLinks := rfl
@[simp] theorem afterPs_fibreGood (s : State) (p : Nat) (r : Instr) (as : List Nat) : (s.afterPs p r as).fibreGood = s.fibreGood := rfl
@[simp] theorem afterPs_fibreTo (s : State) (p : Nat) (r : Instr) (as : List Nat) : (s.afterPs p r as).fibreTo = s.fibreTo := rfl
@[simp] theorem afterPs_islands (s : State) (p : Nat) (r : Instr) (as : List Nat) : (s.afterPs p r as).islands = s.islands := rfl
@[simp] theorem afterPs_bell (s : State) (p : Nat) (r : Instr) (as : List Nat) : (s.afterPs p r as).bell = s.bell := rfl
@[simp] theorem afterPs_outcome (s : State) (p : Nat) (r : Instr) (as : List Nat) : (s.afterPs p r as).outcome = s.outcome := rfl
@[simp] theorem afterPs_bellLost (s : State) (p : Nat) (r : Instr) (as : List Nat) : (s.afterPs p r as).bellLost = s.bellLost := rfl
@[simp] theorem afterPs_launches (s : State) (p : Nat) (r : Instr) (as : List Nat) : (s.afterPs p r as).launches = s.launches := rfl
@[simp] theorem afterPs_hqs (s : State) (p : Nat) (r : Instr) (as : List Nat) : (s.afterPs p r as).hqs = s.hqs := rfl
@[simp] theorem afterPs_pbRoot (s : State) (p : Nat) (r : Instr) (as : List Nat) : (s.afterPs p r as).pbRoot = s.pbRoot := rfl
@[simp] theorem afterPs_pkts (s : State) (p : Nat) (r : Instr) (as : List Nat) : (s.afterPs p r as).pkts = s.pkts := rfl
@[simp] theorem afterPs_colls (s : State) (p : Nat) (r : Instr) (as : List Nat) : (s.afterPs p r as).colls = s.colls := rfl
@[simp] theorem afterPs_topq (s : State) (p : Nat) (r : Instr) (as : List Nat) : (s.afterPs p r as).topq = s.topq := rfl

@[simp] theorem newOp_now (s : State) (i : Nat) (op : Op) : ((s.newOp i op).2).now = s.now := rfl
@[simp] theorem newOp_agenda (s : State) (i : Nat) (op : Op) : ((s.newOp i op).2).agenda = s.agenda := rfl
@[simp] theorem newOp_choices (s : State) (i : Nat) (op : Op) : ((s.newOp i op).2).choices = s.choices := rfl
@[simp] theorem newOp_freeCtr (s : State) (i : Nat) (op : Op) : ((s.newOp i op).2).freeCtr = s.freeCtr := rfl
@[simp] theorem newOp_focus (s : State) (i : Nat) (op : Op) : ((s.newOp i op).2).focus = s.focus := rfl
@[simp] theorem newOp_populated (s : State) (i : Nat) (op : Op) : ((s.newOp i op).2).populated = s.populated := rfl
@[simp] theorem newOp_badLinks (s : State) (i : Nat) (op : Op) : ((s.newOp i op).2).badLinks = s.badLinks := rfl
@[simp] theorem newOp_fibreGood (s : State) (i : Nat) (op : Op) : ((s.newOp i op).2).fibreGood = s.fibreGood := rfl
@[simp] theorem newOp_fibreTo (s : State) (i : Nat) (op : Op) : ((s.newOp i op).2).fibreTo = s.fibreTo := rfl
@[simp] theorem newOp_bell (s : State) (i : Nat) (op : Op) : ((s.newOp i op).2).bell = s.bell := rfl
@[simp] theorem newOp_outcome (s : State) (i : Nat) (op : Op) : ((s.newOp i op).2).outcome = s.outcome := rfl
@[simp] theorem newOp_bellLost (s : State) (i : Nat) (op : Op) : ((s.newOp i op).2).bellLost = s.bellLost := rfl
@[simp] theorem newOp_launches (s : State) (i : Nat) (op : Op) : ((s.newOp i op).2).launches = s.launches := rfl
@[simp] theorem newOp_hqs (s : State) (i : Nat) (op : Op) : ((s.newOp i op).2).hqs = s.hqs := rfl
@[simp] theorem newOp_pbRoot (s : State) (i : Nat) (op : Op) : ((s.newOp i op).2).pbRoot = s.pbRoot := rfl
@[simp] theorem newOp_pkts (s : State) (i : Nat) (op : Op) : ((s.newOp i op).2).pkts = s.pkts := rfl
@[simp] theorem newOp_colls (s : State) (i : Nat) (op : Op) : ((s.newOp i op).2).colls = s.colls := rfl
@[simp] theorem newOp_topq (s : State) (i : Nat) (op : Op) : ((s.newOp i op).2).topq = s.topq := rfl

@[simp] theorem modOp_now (s : State) (i n : Nat) (f : Op → Op) : (s.modOp i n f).now = s.now := rfl
@[simp] theorem modOp_agenda (s : State) (i n : Nat) (f : Op → Op) : (s.modOp i n f).agenda = s.agenda := rfl
@[simp] theorem modOp_choices (s : State) (i n : Nat) (f : Op → Op) : (s.modOp i n f).choices = s.choices := rfl
@[simp] theorem modOp_freeCtr (s : State) (i n : Nat) (f : Op → Op) : (s.modOp i n f).freeCtr = s.freeCtr := rfl
@[simp] theorem modOp_focus (s : State) (i n : Nat) (f : Op → Op) : (s.modOp i n f).focus = s.focus := rfl
@[simp] theorem modOp_nextId (s : State) (i n : Nat) (f : Op → Op) : (s.modOp i n f).nextId = s.nextId := rfl
@[simp] theorem modOp_populated (s : State) (i n : Nat) (f : Op → Op) : (s.modOp i n f).populated = s.populated := rfl
@[simp] theorem modOp_badLinks (s : State) (i n : Nat) (f : Op → Op) : (s.modOp i n f).badLinks = s.badLinks := rfl
@[simp] theorem modOp_fibreGood (s : State) (i n : Nat) (f : Op → Op) : (s.modOp i n f).fibreGood = s.fibreGood := rfl
@[simp] theorem modOp_fibreTo (s : State) (i n : Nat) (f : Op → Op) : (s.modOp i n f).fibreTo = s.fibreTo := rfl
@[simp] theorem modOp_bell (s : State) (i n : Nat) (f : Op → Op) : (s.modOp i n f).bell = s.bell := rfl
@[simp] theorem modOp_outcome (s : State) (i n : Nat) (f : Op → Op) : (s.modOp i n f).outcome = s.outcome := rfl
@[simp] theorem modOp_bellLost (s : State) (i n : Nat) (f : Op → Op) : (s.modOp i n f).bellLost = s.bellLost := rfl
@[simp] theorem modOp_launches (s : State) (i n : Nat) (f : Op → Op) : (s.modOp i n f).launches = s.launches := rfl
@[simp] theorem modOp_hqs (s : State) (i n : Nat) (f : Op → Op) : (s.modOp i n f).hqs = s.hqs := rfl
@[simp] theorem modOp_pbRoot (s : State) (i n : Nat) (f : Op → Op) : (s.modOp i n f).pbRoot = s.pbRoot := rfl
@[simp] theorem modOp_pkts (s : State) (i n : Nat) (f : Op → Op) : (s.modOp i n f).pkts = s.pkts := rfl
@[simp] theorem modOp_colls (s : State) (i n : Nat) (f : Op → Op) : (s.modOp i n f).colls = s.colls := rfl
@[simp] theorem modOp_topq (s : State) (i n : Nat) (f : Op → Op) : (s.modOp i n f).topq = s.topq := rfl

@[simp] theorem delOp_now (s : State) (i n : Nat) : (s.delOp i n).now = s.now := rfl
@[simp] theorem delOp_agenda (s : State) (i n : Nat) : (s.delOp i n).agenda = s.agenda := rfl
@[simp] theorem delOp_choices (s : State) (i n : Nat) : (s.delOp i n).choices = s.choices := rfl
@[simp] theorem delOp_freeCtr (s : State) (i n : Nat) : (s.delOp i n).freeCtr = s.freeCtr := rfl
@[simp] theorem delOp_focus (s : State) (i n : Nat) : (s.delOp i n).focus = s.focus := rfl
@[simp] theorem delOp_nextId (s : State) (i n : Nat) : (s.delOp i n).nextId = s.nextId := rfl
@[simp] theorem delOp_populated (s : State) (i n : Nat) : (s.delOp i n).populated = s.populated := rfl
@[simp] theorem delOp_badLinks (s : State) (i n : Nat) : (s.delOp i n).badLinks = s.badLinks := rfl
@[simp] theorem delOp_fibreGood (s : State) (i n : Nat) : (s.delOp i n).fibreGood = s.fibreGood := rfl
@[simp] theorem delOp_fibreTo (s : State) (i n : Nat) : (s.delOp i n).fibreTo = s.fibreTo := rfl
@[simp] theorem delOp_bell (s : State) (i n : Nat) : (s.delOp i n).bell = s.bell := rfl
@[simp] theorem delOp_outcome (s : State) (i n : Nat) : (s.delOp i n).outcome = s.outcome := rfl
@[simp] theorem delOp_bellLost (s : State) (i n : Nat) : (s.delOp i n).bellLost = s.bellLost := rfl
@[simp] theorem delOp_launches (s : State) (i n : Nat) : (s.delOp i n).launches = s.launches := rfl
@[simp] theorem delOp_hqs (s : State) (i n : Nat) : (s.delOp i n).hqs = s.hqs := rfl
@[simp] theorem delOp_pbRoot (s : State) (i n : Nat) : (s.delOp i n).pbRoot = s.pbRoot := rfl
@[simp] theorem delOp_pkts (s : State) (i n : Nat) : (s.delOp i n).pkts = s.pkts := rfl
@[simp] theorem delOp_colls (s : State) (i n : Nat) : (s.delOp i n).colls = s.colls := rfl
@[simp] theorem delOp_topq (s : State) (i n : Nat) : (s.delOp i n).topq = s.topq := rfl

@[simp] theorem onGroup_now (s : State) (e : Env) (f : Group → Group) : (s.onGroup e f).now = s.now := rfl
@[simp] theorem onGroup_agenda (s : State) (e : Env) (f : Group → Group) : (s.onGroup e f).agenda = s.agenda := rfl
@[simp] theorem onGroup_choices (s : State) (e : Env) (f : Group → Group) : (s.onGroup e f).choices = s.choices := rfl
@[simp] theorem onGroup_freeCtr (s : State) (e : Env) (f : Group → Group) : (s.onGroup e f).freeCtr = s.freeCtr := rfl
@[simp] theorem onGroup_focus (s : State) (e : Env) (f : Group → Group) : (s.onGroup e f).focus = s.focus := rfl
@[simp] theorem onGroup_nextId (s : State) (e : Env) (f : Group → Group) : (s.onGroup e f).nextId = s.nextId := rfl
@[simp] theorem onGroup_populated (s : State) (e : Env) (f : Group → Group) : (s.onGroup e f).populated = s.populated := rfl
@[simp] theorem onGroup_badLinks (s : State) (e : Env) (f : Group → Group) : (s.onGroup e f).badLinks = s.badLinks := rfl
@[simp] theorem onGroup_fibreGood (s : State) (e : Env) (f : Group → Group) : (s.onGroup e f).fibreGood = s.fibreGood := rfl
@[simp] theorem onGroup_fibreTo (s : State) (e : Env) (f : Group → Group) : (s.onGroup e f).fibreTo = s.fibreTo := rfl
@[simp] theorem onGroup_bell (s : State) (e : Env) (f : Group → Group) : (s.onGroup e f).bell = s.bell := rfl
@[simp] theorem onGroup_outcome (s : State) (e : Env) (f : Group → Group) : (s.onGroup e f).outcome = s.outcome := rfl
@[simp] theorem onGroup_bellLost (s : State) (e : Env) (f : Group → Group) : (s.onGroup e f).bellLost = s.bellLost := rfl
@[simp] theorem onGroup_launches (s : State) (e : Env) (f : Group → Group) : (s.onGroup e f).launches = s.launches := rfl
@[simp] theorem onGroup_hqs (s : State) (e : Env) (f : Group → Group) : (s.onGroup e f).hqs = s.hqs := rfl
@[simp] theorem onGroup_pbRoot (s : State) (e : Env) (f : Group → Group) : (s.onGroup e f).pbRoot = s.pbRoot := rfl
@[simp] theorem onGroup_pkts (s : State) (e : Env) (f : Group → Group) : (s.onGroup e f).pkts = s.pkts := rfl
@[simp] theorem onGroup_colls (s : State) (e : Env) (f : Group → Group) : (s.onGroup e f).colls = s.colls := rfl
@[simp] theorem onGroup_topq (s : State) (e : Env) (f : Group → Group) : (s.onGroup e f).topq = s.topq := rfl

@[simp] theorem noteClass_now (s : State) (i k c : Nat) : (s.noteClass i k c).now = s.now := rfl
@[simp] theorem noteClass_agenda (s : State) (i k c : Nat) : (s.noteClass i k c).agenda = s.agenda := rfl
@[simp] theorem noteClass_choices (s : State) (i k c : Nat) : (s.noteClass i k c).choices = s.choices := rfl
@[simp] theorem noteClass_freeCtr (s : State) (i k c : Nat) : (s.noteClass i k c).freeCtr = s.freeCtr := rfl
@[simp] theorem noteClass_focus (s : State) (i k c : Nat) : (s.noteClass i k c).focus = s.focus := rfl
@[simp] theorem noteClass_nextId (s : State) (i k c : Nat) : (s.noteClass i k c).nextId = s.nextId := rfl
@[simp] theorem noteClass_populated (s : State) (i k c : Nat) : (s.noteClass i k c).populated = s.populated := rfl
@[simp] theorem noteClass_badLinks (s : State) (i k c : Nat) : (s.noteClass i k c).badLinks = s.badLinks := rfl
@[simp] theorem noteClass_fibreGood (s : State) (i k c : Nat) : (s.noteClass i k c).fibreGood = s.fibreGood := rfl
@[simp] theorem noteClass_fibreTo (s : State) (i k c : Nat) : (s.noteClass i k c).fibreTo = s.fibreTo := rfl
@[simp] theorem noteClass_bell (s : State) (i k c : Nat) : (s.noteClass i k c).bell = s.bell := rfl
@[simp] theorem noteClass_outcome (s : State) (i k c : Nat) : (s.noteClass i k c).outcome = s.outcome := rfl
@[simp] theorem noteClass_bellLost (s : State) (i k c : Nat) : (s.noteClass i k c).bellLost = s.bellLost := rfl
@[simp] theorem noteClass_launches (s : State) (i k c : Nat) : (s.noteClass i k c).launches = s.launches := rfl
@[simp] theorem noteClass_hqs (s : State) (i k c : Nat) : (s.noteClass i k c).hqs = s.hqs := rfl
@[simp] theorem noteClass_pbRoot (s : State) (i k c : Nat) : (s.noteClass i k c).pbRoot = s.pbRoot := rfl
@[simp] theorem noteClass_pkts (s : State) (i k c : Nat) : (s.noteClass i k c).pkts = s.pkts := rfl
@[simp] theorem noteClass_colls (s : State) (i k c : Nat) : (s.noteClass i k c).colls = s.colls := rfl
@[simp] theorem noteClass_topq (s : State) (i k c : Nat) : (s.noteClass i k c).topq = s.topq := rfl

@[simp] theorem flagNow_now (s : State) (e : Env) (c : Ctl) : (s.flagNow e c).now = s.now := rfl
@[simp] theorem flagNow_agenda (s : State) (e : Env) (c : Ctl) : (s.flagNow e c).agenda = s.agenda := rfl
@[simp] theorem flagNow_choices (s : State) (e : Env) (c : Ctl) : (s.flagNow e c).choices = s.choices := rfl
@[simp] theorem flagNow_freeCtr (s : State) (e : Env) (c : Ctl) : (s.flagNow e c).freeCtr = s.freeCtr := rfl
@[simp] theorem flagNow_focus (s : State) (e : Env) (c : Ctl) : (s.flagNow e c).focus = s.focus := rfl
@[simp] theorem flagNow_nextId (s : State) (e : Env) (c : Ctl) : (s.flagNow e c).nextId = s.nextId := rfl
@[simp] theorem flagNow_populated (s : State) (e : Env) (c : Ctl) : (s.flagNow e c).populated = s.populated := rfl
@[simp] theorem flagNow_badLinks (s : State) (e : Env) (c : Ctl) : (s.flagNow e c).badLinks = s.badLinks := rfl
@[simp] theorem flagNow_fibreGood (s : State) (e : Env) (c : Ctl) : (s.flagNow e c).fibreGood = s.fibreGood := rfl
@[simp] theorem flagNow_fibreTo (s : State) (e : Env) (c : Ctl) : (s.flagNow e c).fibreTo = s.fibreTo := rfl
@[simp] theorem flagNow_bell (s : State) (e : Env) (c : Ctl) : (s.flagNow e c).bell = s.bell := rfl
@[simp] theorem flagNow_outcome (s : State) (e : Env) (c : Ctl) : (s.flagNow e c).outcome = s.outcome := rfl
@[simp] theorem flagNow_bellLost (s : State) (e : Env) (c : Ctl) : (s.flagNow e c).bellLost = s.bellLost := rfl
@[simp] theorem flagNow_launches (s : State) (e : Env) (c : Ctl) : (s.flagNow e c).launches = s.launches := rfl
@[simp] theorem flagNow_hqs (s : State) (e : Env) (c : Ctl) : (s.flagNow e c).hqs = s.hqs := rfl
@[simp] theorem flagNow_pbRoot (s : State) (e : Env) (c : Ctl) : (s.flagNow e c).pbRoot = s.pbRoot := rfl
@[simp] theorem flagNow_pkts (s : State) (e : Env) (c : Ctl) : (s.flagNow e c).pkts = s.pkts := rfl
@[simp] theorem flagNow_colls (s : State) (e : Env) (c : Ctl) : (s.flagNow e c).colls = s.colls := rfl
@[simp] theorem flagNow_topq (s : State) (e : Env) (c : Ctl) : (s.flagNow e c).topq = s.topq := rfl

@[simp] theorem post_now (s : State) (i : Nat) (r : FaultRec) : (s.post i r).now = s.now := rfl
@[simp] theorem post_choices (s : State) (i : Nat) (r : FaultRec) : (s.post i r).choices = s.choices := rfl
@[simp] theorem post_freeCtr (s : State) (i : Nat) (r : FaultRec) : (s.post i r).freeCtr = s.freeCtr := rfl
@[simp] theorem post_focus (s : State) (i : Nat) (r : FaultRec) : (s.post i r).focus = s.focus := rfl
@[simp] theorem post_nextId (s : State) (i : Nat) (r : FaultRec) : (s.post i r).nextId = s.nextId := rfl
@[simp] theorem post_populated (s : State) (i : Nat) (r : FaultRec) : (s.post i r).populated = s.populated := rfl
@[simp] theorem post_badLinks (s : State) (i : Nat) (r : FaultRec) : (s.post i r).badLinks = s.badLinks := rfl
@[simp] theorem post_fibreGood (s : State) (i : Nat) (r : FaultRec) : (s.post i r).fibreGood = s.fibreGood := rfl
@[simp] theorem post_fibreTo (s : State) (i : Nat) (r : FaultRec) : (s.post i r).fibreTo = s.fibreTo := rfl
@[simp] theorem post_bell (s : State) (i : Nat) (r : FaultRec) : (s.post i r).bell = s.bell := rfl
@[simp] theorem post_outcome (s : State) (i : Nat) (r : FaultRec) : (s.post i r).outcome = s.outcome := rfl
@[simp] theorem post_bellLost (s : State) (i : Nat) (r : FaultRec) : (s.post i r).bellLost = s.bellLost := rfl
@[simp] theorem post_launches (s : State) (i : Nat) (r : FaultRec) : (s.post i r).launches = s.launches := rfl
@[simp] theorem post_hqs (s : State) (i : Nat) (r : FaultRec) : (s.post i r).hqs = s.hqs := rfl
@[simp] theorem post_pbRoot (s : State) (i : Nat) (r : FaultRec) : (s.post i r).pbRoot = s.pbRoot := rfl
@[simp] theorem post_pkts (s : State) (i : Nat) (r : FaultRec) : (s.post i r).pkts = s.pkts := rfl
@[simp] theorem post_colls (s : State) (i : Nat) (r : FaultRec) : (s.post i r).colls = s.colls := rfl
@[simp] theorem post_topq (s : State) (i : Nat) (r : FaultRec) : (s.post i r).topq = s.topq := rfl

@[simp] theorem modIsl_islands (s : State) (i : Nat) (f : Island → Island) :
    (s.modIsl i f).islands = tput s.islands i (f (s.isl i)) := rfl
@[simp] theorem at_agenda (s : State) (d : Due) (a : Act) : (s.at d a).agenda = s.agenda ++ [(d, a)] := rfl
@[simp] theorem newOp_nextId (s : State) (i : Nat) (op : Op) : (s.newOp i op).2.nextId = s.nextId + 1 := rfl
@[simp] theorem newOp_id (s : State) (i : Nat) (op : Op) : (s.newOp i op).1 = s.nextId := rfl
@[simp] theorem at_isl (s : State) (d : Due) (a : Act) (i : Nat) : (s.at d a).isl i = s.isl i := rfl
@[simp] theorem after_isl (s : State) (j c : Nat) (r : Instr) (as : List Nat) (i : Nat) :
    (s.after j c r as).isl i = s.isl i := rfl

/-! An event added once leaves everything but the agenda. -/

@[simp] theorem afterOnce_now (s : State) (i c : Nat) (r : Instr) (as : List Nat) :
    (s.afterOnce i c r as).now = s.now := by unfold State.afterOnce; split <;> rfl
@[simp] theorem afterOnce_choices (s : State) (i c : Nat) (r : Instr) (as : List Nat) :
    (s.afterOnce i c r as).choices = s.choices := by unfold State.afterOnce; split <;> rfl
@[simp] theorem afterOnce_freeCtr (s : State) (i c : Nat) (r : Instr) (as : List Nat) :
    (s.afterOnce i c r as).freeCtr = s.freeCtr := by unfold State.afterOnce; split <;> rfl
@[simp] theorem afterOnce_focus (s : State) (i c : Nat) (r : Instr) (as : List Nat) :
    (s.afterOnce i c r as).focus = s.focus := by unfold State.afterOnce; split <;> rfl
@[simp] theorem afterOnce_nextId (s : State) (i c : Nat) (r : Instr) (as : List Nat) :
    (s.afterOnce i c r as).nextId = s.nextId := by unfold State.afterOnce; split <;> rfl
@[simp] theorem afterOnce_populated (s : State) (i c : Nat) (r : Instr) (as : List Nat) :
    (s.afterOnce i c r as).populated = s.populated := by unfold State.afterOnce; split <;> rfl
@[simp] theorem afterOnce_badLinks (s : State) (i c : Nat) (r : Instr) (as : List Nat) :
    (s.afterOnce i c r as).badLinks = s.badLinks := by unfold State.afterOnce; split <;> rfl
@[simp] theorem afterOnce_fibreGood (s : State) (i c : Nat) (r : Instr) (as : List Nat) :
    (s.afterOnce i c r as).fibreGood = s.fibreGood := by unfold State.afterOnce; split <;> rfl
@[simp] theorem afterOnce_fibreTo (s : State) (i c : Nat) (r : Instr) (as : List Nat) :
    (s.afterOnce i c r as).fibreTo = s.fibreTo := by unfold State.afterOnce; split <;> rfl
@[simp] theorem afterOnce_islands (s : State) (i c : Nat) (r : Instr) (as : List Nat) :
    (s.afterOnce i c r as).islands = s.islands := by unfold State.afterOnce; split <;> rfl
@[simp] theorem afterOnce_bell (s : State) (i c : Nat) (r : Instr) (as : List Nat) :
    (s.afterOnce i c r as).bell = s.bell := by unfold State.afterOnce; split <;> rfl
@[simp] theorem afterOnce_outcome (s : State) (i c : Nat) (r : Instr) (as : List Nat) :
    (s.afterOnce i c r as).outcome = s.outcome := by unfold State.afterOnce; split <;> rfl
@[simp] theorem afterOnce_bellLost (s : State) (i c : Nat) (r : Instr) (as : List Nat) :
    (s.afterOnce i c r as).bellLost = s.bellLost := by unfold State.afterOnce; split <;> rfl
@[simp] theorem afterOnce_launches (s : State) (i c : Nat) (r : Instr) (as : List Nat) :
    (s.afterOnce i c r as).launches = s.launches := by unfold State.afterOnce; split <;> rfl
@[simp] theorem afterOnce_hqs (s : State) (i c : Nat) (r : Instr) (as : List Nat) :
    (s.afterOnce i c r as).hqs = s.hqs := by unfold State.afterOnce; split <;> rfl
@[simp] theorem afterOnce_pbRoot (s : State) (i c : Nat) (r : Instr) (as : List Nat) :
    (s.afterOnce i c r as).pbRoot = s.pbRoot := by unfold State.afterOnce; split <;> rfl
@[simp] theorem afterOnce_pkts (s : State) (i c : Nat) (r : Instr) (as : List Nat) :
    (s.afterOnce i c r as).pkts = s.pkts := by unfold State.afterOnce; split <;> rfl
@[simp] theorem afterOnce_colls (s : State) (i c : Nat) (r : Instr) (as : List Nat) :
    (s.afterOnce i c r as).colls = s.colls := by unfold State.afterOnce; split <;> rfl
@[simp] theorem afterOnce_topq (s : State) (i c : Nat) (r : Instr) (as : List Nat) :
    (s.afterOnce i c r as).topq = s.topq := by unfold State.afterOnce; split <;> rfl
@[simp] theorem afterOnce_isl (s : State) (j c : Nat) (r : Instr) (as : List Nat) (i : Nat) :
    (s.afterOnce j c r as).isl i = s.isl i := by simp [State.isl]

/-! ## An island -/

@[simp] theorem island_modCore_cycBase (x : Island) (c : Nat) (f : CoreS → CoreS) : (x.modCore c f).cycBase = x.cycBase := rfl
@[simp] theorem island_modCore_timeBase (x : Island) (c : Nat) (f : CoreS → CoreS) : (x.modCore c f).timeBase = x.timeBase := rfl
@[simp] theorem island_modCore_period (x : Island) (c : Nat) (f : CoreS → CoreS) : (x.modCore c f).period = x.period := rfl
@[simp] theorem island_modCore_running (x : Island) (c : Nat) (f : CoreS → CoreS) : (x.modCore c f).running = x.running := rfl
@[simp] theorem island_modCore_frozen (x : Island) (c : Nat) (f : CoreS → CoreS) : (x.modCore c f).frozen = x.frozen := rfl
@[simp] theorem island_modCore_dark (x : Island) (c : Nat) (f : CoreS → CoreS) : (x.modCore c f).dark = x.dark := rfl
@[simp] theorem island_modCore_half0 (x : Island) (c : Nat) (f : CoreS → CoreS) : (x.modCore c f).half0 = x.half0 := rfl
@[simp] theorem island_modCore_half1 (x : Island) (c : Nat) (f : CoreS → CoreS) : (x.modCore c f).half1 = x.half1 := rfl
@[simp] theorem island_modCore_flash (x : Island) (c : Nat) (f : CoreS → CoreS) : (x.modCore c f).flash = x.flash := rfl
@[simp] theorem island_modCore_heardAt (x : Island) (c : Nat) (f : CoreS → CoreS) : (x.modCore c f).heardAt = x.heardAt := rfl
@[simp] theorem island_modCore_beatAt (x : Island) (c : Nat) (f : CoreS → CoreS) : (x.modCore c f).beatAt = x.beatAt := rfl
@[simp] theorem island_modCore_fstat (x : Island) (c : Nat) (f : CoreS → CoreS) : (x.modCore c f).fstat = x.fstat := rfl
@[simp] theorem island_modCore_host (x : Island) (c : Nat) (f : CoreS → CoreS) : (x.modCore c f).host = x.host := rfl
@[simp] theorem island_modCore_sys (x : Island) (c : Nat) (f : CoreS → CoreS) : (x.modCore c f).sys = x.sys := rfl
@[simp] theorem island_modCore_topo (x : Island) (c : Nat) (f : CoreS → CoreS) : (x.modCore c f).topo = x.topo := rfl
@[simp] theorem island_modCore_ctxs (x : Island) (c : Nat) (f : CoreS → CoreS) : (x.modCore c f).ctxs = x.ctxs := rfl
@[simp] theorem island_modCore_mem (x : Island) (c : Nat) (f : CoreS → CoreS) : (x.modCore c f).mem = x.mem := rfl
@[simp] theorem island_modCore_homes (x : Island) (c : Nat) (f : CoreS → CoreS) : (x.modCore c f).homes = x.homes := rfl
@[simp] theorem island_modCore_filters (x : Island) (c : Nat) (f : CoreS → CoreS) : (x.modCore c f).filters = x.filters := rfl
@[simp] theorem island_modCore_reqs (x : Island) (c : Nat) (f : CoreS → CoreS) : (x.modCore c f).reqs = x.reqs := rfl
@[simp] theorem island_modCore_invs (x : Island) (c : Nat) (f : CoreS → CoreS) : (x.modCore c f).invs = x.invs := rfl
@[simp] theorem island_modCore_versions (x : Island) (c : Nat) (f : CoreS → CoreS) : (x.modCore c f).versions = x.versions := rfl
@[simp] theorem island_modCore_asleep (x : Island) (c : Nat) (f : CoreS → CoreS) : (x.modCore c f).asleep = x.asleep := rfl
@[simp] theorem island_modCore_refresh (x : Island) (c : Nat) (f : CoreS → CoreS) : (x.modCore c f).refresh = x.refresh := rfl
@[simp] theorem island_modCore_sliceUsed (x : Island) (c : Nat) (f : CoreS → CoreS) : (x.modCore c f).sliceUsed = x.sliceUsed := rfl
@[simp] theorem island_modCore_microTlb (x : Island) (c : Nat) (f : CoreS → CoreS) : (x.modCore c f).microTlb = x.microTlb := rfl
@[simp] theorem island_modCore_clusterTlb (x : Island) (c : Nat) (f : CoreS → CoreS) : (x.modCore c f).clusterTlb = x.clusterTlb := rfl
@[simp] theorem island_modCore_oedTlb (x : Island) (c : Nat) (f : CoreS → CoreS) : (x.modCore c f).oedTlb = x.oedTlb := rfl
@[simp] theorem island_modCore_walks (x : Island) (c : Nat) (f : CoreS → CoreS) : (x.modCore c f).walks = x.walks := rfl
@[simp] theorem island_modCore_walkQueue (x : Island) (c : Nat) (f : CoreS → CoreS) : (x.modCore c f).walkQueue = x.walkQueue := rfl
@[simp] theorem island_modCore_hyps (x : Island) (c : Nat) (f : CoreS → CoreS) : (x.modCore c f).hyps = x.hyps := rfl
@[simp] theorem island_modCore_resolve (x : Island) (c : Nat) (f : CoreS → CoreS) : (x.modCore c f).resolve = x.resolve := rfl
@[simp] theorem island_modCore_resolveQ (x : Island) (c : Nat) (f : CoreS → CoreS) : (x.modCore c f).resolveQ = x.resolveQ := rfl
@[simp] theorem island_modCore_nc (x : Island) (c : Nat) (f : CoreS → CoreS) : (x.modCore c f).nc = x.nc := rfl
@[simp] theorem island_modCore_nwaiters (x : Island) (c : Nat) (f : CoreS → CoreS) : (x.modCore c f).nwaiters = x.nwaiters := rfl
@[simp] theorem island_modCore_pbars (x : Island) (c : Nat) (f : CoreS → CoreS) : (x.modCore c f).pbars = x.pbars := rfl
@[simp] theorem island_modCore_faults (x : Island) (c : Nat) (f : CoreS → CoreS) : (x.modCore c f).faults = x.faults := rfl
@[simp] theorem island_modCore_events (x : Island) (c : Nat) (f : CoreS → CoreS) : (x.modCore c f).events = x.events := rfl
@[simp] theorem island_modCore_irqFault (x : Island) (c : Nat) (f : CoreS → CoreS) : (x.modCore c f).irqFault = x.irqFault := rfl
@[simp] theorem island_modCore_irqEvent (x : Island) (c : Nat) (f : CoreS → CoreS) : (x.modCore c f).irqEvent = x.irqEvent := rfl
@[simp] theorem island_modCore_ops (x : Island) (c : Nat) (f : CoreS → CoreS) : (x.modCore c f).ops = x.ops := rfl
@[simp] theorem island_modCore_cls (x : Island) (c : Nat) (f : CoreS → CoreS) : (x.modCore c f).cls = x.cls := rfl
@[simp] theorem island_modCore_saved (x : Island) (c : Nat) (f : CoreS → CoreS) : (x.modCore c f).saved = x.saved := rfl
@[simp] theorem island_modCore_restoring (x : Island) (c : Nat) (f : CoreS → CoreS) : (x.modCore c f).restoring = x.restoring := rfl
@[simp] theorem island_modCore_dqs (x : Island) (c : Nat) (f : CoreS → CoreS) : (x.modCore c f).dqs = x.dqs := rfl
@[simp] theorem island_modCore_frames (x : Island) (c : Nat) (f : CoreS → CoreS) : (x.modCore c f).frames = x.frames := rfl
@[simp] theorem island_modCore_pageLogs (x : Island) (c : Nat) (f : CoreS → CoreS) : (x.modCore c f).pageLogs = x.pageLogs := rfl
@[simp] theorem island_modCore_audits (x : Island) (c : Nat) (f : CoreS → CoreS) : (x.modCore c f).audits = x.audits := rfl
@[simp] theorem island_modCore_closedPorts (x : Island) (c : Nat) (f : CoreS → CoreS) : (x.modCore c f).closedPorts = x.closedPorts := rfl
@[simp] theorem island_modCore_portChgs (x : Island) (c : Nat) (f : CoreS → CoreS) : (x.modCore c f).portChgs = x.portChgs := rfl
@[simp] theorem island_modCore_rseq (x : Island) (c : Nat) (f : CoreS → CoreS) : (x.modCore c f).rseq = x.rseq := rfl
@[simp] theorem island_modCore_governing (x : Island) (c : Nat) (f : CoreS → CoreS) : (x.modCore c f).governing = x.governing := rfl
@[simp] theorem island_modCore_govNext (x : Island) (c : Nat) (f : CoreS → CoreS) : (x.modCore c f).govNext = x.govNext := rfl
@[simp] theorem island_modCore_rail (x : Island) (c : Nat) (f : CoreS → CoreS) : (x.modCore c f).rail = x.rail := rfl
@[simp] theorem island_modCore_railHigh (x : Island) (c : Nat) (f : CoreS → CoreS) : (x.modCore c f).railHigh = x.railHigh := rfl
@[simp] theorem island_modCore_handout (x : Island) (c : Nat) (f : CoreS → CoreS) : (x.modCore c f).handout = x.handout := rfl

@[simp] theorem island_modGroup_cycBase (x : Island) (c g : Nat) (f : Group → Group) : (x.modGroup c g f).cycBase = x.cycBase := rfl
@[simp] theorem island_modGroup_timeBase (x : Island) (c g : Nat) (f : Group → Group) : (x.modGroup c g f).timeBase = x.timeBase := rfl
@[simp] theorem island_modGroup_period (x : Island) (c g : Nat) (f : Group → Group) : (x.modGroup c g f).period = x.period := rfl
@[simp] theorem island_modGroup_running (x : Island) (c g : Nat) (f : Group → Group) : (x.modGroup c g f).running = x.running := rfl
@[simp] theorem island_modGroup_frozen (x : Island) (c g : Nat) (f : Group → Group) : (x.modGroup c g f).frozen = x.frozen := rfl
@[simp] theorem island_modGroup_dark (x : Island) (c g : Nat) (f : Group → Group) : (x.modGroup c g f).dark = x.dark := rfl
@[simp] theorem island_modGroup_half0 (x : Island) (c g : Nat) (f : Group → Group) : (x.modGroup c g f).half0 = x.half0 := rfl
@[simp] theorem island_modGroup_half1 (x : Island) (c g : Nat) (f : Group → Group) : (x.modGroup c g f).half1 = x.half1 := rfl
@[simp] theorem island_modGroup_flash (x : Island) (c g : Nat) (f : Group → Group) : (x.modGroup c g f).flash = x.flash := rfl
@[simp] theorem island_modGroup_heardAt (x : Island) (c g : Nat) (f : Group → Group) : (x.modGroup c g f).heardAt = x.heardAt := rfl
@[simp] theorem island_modGroup_beatAt (x : Island) (c g : Nat) (f : Group → Group) : (x.modGroup c g f).beatAt = x.beatAt := rfl
@[simp] theorem island_modGroup_fstat (x : Island) (c g : Nat) (f : Group → Group) : (x.modGroup c g f).fstat = x.fstat := rfl
@[simp] theorem island_modGroup_host (x : Island) (c g : Nat) (f : Group → Group) : (x.modGroup c g f).host = x.host := rfl
@[simp] theorem island_modGroup_sys (x : Island) (c g : Nat) (f : Group → Group) : (x.modGroup c g f).sys = x.sys := rfl
@[simp] theorem island_modGroup_topo (x : Island) (c g : Nat) (f : Group → Group) : (x.modGroup c g f).topo = x.topo := rfl
@[simp] theorem island_modGroup_ctxs (x : Island) (c g : Nat) (f : Group → Group) : (x.modGroup c g f).ctxs = x.ctxs := rfl
@[simp] theorem island_modGroup_mem (x : Island) (c g : Nat) (f : Group → Group) : (x.modGroup c g f).mem = x.mem := rfl
@[simp] theorem island_modGroup_homes (x : Island) (c g : Nat) (f : Group → Group) : (x.modGroup c g f).homes = x.homes := rfl
@[simp] theorem island_modGroup_filters (x : Island) (c g : Nat) (f : Group → Group) : (x.modGroup c g f).filters = x.filters := rfl
@[simp] theorem island_modGroup_reqs (x : Island) (c g : Nat) (f : Group → Group) : (x.modGroup c g f).reqs = x.reqs := rfl
@[simp] theorem island_modGroup_invs (x : Island) (c g : Nat) (f : Group → Group) : (x.modGroup c g f).invs = x.invs := rfl
@[simp] theorem island_modGroup_versions (x : Island) (c g : Nat) (f : Group → Group) : (x.modGroup c g f).versions = x.versions := rfl
@[simp] theorem island_modGroup_asleep (x : Island) (c g : Nat) (f : Group → Group) : (x.modGroup c g f).asleep = x.asleep := rfl
@[simp] theorem island_modGroup_refresh (x : Island) (c g : Nat) (f : Group → Group) : (x.modGroup c g f).refresh = x.refresh := rfl
@[simp] theorem island_modGroup_sliceUsed (x : Island) (c g : Nat) (f : Group → Group) : (x.modGroup c g f).sliceUsed = x.sliceUsed := rfl
@[simp] theorem island_modGroup_microTlb (x : Island) (c g : Nat) (f : Group → Group) : (x.modGroup c g f).microTlb = x.microTlb := rfl
@[simp] theorem island_modGroup_clusterTlb (x : Island) (c g : Nat) (f : Group → Group) : (x.modGroup c g f).clusterTlb = x.clusterTlb := rfl
@[simp] theorem island_modGroup_oedTlb (x : Island) (c g : Nat) (f : Group → Group) : (x.modGroup c g f).oedTlb = x.oedTlb := rfl
@[simp] theorem island_modGroup_walks (x : Island) (c g : Nat) (f : Group → Group) : (x.modGroup c g f).walks = x.walks := rfl
@[simp] theorem island_modGroup_walkQueue (x : Island) (c g : Nat) (f : Group → Group) : (x.modGroup c g f).walkQueue = x.walkQueue := rfl
@[simp] theorem island_modGroup_hyps (x : Island) (c g : Nat) (f : Group → Group) : (x.modGroup c g f).hyps = x.hyps := rfl
@[simp] theorem island_modGroup_resolve (x : Island) (c g : Nat) (f : Group → Group) : (x.modGroup c g f).resolve = x.resolve := rfl
@[simp] theorem island_modGroup_resolveQ (x : Island) (c g : Nat) (f : Group → Group) : (x.modGroup c g f).resolveQ = x.resolveQ := rfl
@[simp] theorem island_modGroup_nc (x : Island) (c g : Nat) (f : Group → Group) : (x.modGroup c g f).nc = x.nc := rfl
@[simp] theorem island_modGroup_nwaiters (x : Island) (c g : Nat) (f : Group → Group) : (x.modGroup c g f).nwaiters = x.nwaiters := rfl
@[simp] theorem island_modGroup_pbars (x : Island) (c g : Nat) (f : Group → Group) : (x.modGroup c g f).pbars = x.pbars := rfl
@[simp] theorem island_modGroup_faults (x : Island) (c g : Nat) (f : Group → Group) : (x.modGroup c g f).faults = x.faults := rfl
@[simp] theorem island_modGroup_events (x : Island) (c g : Nat) (f : Group → Group) : (x.modGroup c g f).events = x.events := rfl
@[simp] theorem island_modGroup_irqFault (x : Island) (c g : Nat) (f : Group → Group) : (x.modGroup c g f).irqFault = x.irqFault := rfl
@[simp] theorem island_modGroup_irqEvent (x : Island) (c g : Nat) (f : Group → Group) : (x.modGroup c g f).irqEvent = x.irqEvent := rfl
@[simp] theorem island_modGroup_ops (x : Island) (c g : Nat) (f : Group → Group) : (x.modGroup c g f).ops = x.ops := rfl
@[simp] theorem island_modGroup_cls (x : Island) (c g : Nat) (f : Group → Group) : (x.modGroup c g f).cls = x.cls := rfl
@[simp] theorem island_modGroup_saved (x : Island) (c g : Nat) (f : Group → Group) : (x.modGroup c g f).saved = x.saved := rfl
@[simp] theorem island_modGroup_restoring (x : Island) (c g : Nat) (f : Group → Group) : (x.modGroup c g f).restoring = x.restoring := rfl
@[simp] theorem island_modGroup_dqs (x : Island) (c g : Nat) (f : Group → Group) : (x.modGroup c g f).dqs = x.dqs := rfl
@[simp] theorem island_modGroup_frames (x : Island) (c g : Nat) (f : Group → Group) : (x.modGroup c g f).frames = x.frames := rfl
@[simp] theorem island_modGroup_pageLogs (x : Island) (c g : Nat) (f : Group → Group) : (x.modGroup c g f).pageLogs = x.pageLogs := rfl
@[simp] theorem island_modGroup_audits (x : Island) (c g : Nat) (f : Group → Group) : (x.modGroup c g f).audits = x.audits := rfl
@[simp] theorem island_modGroup_closedPorts (x : Island) (c g : Nat) (f : Group → Group) : (x.modGroup c g f).closedPorts = x.closedPorts := rfl
@[simp] theorem island_modGroup_portChgs (x : Island) (c g : Nat) (f : Group → Group) : (x.modGroup c g f).portChgs = x.portChgs := rfl
@[simp] theorem island_modGroup_rseq (x : Island) (c g : Nat) (f : Group → Group) : (x.modGroup c g f).rseq = x.rseq := rfl
@[simp] theorem island_modGroup_governing (x : Island) (c g : Nat) (f : Group → Group) : (x.modGroup c g f).governing = x.governing := rfl
@[simp] theorem island_modGroup_govNext (x : Island) (c g : Nat) (f : Group → Group) : (x.modGroup c g f).govNext = x.govNext := rfl
@[simp] theorem island_modGroup_rail (x : Island) (c g : Nat) (f : Group → Group) : (x.modGroup c g f).rail = x.rail := rfl
@[simp] theorem island_modGroup_railHigh (x : Island) (c g : Nat) (f : Group → Group) : (x.modGroup c g f).railHigh = x.railHigh := rfl
@[simp] theorem island_modGroup_handout (x : Island) (c g : Nat) (f : Group → Group) : (x.modGroup c g f).handout = x.handout := rfl

@[simp] theorem island_modWg_cycBase (x : Island) (c p : Nat) (f : Wg → Wg) : (x.modWg c p f).cycBase = x.cycBase := rfl
@[simp] theorem island_modWg_timeBase (x : Island) (c p : Nat) (f : Wg → Wg) : (x.modWg c p f).timeBase = x.timeBase := rfl
@[simp] theorem island_modWg_period (x : Island) (c p : Nat) (f : Wg → Wg) : (x.modWg c p f).period = x.period := rfl
@[simp] theorem island_modWg_running (x : Island) (c p : Nat) (f : Wg → Wg) : (x.modWg c p f).running = x.running := rfl
@[simp] theorem island_modWg_frozen (x : Island) (c p : Nat) (f : Wg → Wg) : (x.modWg c p f).frozen = x.frozen := rfl
@[simp] theorem island_modWg_dark (x : Island) (c p : Nat) (f : Wg → Wg) : (x.modWg c p f).dark = x.dark := rfl
@[simp] theorem island_modWg_half0 (x : Island) (c p : Nat) (f : Wg → Wg) : (x.modWg c p f).half0 = x.half0 := rfl
@[simp] theorem island_modWg_half1 (x : Island) (c p : Nat) (f : Wg → Wg) : (x.modWg c p f).half1 = x.half1 := rfl
@[simp] theorem island_modWg_flash (x : Island) (c p : Nat) (f : Wg → Wg) : (x.modWg c p f).flash = x.flash := rfl
@[simp] theorem island_modWg_heardAt (x : Island) (c p : Nat) (f : Wg → Wg) : (x.modWg c p f).heardAt = x.heardAt := rfl
@[simp] theorem island_modWg_beatAt (x : Island) (c p : Nat) (f : Wg → Wg) : (x.modWg c p f).beatAt = x.beatAt := rfl
@[simp] theorem island_modWg_fstat (x : Island) (c p : Nat) (f : Wg → Wg) : (x.modWg c p f).fstat = x.fstat := rfl
@[simp] theorem island_modWg_host (x : Island) (c p : Nat) (f : Wg → Wg) : (x.modWg c p f).host = x.host := rfl
@[simp] theorem island_modWg_sys (x : Island) (c p : Nat) (f : Wg → Wg) : (x.modWg c p f).sys = x.sys := rfl
@[simp] theorem island_modWg_topo (x : Island) (c p : Nat) (f : Wg → Wg) : (x.modWg c p f).topo = x.topo := rfl
@[simp] theorem island_modWg_ctxs (x : Island) (c p : Nat) (f : Wg → Wg) : (x.modWg c p f).ctxs = x.ctxs := rfl
@[simp] theorem island_modWg_mem (x : Island) (c p : Nat) (f : Wg → Wg) : (x.modWg c p f).mem = x.mem := rfl
@[simp] theorem island_modWg_homes (x : Island) (c p : Nat) (f : Wg → Wg) : (x.modWg c p f).homes = x.homes := rfl
@[simp] theorem island_modWg_filters (x : Island) (c p : Nat) (f : Wg → Wg) : (x.modWg c p f).filters = x.filters := rfl
@[simp] theorem island_modWg_reqs (x : Island) (c p : Nat) (f : Wg → Wg) : (x.modWg c p f).reqs = x.reqs := rfl
@[simp] theorem island_modWg_invs (x : Island) (c p : Nat) (f : Wg → Wg) : (x.modWg c p f).invs = x.invs := rfl
@[simp] theorem island_modWg_versions (x : Island) (c p : Nat) (f : Wg → Wg) : (x.modWg c p f).versions = x.versions := rfl
@[simp] theorem island_modWg_asleep (x : Island) (c p : Nat) (f : Wg → Wg) : (x.modWg c p f).asleep = x.asleep := rfl
@[simp] theorem island_modWg_refresh (x : Island) (c p : Nat) (f : Wg → Wg) : (x.modWg c p f).refresh = x.refresh := rfl
@[simp] theorem island_modWg_sliceUsed (x : Island) (c p : Nat) (f : Wg → Wg) : (x.modWg c p f).sliceUsed = x.sliceUsed := rfl
@[simp] theorem island_modWg_microTlb (x : Island) (c p : Nat) (f : Wg → Wg) : (x.modWg c p f).microTlb = x.microTlb := rfl
@[simp] theorem island_modWg_clusterTlb (x : Island) (c p : Nat) (f : Wg → Wg) : (x.modWg c p f).clusterTlb = x.clusterTlb := rfl
@[simp] theorem island_modWg_oedTlb (x : Island) (c p : Nat) (f : Wg → Wg) : (x.modWg c p f).oedTlb = x.oedTlb := rfl
@[simp] theorem island_modWg_walks (x : Island) (c p : Nat) (f : Wg → Wg) : (x.modWg c p f).walks = x.walks := rfl
@[simp] theorem island_modWg_walkQueue (x : Island) (c p : Nat) (f : Wg → Wg) : (x.modWg c p f).walkQueue = x.walkQueue := rfl
@[simp] theorem island_modWg_hyps (x : Island) (c p : Nat) (f : Wg → Wg) : (x.modWg c p f).hyps = x.hyps := rfl
@[simp] theorem island_modWg_resolve (x : Island) (c p : Nat) (f : Wg → Wg) : (x.modWg c p f).resolve = x.resolve := rfl
@[simp] theorem island_modWg_resolveQ (x : Island) (c p : Nat) (f : Wg → Wg) : (x.modWg c p f).resolveQ = x.resolveQ := rfl
@[simp] theorem island_modWg_nc (x : Island) (c p : Nat) (f : Wg → Wg) : (x.modWg c p f).nc = x.nc := rfl
@[simp] theorem island_modWg_nwaiters (x : Island) (c p : Nat) (f : Wg → Wg) : (x.modWg c p f).nwaiters = x.nwaiters := rfl
@[simp] theorem island_modWg_pbars (x : Island) (c p : Nat) (f : Wg → Wg) : (x.modWg c p f).pbars = x.pbars := rfl
@[simp] theorem island_modWg_faults (x : Island) (c p : Nat) (f : Wg → Wg) : (x.modWg c p f).faults = x.faults := rfl
@[simp] theorem island_modWg_events (x : Island) (c p : Nat) (f : Wg → Wg) : (x.modWg c p f).events = x.events := rfl
@[simp] theorem island_modWg_irqFault (x : Island) (c p : Nat) (f : Wg → Wg) : (x.modWg c p f).irqFault = x.irqFault := rfl
@[simp] theorem island_modWg_irqEvent (x : Island) (c p : Nat) (f : Wg → Wg) : (x.modWg c p f).irqEvent = x.irqEvent := rfl
@[simp] theorem island_modWg_ops (x : Island) (c p : Nat) (f : Wg → Wg) : (x.modWg c p f).ops = x.ops := rfl
@[simp] theorem island_modWg_cls (x : Island) (c p : Nat) (f : Wg → Wg) : (x.modWg c p f).cls = x.cls := rfl
@[simp] theorem island_modWg_saved (x : Island) (c p : Nat) (f : Wg → Wg) : (x.modWg c p f).saved = x.saved := rfl
@[simp] theorem island_modWg_restoring (x : Island) (c p : Nat) (f : Wg → Wg) : (x.modWg c p f).restoring = x.restoring := rfl
@[simp] theorem island_modWg_dqs (x : Island) (c p : Nat) (f : Wg → Wg) : (x.modWg c p f).dqs = x.dqs := rfl
@[simp] theorem island_modWg_frames (x : Island) (c p : Nat) (f : Wg → Wg) : (x.modWg c p f).frames = x.frames := rfl
@[simp] theorem island_modWg_pageLogs (x : Island) (c p : Nat) (f : Wg → Wg) : (x.modWg c p f).pageLogs = x.pageLogs := rfl
@[simp] theorem island_modWg_audits (x : Island) (c p : Nat) (f : Wg → Wg) : (x.modWg c p f).audits = x.audits := rfl
@[simp] theorem island_modWg_closedPorts (x : Island) (c p : Nat) (f : Wg → Wg) : (x.modWg c p f).closedPorts = x.closedPorts := rfl
@[simp] theorem island_modWg_portChgs (x : Island) (c p : Nat) (f : Wg → Wg) : (x.modWg c p f).portChgs = x.portChgs := rfl
@[simp] theorem island_modWg_rseq (x : Island) (c p : Nat) (f : Wg → Wg) : (x.modWg c p f).rseq = x.rseq := rfl
@[simp] theorem island_modWg_governing (x : Island) (c p : Nat) (f : Wg → Wg) : (x.modWg c p f).governing = x.governing := rfl
@[simp] theorem island_modWg_govNext (x : Island) (c p : Nat) (f : Wg → Wg) : (x.modWg c p f).govNext = x.govNext := rfl
@[simp] theorem island_modWg_rail (x : Island) (c p : Nat) (f : Wg → Wg) : (x.modWg c p f).rail = x.rail := rfl
@[simp] theorem island_modWg_railHigh (x : Island) (c p : Nat) (f : Wg → Wg) : (x.modWg c p f).railHigh = x.railHigh := rfl
@[simp] theorem island_modWg_handout (x : Island) (c p : Nat) (f : Wg → Wg) : (x.modWg c p f).handout = x.handout := rfl

@[simp] theorem island_modCore_cores (x : Island) (c : Nat) (f : CoreS → CoreS) :
    (x.modCore c f).cores = tput x.cores c (f (x.core c)) := rfl

/-! ## A group's fixed-latency writes -/

@[simp] theorem addWrite_place (g : Group) (due : Nat) (d : WDest) (v : DWord) : (addWrite g due d v).place = g.place := rfl
@[simp] theorem addWrite_gidx (g : Group) (due : Nat) (d : WDest) (v : DWord) : (addWrite g due d v).gidx = g.gidx := rfl
@[simp] theorem addWrite_role (g : Group) (due : Nat) (d : WDest) (v : DWord) : (addWrite g due d v).role = g.role := rfl
@[simp] theorem addWrite_threads (g : Group) (due : Nat) (d : WDest) (v : DWord) : (addWrite g due d v).threads = g.threads := rfl
@[simp] theorem addWrite_v (g : Group) (due : Nat) (d : WDest) (v : DWord) : (addWrite g due d v).v = g.v := rfl
@[simp] theorem addWrite_s (g : Group) (due : Nat) (d : WDest) (v : DWord) : (addWrite g due d v).s = g.s := rfl
@[simp] theorem addWrite_o (g : Group) (due : Nat) (d : WDest) (v : DWord) : (addWrite g due d v).o = g.o := rfl
@[simp] theorem addWrite_lt (g : Group) (due : Nat) (d : WDest) (v : DWord) : (addWrite g due d v).lt = g.lt := rfl
@[simp] theorem addWrite_flags (g : Group) (due : Nat) (d : WDest) (v : DWord) : (addWrite g due d v).flags = g.flags := rfl
@[simp] theorem addWrite_fctl (g : Group) (due : Nat) (d : WDest) (v : DWord) : (addWrite g due d v).fctl = g.fctl := rfl
@[simp] theorem addWrite_aw (g : Group) (due : Nat) (d : WDest) (v : DWord) : (addWrite g due d v).aw = g.aw := rfl
@[simp] theorem addWrite_tvec (g : Group) (due : Nat) (d : WDest) (v : DWord) : (addWrite g due d v).tvec = g.tvec := rfl
@[simp] theorem addWrite_hy (g : Group) (due : Nat) (d : WDest) (v : DWord) : (addWrite g due d v).hy = g.hy := rfl
@[simp] theorem addWrite_rpi (g : Group) (due : Nat) (d : WDest) (v : DWord) : (addWrite g due d v).rpi = g.rpi := rfl
@[simp] theorem addWrite_rep (g : Group) (due : Nat) (d : WDest) (v : DWord) : (addWrite g due d v).rep = g.rep := rfl
@[simp] theorem addWrite_lastIssue (g : Group) (due : Nat) (d : WDest) (v : DWord) : (addWrite g due d v).lastIssue = g.lastIssue := rfl
@[simp] theorem addWrite_yieldTo (g : Group) (due : Nat) (d : WDest) (v : DWord) : (addWrite g due d v).yieldTo = g.yieldTo := rfl
@[simp] theorem addWrite_eligible (g : Group) (due : Nat) (d : WDest) (v : DWord) : (addWrite g due d v).eligible = g.eligible := rfl
@[simp] theorem addWrite_retired (g : Group) (due : Nat) (d : WDest) (v : DWord) : (addWrite g due d v).retired = g.retired := rfl
@[simp] theorem addWrite_urgent (g : Group) (due : Nat) (d : WDest) (v : DWord) : (addWrite g due d v).urgent = g.urgent := rfl
@[simp] theorem addWrite_age (g : Group) (due : Nat) (d : WDest) (v : DWord) : (addWrite g due d v).age = g.age := rfl
@[simp] theorem addWrite_unacked (g : Group) (due : Nat) (d : WDest) (v : DWord) : (addWrite g due d v).unacked = g.unacked := rfl
@[simp] theorem addWrite_releasing (g : Group) (due : Nat) (d : WDest) (v : DWord) : (addWrite g due d v).releasing = g.releasing := rfl
@[simp] theorem addWrite_acquiring (g : Group) (due : Nat) (d : WDest) (v : DWord) : (addWrite g due d v).acquiring = g.acquiring := rfl
@[simp] theorem addWrite_entering (g : Group) (due : Nat) (d : WDest) (v : DWord) : (addWrite g due d v).entering = g.entering := rfl
@[simp] theorem addWrite_rfencing (g : Group) (due : Nat) (d : WDest) (v : DWord) : (addWrite g due d v).rfencing = g.rfencing := rfl
@[simp] theorem addWrite_qfencing (g : Group) (due : Nat) (d : WDest) (v : DWord) : (addWrite g due d v).qfencing = g.qfencing := rfl
@[simp] theorem addWrite_quiesced (g : Group) (due : Nat) (d : WDest) (v : DWord) : (addWrite g due d v).quiesced = g.quiesced := rfl
@[simp] theorem addWrite_parked (g : Group) (due : Nat) (d : WDest) (v : DWord) : (addWrite g due d v).parked = g.parked := rfl
@[simp] theorem addWrite_records (g : Group) (due : Nat) (d : WDest) (v : DWord) : (addWrite g due d v).records = g.records := rfl
@[simp] theorem addWrite_due (g : Group) (due : Nat) (d : WDest) (v : DWord) : (addWrite g due d v).due = g.due := rfl
@[simp] theorem addWrite_orphInfo (g : Group) (due : Nat) (d : WDest) (v : DWord) : (addWrite g due d v).orphInfo = g.orphInfo := rfl
@[simp] theorem addWrite_frame (g : Group) (due : Nat) (d : WDest) (v : DWord) : (addWrite g due d v).frame = g.frame := rfl
@[simp] theorem addWrite_ended (g : Group) (due : Nat) (d : WDest) (v : DWord) : (addWrite g due d v).ended = g.ended := rfl

end Sys2Proof.Laws
end

