-- ==== Sys2Proof/Laws/Tables.lean ====
section
/-! SUPPORT. Tables: what reading after setting, removing or changing an entry gives, and where the update of an island,
core or group is seen. -/

namespace Sys2Proof.Laws

open Sys2Proof.Machine

@[simp] theorem tget_tput_same (t : Tbl α) (i : Nat) (a : α) : tget? (tput t i a) i = some a := by
  induction t with
  | nil => simp [tput, tget?]
  | cons p r ih =>
    obtain ⟨k, b⟩ := p
    unfold tput
    split
    · simp [tget?]
    · split
      · simp [tget?]
      · have : k ≠ i := fun h => by simp_all
        simp [tget?, this, ih]

/-- What an index gives stands in the table. -/
theorem tget_mem {t : Tbl α} {i : Nat} {a : α} (h : tget? t i = some a) : (i, a) ∈ t := by
  induction t with
  | nil => cases h
  | cons p r ih =>
    obtain ⟨k, b⟩ := p
    simp only [tget?] at h
    split at h
    · rename_i e; cases h; exact e ▸ List.mem_cons_self
    · exact List.mem_cons_of_mem _ (ih h)

theorem tget_tput_ne (t : Tbl α) {i j : Nat} (a : α) (h : j ≠ i) : tget? (tput t i a) j = tget? t j := by
  induction t with
  | nil => simp [tput, tget?, Ne.symm h]
  | cons p r ih =>
    obtain ⟨k, b⟩ := p
    unfold tput
    split
    · simp [tget?, Ne.symm h]
    · split
      · next h' => subst h'; simp [tget?, Ne.symm h]
      · simp only [tget?, ih]

theorem tget_tput (t : Tbl α) (i j : Nat) (a : α) :
    tget? (tput t i a) j = if j = i then some a else tget? t j := by
  split
  · next h => subst h; simp
  · next h => exact tget_tput_ne t a h

@[simp] theorem tgetD_tput_same (t : Tbl α) (i : Nat) (a d : α) : tgetD (tput t i a) i d = a := by simp [tgetD]

theorem tgetD_tput_ne (t : Tbl α) {i j : Nat} (a d : α) (h : j ≠ i) : tgetD (tput t i a) j d = tgetD t j d := by
  simp [tgetD, tget_tput_ne t a h]

theorem tget_tmod_same (t : Tbl α) (i : Nat) (f : α → α) : tget? (tmod t i f) i = (tget? t i).map f := by
  unfold tmod
  cases h : tget? t i <;> simp [h]

theorem tget_tmod_ne (t : Tbl α) {i j : Nat} (f : α → α) (h : j ≠ i) : tget? (tmod t i f) j = tget? t j := by
  unfold tmod
  cases tget? t i
  · rfl
  · exact tget_tput_ne t _ h

theorem tget_tdel_ne (t : Tbl α) {i j : Nat} (h : j ≠ i) : tget? (tdel t i) j = tget? t j := by
  induction t with
  | nil => rfl
  | cons p r ih =>
    obtain ⟨k, b⟩ := p
    unfold tdel
    split
    · next h' => subst h'; simp [tget?, Ne.symm h]
    · simp only [tget?, ih]

/-! ## Where an update is seen -/

@[simp] theorem isl_setIsl_same (s : State) (i : Nat) (x : Island) : (s.setIsl i x).isl i = x := by
  simp [State.isl, State.setIsl]

theorem isl_setIsl_ne (s : State) {i j : Nat} (x : Island) (h : j ≠ i) : (s.setIsl i x).isl j = s.isl j := by
  simp [State.isl, State.setIsl, tgetD_tput_ne _ _ _ h]

@[simp] theorem isl_modIsl_same (s : State) (i : Nat) (f : Island → Island) : (s.modIsl i f).isl i = f (s.isl i) := by
  simp [State.modIsl]

theorem isl_modIsl_ne (s : State) {i j : Nat} (f : Island → Island) (h : j ≠ i) : (s.modIsl i f).isl j = s.isl j := by
  simp [State.modIsl, isl_setIsl_ne s _ h]

@[simp] theorem core_modCore_same (x : Island) (c : Nat) (f : CoreS → CoreS) : (x.modCore c f).core c = f (x.core c) := by
  simp [Island.core, Island.modCore]

theorem core_modCore_ne (x : Island) {c d : Nat} (f : CoreS → CoreS) (h : d ≠ c) :
    (x.modCore c f).core d = x.core d := by
  simp [Island.core, Island.modCore, tgetD_tput_ne _ _ _ h]

@[simp] theorem group_modGroup_same (x : Island) (c g : Nat) (f : Group → Group) :
    (x.modGroup c g f).group? c g = (x.group? c g).map f := by
  simp [Island.group?, Island.modGroup, tget_tmod_same]

theorem group_modGroup_ne (x : Island) {c g d h : Nat} (f : Group → Group) (hne : d ≠ c ∨ h ≠ g) :
    (x.modGroup c g f).group? d h = x.group? d h := by
  by_cases hd : d = c
  · subst hd
    have hh : h ≠ g := by simpa using hne
    simp [Island.group?, Island.modGroup, tget_tmod_ne _ _ hh]
  · simp [Island.group?, Island.modGroup, core_modCore_ne x _ hd]

@[simp] theorem wg_modGroup (x : Island) (c g d p : Nat) (f : Group → Group) :
    (x.modGroup c g f).wg? d p = x.wg? d p := by
  by_cases hd : d = c
  · subst hd; simp [Island.wg?, Island.modGroup]
  · simp [Island.wg?, Island.modGroup, core_modCore_ne x _ hd]

@[simp] theorem op_newOp_same (s : State) (i : Nat) (o : Op) : (s.newOp i o).2.op? i s.nextId = some o := by
  simp [State.op?, State.newOp]

theorem op_newOp_ne (s : State) (i : Nat) (o : Op) {n : Nat} (h : n ≠ s.nextId) :
    (s.newOp i o).2.op? i n = s.op? i n := by
  simp only [State.op?, State.newOp, isl_modIsl_same]
  exact tget_tput_ne _ _ h

@[simp] theorem op_modOp_same (s : State) (i n : Nat) (f : Op → Op) : (s.modOp i n f).op? i n = (s.op? i n).map f := by
  simp [State.op?, State.modOp, tget_tmod_same]

end Sys2Proof.Laws
end

