-- ==== Sys2Proof/Laws/Issue.lean ====
section
/-! SUPPORT. What an issue comes to: the decoding fault or the effect, said once for every group instruction; and how the
results of fixed-latency instructions are queued. -/

namespace Sys2Proof.Laws

open Sys2Proof.Machine Sys2Proof.Safety

/-- The opcode and MOD that the decoding checks look at. -/
theorem opcMd_eq (i : Instr) :
    opcMd i = (((fieldsOf i).map (·.opc.toNat)).getD 0, ((fieldsOf i).map (·.md.toNat)).getD 0) := by
  unfold opcMd
  cases fieldsOf i <;> rfl

/-- An instruction that executes takes no decoding fault. -/
theorem decodeFault_none {i : Instr} {c : Ctl} {s : State} {e : Env} (h : Executes i c s e) (k : CoreS)
    (regs : List (Opnd × Bool)) (hr : regs = operands i) (pre : Option (Nat × DWord)) (hp : pre = none) :
    decodeFault k i c regs pre e = none := by
  subst hr hp
  have hl : Machine.legal i = true := h.legal
  have hpr := h.priv
  have hro := h.role
  rw [opcMd_eq] at hpr hro
  simp only [decodeFault, hl, Option.any_none, Bool.not_true, Bool.or_self, Bool.false_eq_true, ↓reduceIte]
  rw [if_neg, if_neg, if_neg]
  · simp only [Bool.not_eq_true, List.any_eq_false, List.mem_append]
    rintro r (hr | hr)
    · split at hr
      · next hg =>
        simp only [List.mem_singleton] at hr
        subst hr
        have := h.guard hg
        simp [rangeBad]; omega
      · simp at hr
    · simp [h.regs r hr]
  · simp [hro]
  · simp only [Bool.and_eq_true, Bool.not_eq_true', not_and, Bool.not_eq_false]
    exact hpr

/-- The issue of an instruction that executes: the run advances, then the instruction has its effect. -/
theorem issue_next {i : Instr} {c : Ctl} {s : State} {e : Env} (h : Executes i c s e) {regs : List (Opnd × Bool)}
    (hr : regs = operands i) {pre : Env → State → Option (Nat × DWord)} (hp : pre e s = none)
    (eff : Env → State → State) : issue i c regs pre eff s = .next (eff e (s.advance e i c)) := by
  unfold issue
  rw [h.focus]
  simp only [h.env]
  rw [decodeFault_none h _ regs hr _ hp]

/-! ## Results -/

theorem writeAt_eq (due : Nat) (x : Opnd) (wide : Bool) (l : Nat) (v : DWord) (g : Group) :
    writeAt due x wide l v g = queueAll g due (regWrites x wide l v) := by
  cases x <;> cases wide <;> rfl

theorem queueAll_append (g : Group) (due : Nat) (a b : List (WDest × DWord)) :
    queueAll g due (a ++ b) = queueAll (queueAll g due a) due b := by
  simp [queueAll, List.foldl_append]

theorem queueAll_flatMap (due : Nat) (ls : List Nat) (f : Nat → List (WDest × DWord)) (h : Group → Nat → Group)
    (hf : ∀ g l, h g l = queueAll g due (f l)) (g : Group) :
    ls.foldl h g = queueAll g due (ls.flatMap f) := by
  induction ls generalizing g with
  | nil => rfl
  | cons l ls ih => rw [List.foldl_cons, ih, hf, List.flatMap_cons, queueAll_append]

/-- The result of a fixed-latency instruction is its list of writes. -/
theorem result_eq (e : Env) (lat : Nat) (x : Opnd) (wide latch : Bool) (m : LaneMask) (f : Nat → DWord) (g : Group) :
    e.result lat x wide latch m (fun l => (f l, f l)) g = queueAll g (e.cyc + lat) (resultWrites x wide latch m f) := by
  unfold Env.result resultWrites
  cases x
  case s k =>
    simp only
    cases lowLane m with
    | none => rfl
    | some l => exact writeAt_eq _ _ _ _ _ _
  all_goals
    refine queueAll_flatMap _ _ _ _ ?_ g
    intro g l
    rw [queueAll_append, ← writeAt_eq]
    cases latch <;> rfl

/-- A result that the latch does not take. -/
theorem result_nolatch (e : Env) (lat : Nat) (x : Opnd) (wide : Bool) (m : LaneMask) (f : Nat → DWord) (n : Nat → DWord)
    (g : Group) :
    e.result lat x wide false m (fun l => (f l, n l)) g = queueAll g (e.cyc + lat) (resultWrites x wide false m f) := by
  rw [← result_eq]
  rfl

theorem done_eq (e : Env) (c : Ctl) (lat : Nat) (g : Group) : e.done c lat g = queueAll g (e.cyc + lat) (flagWrite c) := by
  unfold Env.done flagWrite setFlag
  by_cases h : c.setf.toNat < 12 <;> simp [h, queueAll]

/-- A per-lane instruction that executes comes to the state its form gives. -/
theorem laneOp_next {i : Instr} {c : Ctl} {s : State} {e : Env} (h : Executes i c s e) (lat : Nat) (x : Opnd)
    (wide : Bool) (regs : List (Opnd × Bool)) (hr : (x, wide) :: regs = operands i) (f : Env → Nat → DWord) :
    laneOp i c lat x wide regs f s =
      .next ({ ctl := c, dst := x, wide := wide, lat := lat, val := f : LaneForm }.after i s e) := by
  unfold laneOp
  rw [issue_next h hr rfl]
  simp only [LaneForm.after, queued, result_eq, done_eq, queueAll_append, if_neg Bool.false_ne_true]

end Sys2Proof.Laws
end

