-- ==== Sys2Proof/Laws/Memory.lean ====
section
/-! SUPPORT. Memory (R5): every operation on it keeps the canonical form, and a read after a write gives what was written
there and what stood elsewhere before. -/

namespace Sys2Proof.Laws

open Sys2Proof.Machine

theorem memWf_tail {p : Host.Cell} {r : Memory} (h : memWf (p :: r) = true) : memWf r = true := by
  cases r with
  | nil => rfl
  | cons q r => simp [memWf] at h; exact h.2

theorem memWf_head {p : Host.Cell} {r : Memory} (h : memWf (p :: r) = true) : p.2 ≠ 0 := by
  cases r with
  | nil => simpa [memWf] using h
  | cons q r => simp [memWf] at h; exact h.1.1

/-- In the canonical form no entry beyond the first has its address or a lower one. -/
theorem memWf_lt {p : Host.Cell} {r : Memory} (h : memWf (p :: r) = true) : ∀ q ∈ r, p.1 < q.1 := by
  induction r generalizing p with
  | nil => simp
  | cons q r ih =>
    simp [memWf] at h
    intro t ht
    simp only [List.mem_cons] at ht
    obtain rfl | ht := ht
    · exact h.1.2
    · have := ih h.2 t ht; omega

/-- A well-formed memory with an entry put before it. -/
theorem memWf_cons {a : Nat} {b : Byte} {r : Memory} (hb : b ≠ 0) (hlt : ∀ q ∈ r, a < q.1) (h : memWf r = true) :
    memWf ((a, b) :: r) = true := by
  cases r with
  | nil => simpa [memWf] using hb
  | cons q r => simp [memWf, h, hlt q (by simp)]; exact hb

theorem memWrite_mem {m : Memory} {a : Nat} {b : Byte} {q : Host.Cell} (h : q ∈ memWrite m a b) :
    q = (a, b) ∨ q ∈ m := by
  induction m with
  | nil => unfold memWrite at h; split at h <;> simp_all
  | cons p r ih =>
    obtain ⟨k, c⟩ := p
    unfold memWrite at h
    split at h
    · split at h <;> simp_all
    · split at h
      · split at h <;> simp_all
        rcases h with h | h <;> simp [h]
      · simp only [List.mem_cons] at h ⊢
        obtain h | h := h
        · exact .inr (.inl h)
        · obtain h | h := ih h
          · exact .inl h
          · exact .inr (.inr h)

/-- Writing a byte keeps the canonical form. -/
theorem memWf_memWrite {m : Memory} (h : memWf m = true) (a : Nat) (b : Byte) : memWf (memWrite m a b) = true := by
  induction m with
  | nil =>
    unfold memWrite
    split
    · rfl
    · next hb => simpa [memWf] using hb
  | cons p r ih =>
    obtain ⟨k, c⟩ := p
    have ht := memWf_tail h
    have hl := memWf_lt h
    unfold memWrite
    split
    · next hak =>
      split
      · exact h
      · next hb =>
        refine memWf_cons hb ?_ h
        intro q hq
        simp only [List.mem_cons] at hq
        obtain rfl | hq := hq
        · exact hak
        · have := hl q hq; simp only at this; omega
    · split
      · next hak =>
        split
        · exact ht
        · next hb => subst hak; exact memWf_cons hb hl ht
      · next h1 h2 =>
        refine memWf_cons (memWf_head h) ?_ (ih ht)
        intro q hq
        obtain rfl | hq := memWrite_mem hq
        · simp only; omega
        · exact hl q hq

theorem memWf_memWriteN {m : Memory} (h : memWf m = true) (a : Nat) (bs : List Byte) :
    memWf (memWriteN m a bs) = true := by
  induction bs generalizing m a with
  | nil => exact h
  | cons b bs ih => exact ih (memWf_memWrite h a b) (a + 1)

theorem memWf_memPut {m : Memory} (h : memWf m = true) (a n v : Nat) : memWf (memPut m a n v) = true :=
  memWf_memWriteN h a _

theorem memWf_memMergeLine {m : Memory} (h : memWf m = true) (a : Nat) (l : Line) (k : ByteMask) :
    memWf (memMergeLine m a l k) = true := by
  unfold memMergeLine
  generalize List.range 128 = ns
  induction ns generalizing m with
  | nil => exact h
  | cons n ns ih =>
    refine ih ?_
    dsimp only
    split
    · exact memWf_memWrite h _ _
    · exact h

/-- After reset no island lists a byte of memory. -/
theorem memWf_reset (i : Nat) : memWf (State.reset.isl i).mem = true := rfl

theorem memRead_absent {m : Memory} {a : Nat} (h : ∀ q ∈ m, a < q.1) : memRead m a = 0 := by
  induction m with
  | nil => rfl
  | cons p r ih =>
    obtain ⟨k, c⟩ := p
    have h1 : k ≠ a := by have := h (k, c) (by simp); simp only at this; omega
    simp [memRead, h1, ih fun q hq => h q (by simp [hq])]

/-- The byte read after a write to its address, in the canonical form. -/
theorem memRead_memWrite_same {m : Memory} (h : memWf m = true) (a : Nat) (b : Byte) :
    memRead (memWrite m a b) a = b := by
  induction m with
  | nil => unfold memWrite; split <;> simp_all [memRead]
  | cons p r ih =>
    obtain ⟨k, c⟩ := p
    have hl := memWf_lt h
    unfold memWrite
    split
    · next hak =>
      split
      · next hb =>
        subst hb
        refine memRead_absent ?_
        intro q hq
        simp only [List.mem_cons] at hq
        obtain rfl | hq := hq
        · exact hak
        · have := hl q hq; simp only at this; omega
      · simp [memRead]
    · split
      · next hak =>
        split
        · next hb => subst hb hak; exact memRead_absent hl
        · simp [memRead]
      · next h1 h2 =>
        have : k ≠ a := fun hk => h2 hk.symm
        simp [memRead, this, ih (memWf_tail h)]

/-- A write leaves every other byte as it was. -/
theorem memRead_memWrite_ne (m : Memory) {a c : Nat} (b : Byte) (h : c ≠ a) :
    memRead (memWrite m a b) c = memRead m c := by
  induction m with
  | nil => unfold memWrite; split <;> simp [memRead, Ne.symm h]
  | cons p r ih =>
    obtain ⟨k, d⟩ := p
    unfold memWrite
    split
    · split
      · rfl
      · simp [memRead, Ne.symm h]
    · split
      · next hak =>
        subst hak
        split <;> simp [memRead, Ne.symm h]
      · simp only [memRead, ih]

/-- Writing bytes leaves those outside them as they were. -/
theorem memRead_memWriteN_outside (m : Memory) (a : Nat) (bs : List Byte) {c : Nat}
    (h : c < a ∨ a + bs.length ≤ c) : memRead (memWriteN m a bs) c = memRead m c := by
  induction bs generalizing m a with
  | nil => rfl
  | cons b bs ih =>
    simp only [List.length_cons] at h
    rw [memWriteN, ih (memWrite m a b) (a + 1) (by omega), memRead_memWrite_ne m b (by omega)]

/-- Bytes written are the bytes read. -/
theorem memRead_memWriteN_inside {m : Memory} (h : memWf m = true) (a : Nat) (bs : List Byte) (k : Nat)
    (hk : k < bs.length) : memRead (memWriteN m a bs) (a + k) = bs[k] := by
  induction bs generalizing m a k with
  | nil => simp at hk
  | cons b bs ih =>
    cases k with
    | zero =>
      rw [memWriteN, memRead_memWriteN_outside _ _ _ (by omega)]
      simpa using memRead_memWrite_same h a b
    | succ k =>
      have := ih (memWf_memWrite h a b) (a + 1) k (by simpa using hk)
      rw [memWriteN, show a + (k + 1) = a + 1 + k by omega, this]
      simp

end Sys2Proof.Laws
end

