-- ==== Sys2Proof/Tests/Slice0.lean ====
section
/-! SUPPORT. Tests: ill-formed terms that each check refuses, words of every instruction, one-step tests whose results come from
the manual, and a witness for the hypotheses of each statement. -/

namespace Sys2Proof.Tests

open Sys2Proof Sys2Proof.Machine Sys2Proof.Safety

set_option maxRecDepth 20000
set_option exponentiation.threshold 1100

/-! ## What WellFormed refuses -/

def c0 : Ctl := ⟨false, false, 0, 0, 0, 0, 15, false⟩

/-- None of a list of instructions is well-formed. -/
def refusesAll (l : List Instr) : Bool := l.all fun i => !Machine.legal i
def acceptsAll (l : List Instr) : Bool := l.all Machine.legal

/-- R24, R26, R152: indices, destinations, widths. -/
theorem test_illOperands : refusesAll [
    .mov c0 .b32 (.v 255) (.v 0), .mov c0 .b64 (.vp 5) (.vp 0), .mov c0 .b64 (.vp 254) (.vp 0), .mov c0 .b32 (.v 0) (.s 64),
    .mov c0 .b32 (.v 0) (.sr 14), .mov c0 .b32 (.sr 2) (.v 0), .mov c0 .b32 .lt (.v 0), .mov c0 .b32 (.imm 1) (.v 0),
    .mov c0 .b64 (.s 7) (.vp 0), .mov c0 .b64 (.vp 0) (.v 3), .mov c0 .b64 (.vp 0) (.sr 5), .mov c0 .b64 (.vp 0) (.sr 2),
    .mov c0 .b32 (.v 0) (.vp 4), .iadd c0 .i32 false (.v 0) (.v 1) (.op (.imm 3)), .brx c0 false .lt] = true := by decide

/-- R30, R31: the guard and the hints. -/
theorem test_illControlFields : refusesAll [
    .nop { c0 with gn := true }, .nop { c0 with gr := 1 }, .nop { c0 with gb := 1 }, .nop { c0 with ge := true, gr := 255 },
    .nop { c0 with setf := 12 }, .nop { c0 with setf := 14 }] = true := by decide

/-- R32, R113, R118-R120. -/
theorem test_illControl : refusesAll [
    .rep c0 0 0 0 0, .rep c0 0 0 0 65, .rep { c0 with setf := 0 } 0 0 0 1, .rep { c0 with yld := true } 0 0 0 1,
    .sleep c0 0, .sleep c0 (BitVec.ofInt 20 (-1)), .ckpt c0 65536, .ckpt { c0 with ge := true } 0, .trap c0 1024,
    .call c0 false (.s 0) 0, .trapSetv c0 (.imm 0), .ovlLd c0 .lt (.v 0) (.imm 1), .ovlPin c0 (.v 0) (.op .lt)] = true := by decide

/-- R154, R164: types and classes of the integer instructions. -/
theorem test_illInteger : refusesAll [
    .iadd c0 .b32 false (.v 0) (.v 1) (.imm 0), .imulh c0 .i16 (.v 0) (.v 1) (.imm 0), .iabs c0 .n32 false (.v 0) (.v 1),
    .popc c0 .i32 (.v 0) (.v 1), .iset c0 .b32 false .eq (.v 0) (.v 1) (.v 2), .sel c0 .b32 (.s 0) (.v 0) (.imm 0),
    .movs c0 .b32 (.v 0) (.v 0) (.imm 0), .movs c0 .b32 (.s 0) (.s 0) (.imm 0), .movsrRd c0 (.v 0) 5, .movsrWr c0 (.v 0) 4,
    .lea c0 .i16 0 (.vp 0) (.vp 0) (.v 0), .iadd64 c0 .b64 false (.vp 0) (.vp 0) (.imm 0), .cvti c0 .b32 .i32 false (.v 0) (.v 0)]
      = true := by decide

/-- R178, R179, R186. -/
theorem test_illFloat : refusesAll [
    .fadd c0 .f16x2 .cur (.v 0) (.v 1) (.imm 0), .hadd2 c0 .f16 .cur (.v 0) (.v 1) (.imm 0), .fadd c0 .f16 .cur (.v 0) (.v 1) (.imm 65536),
    .fcvt c0 .f32 .q4 .cur false 0 0 (.v 0) (.imm 16) none, .fcvt c0 .q8 .f32 .rne false 0 0 (.v 0) (.v 1) none,
    .fcvt c0 .f32 .f16x2 .cur false 0 0 (.v 0) (.v 1) none, .fcvt c0 .f32 .f16 .cur false 1 0 (.v 0) (.v 1) none,
    .fcvt c0 .f32 .f16 .cur false 0 1 (.v 0) (.v 1) none, .fcvt c0 .f32 .f32 .cur true 0 0 (.v 0) (.v 1) none,
    .fcvt c0 .f16x2 .f32 .cur false 0 0 (.v 0) (.v 1) none, .fcvt c0 .f32 .f32 .cur false 0 0 (.v 0) (.v 1) (some (.v 2)),
    .fcvti c0 .i32 .f32 .cur true (.v 0) (.v 1), .fcvti c0 .b32 .f32 .cur false (.v 0) (.v 1)] = true := by decide

/-- R195. -/
theorem test_illLane : refusesAll [
    .lxch c0 .up false false false (.s 0) (.v 0) (.imm 0), .lxch c0 .up false false false (.v 0) (.s 0) (.imm 0),
    .lxch c0 .idx true false false (.v 0) (.v 0) (.imm 0), .lxch c0 .up true false false (.v 0) (.v 0) (.imm 8),
    .lxch c0 .up true false false (.v 0) (.v 0) (.op (.v 1)), .lstep c0 .addI32 false (.v 0) (.v 0) (.imm 8),
    .lstep c0 .xor false (.v 0) (.v 0) (.op (.v 1)), .lvote c0 .ballot 0 (.v 0) (.v 0), .lmatch c0 false false (.s 0) (.v 0)]
      = true := by decide

/-- R231-R233. -/
theorem test_illMemory : refusesAll [
    .ld c0 .b32 ⟨0, .near, .none, .acq⟩ (.v 0) (.vp 2) 0, .ld c0 .b32 ⟨0, .near, .isl, .rel⟩ (.v 0) (.vp 2) 0,
    .st c0 .b32 ⟨0, .near, .isl, .acq⟩ (.v 0) (.vp 2) 0, .st c0 .b32 ⟨0, .near, .isl, .rel⟩ (.sr 2) (.vp 2) 0,
    .ld c0 .b32 ⟨0, .near, .none, .none⟩ (.v 0) (.v 2) 0, .ldu c0 .b32 ⟨0, .near, .none, .none⟩ (.v 0) (.vp 2) 0,
    .atom c0 .add false ⟨0, .near, .none, .none⟩ (.v 0) (.vp 2) 0, .atom c0 .fadd true ⟨0, .near, .isl, .none⟩ (.vp 0) (.vp 2) 0,
    .atom c0 .add false ⟨0, .near, .isl, .none⟩ (.s 0) (.vp 2) 0, .cas c0 true ⟨0, .near, .isl, .none⟩ (.vp 2) (.vp 2) 0,
    .fence c0 .isl .none, .fence c0 .none .ar, .waita c0 .i32 false 0 .once (.v 0) (.vp 2) 0,
    .waita c0 .i16 false 0 .near (.v 0) (.vp 2) 0, .markFull c0 0 .near .lt (.vp 2) 0] = true := by decide

/-- R278, R288, R296, R297. -/
theorem test_illSync : refusesAll [
    .hypQry c0 (.v 0) (.v 1), .hypOpen c0 (.imm 0) (.v 1), .cpy c0 .w1 false 0 0 .none (.vp 0) (.vp 2), .cpyb c0 (.v 0) (.s 4),
    .qfence c0 0, .qfence c0 8, .qstat c0 (.v 0) 3, .barInit c0 (.v 0) 16 (.imm 1), .barInit c0 (.v 0) 0 (.imm 4096),
    .barWait c0 0 (.imm (BitVec.ofInt 20 (-1))), .ringInit c0 (.v 0) 8 (.imm 2), .ntfySet c0 false (.imm 0) (.op (.v 0)),
    .nwait c0 false (.v 0) (.imm 0) (.imm 0), .pbarArv c0 (.v 0) 64] = true := by decide

/-- R319, R327, R341, R349, R354. -/
theorem test_illMatrixAndFabric : refusesAll [
    .mstartV c0 (.v 0) .lt, .mqry c0 (.v 0), .msetLo 16 0, .msetU 0 32 (.s 0), .msetU 0 0 (.s 1), .mfmt 8 0, .msclA 0 (.s 0) 0,
    .msclA 0 (.v 0) 4, .mma .bf16 false false false 8 0 0 1, .mma .bf16 false false false 0 1 0 1, .mma .bf16 false false false 0 0 0 0,
    .mma .q8 false false false 0 0 0 257, .mrd .f32 .none 0 0, .mrd .f32 .isl 0 1, .mwr .f32 true 0 0, .mbarArv 16 1, .mbarRsv 8 0,
    .put c0 (.v 0) (.s 4), .ratom c0 .fadd true 0 .none (.vp 0) (.vp 2) (.s 0), .ratom c0 .add false 0 .none (.s 0) (.vp 2) (.s 0),
    .route c0 (.v 0) 2 0, .topq c0 (.v 0) (.s 2)] = true := by decide

/-- R402, R406; an event has no word. -/
theorem test_illSystem : refusesAll [
    .sysrd c0 (.vp 0) 0x006, .sysrd c0 (.v 0) 0x010, .syswr c0 (.v 0) 0x010, .tlbiPage c0 0 (.v 0) (.v 1), .ctxsv c0 (.v 0) (.s 2),
    .snap c0 (.v 0) 256, .heartbeat, .copyLineTransfer] = true := by decide

/-- Reserved bits, opcodes and MOD values are refused (R22, R24, R36, R231, R319). -/
theorem test_reservedWords : ([
    0x0C0000000000000000007800#96, 0x3E0000000000000000007800#96, 0x730000000000000000007800#96, 0xE00000000000000000007800#96,
    0x000000400000000000007800#96, 0x000400000000000000007800#96, 0x000000000000000000007801#96, 0x000000000000000000006000#96,
    0xBD0700400000000000000000#96, 0x681002041304000000000901#96, 0x681002041304000000000930#96].all
      fun w => (decode w).isNone) = true := by decide

/-! ## Words composed by hand from the encoding tables: R21, R29, R113, R136, R154, R179, R195, R232, R278, R288, R296, R297, R341,
R349, R406. Every instruction has one, with operands at limits of their ranges; the guard and hint fields of `ctlA` are all in
use. -/

def ctlA : Ctl := ⟨true, true, 0x21, 5, 3, 0x402, 7, true⟩
def ctlB : Ctl := ⟨false, false, 0, 0, 3, 0x402, 7, true⟩
def ctlR : Ctl := ⟨false, false, 0, 0, 3, 0x402, 15, false⟩

def decodeAll (l : List (IWord × Instr)) : Bool := l.all fun p => decode p.1 = some p.2

theorem test_wordsControl : decodeAll [
    (0x00000000000032129A013C00#96, .nop ctlA),
    (0x0100000003FF72129A013FFF#96, .bra ctlA (BitVec.ofInt 20 (-3))),
    (0x02040000440032129A013C00#96, .brx ctlA true (.v 17)),
    (0x030407B9E34572129A013C48#96, .call ctlA true (.v 30) 0x12345678),
    (0x04000788240032129A013C00#96, .callx ctlA false (.v 30) (.s 9)),
    (0x05040010140032129A013C00#96, .ret ctlA true (.o 5)),
    (0x06000000000032129A013C00#96, .exit ctlA),
    (0x0700000003FFF2129A013DFF#96, .sleep ctlA 524287),
    (0x0800000003FFC0001A013C3F#96, .ckpt ctlB 65535),
    (0x0900000003FFF2129A013C00#96, .trap ctlA 1023),
    (0x09040008240032129A013C00#96, .trapSetv ctlA (.s 9)),
    (0x09080440000032129A013C00#96, .trapGetv ctlA (.v 17)),
    (0x0A000000000032129A013C00#96, .rtt ctlA),
    (0x0B000000000032129A013C00#96, .killWg ctlA),
    (0x0B040000000032129A013C00#96, .killLaunch ctlA),
    (0x0F6C0000031000001A017800#96, .rep ctlR 1 2 3 64)] = true := by decide

theorem test_wordsOverlay : decodeAll [
    (0x100081307F5C32129A013C44#96, .ovlLd ctlA (.s 4) (.imm 31) (.imm 70000)),
    (0x11000440008272129A013C00#96, .ovlPin ctlA (.v 17) (.op (.s 9))),
    (0x12010140440032129A013C00#96, .ovlUnpin ctlA (.o 5) (.v 17)),
    (0x13000440030172129A013C00#96, .ovlEvict ctlA (.v 17) (.imm 5)),
    (0x14008240010172129A013C00#96, .ovlQry ctlA (.s 9) (.op (.o 5))),
    (0x15004480440032129A013C00#96, .ovlAddr ctlA (.vp 18) (.v 17))] = true := by decide

theorem test_wordsIntegerA : decodeAll [
    (0x18343F88FD01F2129A013C00#96, .iadd ctlA .i16 true (.v 254) (.s 63) (.op (.o 7))),
    (0x19603F88FD01F2129A013C00#96, .isub ctlA .n8 false (.v 254) (.s 63) (.op (.o 7))),
    (0x1A143F88FD01F2129A013C00#96, .iaddc ctlA .ci (.v 254) (.s 63) (.op (.o 7))),
    (0x1B443F88FD01F2129A013C00#96, .imul ctlA .n16 true (.v 254) (.s 63) (.op (.o 7))),
    (0x1C103F88FD01F2129A013C00#96, .imulh ctlA .n32 (.v 254) (.s 63) (.op (.o 7))),
    (0x1D543F88FD01F2129A013C00#96, .imad ctlA .i8 true (.v 254) (.s 63) (.op (.o 7))),
    (0x1F403F88FD01F2129A013C00#96, .imin ctlA .n16 (.v 254) (.s 63) (.op (.o 7))),
    (0x20003F88FD01F2129A013C00#96, .imax ctlA .i32 (.v 254) (.s 63) (.op (.o 7))),
    (0x22643F88FD01F2129A013C00#96, .iaddmn ctlA .n8 true (.v 254) (.s 63) (.op (.o 7))),
    (0x23303F88FD01F2129A013C00#96, .iaddmx ctlA .i16 false (.v 254) (.s 63) (.op (.o 7))),
    (0x24143F88FD01F2129A013C00#96, .isad ctlA .n32 true (.v 254) (.s 63) (.op (.o 7))),
    (0x25243F88FD01F2129A013C00#96, .shl ctlA true (.v 254) (.s 63) (.op (.o 7))),
    (0x26203F88FD01F2129A013C00#96, .shr ctlA false (.v 254) (.s 63) (.op (.o 7))),
    (0x27243F88FD01F2129A013C00#96, .sar ctlA true (.v 254) (.s 63) (.op (.o 7))),
    (0x28283F88FD01F2129A013C00#96, .extr ctlA false true (.v 254) (.s 63) (.op (.o 7))),
    (0x2D103F88FD01F2129A013C00#96, .bfx ctlA .n32 (.v 254) (.s 63) (.op (.o 7)))] = true := by decide

theorem test_wordsIntegerB : decodeAll [
    (0x2E203F88FD01F2129A013C00#96, .bfi ctlA (.v 254) (.s 63) (.op (.o 7))),
    (0x2F203F88FD01F2129A013C00#96, .bsel ctlA (.v 254) (.s 63) (.op (.o 7))),
    (0x1E147F20030032129A013E00#96, .imadw ctlA .n32 true (.vp 252) (.lt) (.imm (BitVec.ofInt 20 (-524288)))),
    (0x21540478000032129A013C00#96, .iabs ctlA .i8 true (.v 17) (.imm (BitVec.ofInt 10 (-512)))),
    (0x29904088190132129A013C2E#96, .bool ctlA .b64 .or 0xE (.vp 2) (.s 6) (.o 4)),
    (0x2A900444100032129A013C00#96, .popc ctlA .b64 (.v 17) (.vp 4)),
    (0x2B20044C080032129A013C00#96, .clz ctlA .b32 (.v 17) (.sr 2)),
    (0x2C904120000032129A013C00#96, .brev ctlA .b64 (.vp 4) (.lt)),
    (0x3091008C10C1B2129A013C00#96, .sel ctlA .b64 (.o 2) (.sr 4) (.op (.sr 6))),
    (0x31848244108FB2129A013C05#96, .iset ctlA .n64 true .ge (.s 9) (.vp 4) (.s 62)),
    (0x323004482701F2129A013FE1#96, .icmpp ctlA .i16 31 .ne (.v 17) (.s 9) (.imm 7)),
    (0x3320044C340032129A013C00#96, .mov ctlA .b32 (.v 17) (.sr 13)),
    (0x3490410003FEF2129A013FFF#96, .movi ctlA .b64 (.vp 4) (BitVec.ofInt 20 (-5))),
    (0x35208279E34572129A013C48#96, .movw ctlA (.s 9) 0x12345678),
    (0x36908184130FF2129A013C00#96, .movs ctlA .b64 (.s 6) (.vp 4) (.imm 63)),
    (0x37200440030132129A013C00#96, .movsrRd ctlA (.v 17) 4)] = true := by decide

theorem test_wordsIntegerC : decodeAll [
    (0x372400004700F2129A013C00#96, .movsrWr ctlA (.v 17) 3),
    (0x38108184100472129A013C07#96, .lea ctlA .n32 7 (.s 6) (.vp 4) (.v 17)),
    (0x3984408413FFF2129A013FFF#96, .iadd64 ctlA .n64 true (.vp 2) (.vp 4) (.imm (BitVec.ofInt 20 (-1)))),
    (0x3A7100881A0032129A013C00#96, .isub64 ctlA .i64 false (.o 2) (.s 6) (.op (.lt))),
    (0x3B904084100472129A013C00#96, .shl64 ctlA (.vp 2) (.vp 4) (.op (.v 17))),
    (0x3C9440841311B2129A013C00#96, .shr64 ctlA true (.vp 2) (.vp 4) (.imm 70)),
    (0x3D744080440032129A013C06#96, .cvti ctlA .i64 .n8 true (.vp 2) (.v 17))] = true := by decide

theorem test_wordsFloatA : decodeAll [
    (0x40383F88FD01F2129A013C00#96, .fadd ctlA .f16 .rup (.v 254) (.s 63) (.op (.o 7))),
    (0x415C3F88FD01F2129A013C00#96, .fsub ctlA .bf16 .rdn (.v 254) (.s 63) (.op (.o 7))),
    (0x42143F88FD01F2129A013C00#96, .fmul ctlA .f32 .rtz (.v 254) (.s 63) (.op (.o 7))),
    (0x43103F88FD01F2129A013C00#96, .ffma ctlA .f32 .rne (.v 254) (.s 63) (.op (.o 7))),
    (0x4C743F88FD01F2129A013C00#96, .hadd2 ctlA .f16x2 .rtz (.v 254) (.s 63) (.op (.o 7))),
    (0x4D983F88FD01F2129A013C00#96, .hmul2 ctlA .bf16x2 .rup (.v 254) (.s 63) (.op (.o 7))),
    (0x4E603F88FD01F2129A013C00#96, .hfma2 ctlA .f16x2 .cur (.v 254) (.s 63) (.op (.o 7))),
    (0x519C3F88FD01F2129A013C00#96, .fdot2 ctlA .bf16x2 .rdn (.v 254) (.s 63) (.op (.o 7))),
    (0x52303F88FD01F2129A013C00#96, .fscale ctlA .f16 .rne (.v 254) (.s 63) (.op (.o 7))),
    (0x44203F88FD01F2129A013C00#96, .fmin ctlA .f16 (.v 254) (.s 63) (.op (.o 7))),
    (0x45403F88FD01F2129A013C00#96, .fmax ctlA .bf16 (.v 254) (.s 63) (.op (.o 7))),
    (0x4F803F88FD01F2129A013C00#96, .hmin2 ctlA .bf16x2 (.v 254) (.s 63) (.op (.o 7))),
    (0x50603F88FD01F2129A013C00#96, .hmax2 ctlA .f16x2 (.v 254) (.s 63) (.op (.o 7))),
    (0x46440448250172129A013C07#96, .fset ctlA .bf16 true .nan (.v 17) (.s 9) (.o 5)),
    (0x47200448250172129A013FC6#96, .fcmpp ctlA .f16 30 .num (.v 17) (.s 9) (.o 5)),
    (0x483C0448240032129A013C00#96, .frnd ctlA .f16 .rdn (.v 17) (.s 9))] = true := by decide

theorem test_wordsFloatB : decodeAll [
    (0x49140448240032129A013E01#96, .fcvt ctlA .f32 .f16 .rtz true 0 0 (.v 17) (.s 9) none),
    (0x49E00448240032129A013D5D#96, .fcvt ctlA .q8 .q4 .cur false 5 3 (.v 17) (.s 9) none),
    (0x49980448250172129A013C00#96, .fcvt ctlA .bf16x2 .f32 .rup false 0 0 (.v 17) (.s 9) (some (.o 5))),
    (0x4A544108240032129A013E08#96, .fcvti ctlA .n64 .bf16 .rtz true (.vp 4) (.s 9)),
    (0x4B380444100032129A013C07#96, .icvtf ctlA .f16 .i64 .rup (.v 17) (.vp 4)),
    (0x53000448240032129A013C00#96, .fclass ctlA .f32 (.v 17) (.s 9)),
    (0x54200448240032129A013C00#96, .frcp ctlA .f16 (.v 17) (.s 9)),
    (0x55400448240032129A013C00#96, .frsq ctlA .bf16 (.v 17) (.s 9)),
    (0x56000448240032129A013C00#96, .fsqrt ctlA .f32 (.v 17) (.s 9)),
    (0x57200448240032129A013C00#96, .fexp2 ctlA .f16 (.v 17) (.s 9)),
    (0x58400448240032129A013C00#96, .flog2 ctlA .bf16 (.v 17) (.s 9)),
    (0x59000448240032129A013C00#96, .fsin ctlA .f32 (.v 17) (.s 9)),
    (0x5A200448240032129A013C00#96, .fcos ctlA .f16 (.v 17) (.s 9)),
    (0x5B400448240032129A013C00#96, .ftanh ctlA .bf16 (.v 17) (.s 9)),
    (0x5C180000008272129A013C00#96, .fmtw ctlA 6 (.op (.s 9))),
    (0x5C340440000032129A013C00#96, .fmtwRd ctlA 5 (.v 17))] = true := by decide

theorem test_wordsFloatC : decodeAll [
    (0x5D000440000032129A013C00#96, .fctlRd ctlA (.v 17)),
    (0x5D04000003FFF2129A013C00#96, .fctlWr ctlA (.imm 1023)),
    (0x5D080000000472129A013C00#96, .fctlSet ctlA (.op (.v 17))),
    (0x5D0C0000008272129A013C00#96, .fctlClr ctlA (.op (.s 9)))] = true := by decide

theorem test_wordsLane : decodeAll [
    (0x607004501701F2129A013C00#96, .lxch ctlA .dn true true false (.v 17) (.o 5) (.imm 7)),
    (0x60C84120008272129A013C00#96, .lxch ctlA .idx false false true (.vp 4) (.lt) (.op (.s 9))),
    (0x61A40450148272129A013C00#96, .lstep ctlA .xor true (.v 17) (.o 5) (.op (.s 9))),
    (0x62608180440032129A013C1F#96, .lvote ctlA .ballotHi 31 (.s 6) (.v 17)),
    (0x628081C0440032129A013C1E#96, .lvote ctlA .count 30 (.s 7) (.v 17)),
    (0x63244104180032129A013C00#96, .lmatch ctlA true true (.vp 4) (.vp 6)),
    (0x64740450140032129A013C00#96, .lscan ctlA .maxF32 true (.v 17) (.o 5))] = true := by decide

theorem test_wordsMemory : decodeAll [
    (0x687041081B8032129A013FAA#96, .ld ctlA .i64 ⟨3, .once, .sys, .acq⟩ (.vp 4) (.s 6) (BitVec.ofInt 10 (-512))),
    (0x69920010137FF2129A013E5C#96, .st ctlA .b64 ⟨2, .far, .clu, .rel⟩ (.lt) (.o 4) 511),
    (0x6A608244130232129A013D0A#96, .ldu ctlA .n8 ⟨1, .near, .grp, .acq⟩ (.s 9) (.vp 4) 8),
    (0x6B4441041B0032129A013D66#96, .atom ctlA .maxN true ⟨1, .far, .isl, .ar⟩ (.vp 4) (.vp 6) 0),
    (0x6BE101441B0032129A013C28#96, .atom ctlA .fmax false ⟨0, .near, .sys, .none⟩ (.o 5) (.vp 6) 0),
    (0x6C9042081B0072129A013E96#96, .cas ctlA true ⟨2, .once, .wg, .ar⟩ (.vp 8) (.s 6) 1),
    (0x6D000000000032129A013C2C#96, .fence ctlA .sys .rel),
    (0x6E03FFC4132032129A013E40#96, .markEmpty ctlA 2 .far (.imm 1023) (.vp 4) 128),
    (0x6E0404481BE032129A013D80#96, .markFull ctlA 1 .once (.v 17) (.s 6) (BitVec.ofInt 10 (-128))),
    (0x6F150144130132129A013F40#96, .waita ctlA .n32 true 3 .far (.o 5) (.vp 4) 4),
    (0x70000004131032129A013D80#96, .pref ctlA 1 .once (.vp 4) 64),
    (0x71000004130832129A013E00#96, .flush ctlA 2 (.vp 4) 32),
    (0x71040000000032129A013C00#96, .flushAll ctlA),
    (0x72000010130432129A013F00#96, .invl ctlA 3 (.o 4) 16),
    (0x72040000000032129A013C00#96, .invlAll ctlA)] = true := by decide

theorem test_wordsHypothesis : decodeAll [
    (0x88000448240032129A013C00#96, .hypOpen ctlA (.v 17) (.s 9)),
    (0x89008273FC0032129A013C00#96, .hypEnter ctlA (.s 9) (.imm 255)),
    (0x8A010140000032129A013C00#96, .hypLeave ctlA (.o 5)),
    (0x8B000460000032129A013C00#96, .hypResolveConfirm ctlA (.v 17) (.lt)),
    (0x8B04044C0C0032129A013C00#96, .hypResolveRefute ctlA (.v 17) (.sr 3)),
    (0x8C004108240032129A013C00#96, .hypQry ctlA (.vp 4) (.s 9)),
    (0x8C048180000032129A013C00#96, .hypQryCur ctlA (.s 6))] = true := by decide

theorem test_wordsSyncA : decodeAll [
    (0x90608184100032129A013F58#96, .cpy ctlA .w2 true 3 1 .clu (.s 6) (.vp 4)),
    (0x91000448E00032129A013C00#96, .cpyb ctlA (.v 17) (.s 56)),
    (0x920000000301F2129A013C00#96, .qfence ctlA 7),
    (0x930004400300B2129A013C00#96, .qstat ctlA (.v 17) 2),
    (0xA00082703FFFF2129A013C03#96, .barInit ctlA (.s 9) 15 (.imm 4095)),
    (0xA10000300C0472129A013C00#96, .barArv ctlA none 3 (.op (.v 17))),
    (0xA10404700F0072129A013C00#96, .barArv ctlA (some (.v 17)) 3 (.imm 1)),
    (0xA2000030008272129A013C00#96, .barWait ctlA 0 (.op (.s 9))),
    (0xA300003007FFF2129A013C03#96, .barArw ctlA 1 (.imm 4095)),
    (0xA40082701F0432129A013C00#96, .ringInit ctlA (.s 9) 7 (.imm 16)),
    (0xA5008270180032129A013C00#96, .ringPushRsv ctlA (.s 9) 6),
    (0xA50482701482B2129A013C00#96, .ringPushCmt ctlA (.s 9) 5 (.op (.s 10))),
    (0xA6008270100032129A013C00#96, .ringPopTake ctlA (.s 9) 4),
    (0xA60482700C82F2129A013C00#96, .ringPopFree ctlA (.s 9) 3 (.op (.s 11))),
    (0xA7080037FFFFF2129A013DFF#96, .ntfy ctlA true (.imm 511) (.imm 524287)),
    (0xA70400082481B2129A013C00#96, .ntfySet ctlA false (.s 9) (.op (.s 6)))] = true := by decide

theorem test_wordsSyncB : decodeAll [
    (0xA80841082441B2129A013C00#96, .nwait ctlA true (.vp 4) (.s 9) (.op (.vp 6))),
    (0xA9000470FC8272129A013C00#96, .pbarInit ctlA (.v 17) 63 (.op (.s 9))),
    (0xA9040470F80032129A013C00#96, .pbarArv ctlA (.v 17) 62),
    (0xA9080030F70072129A013C00#96, .pbarWait ctlA 61 (.imm 1)),
    (0xA90C0470F00032129A013C00#96, .pbarArw ctlA (.v 17) 60)] = true := by decide

theorem test_wordsMatrixA : decodeAll [
    (0xB0008279E34572129A013C48#96, .mstart ctlA (.s 9) 0x12345678),
    (0xB0048240440032129A013C00#96, .mstartV ctlA (.s 9) (.v 17)),
    (0xB1008240000032129A013C00#96, .mstop ctlA (.s 9)),
    (0xB2008180000032129A013C00#96, .mqry ctlA (.s 6)),
    (0xB2044100000032129A013C00#96, .mqryClr ctlA (.vp 4)),
    (0xB80303F9E345400000007848#96, .msetLo 15 0x12345678),
    (0xB80703B9E345400000007848#96, .msetHi 14 0x12345678),
    (0xB80B0379E345400000007848#96, .msetAdd 13 0x12345678),
    (0xB80F00F07C8F800000007800#96, .msetU 3 31 (.s 62)),
    (0xB8130137EF03400000007800#96, .msetIx 4 11 31 13),
    (0xB90301F9E345400000007848#96, .mfmt 7 0x12345678),
    (0xBA0307C32300C00000007800#96, .msclA 31 (.v 200) 3),
    (0xBA0707832700800000007800#96, .msclB 30 (.v 201) 2),
    (0xBA0800000000000000007800#96, .msclAOff),
    (0xBA0C00000000000000007800#96, .msclBOff),
    (0xBB7701F05740000000007800#96, .mma .q6 true false true 7 5 2 256)] = true := by decide

theorem test_wordsMatrixB : decodeAll [
    (0xBC2B01800300400000007800#96, .mmas .f16 false true false 6 0 0 1),
    (0xBD0301400000000000007800#96, .mzero 5),
    (0xBEA301301800000000007828#96, .mrd .q4 .sys 4 6),
    (0xBFE700C00000000000007800#96, .mwr .raw true 3 0),
    (0xC00303C003FFC00000007800#96, .mbarArv 15 1023),
    (0xC00703B03400000000007800#96, .mbarWait 14 13),
    (0xC00B03400300400000007800#96, .mbarArw 13 1),
    (0xC00F01F02000000000007800#96, .mbarRsv 7 8),
    (0xC01301B02400000000007800#96, .mbarCmt 6 9),
    (0xC01701702800000000007800#96, .mbarTake 5 10),
    (0xC01B01302C00000000007800#96, .mbarFree 4 11),
    (0xC100000003FFC0000000783F#96, .mckpt 65535),
    (0xC203024003FF800000007BFF#96, .mjmp 9 (BitVec.ofInt 20 (-2))),
    (0xC204000003FFC00000007807#96, .mjmpAl 8191),
    (0xC30000000000000000007800#96, .mend)] = true := by decide

theorem test_wordsFabric : decodeAll [
    (0xC8000448200032129A013C00#96, .put ctlA (.v 17) (.s 8)),
    (0xC9008248400032129A013C00#96, .get ctlA (.s 9) (.s 16)),
    (0xCA7441081B03F2129A013E02#96, .ratom ctlA .maxN true 2 .acq (.vp 4) (.s 6) (.imm 15)),
    (0xCA304084180472129A013D06#96, .ratom ctlA .cas false 1 .ar (.vp 2) (.vp 6) (.v 17)),
    (0xCB0303C8270072129A013C00#96, .rntfy ctlA (.imm 15) (.s 9) (.imm 1)),
    (0xCC000000000032129A013C00#96, .rfence ctlA),
    (0xCD000448600032129A013C00#96, .coll ctlA (.v 17) (.s 24)),
    (0xCE000470070FF2129A013C00#96, .route ctlA (.v 17) 1 63),
    (0xCF000448300032129A013C00#96, .topq ctlA (.v 17) (.s 12))] = true := by decide

theorem test_wordsSystem : decodeAll [
    (0xD8004100030432129A013C00#96, .sysrd ctlA (.vp 4) 0x10),
    (0xD8048180470C72129A013C00#96, .sysrdSel ctlA (.s 6) (.v 17) 0x31),
    (0xD9000004130A32129A013C00#96, .syswr ctlA (.vp 4) 0x28),
    (0xD90700C81B06B2129A013C00#96, .syswrSel ctlA (.imm 3) (.s 6) 0x1A),
    (0xDA000000000032129A013C00#96, .tlbiAll ctlA),
    (0xDA040008240032129A013C00#96, .tlbiCtx ctlA (.s 9)),
    (0xDA0800004481B2129A013F00#96, .tlbiPage ctlA 3 (.v 17) (.s 6)),
    (0xDB000448300032129A013C00#96, .ctxsv ctlA (.v 17) (.s 12)),
    (0xDC008248100032129A013C00#96, .ctxld ctlA (.s 9) (.s 4)),
    (0xDD008240440032129A013C00#96, .resumeReplay ctlA (.s 9) (.v 17)),
    (0xDD048240440032129A013C00#96, .resumeSkip ctlA (.s 9) (.v 17)),
    (0xDD088240440032129A013C00#96, .resumeTrap ctlA (.s 9) (.v 17)),
    (0xDE000440033FF2129A013C00#96, .snap ctlA (.v 17) 255),
    (0xDF000000000032129A013C00#96, .haltIsl ctlA),
    (0xDF040000000032129A013C00#96, .haltPnl ctlA)] = true := by decide
/-! ## One step -/

/-- The machine at an instruction: a group of two threads on island 0, core 0, slot 0, with registers written by `f`. -/
def atPlace (i : Instr) (f : Group → Group) : State :=
  let k := placeCore {} ((encode i).getD 0)
  let g : Group := { placeGroup (opcMd i).1 with threads := [(0, { cp := placeCp }), (1, { cp := placeCp })] }
  { State.reset with
    focus := .group 0 0 0
    islands := [(0, { running := true, dark := false, cores := [(0, { k with groups := [(0, f g)] })] })] }

/-- `v` registers of lane 0. -/
def regs (l : List (Nat × Word)) (g : Group) : Group := { g with v := l.map fun p => (64 * p.1, p.2) }

/-- The group some cycles after one step of its instruction. -/
def stepped (i : Instr) (f : Group → Group) : Option Group :=
  match exec i (atPlace i f) with
  | .next t => ((t.isl 0).group? 0 0).map fun g => settle g 40
  | _ => none

/-- Register `v0` of lane 0 afterwards. -/
def v0 (i : Instr) (l : List (Nat × Word)) : Option Word := (stepped i (regs l)).map (·.vreg 0 0)

/-- R158's examples. -/
theorem test_extr : v0 (.extr c0 false false (.v 0) (.v 1) (.imm 8)) [(0, 0x12345678), (1, 0x9ABCDEF0)] = some 0x789ABCDE := by decide
theorem test_extrRot : v0 (.extr c0 false true (.v 0) (.v 1) (.imm 48)) [(0, 0x12345678), (1, 0x9ABCDEF0)] = some 0xDEF01234 := by
  decide
/-- R171's examples. -/
theorem test_cvtiSat : v0 (.cvti c0 .i8 .i32 true (.v 0) (.v 1)) [(1, 300)] = some 0x7F := by decide
theorem test_cvti : v0 (.cvti c0 .i8 .i32 false (.v 0) (.v 1)) [(1, 300)] = some 0x2C := by decide
/-- R159's example: the bits of *y* that *z* lacks are set in *x*. -/
theorem test_bool : v0 (.bool c0 .b32 .or 4 (.v 0) (.v 1) (.v 2)) [(0, 0x100), (1, 0x0F), (2, 0x05)] = some 0x10A := by decide
/-- R151, R153, R155: 2^31 - 1 + 1 wraps, and saturates. -/
theorem test_iaddWraps : v0 (.iadd c0 .i32 false (.v 0) (.v 1) (.imm 1)) [(1, 0x7FFFFFFF)] = some 0x80000000 := by decide
theorem test_iaddSat : v0 (.iadd c0 .i32 true (.v 0) (.v 1) (.imm 1)) [(1, 0x7FFFFFFF)] = some 0x7FFFFFFF := by decide
/-- R155: 2^31 · 4 has the high word 2. -/
theorem test_imulh : v0 (.imulh c0 .n32 (.v 0) (.v 1) (.imm 4)) [(1, 0x80000000)] = some 2 := by decide
/-- R156: a carry in gives 2^32, whose low word is 0. -/
theorem test_iaddc : v0 (.iaddc c0 .c1 (.v 0) (.v 1) (.imm 0)) [(1, 0xFFFFFFFF)] = some 0 := by decide
/-- R157: an amount of 32. -/
theorem test_shl32 : v0 (.shl c0 false (.v 0) (.v 1) (.imm 32)) [(1, 1)] = some 0 := by decide
theorem test_sar32 : v0 (.sar c0 false (.v 0) (.v 1) (.imm 32)) [(1, 0x80000000)] = some 0xFFFFFFFF := by decide
/-- R160. -/
theorem test_clzOfZero : v0 (.clz c0 .b64 (.v 0) (.vp 2)) [] = some 64 := by decide
theorem test_brev : v0 (.brev c0 .b32 (.v 0) (.v 1)) [(1, 0x80000001)] = some 0x80000001 := by decide
/-- R169, R170: LEA sign-extends its offset. -/
theorem test_lea : v0 (.lea c0 .i32 3 (.vp 0) (.vp 2) (.v 4)) [(2, 16), (4, 0xFFFFFFFF)] = some 8 := by decide
/-- R163. -/
theorem test_icmppSetsABit : v0 (.icmpp c0 .i32 5 .lt (.v 0) (.v 1) (.imm 0)) [(0, 1), (1, 0x80000000)] = some 0x21 := by decide
/-- R180: 1.0 + 2.0, and the rounding of 1.0 + 2^-24 up. -/
theorem test_fadd : v0 (.fadd c0 .f32 .rne (.v 0) (.v 1) (.op (.v 2))) [(1, 0x3F800000), (2, 0x40000000)] = some 0x40400000 := by decide
theorem test_faddRup : v0 (.fadd c0 .f32 .rup (.v 0) (.v 1) (.op (.v 2))) [(1, 0x3F800000), (2, 0x33800000)] = some 0x3F800001 := by
  decide
/-- R58: the minimum of a number and a NaN. -/
theorem test_fminNan : v0 (.fmin c0 .f32 (.v 0) (.v 1) (.op (.v 2))) [(1, 0x3F800000), (2, 0x7FC00000)] = some 0x3F800000 := by decide
/-- R65: −1.5 to an integer, to nearest even. -/
theorem test_fcvti : v0 (.fcvti c0 .i32 .f32 .rne false (.v 0) (.v 1)) [(1, 0xBFC00000)] = some 0xFFFFFFFE := by decide
/-- R199: bit 0 of two lanes. -/
theorem test_lvoteCount : v0 (.lvote c0 .count 0 (.v 0) (.v 1)) [(1, 1)] = some 1 := by decide
/-- R197: lane 0 reads lane 1, which holds 0; `.up` from lane 0 is out of range and gives its own. -/
theorem test_lxchXor : v0 (.lxch c0 .xor false false false (.v 0) (.v 1) (.imm 1)) [(0, 5), (1, 7)] = some 0 := by decide
theorem test_lxchUp : v0 (.lxch c0 .up false false false (.v 0) (.v 1) (.imm 1)) [(1, 7)] = some 7 := by decide
/-- R115: the branch goes back by 0 and forward by 1 in its overlay; R117: an exit ends the threads. -/
theorem test_bra : (stepped (.bra c0 5) id).map (fun g => g.threads.map (·.2.cp)) = some [0x2005, 0x2005] := by decide
theorem test_exit : (stepped (.exit c0) id).map (fun g => (g.threads.length, g.ended)) = some (0, true) := by decide
/-- R120: without a handler the group parks at the trap. -/
theorem test_trap : (stepped (.trap c0 9) id).map (fun g => (g.parked, g.threads.map (·.2.cp))) = some (true, [0x2000, 0x2000]) := by
  decide
/-- R31: a store's flag rises at its issue. -/
theorem test_stFlag : (stepped (.st { c0 with setf := 3 } .b32 ⟨0, .near, .none, .none⟩ (.v 0) (.vp 2) 0) id).map (·.flagVal 3) = some 1 := by
  decide
/-- R301, R302: an arrival of 3 at a barrier of 2 with 1 left flips its phase twice. -/
theorem test_arrive : arrive 3 { exp := 2, rem := 1, phase := false, waiters := [7] } = ({ exp := 2, rem := 2 }, [7]) := by decide
/-- R238: an atomic minimum of signed words. -/
theorem test_atomMin : atomCombine .minI 32 0xFFFFFFFF 1 = 0xFFFFFFFF := by decide
/-- `withFetchWord` places R192's `FFMA.f32 v8, v40, v72`, and the next step issues it. -/
theorem test_fetchWord : (match step (State.reset.withFetchWord 96 0x43000200A012000000007800) with
    | .next t => ((t.isl 0).group? 0 0).map fun g => (g.pend.length, g.threads.map (·.2.cp) == List.replicate 64 0x2001)
    | _ => none) = some (128, true) := by decide
/-! ## Witnesses: states and operands that meet the hypotheses of each statement -/

/-- The guard register is `v0`, bit 0: 0 in every lane of a fresh group. -/
def cg : Ctl := { c0 with ge := true }

/-- A group may execute an instruction, and what it sees meets `p`. -/
def readyIn (i : Instr) (c : Ctl) (s : State) (p : Env → Bool) : Bool :=
  match s.focus with
  | .group isl core gid => match s.env? isl core gid c with
    | some e => decide (e.isl = isl ∧ e.core = core ∧ e.gid = gid ∧ (fieldsOf i).map (·.c) = some c ∧ Machine.legal i = true ∧
        (privileged (opcMd i).1 (opcMd i).2 = true → e.wg.priv = true) ∧ roleOk e.g.role (opcMd i).1 = true ∧
        (c.ge = true → c.gr.toNat < hdrRegs e.wg.hdr) ∧ (operands i).all (fun r => !rangeBad e.wg r) = true ∧ p e = true)
    | none => false
  | _ => false

def Has (i : Instr) (c : Ctl) (s : State) (p : Env → Bool) : Prop := ∃ e, Executes i c s e ∧ p e = true

theorem readyIn_has {i : Instr} {c : Ctl} {s : State} {p : Env → Bool} (h : readyIn i c s p = true) : Has i c s p := by
  unfold readyIn at h
  split at h
  · rename_i isl core gid hf
    split at h
    · rename_i e he
      have h := of_decide_eq_true h
      obtain ⟨h1, h2, h3, hc, hl, hp, hr, hg, ho, hq⟩ := h
      refine ⟨e, ⟨?_, ?_, hc, hl, hp, hr, hg, fun r hr => ?_⟩, hq⟩
      · rw [h1, h2, h3, hf]
      · rw [h1, h2, h3]; exact he
      · simpa using List.all_eq_true.mp ho r hr
    · exact absurd h (by simp)
  · exact absurd h (by simp)

/-- Nothing holds the group's operations back. -/
def clearIn (s : State) (e : Env) : Bool :=
  decide (e.g.releasing = [] ∧ e.g.unacked = 0 ∧ e.g.qfencing = [] ∧ ((s.isl e.isl).core e.core).l1 = [] ∧ (s.isl e.isl).reqs = [] ∧
    (s.isl e.isl).ops = [])

theorem clearIn_clear {s : State} {e : Env} (h : clearIn s e = true) : Clear s e := by
  obtain ⟨h1, h2, h3, h4, h5, h6⟩ := of_decide_eq_true h
  exact ⟨h1, h2, h3, by simp [h4], by simp [h5], by simp [h6]⟩

/-- A sequencer context may dispatch an instruction, and what it sees meets `p`. -/
def dispatchIn (i : Instr) (s : State) (p : SEnv → Bool) : Bool :=
  match s.focus with
  | .seq isl core place => match s.senv? isl core place with
    | some e => decide (e.isl = isl ∧ e.core = core ∧ e.place = place ∧ Machine.legal i = true ∧ p e = true)
    | none => false
  | _ => false

def HasS (i : Instr) (s : State) (p : SEnv → Bool) : Prop := ∃ e, Dispatches i s e ∧ p e = true

theorem dispatchIn_has {i : Instr} {s : State} {p : SEnv → Bool} (h : dispatchIn i s p = true) : HasS i s p := by
  unfold dispatchIn at h
  split at h
  · rename_i isl core place hf
    split at h
    · rename_i e he
      obtain ⟨h1, h2, h3, hl, hp⟩ := of_decide_eq_true h
      exact ⟨e, ⟨by rw [h1, h2, h3, hf], by rw [h1, h2, h3]; exact he, hl⟩, hp⟩
    · exact absurd h (by simp)
  · exact absurd h (by simp)

/-- Each instruction of a list may be executed at its place, with what `p` says. -/
def hasAll (l : List (Instr × Ctl)) (p : Env → Bool) : Bool := l.all fun q => readyIn q.1 q.2 (atPlace q.1 id) p

def guarded (e : Env) : Bool := e.guard ≠ 0
def unguarded (e : Env) : Bool := e.guard = 0

-- encodings and steps
theorem wit_EncodedInstructionsDecode : (Instr.nop c0).WellFormed := by decide
theorem wit_DecodedWordsAreCanonical : decode 0x00000000000000007804F800#96 = some (.nop ⟨false, false, 0, 0, 15, 0x009, 15, false⟩) ∧
    (0 : Nat) < 12 ∧ 11 < 12 := by decide

/-- A placed `NOP`, at its turn. -/
def placed (i : Instr) : State := State.reset.placeWord ((encode i).getD 0)

theorem wit_StepRuns_word : fetchWord (((placed (.nop c0)).isl 0).core 0) placeCp 0 false = some 0x000000000000000000007800#96 ∧
    decode 0x000000000000000000007800#96 = some (.nop c0) ∧ streamOpcode (fld 0x000000000000000000007800#96 88 8) = false := by decide
theorem wit_StepRuns_issue : (dueNow (placed (.nop c0))).isNone = true ∧ (placed (.nop c0)).auditHalts 0 0 0 (.nop c0) = none ∧
    (firstIssue (placed (.nop c0)).now (placed (.nop c0)).islands).map (fun p => (p.1, p.2.1, p.2.2.1, p.2.2.2.2)) =
      some (0, 0, 0, .run (.nop c0)) := by decide
theorem wit_StepRuns_dispatch : (dueNow (placed .mend)).isNone = true ∧
    (firstIssue (placed .mend).now (placed .mend).islands).isNone = true ∧
    firstDispatch (placed .mend).now (placed .mend).islands = some (0, 0, 0) ∧
    (((placed .mend).senv? 0 0 0).map fun e => fetchWord (((placed .mend).isl 0).core 0) e.c.sp e.w.asid true) =
      some (encode .mend) ∧ (encode .mend).bind decode = some .mend := by decide
theorem wit_StepRuns_event : (dueNow State.reset).map (·.1) = some (.row .powerGood []) := by decide

theorem wit_EveryInstructionAnswers_group : Attended (.nop c0) (atPlace (.nop c0) id) := by
  refine ⟨by decide, by decide, by decide⟩
theorem wit_EveryInstructionAnswers_seq : Attended .mend { placed .mend with focus := .seq 0 0 0 } := by
  refine ⟨by decide, by decide, by decide⟩
theorem wit_EveryInstructionAnswers_event : Attended .heartbeat { State.reset with focus := .event [0] } := by
  show fieldsOf .heartbeat = none
  rfl

theorem wit_IllegalWordsPark : decode 0x3E0000000000000000007800#96 = none ∧ streamOpcode (fld ((encode .mend).getD 0) 88 8) = true ∧
    ((atPlace (.nop c0) id).isl 0).group? 0 0 ≠ none := by decide

/-- The first decoding fault of an instruction at its place, for a group of some role and privilege. -/
def faultAt (i : Instr) (priv : Bool) (role : Role) : Option Nat :=
  let s := atPlace i fun g => { g with role := role }
  let s := s.modIsl 0 fun x => x.modWg 0 0 fun w => { w with priv := priv }
  (s.env? 0 0 0 c0).bind fun e => firstFault i c0 e

theorem wit_DecodingFaultsComeInOrder :
    faultAt (.mov c0 .b32 (.v 255) (.v 0)) true .vector = some 1 ∧ faultAt (.syswr c0 (.vp 0) 0x010) false .vector = some 0x11 ∧
    faultAt (.cpyb c0 (.v 0) (.s 8)) true .vector = some 2 ∧ faultAt (.mov c0 .b32 (.v 248) (.v 0)) true .vector = some 3 ∧
    faultAt (.mov c0 .b32 (.v 247) (.v 0)) true .vector = none := by decide

-- registers
theorem wit_WritesLandAtTheirCycle : ({} : Group).pend = [] ∧ (∀ w ∈ [(4, WDest.v 0 63, (1 : DWord))], OnLanes w.2.1) ∧
    (3 < 4) ∧ (63 < 64) ∧ (4 ≤ 4) ∧ (∀ w ∈ [(4, WDest.v 0 63, (1 : DWord))], w.2.1 = .v 0 63 → w.1 ≤ 4 ∨ 4 < w.1) := by
  simp [OnLanes]
theorem wit_UnnamedRegisters : (∀ p ∈ ({} : Group).pend, OnLanes p.dest) := by simp
theorem wit_FixedLatencyFrame : ∃ g e, ((atPlace (.nop c0) id).isl 0).group? 0 0 = some g ∧ (atPlace (.nop c0) id).env? 0 0 0 c0 = some e ∧
    e.g = settle g ((atPlace (.nop c0) id).cyc 0) ∧ e.isl = 0 ∧ e.core = 0 ∧ e.gid = 0 := ⟨_, _, rfl, rfl, rfl, rfl, rfl, rfl⟩

-- integer, floating point, lanes
theorem wit_Integer : ([Instr.iadd c0 .i32 false (.v 0) (.v 1) (.imm 1), .imadw c0 .n32 true (.vp 0) (.v 2) (.imm 1)].all fun i =>
      (arithForm i).isSome) = true ∧ (bitForm (.extr c0 true true (.v 0) (.v 1) (.imm 1))).isSome = true ∧
    (moveForm (.movw c0 (.s 9) 7)).isSome = true ∧ (wideForm (.shr64 c0 true (.vp 0) (.vp 2) (.imm 64))).isSome = true ∧
    hasAll [(.iadd c0 .i32 false (.v 0) (.v 1) (.imm 1), c0), (.imadw c0 .n32 true (.vp 0) (.v 2) (.imm 1), c0),
      (.extr c0 true true (.v 0) (.v 1) (.imm 1), c0), (.movw c0 (.s 9) 7, c0), (.shr64 c0 true (.vp 0) (.vp 2) (.imm 64), c0)]
      guarded = true ∧ hasAll [(.iadd cg .i32 false (.v 0) (.v 1) (.imm 1), cg), (.movw cg (.s 9) 7, cg)] unguarded = true := by decide
theorem wit_Shifts : hasAll [(.shl c0 false (.v 0) (.v 1) (.imm 32), c0), (.shr c0 true (.v 0) (.v 1) (.imm 31), c0),
    (.sar c0 false (.v 0) (.v 1) (.imm 33), c0), (.popc c0 .b64 (.v 0) (.vp 2), c0), (.clz c0 .b32 (.v 0) (.v 1), c0),
    (.brev c0 .b64 (.vp 0) (.vp 2), c0)] (fun e => decide (32 ≤ (e.rdZ32 (.imm 32) 0).toNat)) = true := by decide
theorem wit_Select : hasAll [(.sel c0 .b32 (.v 0) (.v 1) (.imm 1), c0)] guarded = true ∧
    hasAll [(.sel cg .b64 (.vp 0) (.vp 2) (.imm 1), cg)] unguarded = true ∧
    ((atPlace (.sel c0 .b32 (.s 0) (.v 1) (.imm 1)) id).env? 0 0 0 c0).isSome = true := by decide
theorem wit_Float : (fpArithForm (.ffma c0 .f32 .rtz (.v 8) (.v 40) (.op (.v 72)))).isSome = true ∧
    (specialForm (.frcp c0 .f16 (.v 0) (.v 1))).isSome = true ∧
    hasAll [(.ffma c0 .f32 .rtz (.v 8) (.v 40) (.op (.v 72)), c0), (.frcp c0 .f16 (.v 0) (.v 1), c0)] guarded = true := by decide
/-- A valid `fm2` for 8 bits, and an `fm3` that is not valid for them. -/
theorem wit_FloatConversions :
    ((fpOtherForm (.fcvt c0 .q8 .f32 .cur false 2 0 (.v 3) (.v 4) none)).map fun f => f.ready { wg := { fm := [(2, 0x00020739)] } }) =
      some true ∧
    ((fpOtherForm (.fcvt c0 .q8 .f32 .cur false 3 0 (.v 3) (.v 4) none)).map fun f => f.ready {}) = some false ∧
    hasAll [(.fcvt c0 .q8 .f32 .cur false 2 0 (.v 3) (.v 4) none, c0)] guarded = true := by decide
theorem wit_Rounding : (0x7F7FFFFF : Nat) < 2 ^ (1 + fmt32.eb + fmt32.mb) ∧ decodeF fmt32 0x7F7FFFFF ≠ .nan ∧
    Fv.inf true ≠ .nan ∧ Fv.fin false 1 0 ≠ .nan := by decide
theorem wit_ControlRegisters : (readForm (.trapGetv c0 (.v 0))).isSome = true ∧ (onceForm (.fctlSet c0 (.imm 1))).isSome = true ∧
    hasAll [(.trapGetv c0 (.v 0), c0), (.fctlSet c0 (.imm 1), c0), (.fmtw c0 7 (.imm 1), c0)] guarded = true ∧
    hasAll [(.fctlSet cg (.imm 1), cg), (.fmtw cg 0 (.imm 1), cg)] unguarded = true := by decide
theorem wit_Lanes : (voteForm (.lvote c0 .all 31 (.v 0) (.v 1))).isSome = true ∧
    ((exForm (.lxch c0 .up false false false (.v 0) (.v 1) (.imm 1))).map (·.zf)) = some false ∧
    ((exForm (.lstep c0 .xor true (.v 0) (.v 1) (.imm 1))).map (·.zf)) = some true ∧
    hasAll [(.lvote c0 .all 31 (.v 0) (.v 1), c0), (.lmatch c0 true false (.vp 0) (.vp 2), c0), (.lmatch c0 false true (.vp 0) (.v 2), c0),
      (.lscan c0 .addF32 true (.v 0) (.v 1), c0), (.lscan c0 .and false (.v 0) (.v 1), c0)] guarded = true ∧
    hasAll [(.lxch c0 .up false false false (.v 0) (.v 1) (.imm 1), c0), (.lstep c0 .xor true (.v 0) (.v 1) (.imm 1), c0)]
      (fun e => e.g.rep = none) = true ∧
    readyIn (.lxch c0 .up false false false (.v 0) (.v 1) (.imm 1)) c0
      (atPlace (.lxch c0 .up false false false (.v 0) (.v 1) (.imm 1)) fun g => { g with rep := some { n := 2, lanes := 3 } })
      (fun e => e.g.rep ≠ none) = true := by decide
-- control
def residentAt (t : Word) (s : State) (e : Env) : Bool := decide (resolveCp ((s.isl e.isl).core e.core) e.wg.asid t false = .go)
/-- An instruction is ready at its place, its group changed by `f` and its island by `h`. -/
def readyWith (i : Instr) (c : Ctl) (f : Group → Group) (h : Island → Island) (p : State → Env → Bool) : Bool :=
  let s := (atPlace i f).modIsl 0 h
  readyIn i c s (p s)
def regsS (l : List (Nat × Word)) (g : Group) : Group := { g with s := l }
def trapping (g : Group) : Group := { g with tvec := placeCp }
/-- The cluster launch of the place is being saved. -/
def beingSaved (x : Island) : Island := { x with cls := [(0, { saving := some 9 })] }

theorem wit_Nop : hasAll [(.nop c0, c0), (.nop cg, cg)] (fun e => e.g.rep = none) = true := by decide
/-- Offsets 0 and 8,191 are the last that a branch reaches from offset 0, -1 and 8,192 the first that it does not. -/
theorem wit_BranchTargets : hasAll [(.bra c0 0, c0), (.bra c0 8191, c0), (.bra c0 (BitVec.ofInt 20 (-1)), c0), (.bra c0 8192, c0)]
    (fun e => decide (e.cp.toNat % 8192 = 0 ∧ e.g.rep = none ∧ ((8191 : BitVec 20).toInt = 8191) ∧ (BitVec.ofInt 20 (-1)).toInt = -1))
      = true := by decide
theorem wit_TransfersOfControl : (jumpForm (.call c0 false (.v 1) placeCp)).isSome = true ∧ (jumpForm (.rtt c0)).isSome = true ∧
    readyWith (.call c0 false (.v 1) placeCp) c0 id id (residentAt placeCp) = true ∧
    readyWith (.rtt c0) c0 (fun g => { g with o := (List.range 2).map fun l => (64 * 7 + l, placeCp) }) id
      (fun s e => (lanesOf e.guard).all fun l => e.g1.oreg 7 l = placeCp && residentAt (e.g1.oreg 7 l) s e) = true ∧
    readyWith (.call c0 true (.v 1) 0xA000) c0 id id
      (fun s e => decide (e.guard ≠ 0 ∧ e.g.rep = none ∧ e.g4.tvec = 0 ∧
        resolveCp ((s.isl e.isl).core e.core) e.wg.asid 0xA000 true = .miss 0)) = true := by decide
theorem wit_EndsAndSleeps : hasAll [(.exit c0, c0), (.sleep c0 1, c0), (.sleep c0 524287, c0)]
      (fun e => decide (e.g.rep = none ∧ e.guard ≠ 0)) = true ∧
    hasAll [(.sleep cg 1, cg)] unguarded = true ∧
    readyWith (.ckpt c0 65535) c0 id id (fun s e => !(s.isl e.isl).preempting e.wg) = true ∧
    readyWith (.ckpt c0 0) c0 id beingSaved (fun s e => (s.isl e.isl).preempting e.wg && e.g.rep = none) = true := by decide
theorem wit_Traps : readyWith (.trap c0 1023) c0 trapping id (fun s e => residentAt e.g4.tvec s e && e.g.rep = none && e.g4.tvec ≠ 0) =
      true ∧ hasAll [(.trap c0 0, c0)] (fun e => decide (e.guard ≠ 0 ∧ e.g4.tvec = 0 ∧ e.g.rep = none)) = true ∧
    hasAll [(.trap cg 0, cg)] unguarded = true := by decide
/-- The word after the place is repeatable; at offset 8,191 there is none. -/
theorem wit_RepeatsBegin : readyWith (.rep c0 1 2 3 64) c0 id id (fun s e => decide (e.cp.toNat % 8192 < 8191) &&
      match fetchWord ((s.isl e.isl).core e.core) (e.cp + 1) e.wg.asid false with | some w => repeatable (fld w 88 8) | none => false) = true ∧
    readyWith (.rep c0 0 0 0 1) c0 (fun g => { g with threads := [(0, { cp := 16383 })] }) id (fun _ e => e.cp.toNat % 8192 = 8191) =
      true := by decide
theorem wit_KillsAndHalts : hasAll [(.killWg c0, c0), (.killLaunch c0, c0), (.haltIsl c0, c0), (.haltPnl c0, c0)]
      (fun e => decide (e.guard ≠ 0 ∧ e.isl < 16 ∧ e.g.place = 0)) = true ∧
    hasAll [(.killWg cg, cg), (.haltPnl cg, cg)] unguarded = true ∧
    readyIn (.killLaunch c0) c0 { atPlace (.killLaunch c0) id with launches := [(0, {})] } (fun e => e.wg.launch = 0) = true ∧
    tget? { atPlace (.killLaunch c0) id with launches := [(0, ({} : Launch))] }.launches 0 = some {} := by decide

-- overlays
/-- The place's core with a loading entry of handle 5 in the residency table. -/
def loading5 (x : Island) : Island := x.modCore 0 fun k => { k with rtab := k.rtab ++ [(1, { handle := 5, loading := true, first := 3 })] }
def share (x : Island) : Island := { x with sys := { x.sys with slotshare := 0xFFFFFFFF } }
theorem wit_OverlayInstructions : (overlayForm (.ovlPin c0 (.v 0) (.imm 1))).isSome = true ∧
    hasAll [(.ovlPin c0 (.v 0) (.imm 1), c0), (.ovlAddr c0 (.vp 0) (.v 2), c0), (.ovlLd c0 (.s 4) (.imm 0) (.imm 0), c0),
      (.ovlLd c0 (.s 4) (.imm 0) (.imm 524287), c0), (.ovlLd c0 (.s 4) (.imm 0) (.imm 1), c0)] guarded = true ∧
    hasAll [(.ovlPin cg (.v 0) (.imm 1), cg), (.ovlAddr cg (.vp 0) (.v 2), cg), (.ovlLd cg (.s 4) (.imm 0) (.imm 1), cg)] unguarded = true ∧
    (entryFor { wg := placeWg none } (((loading5 ((placed (.nop c0)).isl 0))).core 0) 1).map (·.2.loading) = some false ∧
    (entryFor { wg := placeWg none } (((loading5 ((placed (.nop c0)).isl 0))).core 0) 5).map (·.2.loading) = some true ∧
    readyWith (.ovlLd c0 (.s 4) (.imm 31) (.imm 0x70006)) c0 id share (fun s e => decide (entryFor e ((s.isl 0).core 0) 0x70006 = none ∧
      slotTaken ((s.isl 0).core 0) none 31 = false ∧ slotTaken ((s.isl 0).core 0) none 0 = true ∧
      (s.slotMask 0 0 e.wg.priv 0x70006).1.getLsbD 31 = true ∧ (s.slotMask 0 0 e.wg.priv 0x70006).1.getLsbD 0 = true ∧
      tfree ((s.isl 0).core 0).rtab 32 = some 1)) = true ∧
    readyWith (.ovlLd c0 (.s 4) (.imm 31) (.imm 0x70006)) c0 id id (fun s e => decide (entryFor e ((s.isl 0).core 0) 0x70006 = none ∧
      (s.slotMask 0 0 e.wg.priv 0x70006).1.getLsbD 31 = false)) = true := by decide

-- memory
theorem wit_MemoryReads : memWf [] = true ∧ memWf [(0, 1), (2 ^ 48, 255)] = true ∧ (0 : Nat) < 1 := by decide
def plainExt : MemExt := ⟨0, .near, .none, .none⟩
theorem wit_MemoryRequests : (memForm (.ld c0 .b32 plainExt (.v 0) (.vp 2) 511)).isSome = true ∧
    hasAll [(.ld c0 .b32 plainExt (.v 0) (.vp 2) 511, c0), (.markFull c0 0 .near (.imm 2) (.vp 2) 0, c0),
      (.st c0 .i64 ⟨1, .far, .sys, .rel⟩ (.vp 0) (.vp 2) 0, c0)] guarded = true ∧
    hasAll [(.ld cg .b32 plainExt (.v 0) (.vp 2) 0, cg), (.st cg .i64 ⟨1, .far, .sys, .rel⟩ (.vp 0) (.vp 2) 0, cg)] unguarded = true ∧
    releases (.ld cg .b32 plainExt (.v 0) (.vp 2) 0) = none ∧ acquires (.ld cg .b32 plainExt (.v 0) (.vp 2) 0) = none ∧
    releases (.st cg .i64 ⟨1, .far, .sys, .rel⟩ (.vp 0) (.vp 2) 0) ≠ none := by decide
def aLine (x : Island) : Island := x.modCore 0 fun k => { k with l1 := [(5, { st := .m })] }
theorem wit_Fences : readyWith (.fence c0 .isl .ar) c0 id id (fun s e => clearIn s e && ((s.isl e.isl).core e.core).pinv = []) = true ∧
    hasAll [(.flushAll c0, c0), (.invlAll c0, c0), (.pref c0 0 .once (.vp 2) 0, c0)] guarded = true ∧
    hasAll [(.pref cg 0 .near (.vp 2) 0, cg)] unguarded = true ∧
    readyWith (.flushAll c0) c0 id id (fun s e => ((s.isl e.isl).core e.core).l1 = []) = true ∧
    readyWith (.invlAll c0) c0 id aLine (fun s e => guarded e && ((s.isl e.isl).core e.core).l1 ≠ []) = true := by decide
theorem wit_Accesses : (∀ a ∈ [({ lane := 63, n := 8, loc := some (.line 0 120) } : Acc)], a.done = false ∧ a.off + a.n ≤ 128 ∧ a.n ≤ 8) ∧
    isWrite (.ld c0 .b64 plainExt (.vp 0) (.vp 2) 0) = false := by decide
theorem wit_Atomics : (2 ^ 64 - 1 < 2 ^ 64) ∧ (2 ^ 32 - 1 < 2 ^ 32) := by decide
def stored : Op := { instr := .st c0 .b32 plainExt (.v 0) (.vp 2) 0, subs := [{ key := 1, accs := [{ x := 7, loc := some (.unc 64) }] }] }
theorem wit_Stores : ((aLine ((placed (.nop c0)).isl 0)).l1? stored.core 5).isSome = true ∧ isWrite stored.instr = true ∧
    (stored.subs.find? fun u => u.key = 1).isSome = true ∧ memWf ((placed (.nop c0)).isl 0).mem = true ∧
    (stored.subs.map fun u => u.accs.map fun a => (a.done, a.loc)) = [[(false, some (.unc 64))]] := by decide
theorem wit_LoadedValues : ({ res := some (0xFF : DWord), lane := 63 } : Acc).res = some 0xFF ∧ (63 < 64) ∧ (0xFF : DWord).toNat < 2 ^ tWidth .i8 ∧
    tWidth .i8 < 64 ∧ tWidth .n64 = 64 := by decide

-- requests to units
theorem wit_UnitRequests : ([Instr.barInit c0 (.s 9) 15 (.imm 4095), .hypEnter c0 (.s 9) (.imm 0), .mstop c0 (.s 9), .sysrd c0 (.vp 0) 0x10,
      .route c0 (.v 17) 1 63, .nwait c0 false (.vp 0) (.imm 3) (.imm 1)].all fun i => (unitForm i).isSome) = true ∧
    ([Instr.barInit c0 (.s 9) 15 (.imm 4095), .hypEnter c0 (.s 9) (.imm 0), .mstop c0 (.s 9), .sysrd c0 (.vp 0) 0x10,
      .route c0 (.v 17) 1 63, .nwait c0 false (.vp 0) (.imm 3) (.imm 1)].all fun i =>
        readyIn i c0 (atPlace i id) fun e => clearIn (atPlace i id) e && guarded e && e.g.hy = 0) = true ∧
    hasAll [(.barInit cg (.s 9) 15 (.imm 4095), cg)] unguarded = true ∧
    unitWay (.barWait c0 0 (.imm 0)) 0 = some (60, .syncUnitOperation) ∧ unitWay (.barWait c0 1 (.imm 0)) 0 = some (4, .syncUnitOperation) ∧
    (contextForm (.mstop c0 (.s 9))).isSome = true ∧ hypBound (.rfence c0) = true ∧
    readyWith (.rfence c0) c0 (fun g => { g with hy := 3 }) id (fun _ e => e.g.hy ≠ 0) = true := by decide

/-- A bulk copy of 128 bytes within the scratchpad, scope `.wg`; one to a rank that the cluster does not have; a bad one. -/
def bdGood : BitVec 256 := BitVec.ofNat 256 (0xFE * 2 ^ 64 + 0xFE * 2 ^ 72 + 512 * 2 ^ 96 + 128 * 2 ^ 160 + 2 * 2 ^ 200)
def bdFar : BitVec 256 := BitVec.ofNat 256 (0xFE * 2 ^ 64 + 0xFD * 2 ^ 72 + 2 * 2 ^ 80 + 512 * 2 ^ 96 + 128 * 2 ^ 160 + 2 * 2 ^ 200)
/-- A descriptor in `s8`-`s15`. -/
def inS8 (d : BitVec 256) (g : Group) : Group := { g with s := (List.range 8).map fun j => (8 + j, (d >>> (32 * j)).setWidth 32) }
def bdAt (d : BitVec 256) (r : BdCheck) : Bool :=
  readyWith (.cpyb c0 (.v 0) (.s 8)) c0 (inS8 d) id fun s e => decide (e.guard ≠ 0 ∧ descriptor e 8 8 = d) &&
    checkBd (s.isl e.isl) e.core e.g.place e.wg (descriptor e 8 8) == r
theorem wit_CopyInstructions : hasAll [(.qstat c0 (.v 0) 0, c0), (.qstat c0 (.v 0) 2, c0)] guarded = true ∧
    hasAll [(.qstat cg (.v 0) 1, cg), (.cpyb cg (.v 0) (.s 8), cg)] unguarded = true ∧
    readyWith (.cpy c0 .w4 true 0 0 .wg (.vp 4) (.vp 6)) c0 id id (fun s e => clearIn s e && guarded e &&
      ((s.isl e.isl).wg? e.core e.g.place).isSome) = true ∧
    bdAt bdGood (.status 0) = true ∧ bdAt bdFar .mcast = true ∧ bdAt 0 (.status 1) = true ∧
    readyWith (.qfence c0 7) c0 id id (fun s e => clearIn s e &&
      ((s.isl e.isl).wg? e.core e.g.place).all fun w => w.mrds = []) = true := by decide

/-- Islands 0 and 1 present, with routes to both, every other absent. -/
def routed (x : Island) : Island :=
  { x with sys := { x.sys with rtab := [(0, 0x8000000000000000), (1, 0x8000000000000041)] },
           topo := { sites := [(0, { st := 1 }), (1, { st := 1 })] } }
def pgGood : BitVec 256 := BitVec.ofNat 256 (2 ^ 80 + 128 * 2 ^ 160)
def pgAway : BitVec 256 := BitVec.ofNat 256 (2 * 2 ^ 80 + 128 * 2 ^ 160)
def pgBad : BitVec 256 := BitVec.ofNat 256 (2 ^ 80)
/-- A sum of four words over islands 0 and 1, with root 0; one of no words; one with island 2. -/
def clGood : BitVec 256 := BitVec.ofNat 256 (3 * 2 ^ 160 + 2 ^ 184 + 4 * 2 ^ 192)
def clBad : BitVec 256 := BitVec.ofNat 256 (3 * 2 ^ 160 + 2 ^ 184)
def clAway : BitVec 256 := BitVec.ofNat 256 (5 * 2 ^ 160 + 2 ^ 184 + 4 * 2 ^ 192)

/-- A fabric instruction with a descriptor in `s8`-`s15`, on an island with routes. -/
def fabricAt (i : Instr) (d : BitVec 256) (p : State → Env → Bool) : Bool :=
  readyWith i c0 (inS8 d) routed fun s e => decide (e.guard ≠ 0 ∧ e.g.hy = 0 ∧ descriptor e 8 8 = d) && p s e

theorem wit_FabricInstructions :
    (fabricAt (.put c0 (.v 0) (.s 8)) pgGood fun s e => (s.isl 0).routeTo (pgIsland pgGood) == some [4] &&
      checkPg (s.isl 0) e.core e.g.place false pgGood == 0) = true ∧
    (fabricAt (.put c0 (.v 0) (.s 8)) pgAway fun s _ => (s.isl 0).routeTo (pgIsland pgAway) == none) = true ∧
    (fabricAt (.get c0 (.v 0) (.s 8)) pgBad fun s e => (s.isl 0).routeTo (pgIsland pgBad) == some [4] &&
      checkPg (s.isl 0) e.core e.g.place true pgBad == 1) = true ∧
    readyWith (.rntfy c0 (.imm 1) (.imm 1023) (.imm 1)) c0 id routed (fun s e => clearIn s e && guarded e && e.g.hy = 0 &&
      (s.isl 0).routeTo 1 ≠ none) = true ∧
    readyWith (.rntfy c0 (.imm 2) (.imm 1023) (.imm 1)) c0 id routed (fun s e => guarded e && (s.isl 0).routeTo 2 == none) = true ∧
    (fabricAt (.coll c0 (.v 0) (.s 8)) clGood fun s e => clearIn s e && clValid 0 clGood &&
      (clMembers clGood).all fun t => (s.isl 0).routeTo t ≠ none) = true ∧
    (fabricAt (.coll c0 (.v 0) (.s 8)) clBad fun s _ => !clValid 0 clBad &&
      (clMembers clBad).all fun t => (s.isl 0).routeTo t ≠ none) = true ∧
    (fabricAt (.coll c0 (.v 0) (.s 8)) clAway fun s _ => (clMembers clAway).find? (fun t => ((s.isl 0).routeTo t).isNone) == some 2) =
      true ∧
    hasAll [(.put cg (.v 0) (.s 8), cg), (.coll cg (.v 0) (.s 8), cg), (.rntfy cg (.imm 2) (.imm 0) (.imm 1), cg)] unguarded = true := by
  decide

/-- `RATOM` to island 1 and to island 2: `v4` names it in each lane. -/
def naming1 (n : Word) (g : Group) : Group := { g with v := (List.range 2).map fun l => (64 * 4 + l, n) }
def ratomAt (n : Word) (p : State → Env → Bool) : Bool :=
  let i : Instr := .ratom c0 .add false 0 .acq (.v 0) (.vp 2) (.v 4)
  let s := { (atPlace i (naming1 n)).modIsl 0 routed with launches := [(0, {})] }
  readyIn i c0 s fun e => guarded e && e.g.hy = 0 && e.wg.launch = 0 && p s e && (lanesOf e.guard).all fun l =>
    (e.rd32 (.v 4) l).toNat % 16 == n.toNat && (laneAddr e 0 (.vp 2) 0 l).toNat % 4 == 0 && !inWindow (laneAddr e 0 (.vp 2) 0 l)
theorem wit_RemoteAtomics : (ratomAt 1 fun s e => clearIn s e && (s.isl 0).routeTo 1 ≠ none) = true ∧
    (ratomAt 2 fun s _ => (s.isl 0).routeTo 2 == none) = true ∧
    readyWith (.rfence c0) c0 id id (fun s e => clearIn s e && e.g.hy = 0) = true := by decide

-- streams
/-- A stream instruction at its place, with setting registers and the island changed. -/
def streamAt (i : Instr) (f : Ctx → Ctx) (h : Island → Island) (p : State → SEnv → Bool) : Bool :=
  let s : State := { placed i with focus := .seq 0 0 0 }
  let s := (s.modIsl 0 fun x => x.modWg 0 0 fun w => { w with ctx := w.ctx.map f }).modIsl 0 h
  dispatchIn i s (p s)
def quietCtx (e : SEnv) : Bool :=
  decide (e.c.handed = [] ∧ e.c.current = none ∧ e.c.readout = [] ∧ e.c.killed = false ∧ e.c.arw = none ∧ e.c.waitOp = none)
/-- `fm0` for 8 bits. -/
def withFm (x : Island) : Island := x.modWg 0 0 fun w => { w with fm := [(0, 0x00020739)] }
theorem wit_StreamInstructions : ([Instr.msetLo 15 7, .msetU 15 31 (.s 62), .mjmp 15 8191, .mjmpAl (BitVec.ofInt 20 (-1))].all fun i =>
      (streamForm i).isSome) = true ∧
    (streamAt (.msetLo 15 7) id id fun _ e => ((streamForm (.msetLo 15 7)).map fun f => f.good e) == some true) = true ∧
    (streamAt (.msetU 15 0 (.s 62)) id id fun _ e => ((streamForm (.msetU 15 0 (.s 62))).map fun f => f.good e) == some true) = true ∧
    (streamAt (.msetU 15 1 (.s 62)) id id fun _ e => ((streamForm (.msetU 15 1 (.s 62))).map fun f => f.good e) == some false) = true ∧
    (streamAt (.mjmp 15 8191) id id fun _ e => jumpGood 8191 e) = true ∧
    (streamAt (.mjmpAl 8192) id id fun _ e => !jumpGood 8192 e) = true ∧
    (streamAt (.mfmt 7 1) id id fun _ _ => true) = true ∧
    (streamAt (.mckpt 65535) id id fun s e => !(s.isl e.isl).preempting e.w) = true ∧
    (streamAt (.mckpt 65535) id beingSaved fun s e => (s.isl e.isl).preempting e.w) = true ∧
    (streamAt .mend id id fun _ e => quietCtx e) = true ∧ (mbarForm (.mbarArw 15 1)).isSome = true ∧
    (mbarForm (.mbarRsv 7 15)).isSome = true ∧
    (streamAt (.mbarArw 15 1) id id fun _ e => quietCtx e) = true ∧ (streamAt (.mbarRsv 7 15) id id fun _ e => quietCtx e) = true := by
  decide
/-- The first address that an `MMA` finds not aligned. -/
def mmaFirst (sparse : Bool) (e : SEnv) : Option Nat :=
  (tileUnaligned e 0 0 (some 2)).or ((tileUnaligned e 1 1 (some 3)).or (if sparse then tileUnaligned e 3 7 none else none))
/-- The `MMA` of a stream is in order but for the alignment of its settings, which `p` sees. -/
def mmaAt (i : Instr) (ms : Tbl DWord) (p : SEnv → Bool) : Bool :=
  streamAt i (fun c => { c with ms := ms }) id fun _ e => match mmaArgs i with
    | some a => mmaModes a (e.mxOp i 1 0 0) && decide (a.slot < hdrAccSlots e.w.hdr) && !scaleBad e.w e.c.sca a.nb && p e
    | none => false
/-- An `MWR` to row 0 at an address, for a page that its context maps or does not. -/
def mwrAt (ms : Tbl DWord) (p : State → SEnv → MxOp → Bool) : Bool :=
  let i : Instr := .mwr .raw true 7 0
  streamAt i (fun c => { c with ms := ms }) id fun s e => p (s.noteClass e.isl e.core 1) e (e.mxOp i s.nextId 0 0)
theorem wit_MatrixDispatch :
    (let i : Instr := .mma .bf16 false true true 7 0 0 256
     (mmaArgs i).isSome = true ∧ mmaAt i [] (fun e => mmaFirst false e == none) = true ∧
     mmaAt i [(0, 8)] (fun e => (tgetD e.c.ms 0 0).toNat % 16 == 8 && mmaFirst false e == some 8) = true ∧
     mmaAt i [(0, 16), (2, 24)] (fun e => (tgetD e.c.ms 2 0).toNat % 16 == 8 && mmaFirst false e == some 40) = true ∧
     mmaAt i [(1, 1), (4, 0xFE00)] (fun e => mmaFirst false e == some (0xFE * 2 ^ 64 + 1)) = true ∧
     (streamAt i id (fun x => x.modWg 0 0 fun w => { w with hdr := 0 }) fun _ e => hdrAccSlots e.w.hdr == 0) = true) ∧
    (let i : Instr := .mmas .bf16 false false true 7 0 0 256
     ((mmaArgs i).map (·.sparse)) = some true ∧ mmaAt i [(7, 15)] (fun e => mmaFirst true e == some 15) = true) ∧
    (let i : Instr := .mma .q8 false false true 7 0 0 256
     (streamAt i id id fun _ e => match mmaArgs i with | some a => !mmaModes a (e.mxOp i 1 0 0) | none => false) = true) ∧
    (streamAt (.mzero 7) id id fun _ e => decide (7 < hdrAccSlots e.w.hdr)) = true ∧
    (streamAt (.mzero 7) id (fun x => x.modWg 0 0 fun w => { w with hdr := 0 }) fun _ e => decide (hdrAccSlots e.w.hdr ≤ 7)) = true ∧
    (let i : Instr := .mrd .q8 .isl 0 0
     (streamAt i id withFm fun _ e => fmValid (tgetD e.w.fm 0 0) (tileBits .q8)) = true ∧
     (streamAt i id id fun _ e => !fmValid (tgetD e.w.fm 0 0) (tileBits .q8)) = true ∧
     (streamAt i (fun c => { c with ms := [(5, 1)] }) withFm fun _ e => tileUnaligned e 2 5 (some 6) == some 1) = true) ∧
    mwrAt [(4, 0xFE0000)] (fun s e m => tileUnaligned e 2 5 (some 6) == none && (s.tileFault e m .raw false).1.isNone) = true ∧
    mwrAt [(5, 16), (6, 8)] (fun _ e _ => tileUnaligned e 2 5 (some 6) == some 24) = true ∧
    mwrAt [] (fun s e m => tileUnaligned e 2 5 (some 6) == none && (s.tileFault e m .raw false).1.isSome) = true := by decide

-- events: a machine with one island, about to take an event
def ev (args : List Nat) (x : Island) : State := { State.reset with islands := [(0, x)], focus := .event args }

-- coherence
def reqOf (k : ReqKind) : Req := { kind := k, core := 3, line := 5 }
/-- Line 5, asleep; with another request in progress; with one request alone. -/
def dozing (k : ReqKind) : State := ev [0, 1] { reqs := [(1, reqOf k)], asleep := [sliceOf 5] }
def behind (k : ReqKind) : State :=
  ev [0, 1] { reqs := [(1, reqOf k), (2, reqOf .read)], homes := [(5, { txn := some { req := 2 } })] }
def alone (r : Req) : State := ev [0, 1] { reqs := [(1, r)], homes := [(5, { inSlice := true })], mem := [(640, 3)] }
def tagReq : Req := { kind := .tagged, core := 3, line := 5, tag := 255, op := 1, sub := 1 }
def tagSub : Sub := { key := 1, accs := [{ lane := 63, x := 7, loc := some (.line 5 124) }] }
def tagOp : Op := { instr := .st c0 .b32 plainExt (.v 0) (.vp 2) 0, agent := .group 3 0, subs := [tagSub] }
def tagged1 : State := (alone tagReq).modIsl 0 fun x => { x with ops := [(1, tagOp)] }
theorem wit_RequestsAtTheHome :
    (∀ k ∈ [ReqKind.read, .readEx, .upgrade, .tagged, .writeBack true, .merge false],
      let s := dozing k
      reqRow k ∈ [Instr.homeRead, .homeReadExclusive, .homeUpgrade, .taggedWrite, .homeWriteBack, .homeMerge] ∧ tget? (s.isl 0).reqs 1 = some (reqOf k) ∧
        sliceOf 5 ∈ (s.isl 0).asleep) ∧
    (∀ k ∈ [ReqKind.read, .readEx, .upgrade, .tagged],
      let s := behind k
      tget? (s.isl 0).reqs 1 = some (reqOf k) ∧ sliceOf 5 ∉ (s.isl 0).asleep ∧ (reqOf k).granted = false ∧
        ((s.isl 0).hline 5).txn = some { req := 2 } ∧ 1 ∉ ((s.isl 0).hline 5).queue) ∧
    (∀ k ∈ [ReqKind.read, .readEx, .upgrade], AloneAtHome ((alone (reqOf k)).isl 0) 1 (reqOf k)) ∧
    (let s := tagged1
     AloneAtHome (s.isl 0) 1 tagReq ∧ tagReq.tag ≠ 0 ∧ (s.isl 0).versions = [] ∧ (s.isl 0).resolve = none ∧ (s.isl 0).resolveQ = [] ∧
       s.op? 0 tagReq.op = some tagOp ∧ (tagOp.subs.find? fun u => u.key = tagReq.sub) = some tagSub ∧
       (performLine tagOp.instr ((s.isl 0).chainView 5 255) 0 tagSub.accs).2.1 ≠ 0) := by
  unfold AloneAtHome; decide
def bytesReq (k : ReqKind) : Req := { reqOf k with data := 77, mask := 1 }
def bytes1 (k : ReqKind) : State := ev [0, 1] { reqs := [(1, bytesReq k)], mem := [(640, 3), (641, 9)] }
theorem wit_BytesComeHome :
    (∀ b ∈ [true, false], let r := bytesReq (.writeBack b); let x := (bytes1 (.writeBack b)).isl 0
       x.reqs = [(1, r)] ∧ r.ans = none ∧ sliceOf r.line ∉ x.asleep ∧ memWf x.mem = true) ∧
    (∀ b ∈ [true, false], let r := bytesReq (.merge b); let x := (bytes1 (.merge b)).isl 0
      x.reqs = [(1, r)] ∧ r.inv = none ∧ sliceOf r.line ∉ x.asleep ∧ x.filters = [] ∧ (x.hline r.line).owner = none ∧
        memWf x.mem = true) := by decide
/-- Line 160 lies in the half that stays; core 3, in the half that is reset, owns it dirty, and clusters 0 and 16 may hold it, both
in L. A read of the other half may wait for the owner. -/
def lostLine (x : Option Txn) : HLine :=
  { owner := some (3, .m), clusters := 0x10001, lhint := 0x10001, inSlice := true, txn := x }
def losing (x : Option Txn) : State :=
  ev [0, 0] { homes := [(160, lostLine x)], reqs := [(1, { kind := .read, core := 70, line := 160 })], sys := { rtime := 7 },
              cores := [(3, { part := 5, l1 := [(160, { st := .m })] }), (70, { part := 7 })], mem := [(20480, 9)] }
/-- Messages of core 3 to slice 1, for lines 5 and 9 of two regions, and no service in progress. -/
def flits (t : Option Txn) (args : List Nat) : State :=
  ev args { reqs := [(1, reqOf .read)], invs := [(2, { line := 9, core := 3 })], homes := [(5, { inSlice := true, txn := t })], mem := [(640, 3)] }
theorem txnNone {x : Island} (h : x.homes.all (fun p => p.2.txn.isNone) = true) (ln : Nat) : (x.hline ln).txn = none := by
  unfold Island.hline tgetD
  cases e : tget? x.homes ln with
  | none => rfl
  | some a => simpa using List.all_eq_true.mp h _ (Laws.tget_mem e)
theorem wit_Losses :
    (∀ ln, (((losing none).isl 0).hline ln).txn = none) ∧ (∀ ln, (((flits none []).isl 0).hline ln).txn = none) ∧ sliceOf 160 / 32 = 1 ∧
    (((losing none).isl 0).hline 160).owner = some (3, .m) ∧ halfOf 3 = 0 ∧ halfOf 70 = 1 ∧
    ((losing none).isl 0).lhints 160 &&& 0xFFFF ≠ 0 ∧
    (let t : Txn := { req := 1, phase := .owner, target := 3 }
     ((losing (some t)).isl 0).homes = [(160, lostLine (some t))] ∧
       ((losing (some t)).isl 0).reqs = [(1, { kind := .read, core := 70, line := 160 })] ∧ (lostLine (some t)).queue = [] ∧
       ((flits (some t) []).isl 0).homes = [(5, { inSlice := true, txn := some t })]) ∧
    64 * (3 / 4) + sliceOf 5 = 1 ∧ 64 * (3 / 4) + sliceOf 9 = 2 := by
  and_intros <;> first | rfl | decide | exact txnNone rfl
def mLine : L1Line := { st := .m, data := 77, dirty := 1 }
def sLine : L1Line := { st := .s }
def askTxn : Txn := { req := 1, phase := .owner, target := 3 }
def inv1 : Inv := { line := 5, core := 3 }
def forwarded (c : Tbl L1Line) : State :=
  ev [0, 1] { reqs := [(1, reqOf .read)], homes := [(5, { txn := some askTxn })], cores := [(3, { l1 := c })] }
def invalidating : State := ev [0, 1] { invs := [(1, inv1)], cores := [(3, { l1 := [(5, sLine)] })] }
def invalidated : State := ev [0, 3, 1] { invs := [(1, inv1)], cores := [(3, { l1 := [(5, sLine)], pinv := [1] })] }
def granted1 : State := ev [0, 1] { reqs := [(1, reqOf .read)] }
/-- A home that waits for core 9's answer to a read; the answer says that it holds no copy, with a write-back on its way or none. -/
def asking (wb : Tbl Req) : State :=
  ev [0, 1] { reqs := (1, reqOf .read) :: wb, homes := [(5, { inSlice := true, owner := some (9, .m), txn := some { askTxn with target := 9 } })] }
/-- A recall waits for cluster 0, which holds the line in L at its third core. -/
def recalling : State :=
  ev [0, 1] { invs := [(1, inv1)], homes := [(5, { txn := some { req := 9, acks := [1] } })], filters := [(filterKey 0 5, { lrank := some 2 })],
              cores := [(2, { l1 := [(5, { mLine with st := .l })] })] }
def evicting : State := ev [0, 3, 5] { cores := [(3, { l1 := [(5, mLine)] })] }
def noticing : State := ev [0, 1, 5] { filters := [(filterKey 1 5, { lrank := some 3 })] }
theorem wit_MessagesToTheCaches :
    (let s := forwarded [(5, mLine)]
     (reqOf .read).kind = .read ∧ tget? (s.isl 0).reqs 1 = some (reqOf .read) ∧ ((s.isl 0).hline 5).txn = some askTxn ∧
       (s.isl 0).l1? 3 5 = some mLine ∧ mLine.view = 0 ∧ mLine.st = .m) ∧
    (let s := forwarded []
     tget? (s.isl 0).reqs 1 = some (reqOf .read) ∧ ((s.isl 0).hline 5).txn = some askTxn ∧ (s.isl 0).l1? 3 5 = none) ∧
    (let wb : Req := { reqOf (.writeBack false) with core := 9 }
     (∀ l ∈ [[], [(2, wb)]], tget? ((asking l).isl 0).reqs 1 = some (reqOf .read) ∧
        ((asking l).isl 0).hline 5 = { inSlice := true, owner := some (9, .m), txn := some { askTxn with target := 9 } }) ∧
       askTxn.req = 1 ∧ askTxn.phase = .owner ∧ askTxn.wbSeen = false ∧ wb.core = 9 ∧ wb.line = 5 ∧ wb.ans = none) ∧
    (let x := recalling.isl 0
     x.invs = [(1, inv1)] ∧ inv1.viewOnly = false ∧ (x.filter (clusterOf inv1.core) 5).lrank = some 2 ∧
       (x.hline 5).txn = some { req := 9, acks := [1] } ∧ x.l1? (4 * clusterOf inv1.core + 2) 5 = some { mLine with st := .l }) ∧
    (let s := invalidating
     tget? (s.isl 0).invs 1 = some inv1 ∧ inv1.arrived = false ∧ (s.isl 0).filter (clusterOf inv1.core) 5 = {} ∧
       (s.isl 0).l1? 3 5 = some sLine ∧ (s.isl 0).reqs = [] ∧ ((s.isl 0).hline inv1.line).txn = none) ∧
    (let s := invalidated
     tget? (s.isl 0).invs 1 = some inv1 ∧ inv1.core = 3 ∧ ((s.isl 0).core 3).pinv = [1] ∧ inv1.force = false ∧ inv1.viewOnly = false ∧
       ((s.isl 0).core 3).l1 = [(inv1.line, sLine)] ∧ sLine.st = .s) ∧
    (let s := granted1
     (s.isl 0).reqs = [(1, reqOf .read)] ∧ (s.isl 0).ops = [] ∧ ((s.isl 0).core 3).pinv = [] ∧ ((s.isl 0).core 3).l1 = [] ∧
       (s.isl 0).filters = [] ∧ (reqOf .read).stale = false) ∧
    ((evicting.isl 0).l1? 3 5 = some mLine ∧ mLine.st = .m) ∧ ((noticing.isl 0).filter 1 5).lrank ≠ none := by decide

-- hypotheses
/-- A group's operation on island 0, core 3, group 0. -/
def opOf (i : Instr) (a : DWord := 0) (b : DWord := 0) : Op := { instr := i, agent := .group 3 0, a := a, b := b, asid := 7 }
def grp : Group := { threads := [(0, { cp := 8192 }), (63, { cp := 8192 })] }
def withGrp (x : Island) : Island := { x with cores := [(3, { groups := [(0, grp)], places := [(0, {})] })] }
def unitOp (i : Instr) (a b : DWord) (f : Island → Island) : State :=
  ev [0, 1] (f (withGrp { ops := [(1, opOf i a b)], hyps := [(0, { st := .opened }), (1, { st := .opened, depth := 1, asid := 7 }),
    (2, { st := .opened, parent := 1, depth := 8, asid := 7 })] }))
/-- Every ID taken. -/
def allHyps (x : Island) : Island := { x with hyps := (List.range 256).map fun k => (k, { st := .opened, asid := 7 }) }
def hOpen : Instr := .hypOpen c0 (.s 9) (.imm 0)
def hEnter : Instr := .hypEnter c0 (.s 9) (.imm 0)
def hQry : Instr := .hypQry c0 (.vp 0) (.imm 0)
def hLeave : Instr := .hypLeave c0 (.s 9)
theorem wit_ControllerRequests :
    (unitOp hOpen 0 0 id).op? 0 1 = some (opOf hOpen 0) ∧ (unitOp hOpen 256 0 id).op? 0 1 = some (opOf hOpen 256) ∧
    ((unitOp hOpen 1 0 id).isl 0).resolvingAt 1 = false ∧ (((unitOp hOpen 1 0 id).isl 0).hyp 1).st = .opened ∧
    (((unitOp hOpen 1 0 id).isl 0).hyp 1).asid = (opOf hOpen).asid ∧ (((unitOp hOpen 1 0 id).isl 0).hyp 1).depth = 1 ∧
    (((unitOp hOpen 1 0 id).isl 0).hyp 3).st = .free ∧ (((unitOp hOpen 2 0 id).isl 0).hyp 2).depth = 8 ∧
    (unitOp hOpen 255 0 allHyps).op? 0 1 = some (opOf hOpen 255) ∧
    (((unitOp hOpen 255 0 allHyps).isl 0).hyps.all fun p => p.2.st = .opened) = true ∧
    ((unitOp hOpen 255 0 allHyps).isl 0).hyps.length = 256 ∧
    (unitOp hEnter 255 0 id).op? 0 1 = some (opOf hEnter 255) ∧ (unitOp hLeave 0 0 id).op? 0 1 = some (opOf hLeave) ∧
    ((unitOp hLeave 0 0 id).isl 0).opGroup? (opOf hLeave) = some grp ∧ (unitOp hQry 2 0 id).op? 0 1 = some (opOf hQry 2) ∧
    (((unitOp hQry 2 0 id).isl 0).hyp 2).st = .opened := by
  and_intros <;> first | rfl | decide
def hConf : Instr := .hypResolveConfirm c0 (.s 9) (.imm 0)
def hRef : Instr := .hypResolveRefute c0 (.s 9) (.imm 0)
def resolving (x : Island) : Island := { x with resolve := some { op := 9, id := 2 } }
theorem wit_ResolveRequests :
    (unitOp hConf 0 0 id).op? 0 1 = some (opOf hConf 0) ∧ (unitOp hConf 256 0 id).op? 0 1 = some (opOf hConf 256) ∧
    (unitOp hConf 255 0 id).op? 0 1 = some (opOf hConf 255) ∧ (unitOp hConf 2 0 id).op? 0 1 = some (opOf hConf 2) ∧
    (unitOp hRef 2 0 resolving).op? 0 1 = some (opOf hRef 2) ∧ ((unitOp hRef 2 0 resolving).isl 0).resolve ≠ none ∧
    (((unitOp hRef 2 0 resolving).isl 0).hyp 2).st = .opened ∧ (((unitOp hRef 2 0 resolving).isl 0).hyp 2).asid = 7 ∧
    ((unitOp hRef 2 0 resolving).isl 0).resolvingAt 2 = false := by
  and_intros <;> first | rfl | decide
def confirmOf (g : BitVec 8) : Resolve := { op := 1, id := g }
def version (g : BitVec 8) : Version := { line := 5, tag := g, data := 77, mask := 1 }
/-- A confirm at its commit point: of 1, whose parent is the root, and of 2, whose parent is 1. -/
def atFocus (args : List Nat) (s : State) : State := { s with focus := .event args }
def committing (g : BitVec 8) : State := atFocus [0] (unitOp hConf (g.setWidth 64) 0
  fun x => { x with resolve := some (confirmOf g), versions := [version g], mem := [(641, 3)] })
theorem wit_CommitPoint : (∀ g ∈ [(1 : BitVec 8), 2],
    ((committing g).isl 0).tagsQuiet g.toNat = true ∧ ((committing g).isl 0).reqs = [] ∧ ((committing g).isl 0).filters = [] ∧
      (((committing g).isl 0).hline 5).txn = none ∧ (((committing g).isl 0).hline 5).owner = none ∧
      (((committing g).isl 0).hline 5).queue = [] ∧ memWf ((committing g).isl 0).mem = true ∧
      ((((committing g).isl 0).hyp g.toNat).parent = 0 ↔ g = 1)) ∧
    ((committing 1).isl 0).resolve = some (confirmOf 1) ∧ ((committing 2).isl 0).resolve = some (confirmOf 2) ∧
    ((committing 1).isl 0).versions = [version 1] ∧ ((committing 2).isl 0).versions = [version 2] := by
  and_intros <;> first | rfl | decide
/-- A confirm and a refute of 2 that end. -/
def endingOf (c : Bool) : Resolve := { op := 1, id := 2, confirm := c, committed := c }
def ending (c : Bool) : State := atFocus [0] (unitOp (if c then hConf else hRef) 2 0
  fun x => { x with resolve := some (endingOf c), versions := [version 1, version 2], mem := [(641, 3)] })
/-- The refute whose tagged writes have all been acknowledged 600 cycles ago. -/
def refuted1 : State := (ending false).modIsl 0 fun x => { x with resolve := some { endingOf false with ready := true } }
def refused1 : State :=
  ev [0, 1] { reqs := [(1, tagReq)], ops := [(1, tagOp)], cores := [(3, { groups := [(0, grp)] })] }
def orphGrp : Group := { grp with threads := [(0, { cp := 8192, orph := true }), (63, { cp := 8192 })], orphInfo := 0x0201 }
def orphaned : State := ev [0, 3, 0] { cores := [(3, { groups := [(0, orphGrp)], places := [(0, {})] })] }
theorem wit_EndsOfHypotheses :
    ((ending true).isl 0).resolve = some (endingOf true) ∧ ((ending false).isl 0).resolve = some (endingOf false) ∧
    (endingOf false).ready = false ∧ (refuted1.isl 0).resolve = some { endingOf false with ready := true } ∧
    (refuted1.isl 0).tagsQuiet 2 = true ∧ (refuted1.isl 0).subtree 2 = [2] ∧ refuted1.op? 0 1 = some (opOf hRef 2) ∧
    ((ending true).isl 0).resolveQ = [] ∧ (ending true).op? 0 1 = some (opOf hConf 2) ∧ (ending false).op? 0 1 = some (opOf hRef 2) ∧
    (((ending true).isl 0).hyp 2).holders = 0 ∧ ((ending false).isl 0).tagsQuiet 2 = true ∧ ((ending false).isl 0).subtree 2 = [2] ∧
    (refused1.isl 0).reqs = [(1, tagReq)] ∧ (refused1.isl 0).ops = [(tagReq.op, tagOp)] ∧ tagOp.subs = [tagSub] ∧
    tagSub.key = tagReq.sub ∧ tagSub.accs.length = 1 ∧ tagOp.agent = .group tagOp.core tagOp.slot ∧
    (refused1.isl 0).opGroup? tagOp = some grp ∧ grp.due = [] ∧
    (orphaned.isl 0).group? 3 0 = some orphGrp ∧ orphGrp.standing (orphaned.cyc 0) = some (BitVec.ofNat 64 (1 + 2 ^ 63), 8192) ∧
    orphGrp.tvec = 0 ∧ orphGrp.pend = [] ∧
    (∃ p ∈ orphGrp.threads, (BitVec.ofNat 64 (1 + 2 ^ 63)).getLsbD p.1 = true ∧ p.1 < 64 ∧ p.2.orph = true) := by
  and_intros <;> first | rfl | decide

-- synchronisation
/-- Core 3, place 0, in cluster launch 0, with barrier 15 and ring 63. -/
def withBar (b : Bar) (x : Island) : Island :=
  { x with cores := [(3, { groups := [(0, grp)], places := [(0, { bars := [(15, b)] })] })], cls := [(0, { b0 := b, ranks := [(3, 0)] })] }
def bar7 : Bar := { exp := 7, rem := 7 }
def bar1 : Bar := { exp := 7, rem := 1, phase := true, waiters := [8] }
def barOp (i : Instr) (a b : DWord) (q : Bar) : State := unitOp i a b (withBar q)
def bInit (k : BitVec 10) : Instr := .barInit c0 (.s 9) k (.imm 0)
theorem wit_BarriersAreSet :
    (∀ k ∈ [(0 : BitVec 10), 15], ∀ q ∈ [bar7, bar1], barAt ((barOp (bInit k) 4095 0 q).isl 0) 3 0 k.toNat = some q) ∧
    (barOp (bInit 0) 0 0 bar7).op? 0 1 = some (opOf (bInit 0) 0) ∧ (barOp (bInit 15) 1 0 bar7).op? 0 1 = some (opOf (bInit 15) 1) ∧
    (barOp (bInit 15) 4095 0 bar7).op? 0 1 = some (opOf (bInit 15) 4095) ∧
    (barOp (bInit 0) 4096 0 bar7).op? 0 1 = some (opOf (bInit 0) 4096) ∧
    (barOp (bInit 15) 1 0 bar1).op? 0 1 = some (opOf (bInit 15) 1) ∧
    (bar7.rem = bar7.exp ∧ bar7.waiters = []) ∧ ¬(bar1.rem = bar1.exp ∧ bar1.waiters = []) := by
  and_intros <;> first | rfl | decide
def bArv (d : Option Opnd) : Instr := .barArv c0 d 15 (.imm 0)
def bWait : Instr := .barWait c0 15 (.imm 0)
def bArw : Instr := .barArw c0 0 (.imm 0)
theorem wit_BarrierOperations :
    bar7.rem ≠ 1 ∧ bar1.rem = 1 ∧
    (∀ q ∈ [bar7, bar1], barAt ((barOp bWait 1 0 q).isl 0) 3 0 15 = some q ∧ barAt ((barOp bArw 1 0 q).isl 0) 3 0 0 = some q) ∧
    (barOp (bArv (some (.s 9))) 1 0 bar1).op? 0 1 = some (opOf (bArv (some (.s 9))) 1) ∧
    (barOp (bArv none) 0 0 bar1).op? 0 1 = some (opOf (bArv none) 0) ∧ (barOp bWait 0 1 bar1).op? 0 1 = some (opOf bWait 0 1) ∧
    (barOp bWait 0 0 bar1).op? 0 1 = some (opOf bWait) ∧ bar1.phase = (opOf bWait 0 1).b.getLsbD 0 ∧
    bar1.phase ≠ (opOf bWait).b.getLsbD 0 ∧ (barOp bArw 1 0 bar1).op? 0 1 = some (opOf bArw 1) ∧
    (barOp bArw 1 0 bar7).op? 0 1 = some (opOf bArw 1) ∧ (opOf bArw 1).performed = false := by
  and_intros <;> first | rfl | decide
def ringOp (i : Instr) (a : DWord) (r : Ring) : State :=
  unitOp i a 0 fun x => { x with cores := [(3, { groups := [(0, grp)], places := [(0, { rings := [(63, r)] })] })], ops := x.ops ++ [(2, opOf i)] }
def ringOf (a b : SlotSt) : Ring := { slots := 2, st := [a, b], ph := [false, true] }
def rInit : Instr := .ringInit c0 (.s 9) 63 (.imm 0)
def rRsv : Instr := .ringPushRsv c0 (.s 9) 63
def rTake : Instr := .ringPopTake c0 (.s 9) 63
def rCmt : Instr := .ringPushCmt c0 (.s 9) 63 (.imm 0)
def rFree : Instr := .ringPopFree c0 (.s 9) 63 (.imm 0)
theorem wit_RingOperations :
    (∀ i ∈ [({} : Ring), ringOf .empty .full, { ringOf .rsvd .full with takers := [2] }], ringAt ((ringOp rCmt 0 i).isl 0) 3 0 63 = some i) ∧
    (ringOp rInit 2 {}).op? 0 1 = some (opOf rInit 2) ∧ (ringOp rInit 16 (ringOf .empty .empty)).op? 0 1 = some (opOf rInit 16) ∧
    (ringOp rRsv 0 {}).op? 0 1 = some (opOf rRsv) ∧ (ringOp rTake 0 (ringOf .full .empty)).op? 0 1 = some (opOf rTake) ∧
    (ringOp rCmt 17 (ringOf .empty .rsvd)).op? 0 1 = some (opOf rCmt 17) ∧
    (ringOp rFree 17 (ringOf .empty .held)).op? 0 1 = some (opOf rFree 17) ∧ (opOf rFree 17).agent = .group (opOf rFree).core (opOf rFree).slot ∧
    (ringOf .empty .full).st.getD (ringOf .empty .full).put .full = .empty ∧ (ringOf .full .empty).st.getD 0 .empty = .full ∧
    (ringOf .rsvd .full).st.getD 0 .full ≠ .empty ∧ (ringOf .empty .full).slots ≠ 0 ∧ (ringOf .empty .full).reservers = [] ∧
    (fld (17 : DWord) 0 32 < 32 ∧ fld (17 : DWord) 0 32 % 16 < 2 ∧ (ringOf .empty .rsvd).st.getD 1 .empty = .rsvd ∧
      (ringOf .empty .rsvd).ph.getD 1 false = true ∧ fld (17 : DWord) 0 32 / 16 = 1) ∧
    (let r : Ring := { ringOf .rsvd .full with takers := [2] }; r.slots ≠ 0 ∧ r.reservers = [] ∧ r.takers = [2] ∧ r.get = 0 % 16 ∧
      r.st.getD 0 .empty = .rsvd ∧ r.ph.getD 0 false = false) ∧ (ringOp rCmt 0 { ringOf .rsvd .full with takers := [2] }).op? 0 2 = some (opOf rCmt) := by
  and_intros <;> first | rfl | decide
def nNtfy : Instr := .ntfy c0 false (.v 0) (.imm 0)
def nSet : Instr := .ntfySet c0 false (.v 0) (.imm 0)
def nWait : Instr := .nwait c0 false (.vp 0) (.v 2) (.imm 0)
def ntfyOp (i : Instr) (a b : DWord) (w : List NWaiter) : State :=
  unitOp i a b fun x => { x with nc := [(1023, 9)], nwaiters := w, ops := x.ops ++ [(2, opOf nWait)] }
theorem wit_NotifyCounters :
    (ntfyOp nNtfy 1023 5 [{ op := 2, ctr := 1023, thr := 14 }]).op? 0 1 = some (opOf nNtfy 1023 5) ∧
    (ntfyOp nSet 1023 5 [{ op := 2, ctr := 1023, thr := 14 }]).op? 0 1 = some (opOf nSet 1023 5) ∧
    (ntfyOp nSet 1023 5 [{ op := 2, ctr := 1023, thr := 14 }]).op? 0 2 = some (opOf nWait) ∧
    ((ntfyOp nSet 1023 5 [{ op := 2, ctr := 1023, thr := 14 }]).isl 0).nwaiters = [{ op := 2, ctr := 1023, thr := 14 }] ∧
    (ntfyOp nWait 1023 9 []).op? 0 1 = some (opOf nWait 1023 9) ∧ ((ntfyOp nWait 1023 9 []).isl 0).counter 1023 = 9 ∧
    (ntfyOp nWait 1023 10 []).op? 0 1 = some (opOf nWait 1023 10) ∧
    ((ntfyOp nWait 1023 10 (List.replicate 512 {})).isl 0).nwaiters.length = 512 := by
  and_intros <;> first | rfl | decide
def pInit : Instr := .pbarInit c0 (.s 9) 63 (.imm 0)
def pbarOp (i : Instr) (a b : DWord) (q : PBar) : State :=
  unitOp i a b fun x => routed { x with pbars := [(63, q)] }
def pbar1 : PBar := { mask := 1, loc := 2 }
def pbarLast : PBar := { mask := 1, loc := 2, arr := 1, phase := true }
theorem wit_PanelBarriersAreSet :
    (pbarOp pInit 0x20001 0 {}).op? 0 1 = some (opOf pInit 0x20001) ∧ (pbarOp pInit 0x10000001 0 {}).op? 0 1 = some (opOf pInit 0x10000001) ∧
    (pbarOp pInit 0x20001 0 pbarLast).op? 0 1 = some (opOf pInit 0x20001) ∧ 0 < 16 ∧
    ((pbarOp pInit 0x20001 0 {}).isl 0).pbar 63 = {} ∧ ((pbarOp pInit 0x20001 0 pbarLast).isl 0).pbar 63 = pbarLast := by
  and_intros <;> first | rfl | decide
def pArv : Instr := .pbarArv c0 (.s 9) 63
def pRoute (t : BitVec 10) : Instr := .route c0 (.s 9) t 63
def pWait : Instr := .pbarWait c0 63 (.imm 0)
def pArw : Instr := .pbarArw c0 (.s 9) 63
theorem wit_PanelBarrierRequests :
    (∀ i ∈ [pbar1, pbarLast, {}], ((pbarOp pArv 0 0 i).isl 0).pbar 63 = i) ∧
    (pbarOp pArv 0 0 pbar1).op? 0 1 = some (opOf pArv) ∧ (pbarOp (pRoute 1) 0 0 pbarLast).op? 0 1 = some (opOf (pRoute 1)) ∧
    ((pbarOp (pRoute 0) 0 0 pbarLast).isl 0).tableValid 0 = true ∧ ((pbarOp (pRoute 1) 0 0 pbarLast).isl 0).tableValid 1 = false ∧
    (pbarOp pWait 0 1 pbarLast).op? 0 1 = some (opOf pWait 0 1) ∧ pbarLast.phase = (opOf pWait 0 1).b.getLsbD 0 ∧
    (pbarOp pWait 0 0 pbarLast).op? 0 1 = some (opOf pWait) ∧ (pbarOp pArw 0 0 pbarLast).op? 0 1 = some (opOf pArw) ∧
    (opOf pArw).performed = false ∧ pbarLast.arr + 1 = pbarLast.loc ∧ pbar1.arr + 1 ≠ pbar1.loc := by
  and_intros <;> first | rfl | decide
/-- An island's arrival at the root; with another's before it; the root's release of one. -/
def rootArr (args : List Nat) (l : Tbl (List RootArr)) (x : Island) : State :=
  { ev args { x with pbars := [(63, { pbar1 with armed := some 1 })] } with pbRoot := l, islands :=
      [(0, { x with pbars := [(63, { pbar1 with armed := some 1 })] }), (1, {})], now := 500000 }
theorem wit_PanelBarrierPhases :
    tgetD (rootArr [15, 63, 2 ^ 15, 400000] [] {}).pbRoot 63 [] = [] ∧ 15 < 16 ∧
    tgetD (rootArr [1, 63, 3, 300000] [(63, [⟨0, 3, 400000⟩])] {}).pbRoot 63 [] = [⟨0, 3, 400000⟩] ∧ 3 = 2 ^ 0 + 2 ^ 1 ∧ 300000 ≤ 400000 ∧
    tget? (rootArr [63] [(63, [⟨0, 1, 400000⟩])] {}).pbRoot 63 = some [⟨0, 1, 400000⟩] ∧
    (((rootArr [63] [] {}).isl 0).pbar 63).waiters = [] ∧ (BitVec.ofNat 16 3 ≠ BitVec.ofNat 16 1) ∧
    ((rootArr [1, 63, 1, 300000] [] {}).islands.map (·.1)).Nodup ∧ 0 ∈ (rootArr [] [] {}).islands.map (·.1) ∧
    1 ∈ (rootArr [] [] {}).islands.map (·.1) ∧ (∀ n, n ≠ 0 → n ≠ 1 → (((rootArr [] [] {}).isl n).pbar 63).waiters = []) := by
  and_intros <;> first | rfl | decide | (intro n h0 h1; match n with | 0 => exact absurd rfl h0 | 1 => exact absurd rfl h1 | _ + 2 => rfl)

-- the copy engine
def wgOf (ctx : Option Ctx) : Wg := { placeWg ctx with scr := [(0, 1), (127, 2), (600, 3)] }
/-- A core with a workgroup and its group, in cluster launch 0. -/
def wgCore (w : Wg) (g : Group) (x : Island) : Island :=
  { x with cores := [(3, { groups := [(0, g)], places := [(0, w)] })], cls := [(0, { ranks := [(3, 0)] })] }
def cpyb1 : Instr := .cpyb c0 (.v 0) (.s 8)
/-- 128 bytes from scratchpad address 0 to 512; with FILL, a signal at word 300 and barrier 15 as well. -/
def bdSignal : BitVec 256 := bdGood ||| BitVec.ofNat 256 (15 * 2 ^ 192 + 7 * 2 ^ 196 + 300 * 2 ^ 203 + 77 * 2 ^ 224)
def copyOp (d : BitVec 256) (subs : List Sub) (moved : Nat) : Op :=
  { instr := cpyb1, agent := .group 3 0, subs := subs, bulk := { desc := d, moved := moved, dests := [0] }, flag := some 0, cp := 9000 }
def copying (args : List Nat) (o : Op) : State :=
  ev args (wgCore { wgOf none with copyq := [1] } grp { ops := [(1, o)] })
def engSub (data : List Byte) : Sub :=
  { key := 0, stage := .going, data := data, accs := [{ va := bdSrc bdGood, n := 128, loc := some (.scr 3 0 0) }] }
def someBytes : List Byte := List.replicate 128 7
def fullEngine : State := ev [0, 3] { cores := [(3, { engFlight := (List.range 64).map fun k => (1, k) })] }
/-- The first transfer of the copy is the oldest in flight. -/
def inFlight (s : State) : State := s.modIsl 0 fun x => x.modCore 3 fun k => { k with engFlight := [(1, 0)] }
theorem wit_LineTransfers :
    64 ≤ ((fullEngine.isl 0).core 3).engFlight.length ∧ NoCopyFaults (fullEngine.isl 0) 3 ∧
    NoCopyFaults ((copying [0, 3] (copyOp bdGood [] 0)).isl 0) 3 ∧
    (((inFlight (copying [0, 3, 1, 0, 1] (copyOp bdGood [engSub someBytes] 128))).isl 0).core 3).engFlight.head? = some (1, 0) ∧
    (inFlight (copying [0, 3, 1, 0, 1] (copyOp bdGood [engSub someBytes] 128))).op? 0 1 = some (copyOp bdGood [engSub someBytes] 128) ∧
    (copyOp bdGood [engSub someBytes] 128).refuted = false ∧ (engSub someBytes).key = 0 ∧
    (copying [0, 3] (copyOp bdGood [] 0)).op? 0 1 = some (copyOp bdGood [] 0) ∧ bdMcast bdGood = 0 ∧ bdLen bdGood = 128 ∧
    (((copying [0, 3] (copyOp bdGood [] 0)).isl 0).core 3).engFlight = [] ∧
    (((copying [0, 3] (copyOp bdGood [] 0)).isl 0).core 3).places = [(0, { wgOf none with copyq := [1] })] ∧
    inWindow (bdSrc bdGood) = true ∧ inWindow (bdDestVa bdGood 0) = true ∧
    windowLoc ((copying [0, 3] (copyOp bdGood [] 0)).isl 0) 3 0 (bdSrc bdGood) = some (.scr 3 0 0) ∧
    windowLoc ((copying [0, 3] (copyOp bdGood [] 0)).isl 0) 3 0 (bdDestVa bdGood 0) = some (.scr 3 0 512) ∧
    (copying [0, 3, 1, 0] (copyOp bdGood [engSub []] 128)).op? 0 1 = some (copyOp bdGood [engSub []] 128) ∧
    (copying [0, 3, 1, 0, 1] (copyOp bdGood [engSub someBytes] 128)).op? 0 1 = some (copyOp bdGood [engSub someBytes] 128) ∧
    (engSub []).stage = .going ∧ windowLoc ((copying [] (copyOp bdGood [] 0)).isl 0) 3 0 (vaPlus (bdDestVa bdGood 0) 0) = some (.scr 3 0 512) ∧
    ((copying [] (copyOp bdGood [] 0)).isl 0).wg? 3 0 = some { wgOf none with copyq := [1] } ∧ (wgOf none).emptyLines = [] ∧
    memWf (wgOf none).scr = true := by
  and_intros <;> first | rfl | decide | (unfold NoCopyFaults; decide)
def cpy1 : Instr := .cpy c0 .w4 true 0 0 .wg (.vp 4) (.vp 6)
def cpyOp : Op := { instr := cpy1, agent := .group 3 0, flag := some 0, cp := 9000, asid := 7 }
def flagged : Group := { grp with flags := [(0, 2), (1, 1)] }
def cpyEnds (args : List Nat) : State := ev args (wgCore { wgOf none with copyq := [1, 4] } flagged { ops := [(1, cpyOp)] })
def withB15 (args : List Nat) : State :=
  ev args (wgCore { wgOf none with bars := [(15, bar1)] } grp { ops := [(1, copyOp bdSignal [] 128)] })
theorem wit_EndsOfCopies :
    windowLoc ((copying [] (copyOp bdGood [] 128)).isl 0) 3 0 (bdDestVa bdGood 0) = some (.scr 3 0 512) ∧
    windowLoc ((withB15 []).isl 0) 3 0 (bdDestVa bdSignal 0) = some (.scr 3 0 512) ∧
    bdFill bdSignal = true ∧ bdSen bdSignal = true ∧ bdBen bdSignal = true ∧ bdBen bdGood = false ∧ (wgOf none).held = [] ∧
    (withB15 []).op? 0 1 = some (copyOp bdSignal [] 128) ∧ barAt ((withB15 []).isl 0) 3 0 15 = some bar1 ∧
    ((cpyEnds []).isl 0).ops = [(1, cpyOp)] ∧ ((cpyEnds []).isl 0).group? 3 0 = some flagged ∧ flagged.age = cpyOp.age ∧
    flagged.pend = [] ∧ cpyOp.flag = some 0 ∧ ((cpyEnds []).isl 0).wg? 3 0 = some { wgOf none with copyq := [1, 4] } ∧
    (0x11 < 256 ∧ 0x11 ≠ 0x10) := by
  and_intros <;> first | rfl | decide

-- the matrix unit
def mst (cp : Word) : Instr := .mstart c0 (.s 9) cp
def mstOp (cp : Word) : Op := { opOf (mst cp) (cp.setWidth 64) 5 with lanes := 1, asid := 0 }
def mstarting (x : Option Ctx) (r : Tbl REntry) (cp : Word) : State :=
  ev [0, 3, 0, 1] ((wgCore (wgOf x) { grp with s := [(9, 8), (10, 4)] } { ops := [(1, mstOp cp)] }).modCore 3 fun k => { k with rtab := r })
def entryAt (l m : Bool) : Tbl REntry := [(2, { handle := 5, tenant := tenantKey 5 0, loading := l, mst := m, count := 8 })]
def cpIn5 (o : Nat) : Word := BitVec.ofNat 32 (5 * 8192 + o)
theorem wit_ContextStarts :
    ((mstarting none [] (cpIn5 7)).isl 0).ops = [(1, mstOp (cpIn5 7))] ∧ grp.ended = false ∧ (mstOp (cpIn5 7)).lanes ≠ 0 ∧
    ((mstarting none [] (cpIn5 7)).isl 0).wg? 3 0 = some (wgOf none) ∧ (wgOf none).ctx = none ∧
    (wgOf (some { st := .blocked })).ctx = some { st := .blocked } ∧ cpHandle (cpIn5 7) ≠ 0 ∧ cpHandle 0x7FF = 0 ∧
    findEntry (((mstarting (some {}) (entryAt true true) (cpIn5 7)).isl 0).core 3) 5 (tenantKey 5 0) = (entryAt true true).head? ∧
    findEntry (((mstarting (some {}) (entryAt false true) (cpIn5 7)).isl 0).core 3) 5 (tenantKey 5 0) = (entryAt false true).head? ∧
    cpOff (cpIn5 7) < 8 ∧ 8 ≤ cpOff (cpIn5 8) := by
  and_intros <;> first | rfl | decide
theorem wit_IntegerBlockSums : [1, -7].length = [(2 : Int), 127].length := rfl
def mma1 : Instr := .mma .bf16 false false true 7 0 0 256
def mx1 : MxOp := { id := 6, instr := mma1 }
def mzero7 : MxOp := { id := 6, instr := .mzero 7 }
def mrd1 : MxOp := { id := 6, instr := .mrd .q8 .isl 0 0 }
/-- A core whose array has class, with a context and old contents in slot 7. -/
def matrixAt (args : List Nat) (c : Ctx) : State :=
  ev args { cores := [(3, { cls := 3, places := [(0, wgOf (some c))], acc := [(16384 * 7 + 5, 9)] })] }
def runCtx : Ctx := { st := .running }
theorem wit_MatrixUnit :
    (((matrixAt [0, 3] { runCtx with handed := [mx1] }).isl 0).core 3).places = [(0, wgOf (some { runCtx with handed := [mx1] }))] ∧
    (((matrixAt [0, 3] { runCtx with handed := [mx1] }).isl 0).core 3).mx.busy = none ∧
    (((matrixAt [0, 3] { runCtx with handed := [mx1] }).isl 0).core 3).cls = 3 ∧ (mmaArgs mx1.instr).isSome = true ∧
    mx1.begun = false ∧ runCtx.faults = [] ∧ ((matrixAt [0, 3] { runCtx with handed := [mx1] }).isl 0).cls = [] ∧ runCtx.waitOp = none ∧ runCtx.stopping = [] ∧ runCtx.st = .running ∧
    ((matrixAt [0, 3, 0, 6] { runCtx with draining := [mx1] }).isl 0).wg? 3 0 = some (wgOf (some { runCtx with draining := [mx1] })) ∧
    mzero7.turn = 0 ∧ (∀ a ∈ runCtx.handed ++ runCtx.current.toList ++ runCtx.draining, a.slot ≠ mzero7.slot) ∧
    (matrixAt [] runCtx).nextId ≠ 0 ∧ mzero7.instr = .mzero 7 ∧ (0x11 < 256 ∧ 0x11 ≠ 0x10 ∧ 0x11 ≠ 3) := by
  and_intros <;> first | rfl | decide

-- returns to the groups
def ld1 : Instr := .ld c0 .i8 plainExt (.v 5) (.vp 2) 0
def ldAcc : Acc := { lane := 63, n := 1, loc := some (.unc 64), res := some 0x80, done := true }
def opWith (i : Instr) (subs : List Sub) : Op := { instr := i, agent := .group 3 0, subs := subs, flag := some 0, asid := 7, cp := 9000 }
def only (args : List Nat) (o : Op) (g : Group) (x : Island) : State :=
  ev args { x with ops := [(1, o)], cores := [(3, { groups := [(0, g)], places := [(0, wgOf none)] })] }
def ldOp : Op := opWith ld1 [{ key := 4, stage := .performed, accs := [ldAcc] }]
def stOp : Op := opWith (.st c0 .b32 plainExt (.v 0) (.vp 2) 0) [{ key := 4, stage := .performed, counted := true, accs := [{ done := true }] }]
def fenceOf (k : MOrd) : Instr := .fence c0 .isl k
def relGrp (n : Nat) : Group := { flagged with releasing := [1], unacked := n }
def relOp (k : MOrd) : Op := { opWith (fenceOf k) [] with released := false }
def acqGrp : Group := { flagged with acquiring := [1, 9] }
def lLine : L1Line := { st := .l, data := 77, dirty := 1 }
def releasing (k : MOrd) (n : Nat) (l : Tbl L1Line) : State :=
  (only [0, 3, 1] (relOp k) (relGrp n) {}).modIsl 0 fun x => x.modCore 3 fun c => { c with l1 := l }
theorem wit_ReturnsToGroups :
    OnlyOp (only [0, 3, 1, 4] ldOp flagged {}) 0 1 ldOp 0 flagged ∧ plainExt.ord = .none ∧
    OnlyOp (only [0, 3, 1, 4] ldOp { flagged with ended := true } {}) 0 1 ldOp 0 { flagged with ended := true } ∧
    OnlyOp (only [0, 3, 1, 4, 9] stOp { flagged with unacked := 1 } {}) 0 1 stOp 0 { flagged with unacked := 1 } ∧ stOp.pushes = [] ∧
    ((releasing .rel 1 []).isl 0).ops = [(1, relOp .rel)] ∧ ((releasing .rel 1 []).isl 0).group? 3 0 = some (relGrp 1) ∧
    (relGrp 0).unacked = 0 ∧ (relGrp 1).unacked ≠ 0 ∧ (relOp .rel).released = false ∧ (relGrp 0).releasing = [1] ∧ (relOp .rel).after = [] ∧
    (∀ p ∈ (((releasing .rel 0 [(5, mLine)]).isl 0).core 3).l1, p.2.st ≠ .l) ∧ ((releasing .rel 0 [(5, mLine)]).isl 0).reqs = [] ∧
    (relOp .rel).pushes = [] ∧ ((releasing .ar 0 [(5, lLine)]).isl 0).reqs = [] ∧ (opWith (fenceOf .acq) []).after = [] ∧
    (((releasing .ar 0 [(5, lLine)]).isl 0).core 3).l1 = [(5, lLine)] ∧ lLine.st = .l ∧ (relOp .ar).pushed = false ∧
    OnlyOp (only [0, 3, 1] (opWith (fenceOf .acq) []) acqGrp {}) 0 1 (opWith (fenceOf .acq) []) 0 acqGrp ∧
    (opWith (fenceOf .acq) []).drains = [] := by
  and_intros <;> first | rfl | decide | exact ⟨rfl, rfl, rfl, rfl, rfl, rfl⟩
def sleeper : Group := { grp with threads := [(0, { cp := 8192, stat := .asleep 0 }), (63, { cp := 8192, stat := .asleep 1 })] }
def sleeping1 : State := ev [0, 3, 0] (wgCore (wgOf none) sleeper {})
def teamAt (a b : Word) : State := ev [0, 3] (wgCore (wgOf none) grp {} |>.modCore 3 fun k => { k with
  groups := [(0, { grp with retired := a }), (4, { grp with retired := b, gidx := 1 })], l1 := [(5, { mLine with prot := true })] })
def endedGrp (n : Nat) : Group := { ended := true, unacked := n, gidx := 1, v := [(0, 7)], s := [(3, 9)], flags := [(0, 0)] }
def leaving (n : Nat) : State := ev [0, 3, 0] (wgCore (wgOf none) (endedGrp n) {})
theorem wit_GroupsOverTime :
    (sleeping1.isl 0).group? 3 0 = some sleeper ∧ sleeping1.cyc 0 = 0 ∧
    (((teamAt 7 7).isl 0).core 3).places = [(0, wgOf none)] ∧ hdrUoff (wgOf none).hdr = false ∧ (0 < 4) ∧
    (((teamAt 7 7).isl 0).core 3).groups = [(0, { grp with retired := 7 }), (4, { grp with retired := 7, gidx := 1 })] ∧
    (((leaving 1).isl 0).core 3).groups = [(0, endedGrp 1)] ∧ (endedGrp 1).unacked ≠ 0 ∧ (endedGrp 0).releasing = [] ∧
    (endedGrp 0).pend = [] ∧ (endedGrp 0).due = [] ∧ ((leaving 0).isl 0).wg? 3 0 = some (wgOf none) ∧ (∀ p ∈ (endedGrp 0).flags, p.2 = 0) := by
  and_intros <;> first | rfl | decide

-- overlays and translation
/-- Context 7, with its page tables: the first 4 TiB of virtual addresses lie at the first 4 TiB of physical ones, with every
right; its overlay directory is at 30000 (hexadecimal), with entry 5 of a count `n` at address 40000; `hi` holds the count's higher
byte, where it has one. -/
def ctx7 : BitVec 512 := BitVec.ofNat 512 (1 + 128 + 0x30000 * 2 ^ 64 + 16 * 2 ^ 136)
def tables (n : Byte) (hi : Memory := []) : Memory :=
  [(128, 1), (130, 1), (65536, 1), (65538, 2), (131072, 0x1F), (0x30052, 4), (0x3005C, n)] ++ hi ++ [(0x40000, 0x11), (0x4000C, 0x22)]
def mapped (n : Byte) (x : Island) : Island := { x with ctxs := [(7, ctx7)], mem := tables n }
def ovl5 : Instr := .ovlLd c0 (.s 4) (.imm 0) (.imm 5)
def ovOp (va : Nat) : Op := { opWith ovl5 [] with a := 5, b := 2, lanes := 1, bulk := { desc := BitVec.ofNat 256 (va + 2 * 2 ^ 96) } }
def loadEntry : REntry := { loading := true, handle := 5, first := 31 }
def loadingAt (args : List Nat) (n hi : Byte) (va : Nat) : State :=
  (only args (ovOp va) flagged { mapped n {} with mem := tables n [(0x3005D, hi)] }).modIsl 0 fun x =>
    x.modCore 3 fun k => { k with rtab := [(2, loadEntry)] }
def ovAddr1 : Op := { opWith (.ovlAddr c0 (.s 10) (.v 2)) [] with a := BitVec.ofNat 64 (5 * 8192 + 1), lanes := 1 }
theorem wit_OverlayArrivals :
    OnlyOp (loadingAt [0, 3, 1] 2 0 0) 0 1 (ovOp 0) 0 flagged ∧ (((loadingAt [0, 3, 1] 2 0 0).isl 0).core 3).rtab = [(2, loadEntry)] ∧
    2 = fld (ovOp 0).b 0 32 ∧ (((loadingAt [0, 3, 1] 2 0 0).isl 0).core 3).groups = [(0, flagged)] ∧
    (∀ th ∈ flagged.threads, th.2.stat = .ready) ∧ (ovOp 0).lanes ≠ 0 ∧ flagged.ended = false ∧ (ovOp 0).performed = false ∧
    loadEntry.first = 31 ∧
    OnlyOp (only [0, 3, 1] ovAddr1 flagged (mapped 2 {})) 0 1 ovAddr1 0 flagged ∧ ovAddr1.lanes ≠ 0 := by
  and_intros <;> first | rfl | decide | exact ⟨rfl, rfl, rfl, rfl, rfl, rfl⟩
/-- The directory entry that the load reads. -/
def dirOf (s : State) (o : Op) : Option Nat := (s.readDir 0 o.core o.eater o.asid (o.a.setWidth 19)).1
theorem wit_OverlayArrivals_values :
    ((dirOf (loadingAt [0, 3, 1] 2 0 0) (ovOp 0)).map ovCount) = some 2 ∧ dirOf (loadingAt [0, 3, 1] 0 0 0) (ovOp 0) = none ∧
    ((dirOf (loadingAt [0, 3, 1] 0 33 0) (ovOp 0)).map ovCount) = some 8448 ∧
    ((dirOf (loadingAt [0, 3, 1] 0 8 0) (ovOp 0)).map ovCount) = some 2048 ∧
    inWindow (ovAddr (ovOp (0xFE * 2 ^ 64)).bulk.desc.toNat) = true ∧ inWindow (ovAddr (ovOp 0x40000).bulk.desc.toNat) = false ∧
    (((loadingAt [0, 3, 1] 2 0 0x40000).readVa 0 3 noPlace 7 true .image 0 0x40000 24).1).fault = none ∧
    (((loadingAt [0, 3, 1] 2 0 (2 ^ 50)).readVa 0 3 noPlace 7 true .image 0 (2 ^ 50) 24).1).fault.isSome = true := by
  decide +kernel
def walkAcc : Acc := { va := 0x40000, n := 1, lane := 63 }
def walkOp : Op := opWith ld1 [{ key := 4, stage := .walking, accs := [walkAcc] }]
def walk1 (b : Bool) : Walk := { asid := 7, va := 0x40000, waiters := [(1, 4)], stale := b }
def walking (b : Bool) (m : Memory) : State :=
  only [0, 2] walkOp flagged { mapped 2 {} with mem := m, walks := [(2, walk1 b)] }
/-- A launch with SNAP of island 0 whose walk finds, five levels down, the page at 90000 (hexadecimal), of an older interval; the
pool has `n` pages at 100000. -/
def snapLaunch1 : Launch := { started := true, asid := 7, packet := BitVec.ofNat 1024 (2 ^ 24 + 2 ^ 32), windows := [] }
def deepTables : Memory :=
  [(128, 1), (130, 1), (65536, 1), (65538, 2), (131072, 1), (131074, 5), (0x50000, 1), (0x50002, 6), (0x60020, 0x1F), (0x60022, 9),
   (0x90005, 77), (0x9FFFF, 78), (0x100003, 1)]
def snapping (n : Nat) (m : Memory) : State :=
  { ev [0, 2] { walks := [(2, walk1 false)], ctxs := [(7, ctx7 ||| BitVec.ofNat 512 (3 * 2 ^ 48))], mem := m,
                sys := { snpool := BitVec.ofNat 64 (0x100000 + n * 2 ^ 48) } } with launches := [(9, snapLaunch1)] }
def waitaOp : Op := opWith (.waita c0 .b32 true 0 .near (.v 0) (.vp 2) 0) [{ key := 4, stage := .waiting, accs := [{ loc := some (.scr 3 0 64) }] }]
def monitoring (row : Nat) : State :=
  (only [0, 3, 1] waitaOp flagged {}).modIsl 0 fun x => x.modCore 3 fun k => { k with monitors := [{ op := 1, loc := .scr 3 0 64 }, { op := row }] }
theorem wit_TranslationEvents :
    ¬((Want.read = .write ∧ Nat.testBit 0x1F 2 = false) ∨ (Want.read = .image ∧ Nat.testBit 0x1F 3 = false) ∨
      (false = false ∧ Nat.testBit 0x1F 4 = false)) ∧ (Want.write = .write ∧ Nat.testBit 0x1B 2 = false) ∧
    0x1F / 2 ^ 8 % 4 < 2 ∧ 0x1F / 2 ^ 16 % 2 ^ 32 * 65536 + 0 < Config.hbmBytes ∧ Config.hbmBytes ≤ (2 ^ 48 - 1) / 2 ^ 16 % 2 ^ 32 * 65536 ∧
    ((walking false (tables 2)).isl 0).walks = [(2, walk1 false)] ∧ ((walking true []).isl 0).walkQueue = [] ∧
    (walk1 false).waiters = [(1, 4)] ∧ OnlyOp (walking false (tables 2)) 0 1 walkOp 0 flagged ∧ walkAcc.va = (walk1 false).va ∧
    walkAcc.fault = none ∧ walkAcc.loc = none ∧ walkOp.asid = 7 ∧
    ((walking false []).isl 0).faults = [] ∧ (walking false []).launches = [] ∧
    tget? ((walking false []).isl 0).ctxs 7 = some ctx7 ∧ (monitoring 2).op? 0 1 = some waitaOp := by
  and_intros <;> first | rfl | decide | exact ⟨rfl, rfl, rfl, rfl, rfl, rfl⟩
theorem wit_TranslationEvents_values :
    (((walking false (tables 2)).walkTouch 0 7 0x40000).walk 0 7 0x40000).1 = .leaf 0x1F 2 131072 ∧
    (((walking false []).walkTouch 0 7 0x40000).walk 0 7 0x40000).1 = .bad ∧
    (∀ n ∈ [0, 1], ((snapping n deepTables).walk 0 7 0x40000).1 = .leaf 0x9001F 0 0x60020 ∧
      (snapping n deepTables).needsSnap 0 7 0x40000 0x9001F 0 = some 9 ∧ tget? (snapping n deepTables).launches 9 = some snapLaunch1 ∧
      fld ((snapping n deepTables).isl 0).sys.snpool 48 16 = n ∧ fld ((snapping n deepTables).isl 0).sys.snpool 0 48 = 0x100000) ∧
    ((snapping 1 (tables 2)).walk 0 7 0x40000).1 = .leaf 0x1F 2 131072 ∧ (snapping 1 (tables 2)).needsSnap 0 7 0x40000 0x1F 2 = some 9 ∧
    ((snapping 1 deepTables).isl 0).pageLogs = [] ∧ 0x9001F / 2 ^ 8 % 4 < 2 ∧ 0x9001F / 2 ^ 16 % 2 ^ 32 * 65536 < Config.hbmBytes ∧
    0x60020 + 8 ≤ 0x100000 ∧ memWf ((snapping 1 deepTables).isl 0).mem = true ∧ ((snapping 1 deepTables).isl 0).homes = [] := by
  decide +kernel

-- the fabric
def evPkt (p : Pkt) (x : Island) : State := { ev [0, 1] x with pkts := [(1, p)], nextId := 5 }
def pktOf (k : PktKind) : Pkt :=
  { kind := k, src := 1, dst := 0, core := 3, op := 6, links := [0, 20], va := 0x40010, asid := 7, n := 4, key := 2, x := 1023, y := 9,
    data := [1, 2, 3, 4], nctr := some 1023 }
/-- The OED's translation of the page, cached; uncached. -/
def oedOf (pte : DWord) : Tlbe := { asid := 7, va := 0, level := 2, pte := pte }
def target (k : PktKind) (pte : DWord) (ok : Bool) : State :=
  evPkt (pktOf k) { mapped 2 {} with oedTlb := [oedOf pte], ctxs := [(7, if ok then ctx7 else 0)] }
def atomPkt (op : RatomOp) : Pkt :=
  { pktOf .atom with instr := .ratom c0 op false 0 .none (.v 10) (.vp 2) (.s 5), x := 5, y := 77 }
def atomAt (op : RatomOp) (q : List RSeq) : State := evPkt (atomPkt op) { mapped 2 {} with oedTlb := [oedOf 0x11F], rseq := q }
def readPkt : Pkt := { pktOf .read with key := 0, va := 0x40000, n := 16, src := 0 }
def getOp1 : Op := { opWith (.get c0 (.v 0) (.s 8)) [] with bulk := { desc := BitVec.ofNat 256 (16 * 2 ^ 160) } }
def readAt : State := evPkt readPkt { mapped 2 {} with oedTlb := [oedOf 0x1F], ops := [(6, getOp1)] }
def backAt (p : Pkt) (o : Op) (x : Island) : State :=
  { only [0, 1] o flagged x with pkts := [(1, p)], islands := [(0, { x with ops := [(6, o)], cores :=
      [(3, { groups := [(0, flagged)], places := [(0, { wgOf none with fabq := [6, 9] })] })] })] }
def back (k : PktKind) : Pkt := { pktOf k with src := 0, dst := 1, key := 0 }
def rntfy1 : Op := opWith (.rntfy c0 (.imm 1) (.imm 3) (.imm 1)) []
def put1 (moved : Nat) : Op := { opWith (.put c0 (.v 0) (.s 8)) [] with bulk := { desc := pgGood, moved := moved } }
def ratom1 : Op :=
  { opWith (.ratom c0 .add false 0 .none (.v 10) (.vp 2) (.s 5)) [{ key := 1, accs := [{ lane := 0 }] }] with injected := true }
/-- A `GET` of 8 bytes to scratchpad address 126, with FILL and counter 1,023. -/
def pgGet : BitVec 256 := BitVec.ofNat 256 (126 + 0xFE * 2 ^ 64 + 2 ^ 80 + 3 * 2 ^ 87 + 8 * 2 ^ 160 + 1023 * 2 ^ 192)
def get1 (got : Nat) : Op := { opWith (.get c0 (.v 0) (.s 8)) [] with bulk := { desc := pgGet, got := got } }
/-- The sender's queue, with an operation 3 that may stand before the packet's. -/
def sender (q : List Nat) (a : Op) (s : State) : State :=
  { s with islands := tput s.islands 1 { ops := [(3, a), (6, { instr := .nop c0 })], cores := [(3, { places := [(0, { fabq := q })] })] } }
/-- Operation 3 has not been injected; it stands with a fault. -/
def unsent : Op := { instr := .rntfy c0 (.imm 1) (.imm 3) (.imm 1) }
def stopped : Op := { instr := .put c0 (.v 0) (.s 8), subs := [{ accs := [{ fault := some 0x11 }] }] }
theorem wit_PacketsAtTheirTarget :
    ((sender [3, 6] unsent (target .write 0x11F true)).queueBefore 1 3 0 6 = [3] ∧ unsent.sent = false ∧ stopped.faulted = true ∧
      (sender [3, 6] unsent (target .write 0x11F true)).op? 1 3 = some unsent ∧
      (sender [3, 6] stopped (target .write 0x11F true)).op? 1 3 = some stopped) ∧
    (sender [6] unsent (target .write 0x11F true)).queueBefore 1 3 0 6 = [] ∧ (target .notify 0x1F true).queueBefore 1 3 0 6 = [] ∧
    ((sender [6] unsent (target .write 0x11F true)).op? 1 6).map (·.attempt) = some (pktOf .write).attempt ∧
    (pktOf .write).code = 0 ∧ (backAt (back .read) (get1 4) {}).queueBefore 0 3 0 6 = [] ∧
    (backAt { back .read with code := 0x21 } (get1 4) {}).op? 0 6 = some (get1 4) ∧
    (target .write 0x1F false).pkts = [(1, pktOf .write)] ∧ (pktOf .write).route = [] ∧ (pktOf .write).done = false ∧
    tget? ((target .write 0x1F true).isl 0).ctxs 7 = some ctx7 ∧ tget? ((target .write 0x1F false).isl 0).ctxs 7 = some 0 ∧
    cxV ctx7 = true ∧ cxV 0 = false ∧ ((target .notify 0x1F true).isl 0).rseq = [] ∧
    ((atomAt .add [⟨1, 6, 2, 99⟩]).isl 0).rseq = [⟨1, 6, 2, 99⟩] ∧ ((target .write 0x1F true).isl 0).oedTlb = [oedOf 0x1F] ∧
    (oedOf 0x1F).covers 7 0x40010 = true ∧ (target .write 0x1F true).launches = [] ∧
    memWf ((target .write 0x1F true).isl 0).mem = true ∧
    MemoryAt ((target .write 0x11F true).isl 0) (.unc 0x40010) 4 0x40010 ∧ readAt.op? 0 6 = some getOp1 ∧
    pgLen getOp1.bulk.desc = 16 ∧ pieceLen getOp1.bulk.desc 0 = 16 ∧ (0 < 16) ∧ readAt.nextId ≠ 1 := by
  and_intros <;> first | rfl | decide | exact .inl rfl
def grantIs (r : Except Nat Loc) (code : Nat) (l : Option Loc) : Bool :=
  match r with
  | .error e => e == code && l.isNone
  | .ok x => l == some x
theorem wit_PacketsAtTheirTarget_values :
    grantIs (leafGrant 0x1B 2 false .write 0x40010) 0x11 none = true ∧
    grantIs (leafGrant 0x1F 2 false .write 0x40010) 0 (some (.line 2048 16)) = true ∧
    grantIs (leafGrant 0x11F 2 false .write 0x40010) 0 (some (.unc 0x40010)) = true := by decide +kernel
theorem wit_FabricReturns :
    (backAt (back .notify) rntfy1 {}).pkts = [(1, back .notify)] ∧ (backAt (back .notify) rntfy1 {}).op? 0 6 = some rntfy1 ∧
    (0 ≠ (back .notify).attempt + 1) ∧ (back .notify).code = 0 ∧ OnlyOp (backAt (back .notify) rntfy1 {}) 0 6 rntfy1 0 flagged ∧
    ((backAt (back .notify) rntfy1 {}).isl 0).wg? 3 0 = some { wgOf none with fabq := [6, 9] } ∧
    OnlyOp (backAt (back .write) (put1 128) {}) 0 6 (put1 128) 0 flagged ∧ pgLen pgGood = 128 ∧
    OnlyOp (backAt (back .atom) ratom1 {}) 0 6 ratom1 0 flagged ∧ ratom1.injected = true ∧
    OnlyOp (backAt (back .read) (get1 4) {}) 0 6 (get1 4) 0 flagged ∧ pgLen pgGet = 8 ∧ pgFill pgGet = true ∧
    pgNctr pgGet = 1023 ∧ inWindow (vaPlus (pgLva pgGet) 0) = true ∧ memWf (wgOf none).scr = true ∧ (wgOf none).held = [] ∧
    windowLoc ((backAt (back .read) (get1 4) {}).isl 0) 3 0 (vaPlus (pgLva pgGet) 0) = some (.scr 3 0 126) := by
  and_intros <;> first | rfl | decide | exact ⟨rfl, rfl, rfl, rfl, rfl, rfl⟩

def fab (args : List Nat) (o : Op) (q : List Nat) (f : Island → Island) : State :=
  ev args (f (routed { running := true, ops := [(1, o)], cores := [(3, { groups := [(0, flagged)], places := [(0, { wgOf none with fabq := q })] })] }))
def ratomLane : Op :=
  { opWith (.ratom c0 .add false 0 .none (.v 10) (.vp 2) (.s 5)) [{ key := 1, accs := [{ lane := 63, va := 0x40010, x := 5, y := 6 }] }] with lanes := 1#64 <<< 63 }
def rntfyTo (t : Nat) : Op := { opWith (.rntfy c0 (.imm 1) (.imm 3) (.imm 1)) [] with a := BitVec.ofNat 64 (t + 1023 * 16), b := 1, lanes := 1 }
def stuck1 : Coll := { id := 3, stuck := [0] }
theorem wit_RemoteFaults :
    (fab [] (put1 0) [1] id).op? 0 1 = some (put1 0) ∧ (put1 0).agent = .group (put1 0).core 0 ∧
    ((fab [] (put1 0) [1] id).isl 0).group? 3 0 = some flagged ∧ flagged.age = (put1 0).age ∧
    (fab [] ratomLane [1] id).op? 0 1 = some ratomLane ∧ (63 < 64) ∧ (1 < 16) ∧ (fab [] (rntfyTo 1) [1] id).op? 0 1 = some (rntfyTo 1) ∧
    tget? { fab [] (put1 0) [1] id with colls := [(7, stuck1)] }.colls 7 = some stuck1 ∧ 0 ∈ stuck1.stuck := by
  and_intros <;> first | rfl | decide
/-- A `PUT` of 128 bytes from scratchpad address 0. -/
def pgPut : BitVec 256 := BitVec.ofNat 256 (0xFE * 2 ^ 64 + 2 ^ 80 + 128 * 2 ^ 160)
def putting : Op := { put1 0 with injected := true, bulk := { desc := pgPut } }
theorem wit_Injection :
    (put1 0).faulted = false ∧ (rntfyTo 1).faulted = false ∧ (rntfyTo 1).sent = false ∧ (2 ≠ 1) ∧
    ((fab [] putting [1] id).isl 0).routeTo (pgIsland pgPut) ≠ none ∧ putting.bulk.moved < pgLen pgPut ∧ putting.faulted = false ∧
    (fab [] putting [1] id).op? 0 1 = some putting ∧ inWindow (vaPlus (pgLva pgPut) 0) = true ∧
    windowLoc ((fab [] putting [1] id).isl 0) 3 0 (vaPlus (pgLva pgPut) 0) = some (.scr 3 0 0) ∧ (wgOf none).emptyLines = [] ∧
    (put1 0).injected = false ∧ ((fab [] (put1 0) [2, 1] id).isl 0).wg? 3 0 = some { wgOf none with fabq := [2, 1] } ∧
    ((fab [] (put1 0) [2, 1] fun x => { x with ops := x.ops ++ [(2, rntfyTo 1)] }).op? 0 2 = some (rntfyTo 1)) ∧
    OnlyOp (fab [] (rntfyTo 2) [1] id) 0 1 (rntfyTo 2) 0 flagged ∧ ((fab [] (rntfyTo 2) [1] id).isl 0).routeTo 2 = none ∧
    fld (rntfyTo 2).a 0 4 = 2 ∧ (∀ l ∈ lanesOf (rntfyTo 2).lanes, (tget? flagged.threads l).isSome = true) ∧
    ((fab [] (rntfyTo 1) [1] id).isl 0).running = true ∧ ((fab [] (rntfyTo 1) [1] id).isl 0).routeTo 1 = some [4] ∧
    ((fab [] (get1 0) [1] id).isl 0).routeTo (pgIsland pgGet) = some [4] ∧ (put1 0).bulk.moved < pgLen pgGood ∧
    inWindow (vaPlus (pgLva pgGet) 0) = true ∧ windowLoc ((fab [] (get1 0) [1] id).isl 0) 3 0 (vaPlus (pgLva pgGet) 0) = some (.scr 3 0 126) := by
  and_intros <;> first | rfl | decide | exact ⟨rfl, rfl, rfl, rfl, rfl, rfl⟩
def linked (x : Island) : Island := { x with topo := { sites := [(0, { st := 1, links := 8 }), (1, { st := 1, links := 4 })] } }
def roadPkt : Pkt := { pktOf .write with src := 0, dst := 1, route := [4], links := [] }
def road (x : Island) : State := { ev [0, 1] (linked x) with pkts := [(1, roadPkt)] }
theorem wit_PacketsOnTheirWay :
    tget? (road {}).pkts 1 = some roadPkt ∧ roadPkt.done = false ∧ roadPkt.route = [4] ∧ ((road {}).isl 0).portTrained 0 4 = true ∧
    4 ∉ ((road {}).isl 0).closedPorts ∧ (road {}).farEnd 0 4 = some (1, 3) ∧ 4 ∈ ((road { closedPorts := [4] }).isl 0).closedPorts := by
  and_intros <;> first | rfl | decide
/-- A broadcast of 4 words from island 1 to islands 0 and 1; a sum of integers, and one of numbers, with root 0. -/
def clCast : BitVec 256 := BitVec.ofNat 256 (3 * 2 ^ 160 + 2 ^ 176 + 2 * 2 ^ 180 + 2 ^ 184 + 4 * 2 ^ 192)
def clSum (type : Nat) : BitVec 256 :=
  BitVec.ofNat 256 (0xFE * 2 ^ 144 + 124 * 2 ^ 64 + 9 * 2 ^ 152 + 3 * 2 ^ 160 + type * 2 ^ 184 + 2 * 2 ^ 192 + 2 ^ 216 + 1023 * 2 ^ 224)
def collOp (d : BitVec 256) : Op := { opWith (.coll c0 (.s 30) (.s 8)) [] with bulk := { desc := d }, lanes := 1 }
def memberOf (op type : Nat) (w : Word) (v : Word) : Member := { op := op, desc := clSum type, words := [w, v], ready := true }
def coll2 (type : Nat) (vals : Tbl (List Word)) (up : List Nat) (st : Option Nat) : Coll :=
  { id := 9, accepted := true, parents := [(1, 3)], values := vals, up := up, status := st,
    members := [(0, memberOf 1 type 0x3F800000 7), (1, memberOf 1 type 0x40000000 5)] }
def collAt (args : List Nat) (c : Coll) (f : Island → Island) : State :=
  { fab args (collOp (clSum 0)) [1] (fun x => f (linked x)) with
    colls := [(7, c)],
    islands := [(0, f (linked ((fab [] (collOp (clSum 0)) [1] id).isl 0))), (1, f (linked { running := true }))] }
def coll1 (st : Nat) : Coll :=
  { id := 9, accepted := true, values := [(0, [1, 2])], status := some st, members := [(0, { op := 1, desc := clSum 1, ready := true })] }
theorem wit_Collectives :
    (collOp clCast).faulted = false ∧ (collOp clCast).injected = false ∧ flagged.ended = false ∧
    (fab [] (collOp clCast) [1] id).op? 0 1 = some (collOp clCast) ∧ clOp clCast = 2 ∧ 0 ≠ clRoot clCast ∧ 0 ∈ clMembers clCast ∧
    clRoot clCast ∈ clMembers clCast ∧ (∀ t ∈ clMembers clCast, ((fab [] (collOp clCast) [1] id).isl 0).routeTo t ≠ none) ∧
    (∀ y ∈ [0, 1], (collAt [] (coll2 y [(1, [3, 4])] [1] none) id).collReady (coll2 y [(1, [3, 4])] [1] none) 0 = true ∧
      (collAt [] (coll2 y [] [] none) id).collReady (coll2 y [] [] none) 1 = true ∧ clOp (coll2 y [] [] none).desc = 0 ∧
      clType (coll2 y [] [] none).desc = y ∧ clRoot (coll2 y [] [] none).desc = 0) ∧
    (collAt [] (coll2 0 [(1, [3, 4])] [1] none) id).collChildren (coll2 0 [(1, [3, 4])] [1] none) 0 = [1] ∧
    tget? (coll2 0 [] [] none).parents 1 = some 3 ∧ (collAt [] (coll2 0 [] [] none) id).farEnd 1 3 = some (0, 4) ∧
    ((collAt [] (coll2 0 [] [] none) id).isl 1).portTrained 1 3 = true ∧
    ((collAt [] (coll2 0 [] [] none) fun x => { x with closedPorts := [3] }).isl 1).closedPorts = [3] ∧
    OnlyOp (fab [] (collOp (clSum 1)) [1] id) 0 1 (collOp (clSum 1)) 0 flagged ∧ (collOp (clSum 1)).lanes ≠ 0 ∧
    (coll1 0).receives 0 = true ∧ (fab [] (collOp (clSum 1)) [1] id).collDownClosed (coll1 0) 16 0 = none ∧
    inWindow (vaPlus (clDst (clSum 1)) 0) = true ∧
    windowLoc ((fab [] (collOp (clSum 1)) [1] id).isl 0) 3 0 (vaPlus (clDst (clSum 1)) 0) = some (.scr 3 0 124) := by
  and_intros <;> first | rfl | decide | exact ⟨rfl, rfl, rfl, rfl, rfl, rfl⟩
/-- Islands 0 and 1 present and joined, the Bellwether in island 0. -/
def pair (args : List Nat) (f g : Island → Island) : State :=
  { ev args {} with islands := [(0, f (linked { running := true, dark := false })), (1, g (linked { running := true, dark := false }))], bell := some 0, nextId := 50 }
def changing (stage action : Nat) (x : Island) : Island :=
  { x with portChgs := [{ port := 3, action := action, tag := 9, stage := stage }], closedPorts := [3] }
theorem wit_PortChanges :
    (pair [] id id).siteState 1 = 1 ∧ (∀ c ∈ ((pair [] id id).isl 1).portChgs, c.port ≠ 14) ∧
    (∃ c ∈ ((pair [] id (changing 0 1)).isl 1).portChgs, c.port = 3) ∧
    ((pair [] id (changing 4 0)).isl 1).portChgs = [{ port := 3, action := 0, tag := 9, stage := 4 }] ∧
    ((pair [] id (changing 4 0)).isl 1).fstat.qrdy = false ∧ (pair [] id id).portDrained 1 3 = true ∧
    { pair [] id id with pkts := [(1, { roadPkt with links := [16 + 3] })] }.portDrained 1 3 = false ∧ (pair [] id id).bell = some 0 ∧
    (pair [] id id).topoQuiet = true ∧ 1 ≠ 0 / 2 := by
  and_intros <;> first | rfl | decide
def waiting1 : Launch := { num := 1, packet := BitVec.ofNat 1024 0, island := 1 }
theorem wit_RemovedIslands :
    (pair [] id id).bell = some 0 ∧ (pair [] id id).siteState 1 = 1 ∧ (pair [] id id).siteState 0 = 1 ∧ (pair [] id id).topoQuiet = true ∧
    (∀ k, ∀ p ∈ (pair [] id id).agenda, flyingArrival k p.2 = none) ∧
    (∀ p ∈ (pair [] id id).islands, p.2.ops = [] ∧ p.2.pbars = []) ∧ (pair [] id id).colls = [] ∧ (pair [] id id).pbRoot = [] ∧
    ((pair [] id id).isl 0).fstat.qrdy = false ∧ waiting1.onIsland 1 = true ∧ waiting1.fail = 0 ∧ waiting1.started = false ∧
    waiting1.rolling = false := by
  and_intros <;> first | rfl | decide | (intro k p h; cases List.mem_singleton.mp h; rfl)

-- saving, faults, rollback and audits
def ctxsv1 : Instr := .ctxsv c0 (.v 0) (.s 4)
/-- A save area of 1 MiB at address 40000 (hexadecimal), for cluster launch 2 of launch 1. -/
def svDesc (n len : Nat) : BitVec 256 := BitVec.ofNat 256 (0x40000 + n * 2 ^ 48 + 2 * 2 ^ 64 + len * 2 ^ 96)
def svOp : Op := { opWith ctxsv1 [] with bulk := { desc := svDesc 1 0x100000 }, lanes := 1 }
def ended1 : Group := { ended := true }
def clOf (saving : Option Nat) (forced : Bool) : Cl := { launch := 1, num := 2, cluster := 1, ranks := [(5, 0)], saving := saving, forced := forced }
def wg5 : Wg := { wgOf none with launch := 1, cl := 9 }
/-- Core 3 saves what runs on core 5. -/
def saving1 (args : List Nat) (forced : Bool) (g : Group) (x : Island) : State :=
  ev args
    { x with
      running := true, ops := [(1, svOp)], cls := [(9, clOf (some 1) forced)], cores :=
        [(3, { groups := [(0, flagged)], places := [(0, wgOf none)] }), (5, { groups := [(0, g)], places := [(0, wg5)] })] }
theorem wit_Preemption :
    (∀ f ∈ [true, false], ∀ g ∈ [grp, ended1], ∀ x ∈ [{}, resolving {}],
      let s := saving1 [0, 9] f g x
      (s.isl 0).cls = [(9, clOf (some 1) f)] ∧ ((s.isl 0).core 5).places = [(0, wg5)] ∧ s.op? 0 1 = some svOp ∧ svOp.core ≠ 5 ∧
        (s.isl 0).reqs = [] ∧ (s.isl 0).homes = [] ∧ (s.isl 0).filters = [] ∧ ((s.isl 0).core 5).l1 = [] ∧ (s.isl 0).ops = [(1, svOp)]) ∧
    (let s := saving1 [0, 9] false ended1 (resolving {})
     (s.isl 0).clParked (clOf (some 1) false) = true ∧ (s.isl 0).clAtRest (s.cyc 0) (clOf (some 1) false) = false) ∧
    (let s := saving1 [0, 9] false ended1 {}
     (s.isl 0).clParked (clOf (some 1) false) = true ∧ (s.isl 0).clAtRest (s.cyc 0) (clOf (some 1) false) = true ∧
       let pushed := (s.releaseCores 0 9 (clOf (some 1) false)).2
       pushed.wgLive 0 5 0 = (some ([(0, {})], {}), pushed)) ∧
    (let s := saving1 [0, 9] false grp (resolving {})
     (s.isl 0).clParked (clOf (some 1) false) = false ∧ (s.isl 0).resolve ≠ none ∧ wg5.ctx = none) ∧
    (let s := saving1 [0, 9, 1] true grp {}
     (s.isl 0).clAtRest (s.cyc 0) (clOf (some 1) true) = true) := by
  and_intros <;> first | rfl | decide
/-- A queue of 16 records at address 2000 (hexadecimal), its descriptor at 1000: HEAD and TAIL. -/
def queueMem (head tail : Byte) : Memory :=
  [(0x1001, 0x20), (0x100A, 0x40), (0x100B, 1)] ++ (if head = 0 then [] else [(0x1010, head)]) ++ if tail = 0 then [] else [(0x1018, tail)]
def recOf (bits : Nat) (posted : Bool) (n : Nat) : FaultRec := { bits := BitVec.ofNat 1024 bits, posted := posted, num := n }
def queueAt (head tail : Byte) (f : List FaultRec) (e : List (BitVec 1024)) : State :=
  ev [0] { faults := f, events := e, sys := { fq := 0x1000 }, host := { eq := 0x1000 }, fstat := { qrdy := true }, mem := queueMem head tail }
theorem wit_QueuesOfRecords :
    ((queueAt 1 17 [recOf 77 false 0] []).isl 0).faults = [recOf 77 false 0] ∧ (recOf 77 false 0).posted = false ∧
    (recOf 77 false 0).gathering = false ∧ (recOf 77 false 0).settled = false ∧
    ((queueAt 0 15 [{ recOf 77 false 0 with gathering := true }] []).isl 0).faults = [{ recOf 77 false 0 with gathering := true }] ∧
    ((queueAt 0 15 [{ recOf 77 false 0 with settled := true }] []).isl 0).faults = [{ recOf 77 false 0 with settled := true }] ∧
    (∀ s ∈ [queueAt 0 15 [recOf 77 false 0] [], queueAt 0 15 [] [77#1024]],
      Room s 0 (fld (s.isl 0).sys.fq 0 48) 15 (0x2000 + 128 * 15) ∧ Room s 0 (fld (s.isl 0).host.eq 0 48) 15 (0x2000 + 128 * 15)) ∧
    ((queueAt 0 15 [] [77#1024]).isl 0).faults = [] ∧ ((queueAt 0 15 [] [77#1024]).isl 0).events = [77#1024] ∧
    (∀ r ∈ ((queueAt 1 2 [recOf 77 true 0, recOf 78 true 1] []).isl 0).faults, r.posted = true) ∧
    ((queueAt 1 2 [recOf 77 true 0, recOf 78 true 1] []).isl 0).events = [] := by
  and_intros <;> first | rfl | decide | skip
  intro s h
  rcases List.mem_cons.mp h with h | h
  · subst h; constructor <;> constructor <;> first | rfl | decide
  · rcases List.mem_cons.mp h with h | h
    · subst h; constructor <;> constructor <;> first | rfl | decide
    · cases h
theorem wit_QueuesOfRecords_full : (queueAt 1 17 [recOf 77 false 0] []).qRoom 0 0x1000 = none := by decide
/-- A launch of island 1's queue with REPLAY and SNAP, three packets deep in rollbacks; its page of 64 KiB at 80000 (hexadecimal)
has been copied to page 3 of the pool at 100000. -/
def roll1 (rolling : Bool) (replays : Nat) : Launch :=
  { num := 1, packet := BitVec.ofNat 1024 (2 ^ 24 + 2 ^ 25), started := true, island := 1, rolling := rolling, killed := rolling,
    replays := replays }
def log1 : PageLog := { launch := 1, asid := 7, pa := 0x80000, pool := 3 }
def rollIsl : Island :=
  { running := true, dark := false, pageLogs := [log1], sys := { snpool := 0x100000 }, mem := [(0x80005, 9), (0x130005, 7), (0x13FFFF, 8)] }
def rollAt (l : Launch) (x : Island) : State := { ev [1] {} with islands := [(1, x)], launches := [(1, l)] }
theorem wit_Rollback :
    (roll1 false 2).rolling = false ∧ (roll1 false 3).killed = false ∧ (roll1 false 3).fail = 0 ∧
    (∀ p ∈ (rollAt (roll1 false 2) rollIsl).islands, p.2.cores = []) ∧ (roll1 true 0).rolling = true ∧
    (1 ∈ (rollAt (roll1 true 0) { rollIsl with cls := [(9, clOf none false)] }).islesOf (roll1 true 0)) ∧
    ({ rollIsl with cls := [(9, clOf none false)] }.launchGone 1 = false) ∧
    (rollAt (roll1 true 0) rollIsl).islands = [((roll1 true 0).island, rollIsl)] ∧
    (rollAt (roll1 true 0) rollIsl).islesOf (roll1 true 0) = [(roll1 true 0).island] ∧ rollIsl.launchGone 1 = true ∧
    rollIsl.hyps.all (fun p => p.2.st ≠ .opened || p.1 = 0) = true ∧ rollIsl.resolve = none ∧ rollIsl.pageLogs = [log1] ∧
    log1.launch = 1 ∧ log1.pin = none ∧ rollIsl.sys.dq = [] ∧ memWf rollIsl.mem = true := by
  and_intros <;> first | rfl | decide
def auditOf (core : Nat) : Audit := { launch := 1, core := core, num := 2, wg := { wgOf none with sig := 77, frames := [(0, 4)] } }
def rerunWg (sig : DWord) : Wg := { wgOf none with launch := 1, cl := 9, audit := some 6, ended := true, sig := sig }
def rerunning (core : Nat) (sig : DWord) : State :=
  ev [0, 6] { audits := [(6, auditOf core)], cores := [(64, { places := [(2, rerunWg sig)] })], cls := [(9, { launch := 1, ranks := [(64, 2)] })] }
theorem wit_Audits :
    (∀ c ∈ [0, 63, 64, 127],
      tget? ((ev [0, 6] { audits := [(6, auditOf c)] }).isl 0).audits 6 = some (auditOf c) ∧ (auditOf c).rerun = none ∧
      (auditOf c).core < 128) ∧
    (∀ s ∈ [rerunning 5 77, rerunning 127 78], (s.isl 0).cores.length = 1 ∧ s.launches = []) ∧
    ((rerunning 5 77).isl 0).audits = [(6, auditOf 5)] ∧ ((rerunning 127 78).isl 0).audits = [(6, auditOf 127)] ∧
    (rerunWg 77).audit = some 6 ∧ (rerunWg 77).ended = true ∧ (rerunWg 77).killed = false ∧ (rerunWg 77).sig = (auditOf 5).wg.sig ∧
    (rerunWg 78).sig ≠ (auditOf 127).wg.sig := by
  and_intros <;> first | rfl | decide
theorem wit_Audits_values :
    (∀ c ∈ [0, 127], ((ev [0, 6] { audits := [(6, auditOf c)] }).isl 0).auditRooms (auditOf c) ≠ []) := by decide +kernel
/-- The system unit: an operation of core 3, with register values of its island. -/
def sysAt (args : List Nat) (o : Op) (x : Island) : State := ev args { x with ops := [(1, o)] }
def sysOp (i : Instr) (a b : DWord) (priv : Bool) : Op := { opOf i a b with priv := priv, lanes := 1 }
def cl5 (x : Island) : Island :=
  { x with cls := [(9, clOf none false)], running := true, cores := [(5, { groups := [(0, grp)], places := [(0, wg5)] })] }
def saved1 (discarded : Bool) : Saved := { pa := 0x40000, cl := clOf none false, discarded := discarded }
def ctxld1 : Instr := .ctxld c0 (.v 0) (.s 4)
def bulkOp (i : Instr) (d : BitVec 256) : Op := { sysOp i 0 0 true with bulk := { desc := d } }
def recFor (agent source : Nat) (posted : Bool) : FaultRec := { bits := BitVec.ofNat 1024 (agent * 2 ^ 32 + source * 2 ^ 16), posted := posted }
theorem wit_SystemUnit :
    (∀ i p, (sysAt [0, 1] (sysOp i 0 5 p) {}).op? 0 1 = some (sysOp i 0 5 p)) ∧
    (∀ i x, (sysAt [0, 1] i x).agenda = [(.ps 0, .row .powerGood [])]) ∧
    (∀ k, (sysAt [0, 1] (sysOp (.syswrSel c0 (.v 0) (.vp 2) 0x01A) k 5 true) { sys := { rtact := true } }).op? 0 1 =
      some (sysOp (.syswrSel c0 (.v 0) (.vp 2) 0x01A) k 5 true)) ∧
    (sysOp (.syswrSel c0 (.v 0) (.vp 2) 0x01A) 31 5 true).a.toNat < 32 ∧
    sysNow {} 0x029 0 = some 100 ∧ sysNow {} 0x016 0 = some 0 ∧
    sysNow { sys := { hq := [(63, 5)] } } 0x018 63 = some 5 ∧ sysNow { sys := { hq := [(63, 5)] } } 0x018 64 = some 0 ∧
    (sysOp (.tlbiAll c0) 0 5 true).performed = false ∧ (sysOp (.tlbiAll c0) 0 5 true).after = [] ∧
    (sysOp (.tlbiAll c0) 0 5 true).subs = [] ∧
    (∀ d, (sysAt [0, 1] (bulkOp ctxsv1 d) (cl5 {})).op? 0 1 = some (bulkOp ctxsv1 d)) ∧
    (cl5 {}).clOf? (launchKey 0 (fld (svDesc 3 0x100000) 48 16)) (fld (svDesc 3 0x100000) 64 32) = none ∧
    (cl5 {}).clOf? (launchKey 0 (fld (svDesc 1 100) 48 16)) (fld (svDesc 1 100) 64 32) = some (9, clOf none false) ∧
    (cl5 {}).wg? 5 0 = some wg5 ∧ fld (svDesc 1 100) 96 32 < saveKib wg5.hdr ∧ saveKib wg5.hdr ≤ fld (svDesc 1 0x100000) 96 32 ∧
    (clOf none false).saving = none ∧ (clOf (some 8) false).saving ≠ none ∧
    (sysAt [0, 1] (bulkOp ctxld1 (svDesc 1 0)) {}).op? 0 1 = some (bulkOp ctxld1 (svDesc 1 0)) ∧
    ({} : Island).imageOf? (svDesc 1 0) 0 = none ∧
    (∀ b ∈ [true, false], (saved1 b).loader = none ∧ (saved1 b).pa = fld (svDesc 1 0) 0 48 ∧
      (saved1 b).cl.launch = launchKey 0 (fld (svDesc 1 0) 48 16) ∧ (saved1 b).cl.num = fld (svDesc 1 0) 64 32) ∧
    ({ sys := { snapArm := true } } : Island).sys.snapArm = true ∧ 0 < 16 ∧
    (∀ r ∈ ({ faults := [recFor 9 5 true, { recFor 8 5 false with settled := true }] } : Island).faults,
      r.settled = true ∨ recAgent r.bits ≠ (8 : DWord).setWidth 32) ∧
    (recFor 9 5 true).gathering = false ∧ (recFor 9 5 true).settled = false ∧ recAgent (recFor 9 5 true).bits = (9 : DWord).setWidth 32 ∧ recSource (recFor 9 5 true).bits = 5 := by
  and_intros <;> first | rfl | (intros; rfl) | decide +kernel

-- launches
/-- The bytes of a number that are not 0, from an address on. -/
def bytesAt (a n v : Nat) : Memory :=
  (List.range n).filterMap fun i => if v / 256 ^ i % 256 = 0 then none else some (a + i, BitVec.ofNat 8 (v / 256 ^ i))
/-- A header of one group of 64 threads with 64 registers and 3 uniform registers; its overlay has handle 5. -/
def hdrNum : Nat := 0x4B48 + 2 ^ 16 + 8 * 2 ^ 32 + 3 * 2 ^ 40 + 2 ^ 56 + 2 ^ 64 + 6 * 2 ^ 72 + 32 * 2 ^ 80 + 6 * 2 ^ 128
def hdr1 : BitVec 512 := BitVec.ofNat 512 hdrNum
/-- A packet for the islands of a mask; its kernel record is at 70000 (hexadecimal), its argument at 123456789A. -/
def pkNum (mask more : Nat) : Nat :=
  0x4C50 + 2 ^ 16 + mask * 2 ^ 32 + 5 * 8192 * 2 ^ 64 + 6 * 2 ^ 96 + 0x70000 * 2 ^ 144 + 0x123456789A * 2 ^ 224 + 2 ^ 296 + 2 ^ 328 + more
def packet1 (more : Nat) : BitVec 1024 := BitVec.ofNat 1024 (pkNum 1 more)
/-- Island 0 serves device queue 15: its descriptor at 50000, its packets at 60000, HEAD and TAIL as given. -/
def dqMem (st head tail : Byte) (more : Nat) : Memory :=
  tables 2 ++ [(0x50002, 6), (0x5000A, 0x40), (0x5000B, st)] ++ (if head = 0 then [] else [(0x50010, head)]) ++ [(0x50018, tail)] ++
    bytesAt (0x60000 + 128 * (head.toNat % 16)) 128 (pkNum 1 more) ++ bytesAt 0x70000 128 (hdrNum + 5 * 8192 * 2 ^ 512)
def dqAt (st head tail : Byte) (more : Nat) : State :=
  { ev [0, 0, 15] { running := true, dark := false, fstat := { qrdy := true }, ctxs := [(7, ctx7)], topo := { sites := [(0, { st := 1 })] },
                    sys := { dq := [(15, BitVec.ofNat 64 (0x50000 / 64 + 7 * 2 ^ 42 + 2 ^ 63))], ctxtab := 8 * 2 ^ 48 }, mem := dqMem st head tail more } with
    bell := some 0 }
/-- The queue with one byte of its descriptor changed: a reserved field, LOGN, BASE. -/
def badQueue (a : Nat) (b : Byte) : State := (dqAt 1 0 1 0).modIsl 0 fun x => { x with mem := memWrite x.mem a b }
def dqEntry : DWord := ((dqAt 1 0 1 0).isl 0).qEntry false 15
def launch1 (f : Launch → Launch) : Launch := f { num := 0x8000, packet := packet1 0, hdr := hdr1, asid := 7, slotVa := 0x60000 }
theorem wit_LaunchQueues :
    (let s := { dqAt 1 0 1 0 with launches := [(9, launch1 id)] }
     (s.queue 0 false 15).seen < 1 ∧ (s.queue 0 true 63).seen < 1 ∧ tget? s.launches 9 = some (launch1 id)) ∧
    dqEntry.getLsbD 63 = true ∧ qePa dqEntry = 0x50000 ∧ qeAsid dqEntry = 7 ∧
    (({} : Island).qEntry false 15).getLsbD 63 = false ∧
    (∀ s ∈ [dqAt 1 15 31 0, dqAt 1 0 1 (2 ^ 1023)], s.servesQueue 0 false 15 = true ∧ s.queue 0 false 15 = {} ∧ (s.isl 0).cores = [] ∧
      (s.isl 0).filters = [] ∧ (s.isl 0).homes = [] ∧ (s.isl 0).versions = [] ∧ (s.isl 0).reqs = [] ∧ s.launches = []) ∧
    tget? ((dqAt 1 0 1 0).isl 0).ctxs (qeAsid dqEntry).toNat = some ctx7 ∧ 0x50000 + 64 ≤ Config.hbmBytes := by
  and_intros <;> first | rfl | decide
theorem wit_LaunchQueues_values :
    (dqAt 2 0 1 0).qState 0 0x50000 ≠ 1 ∧ (dqAt 1 3 3 0).qHead 0 0x50000 = (dqAt 1 3 3 0).qTail 0 0x50000 ∧
    (let s := dqAt 1 15 31 0
     s.qState 0 0x50000 = 1 ∧ s.qHead 0 0x50000 = 15 ∧ s.qTail 0 0x50000 = 31 ∧ s.qLogn 0 0x50000 = 4 ∧
       s.qBase 0 0x50000 = 0x60000 ∧ s.vaQuiet 0 7 (cxPriv ctx7) 0x60780 128 = true ∧ memWf (s.isl 0).mem = true ∧
       s.qValid 0 0x50000 = true ∧ (s.readVaN 0 7 (cxPriv ctx7) 0x60780 128).1 = some (pkNum 1 0) ∧
       let k := (s.readVaN 0 7 (cxPriv ctx7) 0x60780 128).2.checkPacket 0 false 7 (cxPriv ctx7) (packet1 0)
       let x := k.2.2.isl 0
       k.1 = 0 ∧ k.2.1 = hdr1 ∧ k.2.2.launches = [] ∧ k.2.2.queue 0 false 15 = {} ∧ x.cores = [] ∧ x.filters = [] ∧
         (∀ h ∈ x.homes, h.2.owner = none ∧ h.2.txn = none) ∧ x.versions = [] ∧ x.reqs = [] ∧ memWf x.mem = true) ∧
    (let s := dqAt 1 0 1 (2 ^ 1023)
     ((s.readVaN 0 7 (cxPriv ctx7) 0x60000 128).2.checkPacket 0 false 7 (cxPriv ctx7) (packet1 (2 ^ 1023))).1 = 2) ∧
    (badQueue 0x5000A 0x41).qValid 0 0x50000 = false ∧ (badQueue 0x5000A 0).qValid 0 0x50000 = false ∧ (badQueue 0x50020 1).qValid 0 0x50000 = false ∧
    (badQueue 0x50000 64).qValid 0 0x50000 = false ∧ (dqAt 1 0 1 0).qValid 0 0x50000 = true := by decide +kernel
def starts (l : Launch) : State :=
  { dqAt 1 1 1 0 with launches := [(9, l)], hqs := [], focus := .event [9] }
/-- Two conditions: counter 1,023 of island 0 is at least 5, counter 3 at least 0. -/
def deps2 : Nat := 2 * 2 ^ 48 + 5 * 2 ^ 384 + 1023 * 2 ^ 448 + 3 * 2 ^ 576
def counted1 (n : DWord) (s : State) : State := s.modIsl 0 fun x => { x with nc := [(1023, n)] }
def waits (more : Nat) : Launch := launch1 fun l => { l with packet := packet1 more, queue := 15 }
theorem wit_LaunchStarts :
    (waits deps2).started = false ∧ (waits deps2).rolling = false ∧ (waits 0).fail = 0 ∧ (starts (waits deps2)).launches = [(9, waits deps2)] ∧
    (∀ n, (counted1 n (starts (waits deps2))).launches = [(9, waits deps2)]) ∧
    tget? ((starts (waits (2 ^ 24))).isl 0).ctxs (waits (2 ^ 24)).asid.toNat = some ctx7 := by
  and_intros <;> first | rfl | (intros; rfl)
theorem wit_LaunchStarts_values :
    (starts (waits (2 ^ 47))).allPresent (waits (2 ^ 47)).packet = false ∧ (starts (waits deps2)).allPresent (waits deps2).packet = true ∧
    pkNdep (waits deps2).packet = 2 ∧
    ¬(0 ∈ (waits deps2).depsSeen ∨ depValue (pkDep (waits deps2).packet 0) ≤ (((counted1 4 (starts (waits deps2))).isl
      (depIsland (pkDep (waits deps2).packet 0))).counter (depCounter (pkDep (waits deps2).packet 0))).toNat) ∧
    (∀ i < 2, depValue (pkDep (waits deps2).packet i) ≤ (((counted1 5 (starts (waits deps2))).isl
      (depIsland (pkDep (waits deps2).packet i))).counter (depCounter (pkDep (waits deps2).packet i))).toNat) ∧
    pkWinCnt (waits deps2).packet = 0 ∧ (waits 0).onIsland 0 = true ∧ pkSnap (waits (2 ^ 24)).packet = true ∧ cxSnepoch ctx7 + 1 < 65536 := by
  decide +kernel
def noRoom (x : Island) : Island := { x with sys := { x.sys with coresus := BitVec.allOnes 128 } }
/-- Cluster launch 1 of launch 9, whose island and number within its mask give its work identifiers. -/
def hands (f : Island → Island) : State :=
  { ev [0, 9] (f { running := true, handout := [(9, 1)] }) with launches := [(9, launch1 fun l => { l with packet := packet1 (2 ^ 296), hostQ := true })] }
def startWg1 : Wg := { launch := 9, cl := 4, hdr := hdr1, asid := 7, waiting := true, regBase := 65536 }
/-- Its overlay is resident. -/
def beginning : State :=
  { ev [0, 4] { ctxs := [(7, ctx7)], cls := [(4, { launch := 9, ranks := [(5, 2)] })],
                cores := [(5, { rtab := [(0, { handle := 5, tenant := tenantKey 5 7, count := 9 })], places := [(2, startWg1)] })] } with
    launches := [(9, launch1 id)] }
def begun : State := (beginning.startAll 0 (startCps (pkCodeptr (packet1 0))) [(5, 2)]).2
theorem wit_ClusterLaunches :
    tget? ((hands id).isl 0).handout 9 = some 1 ∧ tget? ((hands noRoom).isl 0).handout 9 = some 1 ∧ hdrCluster hdr1 = 1 ∧
    tget? (beginning.isl 0).cls 4 = some { launch := 9, ranks := [(5, 2)] } ∧ tget? beginning.launches 9 = some (launch1 id) ∧
    (beginning.isl 0).wg? 5 2 = some startWg1 ∧ startWg1.waiting = true ∧ startWg1.killed = false ∧ hdrPrivate hdr1 = 0 ∧ hdrGroups hdr1 ≤ 32 ∧
    (let s := ev [0, 127, 0x04071407] { cores := [(127, { part := 0x00061A00 })] }
     (s.isl 0).cores = [(127, { part := 0x00061A00 })] ∧ ({ part := 0x00061A00 } : CoreS).places = [] ∧ ({ part := 0x00061A00 } : CoreS).l1 = []) := by
  and_intros <;> first | rfl | decide
theorem wit_ClusterLaunches_values :
    (∀ k < 32, admitAll hdr1 1 (((hands noRoom).isl 0).rooms k) = false) ∧ admitAll hdr1 1 (((hands id).isl 0).rooms 31) = true ∧
    (match beginning.startAll 0 (startCps (pkCodeptr (packet1 0))) [(5, 2)] with
      | (.yes, u) => (decide (((u.isl 0).core 5).groups = [] ∧ (u.isl 0).wg? 5 2 = some startWg1))
      | _ => false) = true := by decide +kernel
def finishing (w : Wg) (g : Tbl Group) (l : Launch) : State :=
  { ev [0, 5, 0] { cls := [(9, { launch := 1, ranks := [(5, 0)] })], cores := [(5, { groups := g, places := [(0, w)] })] } with
    launches := [(1, l)] }
def endWg : Wg := { wg5 with ended := true }
/-- A launch whose slot lies in the pages of context 7, with LN: counter 1,023 of island 15. -/
def completing (f : Launch → Launch) : State :=
  { ev [1] { running := true, dark := false, ctxs := [(7, ctx7)], mem := tables 2, host := { eq := 0x1000 } } with
    launches := [(1, launch1 fun l => f { l with started := true, packet := packet1 (2 ^ 27 + 1023 * 2 ^ 368 + 15 * 2 ^ 378) })] }
theorem wit_LaunchEnds :
    (∀ l, (finishing wg5 [] l).launches = [(wg5.launch, l)]) ∧ ((finishing wg5 [] default).isl 0).wg? 5 0 = some wg5 ∧
    wg5.audit = none ∧ wg5.killed = false ∧ hdrAud wg5.hdr = false ∧ ((finishing wg5 [(0, grp)] default).isl 0).wgDone 5 0 = false ∧
    tget? ((finishing wg5 [] default).isl 0).cls 9 = some { launch := 1, ranks := [(5, 0)] } ∧
    ((finishing wg5 [] default).isl 0).wgDone 5 0 = true ∧ (((finishing endWg [] default).isl 0).core 5).places = [(0, endWg)] ∧
    ((finishing endWg [] default).isl 0).cls = [(9, { launch := 1, ranks := [(5, 0)] })] ∧ wg5.ended = false ∧ endWg.ended = true ∧
    (completing id).islesOf (launch1 id) = [0] ∧ { (completing id).isl 0 with cls := [(9, clOf none false)] }.launchGone 1 = false ∧
    ((completing id).isl 0).launchGone 1 = true ∧ (completing id).islands.length = 1 ∧ memWf ((completing id).isl 0).mem = true ∧
    MemoryAt ((completing id).isl 0) (.line 0xC00 7) 1 0x60007 := by
  and_intros <;> first | rfl | decide | exact .inr ⟨0xC00, 7, by decide⟩ | (intros; rfl)
theorem wit_LaunchEnds_halts :
    let s := completing fun l => { l with fail := 6 }
    let x := s.isl 0
    s.launches.length = 1 ∧ (s.launches.map fun p => p.2.fail) = [6] ∧ x.events = [] ∧ qePa (x.qEntry false 0) + 11 = 11 ∧
      fld x.host.eq 0 48 = 0x1000 ∧ s.qRoom 0 0x1000 = none ∧ (11 < 0x1000 ∧ 0x1000 + 64 ≤ 0x60007 ∧ 0x60007 ≠ 11) ∧ x.fstat.qrdy = false := by
  decide +kernel
theorem wit_LaunchEnds_values :
    (completing id).vaQuiet 0 7 false (vaPlus 0x60000 7) 1 = true ∧
    (let p := (completing id).placeOf 0 0 noPlace 7 false .write (vaPlus 0x60000 7)
     grantIs p.1 0 (some (.line 0xC00 7)) = true ∧ p.2 = completing id) ∧
    ((∀ w ∈ [(0 : Nat), 2 ^ 26, 2 ^ 25 + 2 ^ 26], pkWgn (packet1 w) = decide (2 ^ 26 ≤ w)) ∧ pkReplay (packet1 (2 ^ 25 + 2 ^ 26)) = true ∧
      pkReplay (packet1 (2 ^ 26)) = false) := by decide +kernel

-- formation, the host and power
/-- No image, and images that fail for the fused minimum: slot B's does not. -/
def flashOf (a b : Option FwImage) (least : Nat) : Flash := { slotA := a, slotB := b, min0 := least, min1 := least }
def booted (v w : Nat) (x : Island) : Island :=
  { x with half0 := { step := 1, image := some (0, v) }, half1 := { step := 1, image := some (0, w) } }
def passed (x : Island) : Island :=
  { x with half0 := { step := 3, records := [(0, 0), (2, 0)] }, half1 := { step := 3 }, topo := { sites := [(0, { links := 8 }), (1, { links := 4 })] } }
/-- A panel whose islands' records show one component of two, among `n` populated sites. -/
def elects (n : Nat) : State :=
  { ev [] {} with populated := BitVec.ofNat 16 (2 ^ n - 1), islands := [(0, passed {}), (1, passed {}), (2, { half0 := { failed := true } })] }
theorem wit_Formation :
    (∀ v w : Nat, (ev [0, 0, 2] (booted v w {})).choices = [] ∧ ((ev [0, 0, 2] (booted v w {})).isl 0).half0.failed = false) ∧
    (booted 3 3 {}).half0.image ≠ none ∧ ({} : Island).half0.image = none ∧
    ({ half0 := { failed := true } } : Island).half0.failed = true ∧ (∃ a b, (booted 3 4 {}).half0.image = some a ∧
      (booted 3 4 {}).half1.image = some b ∧ a.2 ≠ b.2) ∧
    (passed {}).passes = true ∧ (passed {}).half1.step = 3 ∧ (passed {}).half0.step = 3 ∧
    tget? (passed {}).half0.records (2 * 1 + 0) ≠ none ∧ tget? (passed {}).half1.records (2 * 15 + 1) = none := by
  and_intros <;> first | rfl | decide | (intros; exact ⟨rfl, rfl⟩) | exact ⟨_, _, rfl, rfl, by decide⟩
theorem wit_Formation_values :
    (elects 3).components = [[0, 1]] ∧ ((elects 3).populatedSites.filter fun i => !((elects 3).isl i).selfFailed).length = 2 ∧
    ((elects 5).populatedSites.filter fun i => !((elects 5).isl i).selfFailed).length = 4 ∧
    ((elects 6).populatedSites.filter fun i => !((elects 6).isl i).selfFailed).length = 5 ∧ (elects 6).components = [[0, 1]] := by
  decide +kernel
/-- An image with another key: its key's digest is not the ROM's. -/
def foreign : FwImage := { key := (5, 7) }
theorem wit_Formation_images :
    sha384 (pointBytes foreign.key) ≠ (flashOf (some foreign) none 0).rom ∧ sha384 (pointBytes ({} : FwImage).key) = (flashOf none (some {}) 0).rom ∧
    ¬(1 ≤ ({} : FwImage).security) ∧ (flashOf none (some {}) 1).min1 = 1 := by decide +kernel
/-- Island 1 dark, asked back; its links have trained again. -/
def returning (args : List Nat) (st : Nat) (x : Island) : State :=
  let sites : Tbl Site := [(0, { st := 1 }), (1, { st := st, links := 4 })]
  { ev args {} with bell := some 0, islands := [(0, { running := true, dark := false, topo := { sites := sites } }), (1, { x with topo := { sites := sites } })] }
def late (x : Nat) (s : State) : State := { s with now := x }
theorem wit_PanelLife :
    ({ fstat := { phase := 4, hrdy := true } } : Island).half0.failed = false ∧ ({ fstat := { phase := 4 } } : Island).fstat.phase = 4 ∧
    (pair [] id id).bell = some 0 ∧ (pair [] id id).siteState 1 = 1 ∧ (pair [] id id).choices = [] ∧ (pair [] id id).bellLost = false ∧
    ((late 1000000000 (pair [] id fun x => { x with heardAt := 1 })).isl 1).heardAt + 1000000000 > 1000000000 ∧
    ((late 1000000000 (pair [] id id)).isl 1).heardAt + 1000000000 ≤ 1000000000 ∧
    (∀ i < 16, (late 1000000000 (pair [] id id)).siteState i = 1 → i ≠ 0 → i = 1) ∧
    (∀ st ∈ [0, 1, 2, 3], (returning [0, 1] st {}).siteState 1 = st ∧ (returning [0, 1] st {}).siteState 0 = 1) ∧
    (returning [0, 1, 1] 3 (booted 3 3 {})).topoQuiet = true ∧ ((returning [0, 1, 1] 3 {}).isl 1).quietRange Config.topoPa 136 = true ∧
    (returning [0, 1, 1] 3 {}).farEnd 1 3 = some (0, 4) ∧ ((returning [0, 1, 1] 3 {}).isl 1).portTrained 1 3 = true := by
  and_intros <;> first | rfl | decide
def hosted (args : List Nat) (f : Island → Island) : State :=
  ev args (f { running := true, dark := false, fstat := { mrdy := true, phase := 4 }, host := { cxlUp := true } })
def dumps (pa : Nat) (dir : Bool) (x : Island) : Island :=
  { x with host := { x.host with dumpGo := true, dumpDir := dir, dumpPa := BitVec.ofNat 64 pa, dumpLen := 0x10000 } }
theorem wit_HostAccess :
    ((hosted [0] fun x => { x with running := false, frozen := [(5, .heartbeat, [0])] }).isl 0).running = false ∧
    (hosted [0] id).bellLost = false ∧ (pair [0] id id).bell.map (· / 2) = some 0 ∧ (pair [1] id id).bell.map (· / 2) ≠ some 1 ∧
    (pair [1] id id).outcome ≠ some 3 ∧ { pair [1] id id with outcome := some 3 }.outcome = some 3 ∧
    ((hosted [0, 0x3010, 5] id).isl 0).host.cxlUp = true ∧ ((hosted [0, 0x3010, 5] id).isl 0).dark = false ∧
    (({ dark := true } : Island).dark = true ∧ ({ dark := true } : Island).fstat.phase ≠ 4) ∧
    ((hosted [0, 0x3048, 1] id).isl 0).host.dumpGo = false ∧ 1 % 4 = 1 ∧ 7 % 2 = 1 ∧ 7 % 4 = 3 ∧ 7 % 8 ≥ 4 ∧
    ((hosted [0, 640, 4] id).isl 0).memServed 640 4 = true ∧ ((hosted [0, 640, 4] id).isl 0).quietRange 640 4 = true ∧
    ((hosted [0, 640, 4] fun x => { x with homes := [(5, { txn := some { req := 2 } })] }).isl 0).quietRange 640 4 = false ∧
    ((hosted [0, 640, 4] id).isl 0).memServed Config.hbmBytes 1 = false ∧ ((hosted [0] id).isl 0).host.mailPending = false ∧
    ((hosted [0] (dumps 0x20000 true)).isl 0).host.dumpGo = true ∧ (hosted [0] (dumps 0x20000 true)).choices = [] ∧
    (∀ p ∈ ((hosted [0] (dumps 0x20000 true)).isl 0).hyps, ¬(p.1 ≠ 0 ∧ p.2.st ≠ .free)) ∧
    ((hosted [0] (dumps 0x20001 true)).isl 0).host.dumpPa.toNat % 65536 ≠ 0 ∧
    (Config.hbmBytes < ((hosted [0] (dumps (Config.hbmBytes - 0x10000 + 0x20000) true)).isl 0).host.dumpPa.toNat + 0x10000) ∧
    ((hosted [0, 3, 70] (dumps 0x20000 true)).isl 0).fstat.qrdy = false ∧ ((hosted [0, 3, 70] (dumps 0x20000 true)).isl 0).cores = [] ∧
    (let x := (hosted [0, 0, 0x10000] fun x => { dumps 0x20000 false x with homes := [(0x2FF80 / 128, { poison := true })] }).isl 0
     x.fstat.qrdy = false ∧ x.host.dumpDir = false ∧ memWf x.host.upstream = true ∧ (x.hline (0x2FF80 / 128)).poison = true ∧
       x.host.dumpPa.toNat ≤ 0x2FF80 ∧ 0x2FF80 < x.host.dumpPa.toNat + 0x10000) ∧
    (∀ n ∈ [0, 1], ({ half0 := { image := some (n, 3) } } : Island).half0.image = some (n, 3)) ∧
    ({} : Flash).slotA = some {} ∧ ({} : Flash).slotB = some {} := by
  and_intros <;> first | rfl | decide
def powered (t : Nat) (x : Island) : State := { ev [] x with now := t }
def wanting : CoreS := { cls := 0, clsWant := 3 }
theorem wit_Power :
    (let s := powered 32000 { cores := [(3, { simdNext := [(3, 0)] })] }
     tgetD ((s.isl 0).core 3).simdNext 3 0 + 64 ≤ s.cyc 0) ∧
    (63 ∉ ((powered 1000000000 {}).isl 0).asleep) ∧ (tgetD ((powered 1000000000 {}).isl 0).sliceUsed 63 0 + 1000000000 ≤ 1000000000) ∧
    (999999999 < tgetD ((powered 999999999 {}).isl 0).sliceUsed 63 0 + 1000000000) ∧
    ((((powered 0 { cores := [(3, wanting), (9, wanting)] }).isl 0).cores.map (·.1)).Pairwise (· < ·)) ∧ wanting.cls < wanting.clsWant ∧
    classAmps wanting.clsWant - classAmps wanting.cls ≤ ((powered 0 {}).isl 0).sys.cstep.toNat ∧
    (let k : CoreS := { cls := 2, clsUsed := [(2, 5)] }
     k.mx.busy = none ∧ k.blocking = false ∧ (∀ p ∈ k.clsUsed, p.2 + 1000000 ≤ 1000005)) ∧
    (let s := powered 32000 { cores := [(3, {})] }
     ((s.isl 0).core 3).mx.busy = none ∧ tgetD ((s.isl 0).core 3).clsUsed 3 0 + 64 * (s.isl 0).period ≤ s.now) ∧
    (let x : Island := { rail := 599 }
     x.fstat.qrdy = false ∧ x.sys.droopAlarm = false ∧ x.rail < x.sys.thresh.toNat ∧ x.sys.thresh.toNat ≤ 600 ∧ x.railHigh = none) ∧
    (∀ now ∈ [1000004, 1000005], let s := powered now { sys := { droopAlarm := true }, railHigh := some 5 }
     (s.isl 0).sys.droopAlarm = true ∧ (s.isl 0).railHigh = some 5 ∧ (s.now < 5 + 1000000 ∨ 5 + 1000000 ≤ s.now)) ∧
    ((powered 0 {}).isl 0).sys.droopAlarm = false ∧ ({ sys := { droopAlarm := true } } : Island).sys.droopAlarm = true ∧
    (let k : CoreS := { badLanes := [0] }
     k.places = [] ∧ 128 - 1 ∉ k.badLanes ∧ k.disabled = false ∧ (∃ l ∈ k.badLanes, l / 32 = (2 - 1) / 32) ∧
       ¬∃ l ∈ k.badLanes, l / 32 = (128 - 1) / 32) := by
  and_intros <;> first | rfl | decide
/-- The step from reset, in which power is good. -/
theorem wit_MemoryStaysCanonical : (∀ k, memWf (State.reset.isl k).mem = true) ∧ ∃ t, step State.reset = .next t :=
  ⟨fun _ => rfl, _, rfl⟩

end Sys2Proof.Tests
end

section
/-! PROOFS. The word of an instruction and its bytes: what the decoder accepts is canonical (R5, R8, R21, R22). -/

namespace Sys2Proof.Encoding

/-! ## Fields and words (R21) -/

/-- A flag of a word is its field of width one. -/
theorem ofBool_getLsbD_eq_extractLsb' {n : Nat} (w : BitVec n) (k : Nat) :
    BitVec.ofBool (w.getLsbD k) = w.extractLsb' k 1 := by
  ext j hj
  obtain rfl : j = 0 := by omega
  simp

/-- The fields of R21 tile the word: adjacent ones join, from the opcode down to EXT, until they are all of it. -/
@[simp] theorem pack_split (w : IWord) : (Fields.split w).pack = w := by
  simp (disch := rfl) only [Fields.pack, Fields.split, ofBool_getLsbD_eq_extractLsb',
    BitVec.extractLsb'_append_extractLsb'_eq_extractLsb']
  exact BitVec.extractLsb'_eq_self

/-- The encoder gives a word back to the instruction whose fields are the word's. -/
theorem encode_eq_of_fieldsOf {w : IWord} {i : Instr} (h : fieldsOf i = some (Fields.split w)) : encode i = some w := by
  simp [encode, h]

/-- What the decoder checks: an assigned opcode, fields that parse, and an instruction that is well-formed and whose own
fields are all those of the word, the unused ones included. -/
theorem decodeWord_eq_ok_iff {w : IWord} {i : Instr} : decodeWord w = .ok i ↔
    opcodeAssigned (Fields.split w).opc.toNat = true ∧ parse (Fields.split w) = some i ∧ i.WellFormed ∧
      fieldsOf i = some (Fields.split w) := by
  generalize hf : Fields.split w = f
  rw [decodeWord, hf]
  split
  next assigned =>
    split
    next unparsed => simp [unparsed]
    next j parsed =>
      simp only [assigned, parsed, Option.some.injEq, true_and]
      split
      next accepted =>
        have ⟨legal, fields⟩ : j.WellFormed ∧ fieldsOf j = some f := by simpa using accepted
        constructor
        · rintro ⟨⟩
          exact ⟨rfl, legal, fields⟩
        · rintro ⟨rfl, -⟩
          rfl
      next refused =>
        constructor
        · rintro ⟨⟩
        · rintro ⟨rfl, legal, fields⟩
          simp [legal, fields] at refused
  next unassigned => simp [unassigned]

/-- The decoder accepts a word where `decodeWord` gives no reason against it. -/
theorem decode_eq_some_iff {w : IWord} {i : Instr} : decode w = some i ↔ decodeWord w = .ok i := by
  unfold decode
  cases decodeWord w with
  | ok j => simp
  | error r => simp

/-! ## Bytes and words (R5) -/

/-- Byte `k` of a word put below the bits above it gives the bits from the byte's own place up. -/
theorem shiftLeft_or_byte (w : IWord) (k : Nat) :
    (w >>> (8 * (k + 1))) <<< 8 ||| (w.extractLsb' (8 * k) 8).setWidth 96 = w >>> (8 * k) := by
  ext j hj
  by_cases h : j < 8
  · simp [h]
  · have : 8 * (k + 1) + (j - 8) = 8 * k + j := by omega
    simp [h, this]

/-- Folding the `n` lowest bytes of a word below its remaining bits gives the word. -/
theorem foldr_bytes (w : IWord) (n : Nat) :
    ((List.range n).map fun k => w.extractLsb' (8 * k) 8).foldr (fun b (acc : IWord) => (acc <<< 8) ||| b.setWidth 96)
      (w >>> (8 * n)) = w := by
  induction n with
  | zero => simp
  | succ n ih =>
    rw [List.range_succ, List.map_append, List.foldr_append]
    simpa only [List.map_cons, List.map_nil, List.foldr_cons, List.foldr_nil, shiftLeft_or_byte] using ih

@[simp] theorem length_bytesOfWord (w : IWord) : (bytesOfWord w).length = 12 := by simp [bytesOfWord]

@[simp] theorem wordOfBytes_bytesOfWord (w : IWord) : wordOfBytes (bytesOfWord w) = some w := by
  have above : w >>> (8 * 12) = 0#96 := BitVec.ushiftRight_eq_zero (Nat.le_refl 96)
  have fold := foldr_bytes w 12
  rw [above] at fold
  rw [wordOfBytes, if_pos (length_bytesOfWord w), bytesOfWord, fold]

@[simp] theorem decodeBytes_bytesOfWord (w : IWord) : decodeBytes (bytesOfWord w) = decode w := by
  rw [decodeBytes, wordOfBytes_bytesOfWord, Option.bind_some]

/-- The byte at address `k` is the `k`-th digit of the word in base 256. -/
theorem getElem?_bytesOfWord (w : IWord) {k : Nat} (hk : k < 12) :
    (bytesOfWord w)[k]? = some (BitVec.ofNat 8 (w.toNat / 256 ^ k)) := by
  have digit : w.extractLsb' (8 * k) 8 = BitVec.ofNat 8 (w.toNat / 256 ^ k) := by
    rw [BitVec.extractLsb', Nat.shiftRight_eq_div_pow, Nat.pow_mul]
  simp [bytesOfWord, hk, digit]

/-- Settles O2: the decoder accepts a word only where the fields of its instruction are the word's own fields, which make up
the word; and the bytes of a word are its digits in base 256. -/
theorem decodedWordsAreCanonical : Obligations.DecodedWordsAreCanonical := by
  unfold Obligations.DecodedWordsAreCanonical
  refine ⟨fun w i h => ?_, decodeBytes_bytesOfWord, fun w k hk => getElem?_bytesOfWord w hk⟩
  obtain ⟨-, -, legal, fields⟩ := decodeWord_eq_ok_iff.mp (decode_eq_some_iff.mp h)
  exact ⟨legal, encode_eq_of_fieldsOf fields⟩

end Sys2Proof.Encoding
end

section
/-! PROOFS. Rounding and extremes (R56, R58, R59): a value on a format's grid is rounded to itself; comparison is total and
antisymmetric on numbers, and the minimum and maximum follow it. -/

namespace Sys2Proof.Rounding

open Sys2Proof.Machine

/-! ## The parts of a pattern (R56) -/

/-- The value of a sign, an exponent and a mantissa. -/
def valueOf (d : Fmt) (s : Bool) (ex m : Nat) : Fv :=
  if ex = d.top then (if m = 0 then .inf s else .nan)
  else if ex = 0 then .fin s m (d.emin - d.mb)
  else .fin s (2 ^ d.mb + m) (ex - d.bias - d.mb)

theorem decodeF_eq (d : Fmt) (p : Nat) :
    decodeF d p = valueOf d (p / 2 ^ (d.eb + d.mb) % 2 = 1) (p / 2 ^ d.mb % 2 ^ d.eb) (p % 2 ^ d.mb) := rfl

/-- A pattern is joined from its sign, exponent and mantissa. -/
theorem join_parts (d : Fmt) {p : Nat} (hp : p < 2 ^ (1 + d.eb + d.mb)) :
    d.join (p / 2 ^ (d.eb + d.mb) % 2 = 1) (p / 2 ^ d.mb % 2 ^ d.eb) (p % 2 ^ d.mb) = p := by
  have sign : p / 2 ^ (d.eb + d.mb) < 2 := by
    rw [Nat.div_lt_iff_lt_mul (Nat.two_pow_pos _), ← Nat.pow_succ']
    rwa [Nat.add_assoc, Nat.add_comm 1] at hp
  have bit : b2n (p / 2 ^ (d.eb + d.mb) % 2 = 1) = p / 2 ^ (d.eb + d.mb) := by
    obtain h | h := Nat.le_one_iff_eq_zero_or_eq_one.mp (Nat.le_of_lt_succ sign)
    all_goals simp [h, b2n]
  have upper : 2 ^ d.eb * (p / 2 ^ (d.eb + d.mb)) + p / 2 ^ d.mb % 2 ^ d.eb = p / 2 ^ d.mb := by
    rw [Nat.add_comm d.eb, Nat.pow_add, ← Nat.div_div_eq_div_mul, Nat.div_add_mod]
  have place (q : Nat) : q * 2 ^ (d.eb + d.mb) = 2 ^ d.mb * (2 ^ d.eb * q) := by
    rw [Nat.pow_add, Nat.mul_comm q, Nat.mul_comm (2 ^ d.eb), Nat.mul_assoc]
  calc d.join (p / 2 ^ (d.eb + d.mb) % 2 = 1) (p / 2 ^ d.mb % 2 ^ d.eb) (p % 2 ^ d.mb)
      = 2 ^ d.mb * (2 ^ d.eb * (p / 2 ^ (d.eb + d.mb)) + p / 2 ^ d.mb % 2 ^ d.eb) + p % 2 ^ d.mb := by
        rw [Fmt.join, bit, place, Nat.mul_comm _ (2 ^ d.mb), Nat.mul_add]
    _ = p := by rw [upper, Nat.div_add_mod]

/-! ## Values on the grid (R59) -/

theorem shiftRound_zero (rm : Nat) (s : Bool) (n : Nat) : shiftRound rm s n 0 = (n, false) := by simp [shiftRound]

/-- A value whose unit is the grid's own at its magnitude is on the grid, and keeps its integer and unit. -/
theorem gridRound_of_unit {mb n : Nat} {emin e : Int} (rm : Nat) (s : Bool)
    (unit : max (e + Nat.log2 n - mb) (emin - mb) = e) (hn : n ≠ 2 ^ (mb + 1)) :
    ∃ tiny, gridRound mb emin rm s n e = (n, e, false, tiny) := by
  simp only [gridRound, unit, Int.sub_self, shiftRound_zero, if_neg hn]
  exact ⟨_, rfl⟩

/-- A value on the grid, of an exponent below the top one, is rounded to its own parts without a flag. -/
theorem roundFp_of_unit {d : Fmt} {n : Nat} {e : Int} (rm : Nat) (s : Bool) (h0 : n ≠ 0)
    (unit : max (e + Nat.log2 n - d.mb) (d.emin - d.mb) = e) (hn : n ≠ 2 ^ (d.mb + 1)) {ex : Nat}
    (hex : (if n < 2 ^ d.mb then 0 else e + d.mb + d.bias) = ex) (htop : ex < d.top) :
    roundFp d rm (.fin s n e) = (d.join s ex (n % 2 ^ d.mb), 0) := by
  obtain ⟨tiny, grid⟩ := gridRound_of_unit rm s unit hn
  have below : ¬ (ex : Int) ≥ d.top := by omega
  simp [roundFp, h0, grid, hex, below, flagIf]

/-- A subnormal value is rounded to its mantissa. -/
theorem roundFp_subnormal {d : Fmt} {m : Nat} (rm : Nat) (s : Bool) (h0 : m ≠ 0) (hm : m < 2 ^ d.mb) (htop : 0 < d.top) :
    roundFp d rm (.fin s m (d.emin - d.mb)) = (d.join s 0 m, 0) := by
  have hlog : Nat.log2 m < d.mb := (Nat.log2_lt h0).2 hm
  have hn : m ≠ 2 ^ (d.mb + 1) := by rw [Nat.pow_succ]; omega
  rw [roundFp_of_unit rm s h0 (by omega) hn (ex := 0) (by simp [hm]) htop, Nat.mod_eq_of_lt hm]

/-- A normal value is rounded to its exponent and mantissa. -/
theorem roundFp_normal {d : Fmt} {m ex : Nat} (rm : Nat) (s : Bool) (hm : m < 2 ^ d.mb) (h1 : ex ≠ 0) (htop : ex < d.top) :
    roundFp d rm (.fin s (2 ^ d.mb + m) (ex - d.bias - d.mb)) = (d.join s ex m, 0) := by
  have h0 : 2 ^ d.mb + m ≠ 0 := Nat.ne_of_gt (Nat.add_pos_left (Nat.two_pow_pos _) m)
  have hlog : Nat.log2 (2 ^ d.mb + m) = d.mb := by
    rw [Nat.log2_eq_iff h0, Nat.pow_succ]; omega
  have hn : 2 ^ d.mb + m ≠ 2 ^ (d.mb + 1) := by rw [Nat.pow_succ]; omega
  have unit : max ((ex : Int) - d.bias - d.mb + Nat.log2 (2 ^ d.mb + m) - d.mb) (d.emin - d.mb) = ex - d.bias - d.mb := by
    rw [hlog, Fmt.emin]; omega
  have own : (if 2 ^ d.mb + m < 2 ^ d.mb then 0 else (ex : Int) - d.bias - d.mb + d.mb + d.bias) = ex := by
    rw [if_neg (by omega)]; omega
  rw [roundFp_of_unit rm s h0 unit hn own htop, Nat.add_mod_left, Nat.mod_eq_of_lt hm]

/-- The value of a sign, an exponent and a mantissa is rounded to them: an infinity, a zero, a subnormal or a normal value. -/
theorem roundFp_valueOf {d : Fmt} (htop : 0 < d.top) (rm : Nat) (s : Bool) {ex m : Nat} (hex : ex ≤ d.top) (hm : m < 2 ^ d.mb)
    (number : valueOf d s ex m ≠ .nan) : roundFp d rm (valueOf d s ex m) = (d.join s ex m, 0) := by
  unfold valueOf at number ⊢
  by_cases special : ex = d.top
  · have zero : m = 0 := by simpa [special] using number
    simp [special, zero, roundFp, Fmt.inf]
  · rw [if_neg special]
    by_cases low : ex = 0
    · rw [if_pos low, low]
      by_cases zero : m = 0
      · simp [zero, roundFp]
      · exact roundFp_subnormal rm s zero hm htop
    · rw [if_neg low]
      exact roundFp_normal rm s hm low (by omega)

/-- The value of a pattern is rounded to the pattern, in every format with an exponent. -/
theorem roundFp_decodeF {d : Fmt} (htop : 0 < d.top) (rm : Nat) {p : Nat} (hp : p < 2 ^ (1 + d.eb + d.mb))
    (number : decodeF d p ≠ .nan) : roundFp d rm (decodeF d p) = (p, 0) := by
  rw [decodeF_eq] at number ⊢
  rw [roundFp_valueOf htop rm _ (Nat.le_sub_one_of_lt (Nat.mod_lt _ (Nat.two_pow_pos _))) (Nat.mod_lt _ (Nat.two_pow_pos _)) number,
    join_parts d hp]

/-! ## Comparison (R184) -/

/-- The difference of two finite values, the other way round. -/
theorem sumOn_swap (u : Int) (s t : Bool) (n m : Nat) (e d : Int) :
    sumOn u [.fin t m d, .fin (!s) n e] = -sumOn u [.fin s n e, .fin (!t) m d] := by
  simp only [sumOn]
  generalize (n : Int) * 2 ^ (e - u).toNat = x
  generalize (m : Int) * 2 ^ (d - u).toNat = y
  cases s <;> cases t <;> simp only [Bool.not_false, Bool.not_true, Bool.false_eq_true, ↓reduceIte] <;> omega

/-- Two numbers compare, and the other way round with the opposite sign. -/
theorem cmpFv_swap {a b : Fv} (ha : a ≠ .nan) (hb : b ≠ .nan) : ∃ c, cmpFv a b = some c ∧ cmpFv b a = some (-c) := by
  cases a with
  | nan => contradiction
  | inf s =>
    cases b with
    | nan => contradiction
    | inf t => cases s <;> cases t <;> exact ⟨_, rfl, rfl⟩
    | fin t m d => cases s <;> exact ⟨_, rfl, rfl⟩
  | fin s n e =>
    cases b with
    | nan => contradiction
    | inf t => cases t <;> exact ⟨_, rfl, rfl⟩
    | fin t m d =>
      refine ⟨_, rfl, ?_⟩
      simp only [cmpFv, Int.min_comm d e, sumOn_swap _ s t, Int.sign_neg]

theorem cmpFv_self {a : Fv} (ha : a ≠ .nan) : cmpFv a a = some 0 := by
  obtain ⟨c, h, hswap⟩ := cmpFv_swap ha ha
  obtain rfl : c = 0 := by
    have : c = -c := Option.some.inj (h.symm.trans hswap)
    omega
  exact h

/-- Zeros compare as equal, whatever their signs. -/
theorem cmpFv_zeros (s t : Bool) (m n : Int) : cmpFv (.fin s 0 m) (.fin t 0 n) = some 0 := by
  cases s <;> cases t <;> simp [cmpFv, sumOn]

theorem condF_le_of_cmpFv {a b : Fv} {c : Int} (h : cmpFv a b = some c) : condF .le a b = decide (c ≤ 0) := by
  simp [condF, h]

theorem condF_ge_of_cmpFv {a b : Fv} {c : Int} (h : cmpFv a b = some c) : condF .ge a b = decide (c ≥ 0) := by
  simp [condF, h]

theorem cmpFv_nan_left (a : Fv) : cmpFv .nan a = none := by cases a <;> rfl
theorem cmpFv_nan_right (a : Fv) : cmpFv a .nan = none := by cases a <;> rfl

/-! ## Minimum and maximum (R58) -/

theorem minFv_nan_left (a : Fv) : minFv .nan a = a := by simp [minFv, cmpFv_nan_left]
theorem minFv_nan_right (a : Fv) : minFv a .nan = a := by simp +contextual [minFv, cmpFv_nan_right]
theorem maxFv_nan_left (a : Fv) : maxFv .nan a = a := by simp [maxFv, cmpFv_nan_left]
theorem maxFv_nan_right (a : Fv) : maxFv a .nan = a := by simp +contextual [maxFv, cmpFv_nan_right]

/-- The minimum of two values that compare is the first where that is not the greater, or the second where that is not. -/
theorem minFv_cases {a b : Fv} {c : Int} (h : cmpFv a b = some c) :
    (minFv a b = a ∧ c ≤ 0) ∨ (minFv a b = b ∧ 0 ≤ c) := by
  simp only [minFv, h]
  split
  · next zero => split <;> simp [zero]
  · split
    · exact .inl ⟨rfl, by omega⟩
    · exact .inr ⟨rfl, by omega⟩

/-- The maximum of two values that compare is the first where that is not the less, or the second where that is not. -/
theorem maxFv_cases {a b : Fv} {c : Int} (h : cmpFv a b = some c) :
    (maxFv a b = a ∧ 0 ≤ c) ∨ (maxFv a b = b ∧ c ≤ 0) := by
  simp only [maxFv, h]
  split
  · next zero => split <;> simp [zero]
  · split
    · exact .inr ⟨rfl, by omega⟩
    · exact .inl ⟨rfl, by omega⟩

/-- The minimum of two numbers is one of them, and no greater than either. -/
theorem minFv_spec {a b : Fv} (ha : a ≠ .nan) (hb : b ≠ .nan) : (minFv a b = a ∨ minFv a b = b) ∧
    condF .le (minFv a b) a = true ∧ condF .le (minFv a b) b = true := by
  obtain ⟨c, hab, hba⟩ := cmpFv_swap ha hb
  obtain ⟨least, hc⟩ | ⟨least, hc⟩ := minFv_cases hab
  · simp [least, condF_le_of_cmpFv (cmpFv_self ha), condF_le_of_cmpFv hab, hc]
  · simp [least, condF_le_of_cmpFv (cmpFv_self hb), condF_le_of_cmpFv hba, hc]

/-- The maximum of two numbers is one of them, and no less than either. -/
theorem maxFv_spec {a b : Fv} (ha : a ≠ .nan) (hb : b ≠ .nan) : (maxFv a b = a ∨ maxFv a b = b) ∧
    condF .ge (maxFv a b) a = true ∧ condF .ge (maxFv a b) b = true := by
  obtain ⟨c, hab, hba⟩ := cmpFv_swap ha hb
  obtain ⟨greatest, hc⟩ | ⟨greatest, hc⟩ := maxFv_cases hab
  · simp [greatest, condF_ge_of_cmpFv (cmpFv_self ha), condF_ge_of_cmpFv hab, hc]
  · simp [greatest, condF_ge_of_cmpFv (cmpFv_self hb), condF_ge_of_cmpFv hba, hc]

/-- Of two zeros of opposite sign the minimum is −0 and the maximum +0. -/
theorem extremes_of_zeros (m n : Int) :
    minFv (.fin true 0 m) (.fin false 0 n) = .fin true 0 m ∧ minFv (.fin false 0 n) (.fin true 0 m) = .fin true 0 m ∧
      maxFv (.fin true 0 m) (.fin false 0 n) = .fin false 0 n ∧ maxFv (.fin false 0 n) (.fin true 0 m) = .fin false 0 n := by
  simp [minFv, maxFv, cmpFv_zeros]

/-- Settles O14: a pattern's value lies on the grid at its own unit, so no bit is rounded off; and the minimum and maximum
follow a comparison that is total and antisymmetric on numbers. -/
theorem roundingAndExtremes : Obligations.RoundingAndExtremes := by
  unfold Obligations.RoundingAndExtremes
  have htop : ∀ d ∈ [fmt32, fmt16, fmtB16, fmt40], 0 < d.top := by decide
  refine ⟨fun d hd rm p hp number => roundFp_decodeF (htop d hd) rm hp number,
    fun a => ⟨minFv_nan_right a, minFv_nan_left a, maxFv_nan_right a, maxFv_nan_left a⟩,
    fun d rm => ?_, extremes_of_zeros, fun a b ha hb => ?_⟩
  · rw [minFv_nan_left, maxFv_nan_left]
    exact ⟨rfl, rfl⟩
  · obtain ⟨hmin, hminA, hminB⟩ := minFv_spec ha hb
    obtain ⟨hmax, hmaxA, hmaxB⟩ := maxFv_spec ha hb
    exact ⟨hmin, hmax, hminA, hminB, hmaxA, hmaxB⟩

end Sys2Proof.Rounding
end

section
/-! PROOFS. The control word, the window registers, the trap vector and the format registers (R120, R167, R168, R190, R191). -/

namespace Sys2Proof.ControlRegisters

open Sys2Proof.Machine Sys2Proof.Safety Sys2Proof.Laws

/-! ## Reads -/

/-- `TRAP.GETV` that executes reads like other results, the latch left out (R120). -/
theorem trapGetv_next {c : Ctl} {x : Opnd} {s : State} {e : Env} (h : Executes (.trapGetv c x) c s e) :
    exec (.trapGetv c x) s = .next
      (({ ctl := c, dst := x, lat := 4, latch := false, val := fun e _ => e.g4.tvec.setWidth 64 } : LaneForm).after
        (.trapGetv c x) s e) := by
  change execTrapGetv c x s = _
  rw [execTrapGetv, issue_next (regs := [(x, false)]) h rfl rfl]
  simp [LaneForm.after, queued, result_nolatch, done_eq, queueAll_append]

/-- The read instructions come to the state their form gives. -/
theorem read_next {i : Instr} {f : LaneForm} {s : State} {e : Env} (hf : readForm i = some f) (h : Executes i f.ctl s e) :
    exec i s = .next (f.after i s e) := by
  cases i <;> cases hf
  case fctlRd => exact laneOp_next h _ _ _ _ rfl _
  case fmtwRd => exact laneOp_next h _ _ _ _ rfl _
  case trapGetv => exact trapGetv_next h

/-! ## Writes that are made once -/

theorem ite_any {α : Type} (e : Env) (a b : α) : (if e.any then a else b) = if e.guard = 0 then b else a := by
  simp [Env.any]

/-- An instruction that queues one write for the group where its guard holds in some lane, and its flag's fall. -/
theorem writeOnce_next {i : Instr} {c : Ctl} {s : State} {e : Env} (h : Executes i c s e) {regs : List (Opnd × Bool)}
    (hr : regs = operands i) (d : WDest) (v : Env → DWord) :
    issue i c regs noPre (fun e s => s.onGroup e fun g => e.done c 4 (if e.any then addWrite g (e.cyc + 4) d (v e) else g)) s =
      .next (queued (s.advance e i c) e 4 ((if e.guard = 0 then [] else [(d, v e)]) ++ flagWrite c)) := by
  rw [issue_next h hr rfl]
  simp only [ite_any, queued, done_eq, queueAll_append]
  split <;> rfl

/-- The once-writing instructions queue their one write. -/
theorem once_next {i : Instr} {c : Ctl} {d : WDest} {v : Env → DWord} {s : State} {e : Env} (hf : onceForm i = some (c, d, v))
    (h : Executes i c s e) :
    exec i s = .next (queued (s.advance e i c) e 4 ((if e.guard = 0 then [] else [(d, v e)]) ++ flagWrite c)) := by
  cases i <;> cases hf
  all_goals exact writeOnce_next h rfl _ _

/-! ## The format registers of the workgroup -/

@[simp] theorem group_modWg (x : Island) (c p d g : Nat) (f : Wg → Wg) : (x.modWg c p f).group? d g = x.group? d g := by
  by_cases hd : d = c
  · subst hd; simp [Island.group?, Island.modWg]
  · simp [Island.group?, Island.modWg, core_modCore_ne x _ hd]

@[simp] theorem wg_modWg_same (x : Island) (c p : Nat) (f : Wg → Wg) : (x.modWg c p f).wg? c p = (x.wg? c p).map f := by
  simp [Island.wg?, Island.modWg, tget_tmod_same]

/-- The advance of a run leaves the workgroups of its core. -/
theorem wg_advance (s : State) (e : Env) (i : Instr) (c : Ctl) (p : Nat) :
    ((s.advance e i c).isl e.isl).wg? e.core p = (s.isl e.isl).wg? e.core p := by
  simp [State.advance, State.noteClass, Island.wg?]

theorem wg_onGroup (s : State) (e : Env) (f : Group → Group) (p : Nat) :
    ((s.onGroup e f).isl e.isl).wg? e.core p = (s.isl e.isl).wg? e.core p := by
  simp [State.onGroup]

/-- `FMTW` that executes (R190). -/
theorem fmtw_next {c : Ctl} {k : BitVec 3} {z : ZOp} {s : State} {e : Env} (h : Executes (.fmtw c k z) c s e) :
    exec (.fmtw c k z) s = .next (if e.guard = 0 then queued (s.advance e (.fmtw c k z) c) e 4 (flagWrite c)
      else (queued (s.advance e (.fmtw c k z) c) e 4 (flagWrite c)).modIsl e.isl fun x => x.modWg e.core e.g.place fun w =>
        (w.settle e.cyc).addFm (e.cyc + 4) e.gid k.toNat (e.rdZ32 z e.lane0)) := by
  change execFmtw c k z s = _
  rw [execFmtw, issue_next (regs := [zreg z false]) h rfl rfl]
  simp only [ite_any, queued, done_eq]

/-- Settles O15: each form is the shared operation of its arm; a format register's write changes the workgroup and not the
group. That `TRAP.SETV` takes effect, and `TRAP.GETV` samples, 4 cycles after issue is the model's choice (log 14). -/
theorem controlRegisterAccess : Obligations.ControlRegisterAccess := by
  unfold Obligations.ControlRegisterAccess
  refine ⟨fun i f s e => read_next, fun i c d v s e => once_next, fun c k z s e h => ⟨_, fmtw_next h, ?_, fun w hw => ?_⟩⟩
  · split
    · rfl
    · rw [isl_modIsl_same, group_modWg]
  · have kept : ((queued (s.advance e (.fmtw c k z) c) e 4 (flagWrite c)).isl e.isl).wg? e.core e.g.place = some w := by
      rw [queued, wg_onGroup, wg_advance, hw]
    split
    · exact kept
    · rw [isl_modIsl_same, wg_modWg_same, kept, Option.map_some]

end Sys2Proof.ControlRegisters
end

section
/-! PROOFS. Floating-point instructions (R173, R180-R188): the shared operation of an instruction with a result and sticky
flags comes to the state of its form, and the model's functions of a value are those of the forms. -/

namespace Sys2Proof.FloatIssue

open Sys2Proof.Machine Sys2Proof.Safety Sys2Proof.Laws

/-! ## The shared operations -/

theorem raise_eq (e : Env) (lat flags : Nat) (g : Group) :
    e.raise lat flags g = queueAll g (e.cyc + lat) (raiseWrite flags) := by
  unfold Env.raise raiseWrite
  split <;> rfl

/-- A result, the flags that its lanes raise and the fall of the completion flag, as one list of writes. -/
theorem floatWrites_eq (e : Env) (c : Ctl) (lat : Nat) (x : Opnd) (wide : Bool) (v : Nat → DWord) (flags : Nat) (g : Group) :
    e.done c lat (e.raise lat flags (e.result lat x wide true e.guard (fun l => (v l, v l)) g)) =
      queueAll g (e.cyc + lat) (resultWrites x wide true e.guard v ++ raiseWrite flags ++ flagWrite c) := by
  rw [result_eq, raise_eq, done_eq, queueAll_append, queueAll_append]

/-- `exec` runs an instruction as the shared floating operation with the parts of its form: its values are the form's, and the
check that follows the decoding faults is the form's readiness, and answers ILLEGAL. -/
def RunsAs (i : Instr) (f : FpForm) : Prop :=
  ∃ regs pre val, (∀ s, exec i s = fpOp i f.ctl f.lat f.dst f.wide regs pre val s) ∧ (f.dst, f.wide) :: regs = operands i ∧
    f.special = false ∧ (∀ e s, pre e s = if f.ready e then none else some (1, 0)) ∧ ∀ e l, val e l = f.val e l

/-- An instruction that so runs, and whose format registers are valid, comes to the state its form gives. -/
theorem RunsAs.next {i : Instr} {f : FpForm} {s : State} {e : Env} (r : RunsAs i f) (h : Executes i f.ctl s e)
    (ready : f.ready e = true) : exec i s = .next (f.after i s e) := by
  obtain ⟨regs, pre, val, run, hregs, plain, hpre, hval⟩ := r
  obtain rfl : val = f.val := funext fun e => funext (hval e)
  rw [run, fpOp, issue_next h hregs (by rw [hpre, if_pos ready])]
  simp only [FpForm.after, plain, queued, floatWrites_eq]
  cases f.dst <;> rfl

/-- An instruction that its own check refuses with code 1 takes ILLEGAL. -/
theorem issue_illegal {i : Instr} {c : Ctl} {s : State} {e : Env} (h : Executes i c s e) {regs : List (Opnd × Bool)}
    {pre : Env → State → Option (Nat × DWord)} {d : DWord} (hp : pre e s = some (1, d)) (eff : Env → State → State) :
    ∃ info, issue i c regs pre eff s = .next (s.takeDecode e 1 info) := by
  unfold issue
  rw [h.focus]
  simp only [h.env]
  refine ⟨BitVec.ofNat 64 (e.wordHigh ((s.isl e.isl).core e.core) i), ?_⟩
  simp [decodeFault, hp]

/-- With an invalid format register it takes ILLEGAL (R67). -/
theorem RunsAs.illegal {i : Instr} {f : FpForm} {s : State} {e : Env} (r : RunsAs i f) (h : Executes i f.ctl s e)
    (bad : f.ready e = false) : ∃ info, exec i s = .next (s.takeDecode e 1 info) := by
  obtain ⟨regs, pre, val, run, -, -, hpre, -⟩ := r
  rw [run, fpOp]
  exact issue_illegal h (by rw [hpre, bad]; rfl) _

/-! ## Arithmetic (R180-R182) -/

/-- The arithmetic instructions run as their forms: the model rounds the same exact sums and products. -/
theorem arith_runsAs {i : Instr} {f : FpForm} (hf : fpArithForm i = some f) : RunsAs i f ∧ ∀ e, f.ready e = true := by
  cases i <;> cases hf
  all_goals exact ⟨⟨_, noPre, _, fun _ => rfl, rfl, rfl, fun _ _ => rfl, fun _ _ => rfl⟩, fun _ => rfl⟩

/-! ## Comparison, classification and conversion (R183-R187) -/

theorem fromBits_lt (f : Nat → Bool) (n : Nat) : fromBits f n < 2 ^ n := by
  induction n with
  | zero => simp [fromBits]
  | succ n ih => rw [fromBits, Nat.pow_succ]; split <;> omega

theorem testBit_fromBits (f : Nat → Bool) (n i : Nat) : (fromBits f n).testBit i = (decide (i < n) && f i) := by
  induction n with
  | zero => simp [fromBits]
  | succ n ih =>
    have digits : fromBits f (n + 1) = 2 ^ n * (f n).toNat + fromBits f n := by
      rw [fromBits]; cases f n <;> simp [Nat.add_comm]
    rw [digits, Nat.testBit_two_pow_mul_add _ (fromBits_lt f n), ih]
    obtain below | rfl | above := Nat.lt_trichotomy i n
    · simp [below, Nat.lt_succ_of_lt below]
    · cases f i <;> simp
    · have high : (f n).toNat.testBit (i - n) = false :=
        Nat.testBit_lt_two_pow (Nat.lt_of_lt_of_le (Bool.toNat_lt (f n)) (Nat.le_pow (by omega)))
      simp [high, show ¬ i < n by omega, show ¬ i < n + 1 by omega]

theorem getLsbD_bits32 (f : Nat → Bool) (i : Nat) : (bits32 f).getLsbD i = (decide (i < 32) && f i) := by
  rw [bits32, BitVec.getLsbD_ofNat, testBit_fromBits]
  by_cases h : i < 32
  · simp [h, Nat.lt_trans h (show 32 < 64 by decide)]
  · simp [h]

/-- `putBit` changes the one bit. -/
theorem getLsbD_putBit (w : Word) (b : BitVec 5) (v : Bool) {i : Nat} (hi : i < 32) :
    (putBit w b v).getLsbD i = if i = b.toNat then v else w.getLsbD i := by
  have one : (1#32 <<< b.toNat).getLsbD i = decide (i = b.toNat) := by
    rw [← BitVec.twoPow_eq, BitVec.getLsbD_twoPow]
    simp [show b.toNat < 32 from b.isLt, eq_comm]
  cases v
  · rw [putBit, if_neg Bool.false_ne_true, BitVec.getLsbD_and, BitVec.getLsbD_not, one]
    by_cases h : i = b.toNat <;> simp [h, hi]
  · rw [putBit, if_pos rfl, BitVec.getLsbD_or, one]
    by_cases h : i = b.toNat <;> simp [h]

theorem setWidth_putBit (w : Word) (b : BitVec 5) (v : Bool) :
    (putBit w b v).setWidth 64 = bits32 fun i => if i = b.toNat then v else w.getLsbD i := by
  apply BitVec.eq_of_getLsbD_eq
  intro i hi
  rw [BitVec.getLsbD_setWidth, getLsbD_bits32]
  by_cases h : i < 32
  · rw [getLsbD_putBit w b v h]
    simp [h, hi]
  · rw [BitVec.getLsbD_of_ge _ _ (Nat.le_of_not_lt h)]
    simp [h]

/-- To nearest and toward zero, a magnitude is rounded alike for both signs. -/
theorem shiftRound_sign {rm : Nat} (hrm : rm < 2) (s t : Bool) (n : Nat) (sh : Int) :
    shiftRound rm s n sh = shiftRound rm t n sh := by
  obtain rfl | rfl : rm = 0 ∨ rm = 1 := by omega
  all_goals rfl

theorem frndFv_eq {rm : Nat} (hrm : rm < 2) (v : Fv) : frndFv rm v = integral rm v := by
  cases v with
  | nan | inf => rfl
  | fin s n e => simp [frndFv, integral, toIntegral, shiftRound_sign hrm s false]

theorem classBit_eq (d : Fmt) (v : Fv) : classBit d v = classOfFv d v := by
  cases v with
  | nan => rfl
  | inf s => cases s <;> rfl
  | fin s n e => cases s <;> cases n <;> simp [classBit, classOfFv]

theorem fcvtTo_eq (e : Env) (fd : FType) (fm : Nat) (rm : Rmf) (v : Fv) : fcvtTo e fd fm rm v = rounded e fd fm rm v := by
  cases fd <;> rfl

theorem fmPre_eq (f : FType) (k : BitVec 3) (e : Env) : fmPre f k e = !formatFits e f k.toNat := by
  cases f <;> simp [fmPre, formatFits, fNarrow]

/-- `FCVT`'s check is that both format registers fit their types. -/
theorem fcvtCheck_eq (fd fs : FType) (fmd fms : BitVec 3) (e : Env) :
    (if fmPre fd fmd e || fmPre fs fms e then some (1, 0) else none : Option (Nat × DWord)) =
      if formatFits e fd fmd.toNat && formatFits e fs fms.toNat then none else some (1, 0) := by
  rw [fmPre_eq, fmPre_eq]
  cases formatFits e fd fmd.toNat <;> cases formatFits e fs fms.toNat <;> rfl

/-- Where the form of an instruction rounds a negative value as the instruction does: `FRND` to nearest or toward zero, and every
other instruction. -/
def SignBlind (i : Instr) : Prop := ∀ c t rm x y, i = .frnd c t rm x y → rm = .rne ∨ rm = .rtz

/-- Comparison, classification, rounding and conversion run as their forms. -/
theorem other_runsAs {i : Instr} {f : FpForm} (hf : fpOtherForm i = some f) (blind : SignBlind i) : RunsAs i f := by
  cases i <;> cases hf
  case fset => exact ⟨_, noPre, _, fun _ => rfl, rfl, rfl, fun _ _ => rfl, fun _ _ => rfl⟩
  case fcmpp => exact ⟨_, noPre, _, fun _ => rfl, rfl, rfl, fun _ _ => rfl, fun _ _ => congrArg (·, 0) (setWidth_putBit _ _ _)⟩
  case frnd c t rm x y =>
    have hrm (e : Env) : e.rm rm < 2 := by obtain rfl | rfl := blind c t rm x y rfl <;> simp [Env.rm]
    exact ⟨_, noPre, _, fun _ => rfl, rfl, rfl, fun _ _ => rfl, fun e l => by rw [frndFv_eq (hrm e)]; rfl⟩
  case fclass c t x y =>
    exact ⟨_, noPre, _, fun _ => rfl, rfl, rfl, fun _ _ => rfl, fun e l => by rw [classBit_eq]; rfl⟩
  case fcvt c fd fs rm hi fmd fms x y z =>
    refine ⟨_, _, _, fun _ => rfl, rfl, rfl, fun e _ => fcvtCheck_eq fd fs fmd fms e, fun e l => ?_⟩
    simp only [fcvtTo_eq]
    cases z with
    | none => rfl
    | some o => exact congrArg (Prod.mk _) (Nat.or_comm _ _)
  case fcvti => exact ⟨_, noPre, _, fun _ => rfl, rfl, rfl, fun _ _ => rfl, fun _ _ => rfl⟩
  case icvtf => exact ⟨_, noPre, _, fun _ => rfl, rfl, rfl, fun _ _ => rfl, fun _ _ => rfl⟩

/-! ## Special functions (R173, R188) -/

/-- A special function that executes comes to the state its form gives. -/
theorem specialOp_next {i : Instr} {c : Ctl} {x y : Opnd} {s : State} {e : Env} (fn : Sfn) (t : FType)
    (hr : [(x, false), (y, false)] = operands i) {f : FpForm} (hf : specialForm.sf c t x y fn = some f)
    (h : Executes i f.ctl s e) : specialOp i c fn t x y s = .next (f.after i s e) := by
  cases hf
  rw [specialOp, issue_next h hr rfl]
  simp only [FpForm.after, queued, floatWrites_eq, pipeTaken]
  cases x <;> rfl

theorem special_next {i : Instr} {f : FpForm} {s : State} {e : Env} (hf : specialForm i = some f) (h : Executes i f.ctl s e) :
    exec i s = .next (f.after i s e) := by
  cases i <;> cases hf
  all_goals exact specialOp_next _ _ rfl rfl h

/-- What of O13 holds: all of it but `FRND` by a mode that is directed or may be. -/
theorem floatInstructions_of_signBlind :
    (∀ (i : Instr) (f : FpForm) (s : State) (e : Env), fpArithForm i = some f → Executes i f.ctl s e →
      exec i s = .next (f.after i s e)) ∧
    (∀ (i : Instr) (f : FpForm) (s : State) (e : Env), fpOtherForm i = some f → SignBlind i → Executes i f.ctl s e →
      (f.ready e = true → exec i s = .next (f.after i s e)) ∧
      (f.ready e = false → ∃ info, exec i s = .next (s.takeDecode e 1 info))) ∧
    (∀ (i : Instr) (f : FpForm) (s : State) (e : Env), specialForm i = some f → Executes i f.ctl s e →
      exec i s = .next (f.after i s e)) := by
  refine ⟨fun i f s e hf h => ?_, fun i f s e hf blind h => ?_, fun i f s e => special_next⟩
  · obtain ⟨runs, ready⟩ := arith_runsAs hf
    exact runs.next h (ready e)
  · exact ⟨(other_runsAs hf blind).next h, (other_runsAs hf blind).illegal h⟩

/-! ## `FRND` of −0.5 toward +∞ (R59, R183) -/

/-- A word without a guard, a flag or a hint. -/
def plainCtl : Ctl := ⟨false, false, 0, 0, 0, 0, 15, false⟩

/-- `FRND.f32.rup s0, −0.5`: the immediate is the high ten bits of the number (R178). -/
def frndHalf : Instr := .frnd plainCtl .f32 .rup (.s 0) (.imm 0x2FC)

/-- The machine at that instruction, and what its group sees. -/
def atFrndHalf : State := { State.reset.placeWord ((encode frndHalf).getD 0) with focus := .group 0 0 0 }
def frndEnv : Env := (atFrndHalf.env? 0 0 0 plainCtl).getD {}

theorem frndHalf_executes : Executes frndHalf plainCtl atFrndHalf frndEnv where
  focus := rfl
  env := rfl
  ctl := rfl
  legal := by decide
  priv := by decide
  role := by decide
  guard := by decide
  regs := by decide +kernel

/-- The values of the writes that the group has queued after an outcome. -/
def queuedValues : Host.Outcome State Fault Refusal → List DWord
  | .next t => (((t.isl 0).group? 0 0).map fun g => g.pend.map (·.val)).getD []
  | _ => []

/-- The machine rounds −0.5 up to −0 (R59, R183). -/
theorem frndHalf_rounds_up : queuedValues (exec frndHalf atFrndHalf) = [0x80000000] := by decide +kernel

/-- Refutes O13: the form of `FRND` rounds the magnitude of a value as if it were positive and then puts the sign back, so by a
directed mode it takes a negative value the wrong way. Of −0.5 toward +∞ it gives −1, where R183 and the machine give −0. -/
theorem not_floatInstructions : ¬ Obligations.FloatInstructions := by
  unfold Obligations.FloatInstructions
  rintro ⟨-, other, -⟩
  have form := (other frndHalf _ atFrndHalf frndEnv rfl frndHalf_executes).1 rfl
  have values := congrArg queuedValues form
  rw [frndHalf_rounds_up] at values
  exact absurd values (by decide)

end Sys2Proof.FloatIssue
end
